-- ==== Sys2Proof/Word.lean ====
section
/-! DEFINITION. The byte and the 32-bit word of the register window and of host memory (00 Numbers and ranges). -/

namespace Sys2Proof

/-- A byte of host memory or of a page. -/
abbrev Byte := BitVec 8

/-- A word of 4 bytes: a register, a word of a host structure, a host address. -/
abbrev Word := BitVec 32

end Sys2Proof
end

