-- ==== Sys2Proof/Config.lean ====
section
/-! DEFINITION. What the part fixes: its geometry and its constants. No free value stands here: every value the
manual leaves open is an operand of the command at whose event it arises (log 4). -/

namespace Sys2Proof.Config

/-- Bands of the part, blocks of a lane (00 Geometry). -/
def bands : Nat := 1024

/-- Rows of a band, pages of a block (00 Geometry). -/
def rows : Nat := 64

/-- Data bytes of a page (00 Geometry). -/
def pageBytes : Nat := 2048

/-- Words of the data bytes of a page. -/
def pageWords : Nat := 512

/-- Data bytes of a sector (1.1). -/
def sectorBytes : Nat := 512

/-- Most bit errors that a sector's code corrects (R3). -/
def correctable : Nat := 8

/-- Weak threshold while no configuration is applied (R4). -/
def defaultWeak : Nat := 8

/-- Words of the staging FIFO (R149). -/
def fifoWords : Nat := 16

/-- Most descriptors one chain walk reads (R152). -/
def walkLimit : Nat := 4096

/-- Addresses the sheet queue holds (R68). -/
def queueDepth : Nat := 2

/-- Most orders of a sheet (R71). -/
def sheetOrders : Nat := 32

/-- Bands of a freeze group (R144). -/
def groupBands : Nat := 16

/-- The ID register: part code 0x5E06, revision 0x0001 (R188). -/
def idValue : Word := 0x5E060001#32

/-- Top of the host address space, 2^32 (R151). -/
def addressTop : Nat := 4294967296

/-- How many messages and reactions one step may run through besides those of its backlog (log 2). -/
def reactionFuel : Nat := 1048576

/-- How many messages and reactions each piece of the backlog may cost in one step (log 2). -/
def reactionsPerWork : Nat := 65536

end Sys2Proof.Config
end

