-- ==== Sys2Proof/Syntax.lean ====
section
/-! DEFINITION. The commands of the part: one constructor per row of spec/opcode_table.json, and the operands they
carry. An operand is either the host's value (an address, a register value), the lane the step happens on, or what the
world outside the logic decides at that event (log 4). -/

namespace Sys2Proof

/-- The six lanes, L0 to L5 (00 Geometry). -/
inductive Lane where
  | l0 | l1 | l2 | l3 | l4 | l5
  deriving DecidableEq, Repr

/-- The protection level of a band, 0 to 2 (R45). -/
abbrev Level := Fin 3

/-- The part a page plays in its row (R2): a data index, P or Q. -/
inductive Role where
  | data (index : Nat)
  | p
  | q
  deriving DecidableEq, Repr

/-- How the page tag shows at a read (R2, R4). -/
inductive TagSeen where
  /-- as it was stored -/
  | intact
  /-- with bit errors, which the tag check catches -/
  | damaged
  /-- on a page of no known content: a tag that passes its check and names this identity -/
  | shows (band row : Nat) (level : Level) (role : Role)
  deriving DecidableEq, Repr

/-- What the array shows at the end of a page read (R3, R4): the outside's choice. -/
structure ArrayRead where
  /-- every one of the 2048 data bytes and 64 spare bytes reads as ones -/
  allOnes : Bool
  /-- bit errors of sectors 0 to 3 -/
  errors : List Nat
  /-- the 2048 bytes as read, used where a sector is not corrected and where the content is not known -/
  asRead : List Byte
  tag : TagSeen
  deriving DecidableEq, Repr

/-- What a cut leaves behind (R18, R87, R148, R149). -/
structure Cut where
  /-- how many leading words of the burst in progress stand in host memory -/
  words : Nat
  /-- whether a fuse write cut by loss of supply set its bit -/
  fuseSet : Bool
  /-- the lanes whose page move had ended the read of its source, with what that read saw -/
  moves : List (Lane × ArrayRead)
  deriving DecidableEq, Repr

/-- The bus partner's answer to an access of the part (R161), with the host's own stores to shared memory since the
part last looked (log 3). -/
structure BusReply where
  /-- word address and value of each store the host made -/
  stores : List (Word × Word)
  /-- index of the first beat that failed, or none -/
  error : Option Nat
  /-- for a failed write, whether each beat's word stands in memory -/
  landed : List Bool
  deriving DecidableEq, Repr

/-- The commands: the rows of spec/opcode_table.json, in its order. -/
inductive Instr where
  | powerOn (lockEn warn inhibit : Bool) (cut : Cut)
  | resetNAsserted (cut : Cut)
  | resetNWithdrawn
  | softReset (cut : Cut)
  | pwrWarnAsserted
  | pwrWarnWithdrawn
  | writeInhibitAsserted
  | writeInhibitWithdrawn
  | post (address : Word)
  | apply
  | hold
  | resume
  | abort
  | standby
  | wake
  | reportClear
  | eventsWrite (value : Word)
  | eventEnableWrite (value : Word)
  /-- a write of `bytes` bytes (4 for a word) at `offset` of the window; `cut` counts when it gives a soft reset (R189) -/
  | registerWrite (offset bytes : Nat) (value : Word) (cut : Cut)
  | patrolTimerExpiry
  | fuseRowLoad
  | tableLoad (checkAgrees : Bool)
  | cacheLoad (lane : Lane)
  | cacheCommit (lane : Lane)
  | cacheDiscard (lane : Lane)
  | cacheUnload (lane : Lane)
  | pageRead (lane : Lane)
  | pageMove (lane : Lane)
  | blockErase (lane : Lane)
  | powerDown (lane : Lane)
  | powerUp (lane : Lane)
  | resultQuery (lane : Lane)
  | programEnd (lane : Lane) (pass : Bool)
  | readEnd (lane : Lane) (seen : ArrayRead)
  | transferEnd (lane : Lane)
  | moveEnd (lane : Lane) (seen : ArrayRead) (pass : Bool)
  | blockEraseEnd (lane : Lane) (pass : Bool)
  | powerUpEnd (lane : Lane)
  | beginWriteRow
  | stagingWordTaken
  | pageHanded
  | beginReadRow
  | wordHanded
  | commitStart
  | commitEnd (pass : Bool)
  | sheetActivation
  | headerReadEnd (reply : BusReply)
  | orderStart
  | entryReadEnd (reply : BusReply)
  | resultWriteEnd (reply : BusReply)
  | completionWriteEnd (reply : BusReply)
  | rowGo
  | descriptorReadEnd (reply : BusReply)
  | burstStart
  | burstEnd (reply : BusReply)
  | configReadEnd (reply : BusReply)
  | fuseWriteEnd
  | patrolVisit
  | reportWriteEnd (reply : BusReply)
  | lossOfSupply (cut : Cut)
  deriving DecidableEq, Repr

end Sys2Proof
end

