-- ==== Sys2Proof/WellFormed.lean ====
section
/-! DEFINITION. When a command is well formed: its operands stand in the ranges the manual gives them. The machine has
a meaning for ill-formed commands too; the check names those the outside cannot give. -/

namespace Sys2Proof

/-- A read shows four sector counts and 2048 bytes (R3, R4), and a shown tag names a page that exists (R1). -/
def ArrayRead.wf (r : ArrayRead) : Bool :=
  r.errors.length == 4 && r.asRead.length == Config.pageBytes &&
    match r.tag with
    | .intact => true
    | .damaged => true
    | .shows band row _ _ => decide (band < Config.bands) && decide (row < Config.rows)

/-- A cut burst has at most 16 words, and a move that was cut had read its source once (R18, R149, R157). -/
def Cut.wf (c : Cut) : Bool :=
  decide (c.words ≤ 16) && c.moves.all (fun m => m.2.wf) && decide ((c.moves.map (·.1)).Nodup)

/-- The host stores whole aligned words, and the failing beat is one of the access's `beats` (R161). -/
def BusReply.wf (beats : Nat) (r : BusReply) : Bool :=
  r.stores.all (fun st => st.1.toNat % 4 == 0) &&
    match r.error with
    | none => true
    | some b => decide (b < beats)

/-- The row REGISTER_WRITE is any register write that is not a row of its own: not a whole-word write to POST, EVENTS
or EVENT_ENABLE, and not a CONTROL write that gives one command or a reset (R188, R189). -/
def Instr.otherRegisterWrite (offset bytes : Nat) (value : Word) : Bool :=
  !(bytes == 4 &&
    (offset == 0x08 || offset == 0x10 || offset == 0x14 ||
      (offset == 0x0C && (value.getLsbD 31 ||
        ((List.range 7).filter (fun i => value.getLsbD i)).length == 1))))

/-- A command whose operands are in range. -/
def Instr.wf : Instr → Bool
  | .powerOn _ _ _ cut => cut.wf
  | .resetNAsserted cut => cut.wf
  | .resetNWithdrawn => true
  | .softReset cut => cut.wf
  | .pwrWarnAsserted => true
  | .pwrWarnWithdrawn => true
  | .writeInhibitAsserted => true
  | .writeInhibitWithdrawn => true
  | .post _ => true
  | .apply => true
  | .hold => true
  | .resume => true
  | .abort => true
  | .standby => true
  | .wake => true
  | .reportClear => true
  | .eventsWrite _ => true
  | .eventEnableWrite _ => true
  | .registerWrite offset bytes value cut =>
      (bytes == 1 || bytes == 2 || bytes == 4) && offset % bytes == 0 && Instr.otherRegisterWrite offset bytes value && cut.wf
  | .patrolTimerExpiry => true
  | .fuseRowLoad => true
  | .tableLoad _ => true
  | .cacheLoad _ => true
  | .cacheCommit _ => true
  | .cacheDiscard _ => true
  | .cacheUnload _ => true
  | .pageRead _ => true
  | .pageMove _ => true
  | .blockErase _ => true
  | .powerDown _ => true
  | .powerUp _ => true
  | .resultQuery _ => true
  | .programEnd _ _ => true
  | .readEnd _ seen => seen.wf
  | .transferEnd _ => true
  | .moveEnd _ seen _ => seen.wf
  | .blockEraseEnd _ _ => true
  | .powerUpEnd _ => true
  | .beginWriteRow => true
  | .stagingWordTaken => true
  | .pageHanded => true
  | .beginReadRow => true
  | .wordHanded => true
  | .commitStart => true
  | .commitEnd _ => true
  | .sheetActivation => true
  | .headerReadEnd r => r.wf 1
  | .orderStart => true
  | .entryReadEnd r => r.wf 1
  | .resultWriteEnd r => r.wf 1
  | .completionWriteEnd r => r.wf 1
  | .rowGo => true
  | .descriptorReadEnd r => r.wf 4
  | .burstStart => true
  | .burstEnd r => r.wf 16
  | .configReadEnd r => r.wf 1
  | .fuseWriteEnd => true
  | .patrolVisit => true
  | .reportWriteEnd r => r.wf 4
  | .lossOfSupply cut => cut.wf

end Sys2Proof
end

