-- ==== Sys2Proof/Machine/State.lean ====
section
/-! DEFINITION. The state of the part, block by block, as plain data; its value after reset; the reasons a step can
stop. Every field names the rule that gives it. -/

namespace Sys2Proof.Machine

/-- One thing for each of the six lanes. -/
structure Six (α : Type) where
  l0 : α
  l1 : α
  l2 : α
  l3 : α
  l4 : α
  l5 : α
  deriving DecidableEq, Repr

/-- Sparse data by key, in one canonical form: keys strictly rising, no entry equal to what an unlisted key reads as
(`Sparse.wf` of Ops.lean). -/
abbrev Sparse (α : Type) := List (Nat × α)

/-! ## Pages and lanes (chapter 1) -/

/-- The page tag (R2). The check is held as its exclusive-or with the value the lane's fixed function gives for the
other fields: 0 when the tag passes its check (log 9). -/
structure PageTag where
  band : Nat
  row : Nat
  level : Level
  role : Role
  checkDelta : BitVec 16
  deriving DecidableEq, Repr

/-- What the array holds in a page (R1). -/
inductive Page where
  | erased
  | programmed (tag : PageTag) (data : List Byte)
  | indeterminate
  deriving DecidableEq, Repr

/-- The identity a page request carries (R8, R12). -/
structure PageId where
  band : Nat
  row : Nat
  level : Level
  deriving DecidableEq, Repr

/-- The five page classes, in the order they are tried (R4). -/
inductive PageClass where
  | erased | uncorrectable | tagMismatch | weak | good
  deriving DecidableEq, Repr

/-- The page outcome: class and highest corrected count (R4). -/
structure PageOutcome where
  cls : PageClass
  highest : Nat
  deriving DecidableEq, Repr

/-- Condition of a page in the cache register (1.2). -/
inductive CacheCond where
  | loaded | armed | held | read
  deriving DecidableEq, Repr

/-- A page in the cache register (1.2); a READ page carries its outcome. -/
structure CachePage where
  data : List Byte
  id : PageId
  cond : CacheCond
  outcome : Option PageOutcome
  deriving DecidableEq, Repr

/-- What a lane is doing, with the contents of its data register (1.2, R5). The lane state and the data register are
read off it (`LaneCtl.state`, `LaneCtl.dataRegister`). -/
inductive Activity where
  | idle
  | program (id : PageId) (data : List Byte)
  | reading (id : PageId)
  | awaiting (id : PageId) (data : List Byte) (outcome : PageOutcome)
  | transfer (id : PageId) (data : List Byte) (outcome : PageOutcome)
  | move (source : PageId) (targetBand targetRow : Nat)
  | erase (band : Nat)
  | poweringUp
  | off
  deriving DecidableEq, Repr

/-- The four lane states (1.2). -/
inductive LaneState where
  | idle | arrayBusy | cacheBusy | off
  deriving DecidableEq, Repr

/-- The requests that pass through a lane's port (1.2 to 1.6). -/
inductive LaneReq where
  | cacheLoad (id : PageId) (data : List Byte)
  | cacheCommit
  | cacheDiscard
  | cacheUnload
  | pageRead (id : PageId)
  | pageMove (source : PageId) (targetBand targetRow : Nat)
  | blockErase (band : Nat)
  | powerDown
  | powerUp
  deriving DecidableEq, Repr

/-- The two givers that share a port (R6). -/
inductive PortGiver where
  | coder | owner
  deriving DecidableEq, Repr

/-- The kinds of array operation (R7). -/
inductive OpKind where
  | program | read | move | erase
  deriving DecidableEq, Repr

/-- The outcomes of array operations (R7). -/
inductive OpOutcome where
  | pass | fail | sourceBad
  | seen (cls : PageClass)
  deriving DecidableEq, Repr

/-- The last operation of a result record (R7). -/
structure LastOp where
  kind : OpKind
  band : Nat
  row : Nat
  outcome : OpOutcome
  deriving DecidableEq, Repr

/-- One lane controller (1.2). `waiting` are requests of the owner not yet in the port, oldest first (R6). -/
structure LaneCtl where
  cache : Option CachePage
  activity : Activity
  port : Option (PortGiver × LaneReq)
  waiting : List LaneReq
  lastOp : Option LastOp
  prevFailed : Bool
  deriving DecidableEq, Repr

/-- What RESULT QUERY returns (R7). -/
structure LaneAnswer where
  lane : Lane
  state : LaneState
  portHolds : Bool
  cache : Option CacheCond
  lastOp : Option LastOp
  prevFailed : Bool
  deriving DecidableEq, Repr

/-- An end report (R7): the result record's four values and, for a read or a move, the page outcome. -/
structure EndReport where
  op : LastOp
  outcome : Option PageOutcome
  deriving DecidableEq, Repr

/-! ## Band table and table store (chapter 2) -/

/-- The seven band states (R20). -/
inductive BandState where
  | unused | erasing | blank | opened | sealed | failed | retired
  deriving DecidableEq, Repr

/-- A lost list entry (R21). -/
structure LostEntry where
  lane : Lane
  fromRow : Nat
  deriving DecidableEq, Repr

/-- A band record (R20). -/
structure BandRecord where
  state : BandState
  level : Level
  nextRow : Nat
  lost : List LostEntry
  voids : List Nat
  attention : Bool
  deriving DecidableEq, Repr

/-- The updates to the working table (R26). -/
inductive Update where
  | eraseStart (band : Nat) (level : Level)
  | eraseEnd (band : Nat) (pass : Bool)
  | openBand (band : Nat)
  | rowComplete (band row : Nat)
  | programFail (band : Nat) (lane : Lane) (row : Nat)
  | sealBand (band : Nat)
  | rowFound (band row : Nat)
  | rowTorn (band row : Nat)
  | setAttention (band : Nat)
  | clearAttention (band : Nat)
  deriving DecidableEq, Repr

/-- The blocks that give updates, ask permits and wait for commits (R26, R38, R39). -/
inductive Client where
  | writer | reader | services | patrol | scan | mode
  deriving DecidableEq, Repr

/-- An update held at the clean-marker gate, or on its way to the table (R26, R39). -/
structure HeldUpdate where
  client : Client
  update : Update
  notice : Bool
  deriving DecidableEq, Repr

/-- What a wait for notice is for (R26, R38, R147, R169). -/
inductive NoticeFor where
  | eraseStart | eraseEnd | opened | lost | sealed | commitEnd
  deriving DecidableEq, Repr

/-- A giver waiting for notice; `covered` once a commit has started after its update was applied (R36). -/
structure Waiter where
  client : Client
  what : NoticeFor
  covered : Bool
  deriving DecidableEq, Repr

/-- A commit in flight with the records it took (R35). A clean commit takes the whole table. -/
structure CommitRun where
  clean : Bool
  records : Sparse BandRecord
  deriving DecidableEq, Repr

/-- The band table and the table store controller (R20, R34, R35, R39, R40). -/
structure Table where
  working : Sparse BandRecord
  stored : Sparse BandRecord
  marker : Bool
  /-- stored check value, as its difference from the value computed over the store (log 9) -/
  checkDelta : Nat
  /-- a load whose check agreed has ended since the last reset (R39, R41) -/
  loaded : Bool
  dirty : List Nat
  commit : Option CommitRun
  plainReq : Bool
  cleanReq : Bool
  storeFault : Bool
  heldUpdates : List HeldUpdate
  heldPermits : List Client
  waiters : List Waiter
  deriving DecidableEq, Repr

/-! ## Protection unit (chapter 7) -/

/-- An unlock range (R137). -/
structure UnlockRange where
  low : Nat
  high : Nat
  invert : Bool
  deriving DecidableEq, Repr

/-- The protection unit (R137): the lock picture, the inhibit level (true is ASSERTED), the nonvolatile fuse row and
its working copy, and the group whose fuse is being written. -/
structure Protection where
  lockEnable : Bool
  lockAll : Bool
  range : Option UnlockRange
  tight : Bool
  inhibit : Bool
  fuses : BitVec 64
  working : BitVec 64
  fuseWrite : Option Nat
  deriving DecidableEq, Repr

/-! ## Stripe coder (chapter 3) -/

/-- Who owns the coder (R48). -/
inductive CoderOwner where
  | writer | reader | patrol
  deriving DecidableEq, Repr

/-- What a read row is for (R53). -/
inductive Purpose where
  | deliver | copy | check
  deriving DecidableEq, Repr

/-- A page being handed to a lane (R50). `behind` when a request of the lane's owner, given earlier, waits for the
port (R6). -/
structure Handing where
  lane : Lane
  data : List Byte
  behind : Bool
  deriving DecidableEq, Repr

/-- The write assembly (R47, R49). Pages are finished in lane order: data pages 0 to k-1, then P, then Q; `index` is
the lane number of the page being filled or handed. -/
structure WriteAsm where
  band : Nat
  row : Nat
  level : Level
  loadSet : List Lane
  index : Nat
  received : List Byte
  p : List Byte
  q : List Byte
  handing : Option Handing
  loaded : List Lane
  deriving DecidableEq, Repr

/-- A BEGIN WRITE ROW or BEGIN READ ROW not yet taken (R49, R53); `lanes` is the load set or the expected set. -/
structure RowBegin where
  band : Nat
  row : Nat
  level : Level
  purpose : Purpose
  lanes : List Lane
  deriving DecidableEq, Repr

/-- What the read assembly holds for one lane (R47). -/
inductive Slot where
  | notExpected
  | awaited
  | outcomeOnly (outcome : PageOutcome)
  | held (data : List Byte) (outcome : PageOutcome)
  deriving DecidableEq, Repr

/-- Why a page is missing (R52). -/
inductive Cause where
  | absent | uncorrectable | tag | erased
  deriving DecidableEq, Repr

/-- The verdicts of R54. -/
inductive Verdict where
  | recoverable | needPages | unrecoverable
  deriving DecidableEq, Repr

/-- A missing page of a row report (R54). -/
structure MissingPage where
  lane : Lane
  role : Role
  cause : Cause
  deriving DecidableEq, Repr

/-- The row report (R54); `outcomes` gives the class and count of each page whose outcome the coder holds. -/
structure RowReport where
  verdict : Verdict
  missing : List MissingPage
  rebuilt : Nat
  weak : Nat
  outcomes : List (Lane × PageOutcome)
  deriving DecidableEq, Repr

/-- One parity page compared by a check (R61). -/
structure ParityCompared where
  lane : Lane
  role : Role
  matched : Bool
  deriving DecidableEq, Repr

/-- The read assembly (R47, R53). `handed` counts the words handed to the mover (R57); `toHand`, `handing` and
`loaded` are the target pages of a copy (R58), `target` its target band and row. -/
structure ReadAsm where
  band : Nat
  row : Nat
  level : Level
  purpose : Purpose
  expected : List Lane
  slots : Six Slot
  handed : Nat
  target : Nat × Nat
  toHand : List (Lane × List Byte)
  handing : Option Handing
  loaded : List Lane
  deriving DecidableEq, Repr

/-- Patch bytes kept in the rebuild workspace (R128). -/
structure PatchBytes where
  index : Nat
  offset : Nat
  bytes : List Byte
  deriving DecidableEq, Repr

/-- The rebuild workspace (R47): rebuilt data pages with their indexes, P' and Q', regenerated parity pages. -/
structure Workspace where
  pages : List (Nat × List Byte)
  pPrime : List Byte
  qPrime : List Byte
  parity : List (Role × List Byte)
  deriving DecidableEq, Repr

/-- The stripe coder (R47). -/
structure Coder where
  owner : Option CoderOwner
  claim : Option CoderOwner
  beginWrite : Option RowBegin
  beginRead : Option RowBegin
  write : Option WriteAsm
  read : Option ReadAsm
  workspace : Option Workspace
  patch : Option PatchBytes
  verdict : Option RowReport
  deriving DecidableEq, Repr

/-! ## Sheets and orders (chapter 4) -/

/-- The ten order kinds (R64). -/
inductive OrderKind where
  | writeRows | readRows | copyRows | eraseBand | sealBand | queryBands | setUnlockRange | lockAll | lockTight
  | freezeGroup
  deriving DecidableEq, Repr

/-- The order words of an entry, as fields (R64, R194). -/
structure Order where
  kind : OrderKind
  atNext : Bool
  fill : Bool
  clearAttention : Bool
  band : Nat
  startRow : Nat
  count : Nat
  chain : Word
  aux1 : Word
  aux2 : Word
  deriving DecidableEq, Repr

/-- The order statuses (11.5). -/
inductive OrderStatus where
  | ok | okRebuilt | aborted | interrupted | skipped
  | badKind | badBand | badRow | badCount | badRange | bandState | levelMismatch | protected_ | frozen | lockDisabled
  | lockTight | storeFault
  | fragment | shortChain | busError
  | programFail | eraseFail | dataLoss | voidRow
  deriving DecidableEq, Repr

/-- An order's result (R65). -/
structure OrderResult where
  status : OrderStatus
  rowsDone : Nat
  pagesRebuilt : Nat
  weakSeen : Nat
  deriving DecidableEq, Repr

/-- The ending of a sheet (R69). -/
inductive Ending where
  | normal | aborted | interrupted
  deriving DecidableEq, Repr

/-- The stop states (R69). -/
inductive StopState where
  | none | hold | abort | drain
  deriving DecidableEq, Repr

/-- What is known of the header of a sheet in hand (R70, R71). -/
inductive HeaderState where
  | unread | accepted | refused
  deriving DecidableEq, Repr

/-- The active sheet (R69), and likewise the sheet of the closing list in hand (R82). -/
structure SheetRun where
  address : Word
  header : HeaderState
  count : Nat
  notify : Bool
  haltOnError : Bool
  index : Nat
  ok : Nat
  failed : Nat
  skipped : Nat
  halted : Bool
  ending : Ending
  deriving DecidableEq, Repr

/-- The sheet access in progress (R69). It is made of single-beat word accesses, one after another (R160): `got` are the
words read so far, `done` the words written so far (R65: word 2, then word 1). -/
inductive SheetAccess where
  | header (got : List Word)
  | entry (got : List Word)
  | result (value : OrderResult) (done : Nat)
  | completion (word : Word)
  deriving DecidableEq, Repr

/-- The order in progress (R69). -/
structure OrderInProgress where
  kind : OrderKind
  index : Nat
  deriving DecidableEq, Repr

/-- The sheet processor (R69). The access in progress is the active sheet's, or, when none is active, that of the
closing sheet in hand. -/
structure Sheets where
  queue : List Word
  active : Option SheetRun
  order : Option OrderInProgress
  questionHeld : Bool
  stop : StopState
  closing : List (Word × Ending)
  closer : Option SheetRun
  access : Option SheetAccess
  deriving DecidableEq, Repr

/-! ## Row writer (chapter 5) -/

/-- Conditions of a row in flight (R88). -/
inductive FlightCond where
  | assembling | loaded | committed | discarding
  deriving DecidableEq, Repr

/-- A row in flight (R88); `failed` are the lanes whose program of this row failed, `permitAsked` while its store
permit is awaited (R95). -/
structure Flight where
  row : Nat
  cond : FlightCond
  loadSet : List Lane
  loaded : List Lane
  committed : List Lane
  awaited : List Lane
  failed : List Lane
  permitAsked : Bool
  deriving DecidableEq, Repr

/-- The row writer's context (R88). `go`: GO was answered and the row waits at the steps of R92; `stopped`: the STOP
answered; `ended`, `flushed`: END given to the mover, FLUSHED taken. -/
structure Writer where
  order : Option Order
  band : Nat
  level : Level
  nextRow : Nat
  toBegin : Nat
  flights : List Flight
  lanesFailed : List Lane
  bytesNeeded : Nat
  rowsDone : Nat
  openWait : Bool
  lostWaits : Nat
  failing : Option Nat
  ending : Option OrderStatus
  go : Bool
  stopped : Option OrderStatus
  ended : Bool
  flushed : Bool
  deriving DecidableEq, Repr

/-! ## Row reader (chapter 6) -/

/-- A row of READ ROWS in flight (R109); `judged` once it is being handed. -/
structure ReadFlight where
  row : Nat
  judged : Bool
  expected : List Lane
  deriving DecidableEq, Repr

/-- The lane classes of a copy row (R122). -/
inductive PlanClass where
  | move | build | feed | idle
  deriving DecidableEq, Repr

/-- Where a copy row stands in the steps of R123: step 5, steps 6 to 8, past step 9. -/
inductive CopyPhase where
  | prepare | permit | moving
  deriving DecidableEq, Repr

/-- The copy row in flight (R122 to R127). `given`: the coder has been given the row; `fetching`: its patch bytes are
being read; `reads`: lanes whose unload is due when the coder takes the row; `moves`: moves running; `outcomes`: source
outcomes the moves reported; `loaded`: the lanes of ROW LOADED; `openFault`: the notice for OPEN was FAULT, to be taken
at step 6 of R123; `closed`: an ending has closed the row. -/
structure CopyRow where
  source : Nat
  target : Nat
  plan : Six PlanClass
  phase : CopyPhase
  given : Bool
  fetching : Bool
  reads : List Lane
  moves : List Lane
  outcomes : Six (Option PageOutcome)
  touched : Bool
  loaded : Option (List Lane)
  permitAsked : Bool
  committed : Bool
  awaited : List Lane
  failed : List Lane
  judged : Bool
  openFault : Bool
  closed : Bool
  deriving DecidableEq, Repr

/-- A well formed patch (R120, R128). -/
structure Patch where
  rowOffset : Nat
  index : Nat
  offset : Nat
  length : Nat
  source : Word
  deriving DecidableEq, Repr

/-- The row reader's context (R109). `started`: the checks have passed; `usesMover`: a transfer was started. -/
structure Reader where
  order : Option Order
  started : Bool
  usesMover : Bool
  band : Nat
  level : Level
  targetBand : Nat
  firstTarget : Nat
  nextRow : Nat
  toBegin : Nat
  flights : List ReadFlight
  copyRow : Option CopyRow
  lanesFailed : List Lane
  patch : Option Patch
  openWait : Bool
  lostWaits : Nat
  failing : Option Nat
  rowsDone : Nat
  pagesRebuilt : Nat
  weakSeen : Nat
  ending : Option OrderStatus
  go : Bool
  stopped : Option OrderStatus
  ended : Bool
  flushed : Bool
  deriving DecidableEq, Repr

/-! ## Band services (chapters 2, 5 and 7) -/

/-- What the band services wait for (R131). -/
inductive ServicePhase where
  | idle
  | queryLanes | eraseNotice | erasePermit | erasing | eraseEndNotice
  | sealNotice
  | records
  | freezeCommit | fuseWriting
  deriving DecidableEq, Repr

/-- The band services (R131). `nextRecord` and `written` count for QUERY BANDS, `words` are the words of the record in
hand, `answers` the CLEAR ATTENTION answers awaited. -/
structure Services where
  order : Option Order
  phase : ServicePhase
  band : Nat
  level : Level
  lanesAwaited : List Lane
  failSeen : Bool
  nextRecord : Nat
  written : Nat
  words : List Word
  answers : Nat
  ending : Option OrderStatus
  ended : Bool
  flushed : Bool
  deriving DecidableEq, Repr

/-! ## Memory mover and bus master port (chapter 8) -/

/-- The mover's phases (R149). -/
inductive MoverPhase where
  | idle | moving | stopped | flushing
  deriving DecidableEq, Repr

/-- The owners of a transfer (R149). -/
inductive MoverOwner where
  | writer | reader | services
  deriving DecidableEq, Repr

/-- The directions of a transfer (R149). -/
inductive Direction where
  | inbound | outbound | fetch
  deriving DecidableEq, Repr

/-- The chain cursor (R149). -/
structure Cursor where
  descriptor : Nat
  fragment : Nat
  left : Nat
  next : Nat
  walked : Nat
  deriving DecidableEq, Repr

/-- The chain states (R149). -/
inductive ChainState where
  | notStarted | inFragment | exhausted | atEnd
  deriving DecidableEq, Repr

/-- The endings a mover reports (R149). -/
inductive MoverEnding where
  | shortChain | fragment | busError
  deriving DecidableEq, Repr

/-- The mover's bus access: a descriptor read raised or in progress, with the words read so far when it goes by single
beats (R151), or a burst in progress (R157). -/
inductive MoverAccess where
  | descriptor (address : Nat) (got : List Word)
  | readBurst (address beats : Nat)
  | writeBurst (address : Nat) (words : List Word)
  deriving DecidableEq, Repr

/-- Whom a fetch serves (R158). -/
inductive FetchFor where
  | descriptor | patch
  deriving DecidableEq, Repr

/-- A fetch in progress (R158): the address of its next burst, whom it serves, and the words its requester has been
handed. The words still to request are the mover's permit. -/
structure Fetch where
  address : Nat
  forWhom : FetchFor
  got : List Word
  deriving DecidableEq, Repr

/-- The memory mover (R149). `handed` and `written` count the words of an OUTBOUND transfer; `ended` once END has been
taken while a burst runs (R159). -/
structure Mover where
  phase : MoverPhase
  owner : Option MoverOwner
  direction : Option Direction
  burstLength : Nat
  threshold : Nat
  permit : Nat
  unitSize : Nat
  fill : Option Byte
  fifo : List Word
  cursor : Option Cursor
  chain : ChainState
  handed : Nat
  written : Nat
  unitsWritten : Nat
  pendingEnding : Option MoverEnding
  access : Option MoverAccess
  fetch : Option Fetch
  ended : Bool
  deriving DecidableEq, Repr

/-- The requesters of the bus master port (R160). -/
inductive Requester where
  | sheet | mover | report
  deriving DecidableEq, Repr

/-- The two blocks whose accesses the sheet access requester carries (R160). -/
inductive SheetUser where
  | sheets | config
  deriving DecidableEq, Repr

/-! ## Mode controller (chapter 9) -/

/-- The ten modes (9.1). -/
inductive Mode where
  | cold | faulted | awaitConfig | run | holding | held | standby | patrol | drain | parked
  deriving DecidableEq, Repr

/-- An applied configuration (R163). -/
structure Applied where
  burstLength : Nat
  threshold : Nat
  weakThreshold : Nat
  patrolInterval : Nat
  patrolBudget : Nat
  reportAddress : Word
  reportCapacity : Nat
  deriving DecidableEq, Repr

/-- An APPLY in progress (R163), with the words read so far; `startMode` is the mode at its step 1 (R171). -/
structure ConfigRead where
  address : Word
  got : List Word
  startMode : Mode
  deriving DecidableEq, Repr

/-- Drain progress (R177). -/
structure Drain where
  closed : Bool
  patrolEnded : Bool
  lanesQuiet : Bool
  commitDone : Bool
  lanesOff : Bool
  deriving DecidableEq, Repr

/-- The next step of the cold path (R165). -/
inductive ColdStep where
  | none | fuseLoad | tableLoad | scan
  deriving DecidableEq, Repr

/-- What the recovery scan waits for (R167 to R169). -/
inductive ScanStage where
  | permit
  | erasing (awaited : List Lane) (failSeen : Bool)
  | notice
  | reading (awaited : List Lane) (classes : List PageClass)
  | discarding
  | commitEnd
  deriving DecidableEq, Repr

/-- The scan cursor (R163): phase (true is OPEN), band, row; its stage; whether ROW FOUND or ROW TORN was applied. -/
structure Scan where
  openPhase : Bool
  band : Nat
  row : Nat
  stage : ScanStage
  changed : Bool
  deriving DecidableEq, Repr

/-- Where the PATROL mode stands (R175): lanes waking, run in progress, clean commit of the run awaited. -/
inductive PatrolStage where
  | none | waking | running | committing
  deriving DecidableEq, Repr

/-- The mode controller (R163). `wake` is PENDING when true; `commitAwaited` while it waits for the end of a clean
commit; `powerGiven` once POWER UP has been given for the wake or patrol in hand; `leaving` while PARKED is being left;
`patrolWake` once a post or WAKE has ended the patrol. -/
structure ModeCtl where
  mode : Mode
  config : Option Applied
  configRead : Option ConfigRead
  warning : Bool
  wake : Bool
  commitAwaited : Bool
  drain : Option Drain
  scan : Option Scan
  cold : ColdStep
  powerGiven : Bool
  leaving : Bool
  patrolStage : PatrolStage
  patrolWake : Bool
  deriving DecidableEq, Repr

/-! ## Patrol unit (chapter 10) -/

/-- The patrol timer: STOPPED is none, RUNNING holds the seconds elapsed (R180). -/
abbrev Timer := Option Nat

/-- A patrol run (R180); `finishing` once it has ended at a step of R182 and waits for its answers (R187). -/
structure PatrolRun where
  budget : Nat
  endRequested : Bool
  recordChanged : Bool
  answersAwaited : Nat
  finishing : Bool
  deriving DecidableEq, Repr

/-- The kinds of finding (R184). -/
inductive FindingKind where
  | weak | uncorrectable | tag | parity
  deriving DecidableEq, Repr

/-- A finding (R184). -/
structure Finding where
  band : Nat
  row : Nat
  lane : Lane
  kind : FindingKind
  highest : Nat
  deriving DecidableEq, Repr

/-- The report writes (R185, R186): a finding, the header that counts it, the header after a drop, the header of a
command. The address is that of the report area. -/
inductive ReportWrite where
  | finding (area : Word) (value : Finding)
  | headerFor (area : Word)
  | headerDrop (area : Word)
  | headerOnly (area : Word)
  deriving DecidableEq, Repr

/-- A REPORT_CLEAR, or the header write of an APPLY, waiting for the report writer (R186). -/
inductive ReportDue where
  | clear
  | header (area : Word)
  deriving DecidableEq, Repr

/-- The row being visited (R183); `checked` once its check result has been taken. -/
structure Visit where
  band : Nat
  row : Nat
  level : Level
  expected : List Lane
  checked : Bool
  deriving DecidableEq, Repr

/-- The patrol unit (R180). `writeDone` counts the words of the report write whose bursts have ended; `findings` are the
findings of the row in hand not yet recorded; `writeFailed` once a report write of the run has ended with a bus error
(R185). -/
structure Patrol where
  timer : Timer
  run : Option PatrolRun
  cursorBand : Nat
  cursorRow : Nat
  fill : Nat
  dropped : Nat
  dropNoted : Bool
  write : Option ReportWrite
  writeDone : Nat
  visit : Option Visit
  findings : List Finding
  due : List ReportDue
  writeFailed : Bool
  deriving DecidableEq, Repr

/-! ## Register window (chapter 11) -/

/-- The events, by bit (R191). -/
inductive Event where
  | sheetDone | sheetFault | busError | postRefused | requestRefused | configDone | configRefused | held | recovered
  | powerWarn | patrolDone | reportFull | storeFault
  deriving DecidableEq, Repr

/-- The refusal reasons (11.6). -/
inductive Reason where
  | none | state | align | full | bus | range | burstThreshold
  deriving DecidableEq, Repr

/-- The register window (11.1). `refusalApply` is the refusal source: false POST, true APPLY (R190). -/
structure Window where
  events : Word
  enable : Word
  configAddress : Word
  errorAddress : Word
  refusal : Reason
  refusalApply : Bool
  deriving DecidableEq, Repr

/-! ## Messages between blocks within one step -/

/-- What one block tells another inside a step (95). The list is empty between steps (log 2). -/
inductive Signal where
  /-- a giver gives the band table an update, asking for notice or not (R26) -/
  | update (client : Client) (value : Update) (notice : Bool)
  /-- an owner asks for a store permit (R39) -/
  | askPermit (client : Client)
  /-- a clean or plain commit request is raised, its end to be told to the client or not (R35, R38, R147, R169) -/
  | commitRequest (client : Client) (clean tell : Bool)
  /-- a client no longer waits for the end of a commit (R175, R177) -/
  | forgetCommit (client : Client)
  /-- a lane's end report (R7) -/
  | report (lane : Lane) (value : EndReport)
  /-- the band table's answer to an update (R26): applied or NOT_APPLIED, and whether the record changed -/
  | answer (client : Client) (update : Update) (applied changed : Bool)
  /-- STORED (true) or FAULT (false) (R26, R36) -/
  | notice (client : Client) (what : NoticeFor) (stored : Bool)
  /-- a store permit granted or refused (R39, R40) -/
  | permit (client : Client) (granted : Bool)
  /-- ROW LOADED (R50, R58) -/
  | rowLoaded (lanes : List Lane)
  /-- the coder has taken a BEGIN READ ROW (R53) -/
  | readBegun (begun : RowBegin)
  /-- the row report of a judged row (R54) -/
  | judged (report : RowReport)
  /-- NEED_PAGES, naming lanes (R54) -/
  | needPages (lanes : List Lane)
  /-- ROW DELIVERED (R57) -/
  | rowDelivered
  /-- the check result (R61) -/
  | checked (report : RowReport) (compared : List ParityCompared)
  /-- UNIT WRITTEN (R155) -/
  | unitWritten
  /-- the mover's ending (R154, R155, R158) -/
  | moverEnding (ending : MoverEnding)
  /-- FLUSHED (R159) -/
  | flushed
  /-- FETCH DONE, with the words (R158) -/
  | fetchDone (forWhom : FetchFor) (words : List Word)
  /-- an order has ended with this result (R73) -/
  | orderEnd (result : OrderResult)
  deriving DecidableEq, Repr

/-! ## The whole part -/

/-- The state of the part. -/
structure State where
  /-- supply is present -/
  supply : Bool
  /-- RESET_N is asserted (R179) -/
  resetHeld : Bool
  /-- PWR_WARN_N is asserted (R176) -/
  warnLine : Bool
  /-- WRITE_INHIBIT_N is asserted (R137) -/
  inhibitLine : Bool
  lanes : Six LaneCtl
  /-- the answer RESULT QUERY returned last (R7) -/
  queryAnswer : Option LaneAnswer
  /-- the page array, keyed by lane, band and row (R1) -/
  array : Sparse Page
  table : Table
  protect : Protection
  coder : Coder
  sheets : Sheets
  writer : Writer
  reader : Reader
  services : Services
  mover : Mover
  /-- the granted requester (R160) -/
  port : Option Requester
  /-- whose accesses stand raised at the sheet access requester, in the order they were given (R160) -/
  sheetLine : List SheetUser
  modes : ModeCtl
  patrol : Patrol
  window : Window
  /-- host memory (log 3) -/
  mem : List Host.Cell
  signals : List Signal
  /-- the commands waiting, first in, first out -/
  pending : List Instr
  deriving DecidableEq, Repr

/-- Why the part stops. No rule stops it: every refusal and every error is a next state (INVENTORY, Faults). Nothing
raises one, which is safe: no claim can rest on a fault. -/
inductive Fault where
  deriving DecidableEq, Repr

/-- Why the model gives a command no meaning. -/
inductive Refusal where
  /-- raised by exec for a command without a meaning; no arm uses it. Safe: the machine stops. -/
  | notModelled (mnemonic : String)
  deriving DecidableEq, Repr

/-! ## Values after reset -/

/-- A band record as the part leaves the factory, and after a reset before the load (R20, R42). -/
def BandRecord.factory : BandRecord :=
  { state := .unused, level := 0, nextRow := 0, lost := [], voids := [], attention := false }

/-- One lane after reset (R19). -/
def LaneCtl.reset : LaneCtl :=
  { cache := none, activity := .idle, port := none, waiting := [], lastOp := none, prevFailed := false }

/-- The table of a part from the factory, after a reset and before the load (R20, R42). -/
def Table.reset : Table :=
  { working := [], stored := [], marker := true, checkDelta := 0, loaded := false, dirty := [], commit := none,
    plainReq := false, cleanReq := false, storeFault := false, heldUpdates := [], heldPermits := [], waiters := [] }

/-- The protection unit of a part from the factory after power-on with LOCK_EN low (R137, R144; log 5). -/
def Protection.reset : Protection :=
  { lockEnable := false, lockAll := false, range := none, tight := false, inhibit := false, fuses := 0#64,
    working := 0#64, fuseWrite := none }

/-- The coder after reset (R47). -/
def Coder.reset : Coder :=
  { owner := none, claim := none, beginWrite := none, beginRead := none, write := none, read := none,
    workspace := none, patch := none, verdict := none }

/-- The sheet processor after reset (R69). -/
def Sheets.reset : Sheets :=
  { queue := [], active := none, order := none, questionHeld := false, stop := .none, closing := [], closer := none,
    access := none }

/-- The row writer after reset (R88). -/
def Writer.reset : Writer :=
  { order := none, band := 0, level := 0, nextRow := 0, toBegin := 0, flights := [], lanesFailed := [],
    bytesNeeded := 0, rowsDone := 0, openWait := false, lostWaits := 0, failing := none, ending := none, go := false,
    stopped := none, ended := false, flushed := false }

/-- The row reader after reset (R109). -/
def Reader.reset : Reader :=
  { order := none, started := false, usesMover := false, band := 0, level := 0, targetBand := 0, firstTarget := 0,
    nextRow := 0, toBegin := 0, flights := [], copyRow := none, lanesFailed := [], patch := none, openWait := false,
    lostWaits := 0, failing := none, rowsDone := 0, pagesRebuilt := 0, weakSeen := 0, ending := none, go := false,
    stopped := none, ended := false, flushed := false }

/-- The band services after reset (R131). -/
def Services.reset : Services :=
  { order := none, phase := .idle, band := 0, level := 0, lanesAwaited := [], failSeen := false, nextRecord := 0,
    written := 0, words := [], answers := 0, ending := none, ended := false, flushed := false }

/-- The mover after reset (R149). -/
def Mover.reset : Mover :=
  { phase := .idle, owner := none, direction := none, burstLength := 0, threshold := 0, permit := 0, unitSize := 0,
    fill := none, fifo := [], cursor := none, chain := .notStarted, handed := 0, written := 0, unitsWritten := 0,
    pendingEnding := none, access := none, fetch := none, ended := false }

/-- The mode controller after a reset that sampled PWR_WARN_N as `warning` (R163): the cold path's first step is next
(R165). -/
def ModeCtl.reset (warning : Bool) : ModeCtl :=
  { mode := .cold, config := none, configRead := none, warning := warning, wake := false, commitAwaited := false,
    drain := none, scan := none, cold := .fuseLoad, powerGiven := false, leaving := false, patrolStage := .none,
    patrolWake := false }

/-- The patrol unit after reset (R180). -/
def Patrol.reset : Patrol :=
  { timer := none, run := none, cursorBand := 0, cursorRow := 0, fill := 0, dropped := 0, dropNoted := false,
    write := none, writeDone := 0, visit := none, findings := [], due := [], writeFailed := false }

/-- The register window after reset (11.1, R190). -/
def Window.reset : Window :=
  { events := 0#32, enable := 0#32, configAddress := 0#32, errorAddress := 0#32, refusal := .none,
    refusalApply := false }

/-- The part right after power-on, as it left the factory, with LOCK_EN low and all lines withdrawn (R19, R42, R47,
R69, R88, R109, R131, R137, R149, R163, R180; log 5). -/
def State.reset : State :=
  { supply := true, resetHeld := false, warnLine := false, inhibitLine := false,
    lanes := ⟨.reset, .reset, .reset, .reset, .reset, .reset⟩,
    queryAnswer := none, array := [], table := .reset, protect := .reset, coder := .reset, sheets := .reset,
    writer := .reset, reader := .reset, services := .reset, mover := .reset, port := none, sheetLine := [],
    modes := .reset false, patrol := .reset, window := .reset, mem := [], signals := [], pending := [] }

end Sys2Proof.Machine
end

