-- ==== Sys2Proof/Machine/Ops.lean ====
section
/-! DEFINITION. The named operations every block uses: lanes and sets of lanes, sparse maps, host memory and the bus,
events, signals, and the requests an owner gives to a lane. -/

namespace Sys2Proof

/-- Lane number (00 Geometry). -/
def Lane.number : Lane → Nat
  | .l0 => 0 | .l1 => 1 | .l2 => 2 | .l3 => 3 | .l4 => 4 | .l5 => 5

/-- The lane of a number below 6 (L5 for a larger one, which no caller gives). -/
def laneAt : Nat → Lane
  | 0 => .l0 | 1 => .l1 | 2 => .l2 | 3 => .l3 | 4 => .l4 | _ => .l5

/-- The six lanes in ascending order. -/
def Lane.all : List Lane := [.l0, .l1, .l2, .l3, .l4, .l5]

/-- k, the data pages of a row: 6 minus the level (R45). -/
def dataPages (level : Level) : Nat := 6 - level.val

/-- The role of a lane at a level (R2, R45). -/
def roleOf (level : Level) (l : Lane) : Role :=
  if l.number < dataPages level then .data l.number
  else if l.number = dataPages level then .p
  else .q

/-- The lane of P: L5 at level 1, L4 at level 2 (R45). -/
def pLane (level : Level) : Option Lane := if level.val = 0 then none else some (laneAt (dataPages level))

/-- The lane of Q: L5 at level 2 (R45). -/
def qLane (level : Level) : Option Lane := if level.val = 2 then some .l5 else none

namespace Machine

/-! ## One thing per lane -/

/-- What `x` holds for a lane. -/
def Six.get {α : Type} (x : Six α) : Lane → α
  | .l0 => x.l0 | .l1 => x.l1 | .l2 => x.l2 | .l3 => x.l3 | .l4 => x.l4 | .l5 => x.l5

/-- `x` with `v` for one lane. -/
def Six.set {α : Type} (x : Six α) (l : Lane) (v : α) : Six α :=
  match l with
  | .l0 => { x with l0 := v }
  | .l1 => { x with l1 := v }
  | .l2 => { x with l2 := v }
  | .l3 => { x with l3 := v }
  | .l4 => { x with l4 := v }
  | .l5 => { x with l5 := v }

/-- The value `f` gives for each lane. -/
def Six.build {α : Type} (f : Lane → α) : Six α := ⟨f .l0, f .l1, f .l2, f .l3, f .l4, f .l5⟩

/-- `f` holds of what `x` holds for every lane. -/
def Six.all {α : Type} (f : α → Bool) (x : Six α) : Bool := Lane.all.all (fun l => f (x.get l))

/-- A set of lanes with one more lane, in ascending order. -/
def addLane (ls : List Lane) (l : Lane) : List Lane := Lane.all.filter (fun x => x == l || ls.contains x)

/-- A set of lanes without one lane. -/
def dropLane (ls : List Lane) (l : Lane) : List Lane := ls.filter (fun x => !(x == l))

/-- The lanes of `ls` that are not in `without`. -/
def lanesMinus (ls without : List Lane) : List Lane := ls.filter (fun x => !without.contains x)

/-! ## Sparse maps -/

/-- What key `k` reads as: its entry, or `d` when it is not listed. -/
def Sparse.read {α : Type} (d : α) : Sparse α → Nat → α
  | [], _ => d
  | (a, v) :: rest, k => if a = k then v else Sparse.read d rest k

/-- The map in which `k` reads as `v`, canonical form kept: writing `d` removes the entry. -/
def Sparse.write {α : Type} [DecidableEq α] (d : α) : Sparse α → Nat → α → Sparse α
  | [], k, v => if v = d then [] else [(k, v)]
  | (a, w) :: rest, k, v =>
      if a = k then (if v = d then rest else (k, v) :: rest)
      else if k < a then (if v = d then (a, w) :: rest else (k, v) :: (a, w) :: rest)
      else (a, w) :: Sparse.write d rest k v

/-- Keys above `lo` strictly rising, no entry equal to `d`. -/
def Sparse.wfFrom {α : Type} [DecidableEq α] (d : α) : Nat → Sparse α → Bool
  | _, [] => true
  | lo, (a, v) :: rest => decide (lo ≤ a) && !decide (v = d) && Sparse.wfFrom d (a + 1) rest

/-- The canonical form. -/
def Sparse.wf {α : Type} [DecidableEq α] (d : α) (m : Sparse α) : Bool := Sparse.wfFrom d 0 m

/-! ## Host memory: least significant byte at the lowest address (00 Layouts) -/

/-- What a byte of host memory that nothing has written reads as (log 3). -/
def emptyByte : Byte := 0#8

/-- One byte of host memory. -/
def Memory.readByte (m : List Host.Cell) (a : Nat) : Byte := Sparse.read emptyByte m a

/-- Host memory with one byte written. -/
def Memory.writeByte (m : List Host.Cell) (a : Nat) (v : Byte) : List Host.Cell := Sparse.write emptyByte m a v

/-- The canonical form of host memory. -/
def Memory.wf (m : List Host.Cell) : Bool := Sparse.wf emptyByte m

/-- Byte `i` of a word, 0 the least significant. -/
def wordByte (w : Word) (i : Nat) : Byte := (w >>> (8 * i)).setWidth 8

/-- The word of four bytes, the least significant first. -/
def wordOf (b0 b1 b2 b3 : Byte) : Word := b3 ++ b2 ++ b1 ++ b0

/-- A word's bytes in stream order, lowest address first (R149). -/
def wordBytes (w : Word) : List Byte := [wordByte w 0, wordByte w 1, wordByte w 2, wordByte w 3]

/-- The word at an address. -/
def Memory.readWord (m : List Host.Cell) (a : Nat) : Word :=
  wordOf (readByte m a) (readByte m (a + 1)) (readByte m (a + 2)) (readByte m (a + 3))

/-- Host memory with a word written at an address. -/
def Memory.writeWord (m : List Host.Cell) (a : Nat) (w : Word) : List Host.Cell :=
  writeByte (writeByte (writeByte (writeByte m a (wordByte w 0)) (a + 1) (wordByte w 1)) (a + 2) (wordByte w 2))
    (a + 3) (wordByte w 3)

/-- Host memory after a list of word writes, in order. -/
def Memory.writeWords (m : List Host.Cell) : List (Nat × Word) → List Host.Cell
  | [] => m
  | (a, w) :: rest => Memory.writeWords (Memory.writeWord m a w) rest

/-- Consecutive words from an address. -/
def Memory.readWords (m : List Host.Cell) (a : Nat) : Nat → List Word
  | 0 => []
  | n + 1 => Memory.readWord m a :: Memory.readWords m (a + 4) n

/-- The writes of consecutive words from an address. -/
def consecutive (a : Nat) : List Word → List (Nat × Word)
  | [] => []
  | w :: rest => (a, w) :: consecutive (a + 4) rest

/-- The word address a host store names. -/
def alignWord (a : Word) : Nat := a.toNat / 4 * 4

/-- Host memory once the host's own stores, as a reply carries them, have been made (log 3). -/
def hostStores (m : List Host.Cell) (reply : BusReply) : List Host.Cell :=
  Memory.writeWords m (reply.stores.map (fun st => (alignWord st.1, st.2)))

/-- The words of a failed write that stand in memory, as the reply says (R161). -/
def landedOf : List (Nat × Word) → List Bool → List (Nat × Word)
  | w :: ws, true :: bs => w :: landedOf ws bs
  | _ :: ws, false :: bs => landedOf ws bs
  | _, _ => []

/-! ## Signals and events -/

/-- The bit of an event (R191). -/
def Event.bit : Event → Nat
  | .sheetDone => 0 | .sheetFault => 1 | .busError => 2 | .postRefused => 3 | .requestRefused => 4
  | .configDone => 5 | .configRefused => 6 | .held => 7 | .recovered => 8 | .powerWarn => 9 | .patrolDone => 10
  | .reportFull => 11 | .storeFault => 12

/-- Whether an event's flag is set. -/
def Window.flag (w : Window) (e : Event) : Bool := w.events.getLsbD e.bit

/-- The register window with an event's flag set (R191). -/
def Window.set (w : Window) (e : Event) : Window := { w with events := w.events ||| (1#32 <<< e.bit) }

/-- An event's flag is set (R191). -/
def State.setEvent (s : State) (e : Event) : State := { s with window := s.window.set e }

/-- A command is refused or ignored with REQUEST_REFUSED (R164). -/
def State.requestRefused (s : State) : State := s.setEvent .requestRefused

/-- A message to another block, taken later in the same step. -/
def State.emit (s : State) (m : Signal) : State := { s with signals := s.signals ++ [m] }

/-- ERROR_ADDRESS for a failed beat: the word address in bits 31:2, the direction in bit 0 (R193). -/
def errorWord (address : Nat) (write : Bool) : Word :=
  (BitVec.ofNat 32 (address / 4 * 4)) ||| (if write then 1#32 else 0#32)

/-- The port reports a bus error: BUS_ERROR is set, and ERROR_ADDRESS is loaded if the flag was clear (R162). -/
def State.busError (s : State) (address : Nat) (write : Bool) : State :=
  let w := if s.window.flag .busError then s.window
    else { s.window with errorAddress := errorWord address write }
  { s with window := w.set .busError }

/-- A read of `n` words at `a` ends (R161): the state with the host's stores, and the words unless a beat failed. -/
def State.busRead (s : State) (reply : BusReply) (a n : Nat) : State × Option (List Word) :=
  let s := { s with mem := hostStores s.mem reply }
  match reply.error with
  | none => (s, some (Memory.readWords s.mem a n))
  | some b => (s.busError (a + 4 * b) false, none)

/-- A write burst ends (R161): the state with the host's stores and the words written, and whether it ended without a
bus error. -/
def State.busWrite (s : State) (reply : BusReply) (writes : List (Nat × Word)) : State × Bool :=
  let m := hostStores s.mem reply
  match reply.error with
  | none => ({ s with mem := Memory.writeWords m writes }, true)
  | some b =>
      let s := { s with mem := Memory.writeWords m (landedOf writes reply.landed) }
      (s.busError ((writes.getD b (0, 0#32)).1) true, false)

/-- A single-beat read of the word at `a` ends (R160, R161). -/
def State.beatRead (s : State) (reply : BusReply) (a : Nat) : State × Option Word :=
  match s.busRead reply a 1 with
  | (s, ws) => (s, ws.bind List.head?)

/-! ## Lanes -/

/-- One lane controller. -/
def State.lane (s : State) (l : Lane) : LaneCtl := s.lanes.get l

/-- The state with one lane controller replaced. -/
def State.setLane (s : State) (l : Lane) (c : LaneCtl) : State := { s with lanes := s.lanes.set l c }

/-- The lane state (1.2, R5), read off the running activity. -/
def LaneCtl.state (c : LaneCtl) : LaneState :=
  match c.activity with
  | .idle => .idle
  | .program _ _ => .cacheBusy
  | .reading _ => .cacheBusy
  | .awaiting _ _ _ => .cacheBusy
  | .transfer _ _ _ => .arrayBusy
  | .move _ _ _ => .arrayBusy
  | .erase _ => .arrayBusy
  | .poweringUp => .arrayBusy
  | .off => .off

/-- The identity of the page in the data register (1.2), none when it is empty. -/
def LaneCtl.dataRegister (c : LaneCtl) : Option PageId :=
  match c.activity with
  | .idle => none
  | .program id _ => some id
  | .reading id => some id
  | .awaiting id _ _ => some id
  | .transfer id _ _ => some id
  | .move source _ _ => some source
  | .erase _ => none
  | .poweringUp => none
  | .off => none

/-- LANE_IDLE with an empty port and nothing waiting for it. -/
def LaneCtl.quiet (c : LaneCtl) : Bool := c.state == .idle && c.port == none && c.waiting == []

/-- LANE_IDLE with both registers empty, nothing in the port or waiting, and PREVIOUS_FAILED 0 (R119, R129). -/
def LaneCtl.clear (c : LaneCtl) : Bool := c.quiet && c.cache == none && !c.prevFailed

/-- What the lane answers to RESULT QUERY (R7). -/
def LaneCtl.answer (c : LaneCtl) (l : Lane) : LaneAnswer :=
  { lane := l, state := c.state, portHolds := c.port.isSome, cache := c.cache.map (·.cond), lastOp := c.lastOp,
    prevFailed := c.prevFailed }

/-- The owner gives a lane a request: it waits with the owner until the port takes it (R6). -/
def State.give (s : State) (l : Lane) (r : LaneReq) : State :=
  let c := s.lane l
  s.setLane l { c with waiting := c.waiting ++ [r] }

/-- The owner gives the same request to each lane of a set. -/
def State.giveAll (s : State) (r : LaneReq) (ls : List Lane) : State :=
  { s with lanes := Six.build (fun l =>
      if ls.contains l then { s.lane l with waiting := (s.lane l).waiting ++ [r] } else s.lane l) }

/-- Key of a page in the array (R1). -/
def pageKey (l : Lane) (band row : Nat) : Nat := (l.number * Config.bands + band) * Config.rows + row

/-- The page the array holds (R1). -/
def State.page (s : State) (l : Lane) (band row : Nat) : Page := Sparse.read .erased s.array (pageKey l band row)

/-- The array with one page changed. -/
def State.setPage (s : State) (l : Lane) (band row : Nat) (p : Page) : State :=
  { s with array := Sparse.write .erased s.array (pageKey l band row) p }

/-- Rows 0 to n-1 of a block set to one content. -/
def fillBlock (a : Sparse Page) (l : Lane) (band : Nat) (p : Page) : Nat → Sparse Page
  | 0 => a
  | n + 1 => Sparse.write .erased (fillBlock a l band p n) (pageKey l band n) p

/-- Every page of a block set to one content (R15, R18). -/
def State.setBlock (s : State) (l : Lane) (band : Nat) (p : Page) : State :=
  { s with array := fillBlock s.array l band p Config.rows }

/-! ## Band records -/

/-- A working record (R20). -/
def Table.record (t : Table) (band : Nat) : BandRecord := Sparse.read .factory t.working band

/-- A stored record (R34). -/
def Table.storedRecord (t : Table) (band : Nat) : BandRecord := Sparse.read .factory t.stored band

/-- The working record of a band. -/
def State.band (s : State) (b : Nat) : BandRecord := s.table.record b

/-- A lane is absent at a row of a band (R21). -/
def BandRecord.absent (r : BandRecord) (l : Lane) (row : Nat) : Bool :=
  r.lost.any (fun e => e.lane == l && decide (e.fromRow ≤ row))

/-- The lanes present at a row, ascending (R21). -/
def BandRecord.present (r : BandRecord) (row : Nat) : List Lane := Lane.all.filter (fun l => !r.absent l row)

/-- A row is on the void list (R22). -/
def BandRecord.isVoid (r : BandRecord) (row : Nat) : Bool := r.voids.contains row

/-- The rule of R20 for every band record. -/
def BandRecord.wf (r : BandRecord) : Bool :=
  decide (r.nextRow ≤ Config.rows) && decide (r.voids.length ≤ 4) && decide (r.voids.Pairwise (· < ·)) &&
    r.voids.all (fun v => decide (v < r.nextRow)) && decide (r.lost.length ≤ 2) &&
    decide ((r.lost.map (·.lane)).Nodup)

/-! ## Whether the part takes commands -/

/-- The part is powered and RESET_N is withdrawn (R179, R188). -/
def State.live (s : State) : Bool := s.supply && !s.resetHeld

/-- The meaning of a command that a part without supply, or held in reset, does not take (log 10). -/
def State.whenLive (s : State) (f : State → State) : State := if s.live then f s else s

/-- A saturating sum (00 Numbers and ranges). -/
def satAdd (cap a b : Nat) : Nat := if a + b ≤ cap then a + b else cap

end Machine

end Sys2Proof
end

