-- ==== Sys2Proof/Machine/Operands.lean ====
section
/-! DEFINITION. The layouts of the structures in host memory and their numeric codes (11.4 to 11.6): what the part reads
out of words, and the words it writes. -/

namespace Sys2Proof.Machine

/-- The unsigned value of bits `lo` to `lo + len - 1` of a word (R194). -/
def bits (w : Word) (lo len : Nat) : Nat := (w.extractLsb' lo len).toNat

/-- A field value placed at bit `lo`. -/
def field (v lo : Nat) : Word := (BitVec.ofNat 32 v) <<< lo

/-! ## Codes -/

/-- Kind codes 1 to 10; 0 and 11 to 255 are not valid (11.5). -/
def orderKind : Nat → Option OrderKind
  | 1 => some .writeRows | 2 => some .readRows | 3 => some .copyRows | 4 => some .eraseBand | 5 => some .sealBand
  | 6 => some .queryBands | 7 => some .setUnlockRange | 8 => some .lockAll | 9 => some .lockTight
  | 10 => some .freezeGroup | _ => none

/-- Row orders ask ROW GO (R64). -/
def OrderKind.isRow : OrderKind → Bool
  | .writeRows => true | .readRows => true | .copyRows => true
  | .eraseBand => false | .sealBand => false | .queryBands => false | .setUnlockRange => false | .lockAll => false
  | .lockTight => false | .freezeGroup => false

/-- Status codes (11.5). -/
def OrderStatus.code : OrderStatus → Nat
  | .ok => 0 | .okRebuilt => 1 | .aborted => 2 | .interrupted => 3 | .skipped => 4
  | .badKind => 16 | .badBand => 17 | .badRow => 18 | .badCount => 19 | .badRange => 20 | .bandState => 21
  | .levelMismatch => 22 | .protected_ => 23 | .frozen => 24 | .lockDisabled => 25 | .lockTight => 26
  | .storeFault => 27 | .fragment => 32 | .shortChain => 33 | .busError => 34 | .programFail => 48 | .eraseFail => 49
  | .dataLoss => 50 | .voidRow => 51

/-- The class a status counts in (R65). -/
inductive StatusClass where
  | ok | skipped | failed
  deriving DecidableEq, Repr

/-- The class of each status (R65). -/
def OrderStatus.cls : OrderStatus → StatusClass
  | .ok => .ok
  | .okRebuilt => .ok
  | .skipped => .skipped
  | .aborted => .failed | .interrupted => .failed | .badKind => .failed | .badBand => .failed | .badRow => .failed
  | .badCount => .failed | .badRange => .failed | .bandState => .failed | .levelMismatch => .failed
  | .protected_ => .failed | .frozen => .failed | .lockDisabled => .failed | .lockTight => .failed
  | .storeFault => .failed | .fragment => .failed | .shortChain => .failed | .busError => .failed
  | .programFail => .failed | .eraseFail => .failed | .dataLoss => .failed | .voidRow => .failed

/-- Mode codes (11.6). -/
def Mode.code : Mode → Nat
  | .cold => 0 | .faulted => 1 | .awaitConfig => 2 | .run => 3 | .holding => 4 | .held => 5 | .standby => 6
  | .patrol => 7 | .drain => 8 | .parked => 9

/-- Band state codes (11.6). -/
def BandState.code : BandState → Nat
  | .unused => 0 | .erasing => 1 | .blank => 2 | .opened => 3 | .sealed => 4 | .failed => 5 | .retired => 6

/-- Completion states (R66). -/
inductive CompletionState where
  | doneOk | doneErrors | doneAborted | doneInterrupted | doneRefused
  deriving DecidableEq, Repr

/-- Completion state codes (11.6). -/
def CompletionState.code : CompletionState → Nat
  | .doneOk => 1 | .doneErrors => 2 | .doneAborted => 3 | .doneInterrupted => 4 | .doneRefused => 5

/-- Refusal reason codes (11.6). -/
def Reason.code : Reason → Nat
  | .none => 0 | .state => 1 | .align => 2 | .full => 3 | .bus => 4 | .range => 5 | .burstThreshold => 6

/-- Stop state codes (R190). -/
def StopState.code : StopState → Nat
  | .none => 0 | .hold => 1 | .abort => 2 | .drain => 3

/-- Finding kind codes (11.4). -/
def FindingKind.code : FindingKind → Nat
  | .weak => 1 | .uncorrectable => 2 | .tag => 3 | .parity => 4

/-! ## Structures the part reads -/

/-- Address of word `i` of the sheet header; addresses wrap at 2^32 (R63, log 13). -/
def headerWordAddress (sheet : Word) (i : Nat) : Nat := (sheet + BitVec.ofNat 32 (4 * i)).toNat

/-- Address of word `i` of entry `e` (R63, log 13). -/
def entryWordAddress (sheet : Word) (e i : Nat) : Nat := (sheet + BitVec.ofNat 32 (32 + 32 * e + 4 * i)).toNat

/-- The header words a sheet activation reads (R63, R70). -/
structure Header where
  count : Nat
  notify : Bool
  haltOnError : Bool
  completion : Word
  deriving DecidableEq, Repr

/-- Header words 0 and 1 as fields (11.4). -/
def headerOf (w0 w1 : Word) : Header :=
  { count := bits w0 0 8, notify := w0.getLsbD 8, haltOnError := w0.getLsbD 9, completion := w1 }

/-- The header check (R71). -/
def Header.accepted (h : Header) : Bool :=
  decide (1 ≤ h.count) && decide (h.count ≤ Config.sheetOrders) && h.completion == 0#32

/-- The order words of an entry as fields, none when the kind is not valid (R64, 11.4). -/
def orderOf (w0 w1 w2 w3 w4 : Word) : Option Order :=
  (orderKind (bits w0 0 8)).map fun kind =>
    { kind := kind, atNext := w0.getLsbD 8, fill := w0.getLsbD 9, clearAttention := w0.getLsbD 10,
      band := bits w0 16 16, startRow := bits w1 0 16, count := bits w1 16 16, chain := w2, aux1 := w3, aux2 := w4 }

/-- The fill byte of WRITE ROWS (R91). -/
def Order.fillByte (o : Order) : Byte := wordByte o.aux1 0

/-- The level field of ERASE BAND, none when it is above 2 (R132). -/
def Order.eraseLevel (o : Order) : Option Level :=
  let v := bits o.aux1 0 8
  if h : v < 3 then some ⟨v, h⟩ else none

/-- The target band of COPY ROWS (11.4). -/
def Order.targetBand (o : Order) : Nat := bits o.aux1 0 16

/-- The range of SET UNLOCK RANGE (R141). -/
def Order.unlockRange (o : Order) : UnlockRange :=
  { low := o.band, high := bits o.aux1 0 16, invert := o.aux1.getLsbD 16 }

/-- The group of FREEZE GROUP (11.4). -/
def Order.group (o : Order) : Nat := bits o.aux1 0 16

/-- A fragment descriptor's fields (11.4). -/
structure Descriptor where
  fragment : Nat
  length : Nat
  next : Nat
  deriving DecidableEq, Repr

/-- The first three words of a descriptor; the fourth has no effect (R151). -/
def descriptorOf (ws : List Word) : Descriptor :=
  { fragment := (ws.getD 0 0#32).toNat, length := (ws.getD 1 0#32).toNat, next := (ws.getD 2 0#32).toNat }

/-- Checks 2 to 4 of a descriptor (R151). -/
def Descriptor.good (d : Descriptor) : Bool :=
  decide (4 ≤ d.length) && decide (d.length ≤ 65532) && d.length % 4 == 0 &&
    d.fragment != 0 && d.fragment % 4 == 0 && decide (d.fragment + d.length ≤ Config.addressTop)

/-- A patch descriptor's fields (11.4). -/
def patchOf (ws : List Word) : Patch :=
  { rowOffset := bits (ws.getD 0 0#32) 0 8, index := bits (ws.getD 0 0#32) 8 8, offset := bits (ws.getD 0 0#32) 16 16,
    length := bits (ws.getD 1 0#32) 0 16, source := ws.getD 2 0#32 }

/-- The range checks of a patch for an order of `count` rows at a level (R120). -/
def Patch.good (p : Patch) (count : Nat) (level : Level) : Bool :=
  decide (p.rowOffset < count) && decide (p.index < dataPages level) && decide (1 ≤ p.length) &&
    decide (p.length ≤ 256) && decide (p.offset + p.length ≤ Config.pageBytes) && p.source != 0#32 &&
    p.source.toNat % 4 == 0

/-- The burst length of its code (11.4). -/
def burstOfCode : Nat → Option Nat
  | 0 => some 1 | 1 => some 4 | 2 => some 8 | 3 => some 16 | _ => none

/-- The threshold of its code (11.4). -/
def thresholdOfCode : Nat → Option Nat
  | 0 => some 4 | 1 => some 8 | 2 => some 12 | 3 => some 16 | _ => none

/-- The configuration block's fields, none when a code names nothing (11.4, R171 step 5). -/
def configOf (ws : List Word) : Option Applied :=
  let w0 := ws.getD 0 0#32
  let w1 := ws.getD 1 0#32
  match burstOfCode (bits w0 0 3), thresholdOfCode (bits w0 4 3) with
  | some b, some t =>
      some { burstLength := b, threshold := t, weakThreshold := bits w0 8 4, patrolInterval := bits w1 0 16,
             patrolBudget := bits w1 16 16, reportAddress := ws.getD 2 0#32, reportCapacity := bits (ws.getD 3 0#32) 0 16 }
  | _, _ => none

/-- The ranges of step 5 of R171. -/
def Applied.inRange (c : Applied) : Bool :=
  decide (1 ≤ c.weakThreshold) && decide (c.weakThreshold ≤ 8) && decide (1 ≤ c.patrolBudget) &&
    decide (c.patrolBudget ≤ 4096) && decide (c.reportCapacity ≤ 1024) &&
    (c.reportCapacity == 0 || decide (c.reportAddress.toNat + 8 + 16 * c.reportCapacity ≤ Config.addressTop))

/-- Steps 5 to 7 of R171 on the words read: the configuration, or the reason that refuses it. -/
def checkConfig (ws : List Word) : Applied ⊕ Reason :=
  match configOf ws with
  | none => .inr .range
  | some c =>
      if !c.inRange then .inr .range
      else if !(decide (c.burstLength ≤ c.threshold) && c.threshold % c.burstLength == 0) then .inr .burstThreshold
      else if c.reportCapacity != 0 && (c.reportAddress == 0#32 || c.reportAddress.toNat % 16 != 0) then .inr .align
      else .inl c

/-! ## Structures the part writes -/

/-- Result word 1: status and rows_done (11.4). -/
def OrderResult.word1 (r : OrderResult) : Word := field r.status.code 0 ||| field r.rowsDone 16

/-- Result word 2: pages_rebuilt and weak pages seen (11.4). -/
def OrderResult.word2 (r : OrderResult) : Word := field r.pagesRebuilt 0 ||| field r.weakSeen 16

/-- The two result writes, word 2 first (R65): entry words 7 and 6 (R194). -/
def resultWrites (sheet : Word) (entry : Nat) (r : OrderResult) : List (Nat × Word) :=
  [(entryWordAddress sheet entry 7, r.word2), (entryWordAddress sheet entry 6, r.word1)]

/-- The completion word (11.4). -/
def completionWord (st : CompletionState) (ok failed skipped : Nat) : Word :=
  field st.code 0 ||| field ok 8 ||| field failed 16 ||| field skipped 24

/-- The result with a status and nothing else. -/
def plainResult (st : OrderStatus) : OrderResult :=
  { status := st, rowsDone := 0, pagesRebuilt := 0, weakSeen := 0 }

/-- The word of four small numbers, the first in the lowest byte. -/
def word4 (a b c d : Nat) : Word := field a 0 ||| field b 8 ||| field c 16 ||| field d 24

/-- A band query record's four words (11.4). -/
def queryRecord (band : Nat) (r : BandRecord) (locked frozen : Bool) : List Word :=
  let lane (i : Nat) := (r.lost[i]?).elim 0 (fun e => e.lane.number)
  let from_ (i : Nat) := (r.lost[i]?).elim 0 (·.fromRow)
  let void (i : Nat) := (r.voids[i]?).getD 0
  [ field band 0 ||| field r.state.code 16 ||| field r.level.val 24,
    word4 r.nextRow r.lost.length r.voids.length (r.attention.toNat + 2 * locked.toNat + 4 * frozen.toNat),
    word4 (lane 0) (from_ 0) (lane 1) (from_ 1),
    word4 (void 0) (void 1) (void 2) (void 3) ]

/-- A finding's four words (11.4). -/
def Finding.words (f : Finding) : List Word :=
  [ field f.band 0 ||| field f.row 16 ||| field f.lane.number 24, field f.kind.code 0 ||| field f.highest 8, 0#32, 0#32 ]

/-- The report header's two words: fill and dropped (11.4). -/
def reportHeader (fill dropped : Nat) : List Word := [BitVec.ofNat 32 fill, BitVec.ofNat 32 dropped]

/-- Address of finding slot `i` (10.6). -/
def slotAddress (area : Word) (i : Nat) : Nat := area.toNat + 8 + 16 * i

end Sys2Proof.Machine
end

