-- ==== Sys2Proof/Machine/Flags.lean ====
section
/-! DEFINITION. STATUS, EVENTS, EVENT_ENABLE and IRQ_N, and the reading of the register window (11.1 to 11.3). -/

namespace Sys2Proof.Machine

/-- The event bits of EVENTS and EVENT_ENABLE (R191). -/
def eventMask : Word := 0x1FFF#32

/-- EVENTS after a write of `value`: each bit written 1 is cleared (R191). -/
def Window.clearEvents (w : Window) (value : Word) : Window := { w with events := w.events &&& ~~~value }

/-- EVENT_ENABLE after a write: one enable per event, its other bits read 0 (R192). -/
def Window.setEnable (w : Window) (value : Word) : Window := { w with enable := value &&& eventMask }

/-- IRQ_N is asserted while an event is set with its enable bit set (R192). -/
def Window.irqAsserted (w : Window) : Bool := w.events &&& w.enable != 0#32

/-- IRQ_N is asserted, driven low (R192). -/
def State.irqAsserted (s : State) : Bool := s.window.irqAsserted

/-- A post (`apply` false) or an APPLY is refused: its event, and the reason with its source (R67, R171, R190). -/
def State.refuse (s : State) (apply : Bool) (r : Reason) : State :=
  let s := s.setEvent (if apply then .configRefused else .postRefused)
  { s with window := { s.window with refusal := r, refusalApply := apply } }

/-- STATUS (R190). -/
def State.status (s : State) : Word :=
  field s.modes.mode.code 0 ||| field s.sheets.queue.length 4 ||| field s.sheets.active.isSome.toNat 6 |||
    field (!s.sheets.closing.isEmpty).toNat 7 ||| field s.sheets.stop.code 8 ||| field s.table.storeFault.toNat 12 |||
    field s.modes.config.isSome.toNat 13 ||| field s.modes.wake.toNat 14 ||| field s.window.refusal.code 16 |||
    field s.window.refusalApply.toNat 20

/-- A 32-bit read of the register window (R188): POST and CONTROL read 0, an offset of 0x20 or above reads 0, and
while RESET_N is asserted the values after reset are read. -/
def State.readRegister (s : State) (offset : Nat) : Word :=
  if offset = 0x00 then Config.idValue
  else if s.resetHeld then 0#32
  else if offset = 0x04 then s.status
  else if offset = 0x10 then s.window.events
  else if offset = 0x14 then s.window.enable
  else if offset = 0x18 then s.window.configAddress
  else if offset = 0x1C then s.window.errorAddress
  else 0#32

/-- A read of fewer than 32 bits returns the bytes asked for from the whole register (R188). -/
def State.readBytes (s : State) (offset count : Nat) : List Byte :=
  ((wordBytes (s.readRegister (offset / 4 * 4))).drop (offset % 4)).take count

end Sys2Proof.Machine
end

