-- ==== Sys2Proof/Machine/Table.lean ====
section
/-! DEFINITION. The band table, its updates and its clean-marker gate, store permits, and the table store controller's
commits (chapter 2); the decisions of the protection unit (R138, R144). -/

namespace Sys2Proof.Machine

/-! ## Locked and frozen -/

/-- Band `b` is locked (R138). -/
def Protection.locked (p : Protection) (b : Nat) : Bool :=
  p.lockEnable &&
    ((p.inhibit && !p.tight) || p.lockAll ||
      match p.range with
      | none => false
      | some r =>
          if r.invert then decide (r.low ≤ b) && decide (b ≤ r.high) else decide (b < r.low) || decide (r.high < b))

/-- Band `b` is frozen: the working copy's bit of its group (R24, R144). -/
def Protection.frozen (p : Protection) (b : Nat) : Bool := p.working.getLsbD (b / Config.groupBands)

/-! ## Updates (2.3) -/

/-- The band an update names. -/
def Update.band : Update → Nat
  | .eraseStart b _ => b | .eraseEnd b _ => b | .openBand b => b | .rowComplete b _ => b | .programFail b _ _ => b
  | .sealBand b => b | .rowFound b _ => b | .rowTorn b _ => b | .setAttention b => b | .clearAttention b => b

/-- next_row moved past row `n`, with the state it brings: `atEnd` at row 64, else `st` (R30, R33). -/
def BandRecord.advance (r : BandRecord) (n : Nat) : BandRecord :=
  { r with nextRow := n + 1, state := if n + 1 = Config.rows then .sealed else r.state }

/-- The lane is on the lost list (R31). -/
def BandRecord.isLost (r : BandRecord) (l : Lane) : Bool := r.lost.any (fun e => e.lane == l)

/-- The record after an update, none when its condition is not met (R27 to R33, R23). -/
def applyUpdate (r : BandRecord) : Update → Option BandRecord
  | .eraseStart _ level =>
      match r.state with
      | .unused | .blank | .opened | .sealed | .failed => some { r with state := .erasing, level := level }
      | .erasing | .retired => none
  | .eraseEnd _ pass =>
      if r.state = .erasing then
        some (if pass then { r with state := .blank, nextRow := 0, lost := [], voids := [], attention := false }
              else { r with state := .retired })
      else none
  | .openBand _ => if r.state = .blank then some { r with state := .opened } else none
  | .rowComplete _ n =>
      if n = r.nextRow ∧ n < Config.rows then
        match r.state with
        | .opened => some (r.advance n)
        | .failed => some { r with nextRow := n + 1 }
        | .unused | .erasing | .blank | .sealed | .retired => none
      else none
  | .programFail _ l n =>
      if r.state = .opened ∧ r.isLost l = false then
        let lost := if r.lost.length < 2 then r.lost ++ [⟨l, n⟩] else r.lost
        if r.lost.length + 1 ≤ r.level.val then some { r with lost := lost }
        else some { r with state := .failed, lost := lost }
      else none
  | .sealBand _ => if r.state = .opened then some { r with state := .sealed } else none
  | .rowFound _ n =>
      if r.state = .opened ∧ n = r.nextRow ∧ n < Config.rows then some (r.advance n) else none
  | .rowTorn _ n =>
      if r.state = .opened ∧ n = r.nextRow ∧ n < Config.rows then
        if r.voids.length < 4 then some { r.advance n with voids := r.voids ++ [n] }
        else some { r with nextRow := n + 1, state := .sealed }
      else none
  | .setAttention _ => some { r with attention := true }
  | .clearAttention _ => some { r with attention := false }

/-- A requesting update raises a plain commit request when it changes the record (R26, R30). -/
def Update.requesting (before after : BandRecord) : Update → Bool
  | .eraseStart _ _ => true
  | .eraseEnd _ _ => true
  | .openBand _ => true
  | .rowComplete _ _ => decide (after.state ≠ before.state) || decide (before.state = .failed)
  | .programFail _ _ _ => true
  | .sealBand _ => true
  | .rowFound _ _ => false
  | .rowTorn _ _ => false
  | .setAttention _ => false
  | .clearAttention _ => false

/-- What the notice of an update is for. -/
def Update.noticeFor : Update → NoticeFor
  | .eraseStart _ _ => .eraseStart
  | .eraseEnd _ _ => .eraseEnd
  | .openBand _ => .opened
  | .programFail _ _ _ => .lost
  | .sealBand _ => .sealed
  | .rowComplete _ _ => .commitEnd
  | .rowFound _ _ => .commitEnd
  | .rowTorn _ _ => .commitEnd
  | .setAttention _ => .commitEnd
  | .clearAttention _ => .commitEnd

/-- A band added to the dirty set, which holds each band once (R35). -/
def addDirty (ds : List Nat) (b : Nat) : List Nat := if ds.contains b then ds else ds ++ [b]

/-- A clean commit is in flight. -/
def Table.cleanInFlight (t : Table) : Bool := t.commit.elim false (·.clean)

/-- The clean-marker gate is open (R39). A clean request that is pending closes it as the clean commit in flight does: the
commit it asks for would start at once (R35, R36), and no change and no program may come between (R175; log 43). -/
def Table.gateOpen (t : Table) : Bool := !t.storeFault && !t.marker && !t.cleanInFlight && !t.cleanReq

/-- A working record replaced, its band dirty, and a plain request raised when asked (R26). -/
def Table.change (t : Table) (b : Nat) (r : BandRecord) (request : Bool) : Table :=
  { t with working := Sparse.write .factory t.working b r, dirty := addDirty t.dirty b,
           plainReq := t.plainReq || request }

/-- The band table takes an update now: it is applied as its rule lays down, unless STORE_FAULT stands with the stored
marker 1 (R26, R40). The giver is answered, and waits for notice, or is told FAULT at once under STORE_FAULT. -/
def State.takeUpdate (s : State) (h : HeldUpdate) : State :=
  let old := s.band h.update.band
  let result := if s.table.storeFault && s.table.marker then none else applyUpdate old h.update
  match result with
  | none =>
      let s := s.emit (.answer h.client h.update false false)
      if h.notice && s.table.storeFault then s.emit (.notice h.client h.update.noticeFor false) else s
  | some new =>
      let changed := decide (new ≠ old)
      let table := if changed then s.table.change h.update.band new (h.update.requesting old new) else s.table
      let s := { s with table := table }.emit (.answer h.client h.update true changed)
      if h.notice then
        if s.table.storeFault then s.emit (.notice h.client h.update.noticeFor false)
        else
          { s with table := { s.table with
              waiters := s.table.waiters ++ [{ client := h.client, what := h.update.noticeFor, covered := false }] } }
      else s

/-- A plain request is due for work held at the gate: the marker is 1, no clean commit is in flight and STORE_FAULT is 0
(R39). -/
def Table.uncleanDue (t : Table) : Bool := t.marker && !t.cleanInFlight && !t.storeFault

/-- Something waits at the clean-marker gate. -/
def Table.holds (t : Table) : Bool := !t.heldUpdates.isEmpty || !t.heldPermits.isEmpty

/-- The plain request of the unclean write is raised for work that is held, when it is due (R39; log 29). -/
def Table.raiseUnclean (t : Table) : Table := if t.holds && t.uncleanDue then { t with plainReq := true } else t

/-- An update reaches the band table: taken at once when the gate is open or STORE_FAULT is set, and otherwise held in
order of arrival (R26, R39, R40). -/
def State.giveUpdate (s : State) (client : Client) (u : Update) (notice : Bool) : State :=
  let h : HeldUpdate := { client := client, update := u, notice := notice }
  if (s.table.storeFault || s.table.gateOpen) && s.table.heldUpdates.isEmpty then s.takeUpdate h
  else { s with table := { s.table with heldUpdates := s.table.heldUpdates ++ [h] }.raiseUnclean }

/-- An owner asks for a store permit: granted while the gate is open, refused under STORE_FAULT, else held (R39, R40). -/
def State.askPermit (s : State) (client : Client) : State :=
  if s.table.storeFault then s.emit (.permit client false)
  else if s.table.gateOpen then s.emit (.permit client true)
  else { s with table := { s.table with heldPermits := s.table.heldPermits ++ [client] }.raiseUnclean }

/-- Updates taken one by one in their order of arrival (R39). -/
def State.takeAll (s : State) : List HeldUpdate → State
  | [] => s
  | h :: hs => (s.takeUpdate h).takeAll hs

/-- Permits answered in order. -/
def State.answerPermits (s : State) (granted : Bool) : List Client → State
  | [] => s
  | c :: cs => (s.emit (.permit c granted)).answerPermits granted cs

/-- What the gate holds is taken, once it is open or STORE_FAULT is set (R39, R40). -/
def State.releaseHeld (s : State) : State :=
  let updates := s.table.heldUpdates
  let permits := s.table.heldPermits
  let s := { s with table := { s.table with heldUpdates := [], heldPermits := [] } }
  (s.takeAll updates).answerPermits (!s.table.storeFault) permits

/-- A block asks to be told the end of the first commit that starts from now on (R38, R147, R169). -/
def State.awaitCommit (s : State) (client : Client) : State :=
  { s with table := { s.table with
      waiters := s.table.waiters ++ [{ client := client, what := .commitEnd, covered := false }] } }

/-- A plain commit request is raised (R26, R33). -/
def State.raisePlain (s : State) : State := { s with table := { s.table with plainReq := true } }

/-- A clean commit request is raised (R38). -/
def State.raiseClean (s : State) : State := { s with table := { s.table with cleanReq := true } }

/-! ## Commits (2.4) -/

/-- The records a plain commit takes: those of the dirty set (R35). -/
def Table.dirtyRecords (t : Table) : Sparse BandRecord := t.dirty.map (fun b => (b, t.record b))

/-- Every wait for notice is covered by the commit that starts now (R36). -/
def coverAll (ws : List Waiter) : List Waiter := ws.map (fun w => { w with covered := true })

/-- A commit starts (R35): a clean one if the clean request is pending, else a plain one; the dirty set becomes empty
and both requests are cleared. -/
def Table.startCommit (t : Table) : Table :=
  let run : CommitRun :=
    if t.cleanReq then { clean := true, records := t.working } else { clean := false, records := t.dirtyRecords }
  { t with commit := some run, dirty := [], plainReq := false, cleanReq := false, waiters := coverAll t.waiters }

/-- Records written into the store. -/
def writeRecords (m : Sparse BandRecord) : Sparse BandRecord → Sparse BandRecord
  | [] => m
  | (b, r) :: rest => writeRecords (Sparse.write .factory m b r) rest

/-- Givers told STORED or FAULT (R36). -/
def State.tellAll (s : State) (stored : Bool) : List Waiter → State
  | [] => s
  | w :: ws => (s.emit (.notice w.client w.what stored)).tellAll stored ws

/-- The store after a commit that ended with PASS: it changes whole (R34, R36). -/
def Table.store (t : Table) (c : CommitRun) : Table :=
  { t with stored := if c.clean then c.records else writeRecords t.stored c.records, marker := c.clean,
           checkDelta := 0, commit := none, waiters := t.waiters.filter (fun w => !w.covered) }

/-- Bands added to the dirty set. -/
def addDirtyAll (ds : List Nat) : List Nat → List Nat
  | [] => ds
  | b :: bs => addDirtyAll (addDirty ds b) bs

/-- The table after a commit that ended with FAIL: the store as before, the bands taken back in the dirty set,
STORE_FAULT set (R36). A clean commit took every band. -/
def Table.failCommit (t : Table) (c : CommitRun) : Table :=
  { t with commit := none, storeFault := true, waiters := [],
           dirty := if c.clean then List.range Config.bands else addDirtyAll t.dirty (c.records.map (·.1)) }

/-- A commit in flight ends (R36, R40); after a clean one, work held meanwhile waits for the unclean write (R39). At a FAIL
every waiter is told FAULT, also the mode controller where the commit it awaits has not started: none will start (the
model's choice, log 42). -/
def State.endCommit (s : State) (c : CommitRun) (pass : Bool) : State :=
  if pass then
    let told := s.table.waiters.filter (·.covered)
    { s with table := (s.table.store c).raiseUnclean }.tellAll true told
  else
    let told := s.table.waiters
    ({ s with table := s.table.failCommit c }.setEvent .storeFault).tellAll false told

/-! ## Load (2.6) -/

/-- The volatile part of the table after any reset; the store keeps what it holds (R42). -/
def Table.cleared (t : Table) : Table :=
  { Table.reset with stored := t.stored, marker := t.marker, checkDelta := t.checkDelta }

/-- The table after a load whose check agrees: working equal to stored, the rest as after the reset (R41, R42). -/
def Table.load (t : Table) : Table := { t.cleared with working := t.stored, loaded := true }

/-- The table after a load whose check differs: STORE_FAULT set, the rest as after the reset (R41, R42). -/
def Table.failLoad (t : Table) : Table := { t.cleared with storeFault := true }

end Sys2Proof.Machine
end

