-- ==== Sys2Proof/Machine/Coder.lean ====
section
/-! DEFINITION. The stripe coder (chapter 3): GF(2^8), row assembly, judgement, rebuild, copy output and the parity
check. -/

namespace Sys2Proof.Machine

/-! ## The coding field (R46) -/

/-- A byte times g = 2. -/
def gMul (b : Byte) : Byte := if b.getLsbD 7 then (b <<< 1) ^^^ 0x1D#8 else b <<< 1

/-- A byte times g^-1: the byte, plus 0x11D when its bit 0 is 1, shifted one place towards bit 0. -/
def gDiv (b : Byte) : Byte := if b.getLsbD 0 then ((b ^^^ 0x1D#8) >>> 1) ||| 0x80#8 else b >>> 1

/-- g^i times a byte. -/
def gPow : Nat → Byte → Byte
  | 0, b => b
  | i + 1, b => gMul (gPow i b)

/-- g^-i times a byte. -/
def gPowInv : Nat → Byte → Byte
  | 0, b => b
  | i + 1, b => gDiv (gPowInv i b)

/-- The sum of g^n times `b` over the bits n below `n` that are 1 in `a`. -/
def fieldMulBits (a b : Byte) : Nat → Byte
  | 0 => 0#8
  | n + 1 => fieldMulBits a b n ^^^ (if a.getLsbD n then gPow n b else 0#8)

/-- The product of two bytes. -/
def fieldMul (a b : Byte) : Byte := fieldMulBits a b 8

/-- The product of the squares q^2, q^4, ... : n of them. -/
def fieldSquares : Nat → Byte → Byte
  | 0, _ => 1#8
  | n + 1, q => fieldMul (fieldMul q q) (fieldSquares n (fieldMul q q))

/-- The byte whose product with a non-zero `d` is 1: d^254 = d^2 d^4 ... d^128, since d^255 is 1. -/
def fieldInv (d : Byte) : Byte := fieldSquares 7 d

/-! ## Pages of bytes -/

/-- A page of zeros. -/
def zeroPage : List Byte := List.replicate Config.pageBytes 0#8

/-- Byte by byte sum of two pages. -/
def addPage (a b : List Byte) : List Byte := List.zipWith (· ^^^ ·) a b

/-- Bytes added into the front of a page. -/
def addFront : List Byte → List Byte → List Byte
  | p :: ps, b :: bs => (p ^^^ b) :: addFront ps bs
  | ps, _ => ps

/-- Bytes added into a page from an offset on. -/
def addAt (page : List Byte) (offset : Nat) (bs : List Byte) : List Byte :=
  page.take offset ++ addFront (page.drop offset) bs

/-- Bytes of a page replaced from an offset on. -/
def putAt (page : List Byte) (offset : Nat) (bs : List Byte) : List Byte :=
  page.take offset ++ bs ++ page.drop (offset + bs.length)

/-- Byte j of Q's share of a data page: g^i times each byte. -/
def timesG (i : Nat) (page : List Byte) : List Byte := page.map (gPow i)

/-! ## Row assembly for writing (3.3) -/

/-- A request of the lane's owner, given earlier, waits for the port (R6). -/
def LaneCtl.ownerFirst (c : LaneCtl) : Bool :=
  !c.waiting.isEmpty && (match c.port with | some (.coder, _) => true | some (.owner, _) => false | none => false)

/-- BEGIN WRITE ROW taken: zero parity, nothing received (R49). -/
def WriteAsm.start (b : RowBegin) : WriteAsm :=
  { band := b.band, row := b.row, level := b.level, loadSet := b.lanes, index := 0, received := [], p := zeroPage,
    q := zeroPage, handing := none, loaded := [] }

/-- The page of lane `index` is finished: handed if its lane is in the load set, dropped otherwise (R50). -/
def WriteAsm.finish (lanes : Six LaneCtl) (a : WriteAsm) (data : List Byte) : WriteAsm :=
  let l := laneAt a.index
  if a.loadSet.contains l then
    { a with handing := some { lane := l, data := data, behind := (lanes.get l).ownerFirst }, received := [] }
  else { a with index := a.index + 1, received := [] }

/-- After the last data page, the P page and then the Q page are handed or dropped (R50). -/
def WriteAsm.parity (lanes : Six LaneCtl) (a : WriteAsm) : WriteAsm :=
  if a.handing = none ∧ dataPages a.level ≤ a.index ∧ a.index < 6 then
    a.finish lanes (if a.index = dataPages a.level then a.p else a.q)
  else a

/-- The write assembly takes its next value; once every page is handed or dropped, ROW LOADED is told and the assembly
is emptied (R50). -/
def State.putWrite (s : State) (a : WriteAsm) : State :=
  let a := (a.parity s.lanes).parity s.lanes
  if a.handing = none ∧ 6 ≤ a.index then
    { s with coder := { s.coder with write := none } }.emit (.rowLoaded a.loaded)
  else { s with coder := { s.coder with write := some a } }

/-- A word enters the page being filled and the running P and Q (R50). -/
def WriteAsm.addWord (a : WriteAsm) (w : Word) : WriteAsm :=
  let bs := wordBytes w
  let at_ := a.received.length
  { a with received := a.received ++ bs,
           p := if a.level.val = 0 then a.p else addAt a.p at_ bs,
           q := if a.level.val = 2 then addAt a.q at_ (timesG a.index bs) else a.q }

/-- The coder is asking for a word: its assembly holds a row and no page is being handed (R50, R154). -/
def WriteAsm.asking (a : WriteAsm) : Bool := a.handing.isNone && decide (a.index < dataPages a.level)

/-- The coder takes a word from the staging FIFO (R50). -/
def State.coderTake (s : State) (a : WriteAsm) (w : Word) : State :=
  let a := a.addWord w
  if Config.pageBytes ≤ a.received.length then s.putWrite (a.finish s.lanes a.received)
  else { s with coder := { s.coder with write := some a } }

/-- WITHDRAW LANE (R51). -/
def State.withdrawLane (s : State) (l : Lane) : State :=
  { s with coder := { s.coder with
      beginWrite := s.coder.beginWrite.map (fun b => { b with lanes := dropLane b.lanes l }),
      write := s.coder.write.map (fun a => { a with loadSet := dropLane a.loadSet l }) } }

/-- ABANDON ROW: the assembly is emptied (R51); a BEGIN WRITE ROW that waits is taken afterwards (R49). -/
def State.abandonRow (s : State) : State := { s with coder := { s.coder with write := none } }

/-- The row writer's BEGIN WRITE ROW for a row that it has given up is withdrawn, if the coder has not taken it: at the
mover's ending by R154, at R94 and R101 by the model's choice (log 47). -/
def State.withdrawWrite (s : State) (row : Nat) : State :=
  { s with coder := { s.coder with beginWrite := s.coder.beginWrite.filter (fun b => decide (b.row ≠ row)) } }

/-! ## Ownership (R48) -/

/-- A claim: granted at once without an owner, else it waits. -/
def State.claimCoder (s : State) (o : CoderOwner) : State :=
  match s.coder.owner with
  | none => { s with coder := { s.coder with owner := some o } }
  | some _ => { s with coder := { s.coder with claim := some o } }

/-- A release empties the assemblies, the workspace and the verdict, and grants a waiting claim. -/
def State.releaseCoder (s : State) : State :=
  { s with coder := { Coder.reset with owner := s.coder.claim } }

/-- The row in the read assembly is released (R54, R57, R58, R61); a BEGIN READ ROW that waits is taken afterwards
(R53). -/
def State.releaseRead (s : State) : State :=
  { s with coder := { s.coder with read := none, workspace := none, patch := none, verdict := none } }

/-- The row reader's row is closed before it was judged: the read assembly is released, and a BEGIN READ ROW that the
coder has not taken is withdrawn (R115, R118, R123; log 37). -/
def State.closeRead (s : State) : State :=
  let s := s.releaseRead
  { s with coder := { s.coder with beginRead := none } }

/-! ## Missing pages and judgement (3.4, 3.5) -/

/-- Why a page is missing, none when it is present (R52). -/
def Slot.cause : Slot → Option Cause
  | .notExpected => some .absent
  | .awaited => none
  | .outcomeOnly o => classCause o.cls
  | .held _ o => classCause o.cls
where
  /-- The cause a page class gives (R52). -/
  classCause : PageClass → Option Cause
    | .erased => some .erased
    | .uncorrectable => some .uncorrectable
    | .tagMismatch => some .tag
    | .weak => none
    | .good => none

/-- The outcome the coder holds of a page. -/
def Slot.outcome : Slot → Option PageOutcome
  | .notExpected => none
  | .awaited => none
  | .outcomeOnly o => some o
  | .held _ o => some o

/-- The bytes the coder holds of a page. -/
def Slot.bytes : Slot → List Byte
  | .notExpected => []
  | .awaited => []
  | .outcomeOnly _ => []
  | .held d _ => d

/-- The coder holds the page's bytes. -/
def Slot.isHeld : Slot → Bool
  | .notExpected => false
  | .awaited => false
  | .outcomeOnly _ => false
  | .held _ _ => true

/-- The slot is awaited. -/
def Slot.isAwaited : Slot → Bool
  | .notExpected => false
  | .awaited => true
  | .outcomeOnly _ => false
  | .held _ _ => false

/-- BEGIN READ ROW taken: lanes outside the expected set are missing ABSENT, the others awaited (R53). -/
def ReadAsm.start (b : RowBegin) : ReadAsm :=
  { band := b.band, row := b.row, level := b.level, purpose := b.purpose, expected := b.lanes,
    slots := Six.build (fun l => if b.lanes.contains l then .awaited else .notExpected), handed := 0,
    target := (0, 0), toHand := [], handing := none, loaded := [] }

/-- A page of a lane is missing in the read assembly. -/
def ReadAsm.isMissing (r : ReadAsm) (l : Lane) : Bool := (r.slots.get l).cause.isSome

/-- The data lanes of a level (R45). -/
def dataLanes (level : Level) : List Lane := Lane.all.filter (fun l => decide (l.number < dataPages level))

/-- The missing pages of the row, in lane order (R52). -/
def ReadAsm.missing (r : ReadAsm) : List MissingPage :=
  Lane.all.filterMap (fun l =>
    (r.slots.get l).cause.map (fun c => { lane := l, role := roleOf r.level l, cause := c }))

/-- The missing data pages, in index order. -/
def ReadAsm.missingData (r : ReadAsm) : List Lane := (dataLanes r.level).filter r.isMissing

/-- The present data pages, in index order. -/
def ReadAsm.presentData (r : ReadAsm) : List Lane := (dataLanes r.level).filter (fun l => !r.isMissing l)

/-- A parity lane whose page is present. -/
def ReadAsm.parityPresent (r : ReadAsm) (l : Option Lane) : Bool := l.elim false (fun l => !r.isMissing l)

/-- Some parity page of the level is missing. -/
def ReadAsm.parityMissing (r : ReadAsm) : Bool :=
  (pLane r.level).elim false r.isMissing || (qLane r.level).elim false r.isMissing

/-- The parity pages the rebuild of the missing data pages uses (R55, R56). -/
def ReadAsm.rebuildParity (r : ReadAsm) : List Lane :=
  match r.missingData with
  | [] => []
  | [_] => if r.parityPresent (pLane r.level) then (pLane r.level).toList else (qLane r.level).toList
  | _ => (pLane r.level).toList ++ (qLane r.level).toList

/-- The lanes whose bytes the row's method needs (R54, R55, R56, R58, R59). A copy needs the present data pages to
rebuild a data page or to regenerate a parity page, the patched page with the present parity for a patch, and
otherwise only the pages it is given. -/
def ReadAsm.needed (r : ReadAsm) (patch : Option PatchBytes) : List Lane :=
  let rebuild := if r.missingData.isEmpty then [] else r.presentData ++ r.rebuildParity
  let regenerate := if r.parityMissing then r.presentData else []
  let patched := match patch with
    | none => []
    | some p => laneAt p.index :: ((pLane r.level).toList ++ (qLane r.level).toList)
  (rebuild ++ regenerate ++ patched).filter (fun l => !r.isMissing l)

/-- The lanes of the needed pages whose bytes the coder does not hold, in lane order (R54). -/
def ReadAsm.lacking (r : ReadAsm) (patch : Option PatchBytes) : List Lane :=
  Lane.all.filter (fun l => (r.needed patch).contains l && !(r.slots.get l).isHeld)

/-- The verdict (R54). -/
def ReadAsm.verdict (r : ReadAsm) (patch : Option PatchBytes) : Verdict :=
  if r.level.val < r.missing.length then .unrecoverable
  else if (r.lacking patch).isEmpty then .recoverable
  else .needPages

/-- The data pages a row has rebuilt: every missing one for DELIVER and COPY; for CHECK the one whose rebuild leaves a
parity page to compare, at level 2 an absent data page alone (R54, R60). -/
def ReadAsm.rebuiltCount (r : ReadAsm) : Nat :=
  match r.purpose with
  | .deliver => r.missingData.length
  | .copy => r.missingData.length
  | .check =>
      match r.missing with
      | [m] => if decide (r.level.val = 2) && decide (m.cause = .absent) then r.missingData.length else 0
      | _ => 0

/-- The row report (R54). -/
def ReadAsm.report (r : ReadAsm) (v : Verdict) : RowReport :=
  let outcomes := Lane.all.filterMap (fun l => (r.slots.get l).outcome.map (fun o => (l, o)))
  { verdict := v, missing := r.missing, rebuilt := if v = .recoverable then r.rebuiltCount else 0,
    weak := (outcomes.filter (fun o => decide (o.2.cls = .weak))).length, outcomes := outcomes }

/-! ## Rebuild (R55, R56) -/

/-- Bytes of a lane's page in the read assembly. -/
def ReadAsm.bytes (r : ReadAsm) (l : Lane) : List Byte := (r.slots.get l).bytes

/-- The sum of pages. -/
def sumPages (start : List Byte) : List (List Byte) → List Byte
  | [] => start
  | p :: ps => addPage (sumPages start ps) p

/-- P' : P plus every present data page. -/
def ReadAsm.pPrime (r : ReadAsm) : List Byte :=
  sumPages ((pLane r.level).elim zeroPage r.bytes) (r.presentData.map r.bytes)

/-- Q' : Q plus g^i times every present data page i. -/
def ReadAsm.qPrime (r : ReadAsm) : List Byte :=
  sumPages ((qLane r.level).elim zeroPage r.bytes) (r.presentData.map (fun l => timesG l.number (r.bytes l)))

/-- Two data pages x < y from P' and Q' (R56): page x is (g^y P' + Q') / (g^x + g^y), page y is P' + page x. -/
def rebuildTwo (x y : Nat) (p' q' : List Byte) : List Byte × List Byte :=
  let inv := fieldInv (gPow x 1#8 ^^^ gPow y 1#8)
  let px := (addPage (timesG y p') q').map (fieldMul inv)
  (px, addPage p' px)

/-- The rebuilt data pages with their lanes (R55, R56). -/
def ReadAsm.rebuilt (r : ReadAsm) : List (Lane × List Byte) :=
  match r.missingData with
  | [] => []
  | [x] =>
      if r.parityPresent (pLane r.level) then [(x, r.pPrime)] else [(x, r.qPrime.map (gPowInv x.number))]
  | x :: y :: _ =>
      let (px, py) := rebuildTwo x.number y.number r.pPrime r.qPrime
      [(x, px), (y, py)]

/-- A page put in the place of a missing one (R55). -/
def ReadAsm.place (r : ReadAsm) (l : Lane) (d : List Byte) : ReadAsm :=
  { r with slots := r.slots.set l (.held d (((r.slots.get l).outcome).getD { cls := .good, highest := 0 })) }

/-- Several pages placed. -/
def ReadAsm.placeAll (r : ReadAsm) : List (Lane × List Byte) → ReadAsm
  | [] => r
  | (l, d) :: rest => (r.place l d).placeAll rest

/-- The workspace of a rebuild (R47). -/
def ReadAsm.workspace (r : ReadAsm) : Option Workspace :=
  if r.missingData.isEmpty then none
  else some { pages := r.rebuilt.map (fun x => (x.1.number, x.2)), pPrime := r.pPrime,
              qPrime := if r.level.val = 2 then r.qPrime else [], parity := [] }

/-! ## The parity of a row (R45) -/

/-- P of data pages given by index. -/
def parityP (pages : List (List Byte)) : List Byte := sumPages zeroPage pages

/-- Q of data pages given by index, the first of index `i`. -/
def parityQ : Nat → List (List Byte) → List Byte
  | _, [] => zeroPage
  | i, p :: ps => addPage (parityQ (i + 1) ps) (timesG i p)

/-- The data pages of the read assembly, in index order. -/
def ReadAsm.dataPagesOf (r : ReadAsm) : List (List Byte) := (dataLanes r.level).map r.bytes

/-! ## Copy output and the patch (3.6) -/

/-- The patch applied: data page i, and the deltas in the parity pages present in the source (R59). -/
def ReadAsm.patched (r : ReadAsm) (p : PatchBytes) (pHere qHere : Bool) : ReadAsm :=
  let l := laneAt p.index
  let old := ((r.bytes l).drop p.offset).take p.bytes.length
  let delta := addPage old p.bytes
  let r1 := r.place l (putAt (r.bytes l) p.offset p.bytes)
  let r2 := match pLane r.level with
    | some pl => if pHere then r1.place pl (addAt (r1.bytes pl) p.offset delta) else r1
    | none => r1
  match qLane r.level with
  | some ql => if qHere then r2.place ql (addAt (r2.bytes ql) p.offset (timesG p.index delta)) else r2
  | none => r2

/-- The parity pages missing in the source, regenerated from the data pages (R58 step 3). -/
def ReadAsm.regenerated (r : ReadAsm) (pHere qHere : Bool) : List (Lane × List Byte) :=
  (match pLane r.level with
    | some pl => if pHere then [] else [(pl, parityP r.dataPagesOf)]
    | none => []) ++
  (match qLane r.level with
    | some ql => if qHere then [] else [(ql, parityQ 0 r.dataPagesOf)]
    | none => [])

/-- The next page of a copy to hand: the first of those left (R58 step 4). -/
def ReadAsm.nextHanding (lanes : Six LaneCtl) (r : ReadAsm) : ReadAsm :=
  match r.handing, r.toHand with
  | none, (l, d) :: rest =>
      { r with toHand := rest, handing := some { lane := l, data := d, behind := (lanes.get l).ownerFirst } }
  | _, _ => r

/-- The read assembly of a copy takes its next value; once every named page is placed, ROW LOADED is told and the
assembly released (R58). -/
def State.putCopy (s : State) (r : ReadAsm) : State :=
  let r := r.nextHanding s.lanes
  if r.handing.isNone then s.releaseRead.emit (.rowLoaded r.loaded)
  else { s with coder := { s.coder with read := some r } }

/-- The coder produces the named target pages of a RECOVERABLE copy row: rebuild, patch, regenerate, hand (R58). -/
def State.produceCopy (s : State) (r : ReadAsm) (named : List Lane) (target : Nat × Nat) : State :=
  let pHere := r.parityPresent (pLane r.level)
  let qHere := r.parityPresent (qLane r.level)
  let r1 := r.placeAll r.rebuilt
  let r2 := match s.coder.patch with
    | none => r1
    | some p => r1.patched p pHere qHere
  let extra := r2.regenerated pHere qHere
  let r3 := r2.placeAll extra
  let ws : Workspace :=
    { pages := r.rebuilt.map (fun x => (x.1.number, x.2)), pPrime := r.pPrime,
      qPrime := if r.level.val = 2 then r.qPrime else [],
      parity := extra.map (fun x => (roleOf r.level x.1, x.2)) }
  let s := { s with coder := { s.coder with workspace := some ws } }
  s.putCopy { r3 with target := target, toHand := named.map (fun l => (l, r3.bytes l)) }

/-- A lane is no longer named for the target (R126). -/
def State.unnameLane (s : State) (l : Lane) : State :=
  match s.coder.read with
  | some r =>
      if r.purpose = .copy ∧ (r.handing.isSome ∨ r.toHand ≠ []) then
        let r1 := { r with toHand := r.toHand.filter (fun x => !(x.1 == l)),
                           handing := r.handing.filter (fun h => !(h.lane == l)) }
        s.putCopy r1
      else s
  | none => s

/-! ## The parity check (3.7) -/

/-- The comparisons of R60. -/
def ReadAsm.compared (r : ReadAsm) : List ParityCompared :=
  if r.level.val = 0 ∨ r.missing.any (fun m => decide (m.cause ≠ .absent)) then []
  else
    let full := r.placeAll r.rebuilt
    let p : List ParityCompared := match pLane r.level with
      | some pl => [{ lane := pl, role := .p, matched := decide (parityP full.dataPagesOf = r.bytes pl) }]
      | none => []
    let q : List ParityCompared := match qLane r.level with
      | some ql => [{ lane := ql, role := .q, matched := decide (parityQ 0 full.dataPagesOf = r.bytes ql) }]
      | none => []
    match r.missing with
    | [] => p ++ q
    | [m] =>
        if r.level.val = 2 then
          match m.role with
          | .data _ => q
          | .p => q
          | .q => p
        else []
    | _ => []

/-! ## Judgement taken (R54, R57, R61) -/

/-- The row is judged when no expected lane is awaited (R53) and it has not been judged. -/
def Coder.judgeDue (c : Coder) : Bool :=
  c.verdict.isNone &&
    match c.read with
    | some r => !(Lane.all.any (fun l => (r.slots.get l).isAwaited)) && r.toHand.isEmpty && r.handing.isNone
    | none => false

/-- The coder judges the row: for CHECK the check result is handed and the row released; for DELIVER a recoverable row
is rebuilt and stands ready to be handed; an unrecoverable row is released; NEED_PAGES marks the named lanes awaited
again (R54, R57, R61). -/
def State.judge (s : State) : State :=
  match s.coder.read with
  | none => s
  | some r =>
      match r.purpose with
      | .check =>
          let report := r.report (if r.level.val < r.missing.length then .unrecoverable else .recoverable)
          s.releaseRead.emit (.checked report r.compared)
      | .deliver =>
          if r.level.val < r.missing.length then s.releaseRead.emit (.judged (r.report .unrecoverable))
          else
            let report := r.report .recoverable
            { s with coder := { s.coder with
                read := some (r.placeAll r.rebuilt), workspace := r.workspace, verdict := some report } }.emit
              (.judged report)
      | .copy =>
          match r.verdict s.coder.patch with
          | .unrecoverable => s.releaseRead.emit (.judged (r.report .unrecoverable))
          | .needPages =>
              let ls := r.lacking s.coder.patch
              { s with coder := { s.coder with
                  read := some { r with slots := Six.build (fun l =>
                    if ls.contains l then .awaited else r.slots.get l) } } }.emit (.needPages ls)
          | .recoverable =>
              let report := r.report .recoverable
              { s with coder := { s.coder with verdict := some report } }.emit (.judged report)

/-- A page arrives by CACHE UNLOAD: it enters the read assembly of its row, in place of what that holds for the lane, also
after the judgement; a page of another row is not taken (R53). -/
def State.arrivePage (s : State) (l : Lane) (id : PageId) (data : List Byte) (o : PageOutcome) : State :=
  match s.coder.read with
  | some r =>
      if r.band = id.band ∧ r.row = id.row ∧ r.expected.contains l = true then
        { s with coder := { s.coder with read := some { r with slots := r.slots.set l (.held data o) } } }
      else s
  | none => s

/-- A move's source outcome is passed to the coder: the lane is marked outcome only (R53, R124). -/
def State.arriveOutcome (s : State) (l : Lane) (o : PageOutcome) : State :=
  match s.coder.read with
  | some r =>
      if r.purpose = .copy ∧ (r.slots.get l).isAwaited = true then
        { s with coder := { s.coder with read := some { r with slots := r.slots.set l (.outcomeOnly o) } } }
      else s
  | none => s

/-- Word `n` of a delivered row, data pages in index order (R57). -/
def ReadAsm.wordAt (r : ReadAsm) (n : Nat) : Word :=
  let page := r.bytes (laneAt (n / Config.pageWords))
  let j := 4 * (n % Config.pageWords)
  wordOf (page.getD j 0#8) (page.getD (j + 1) 0#8) (page.getD (j + 2) 0#8) (page.getD (j + 3) 0#8)

end Sys2Proof.Machine
end

