-- ==== Sys2Proof/Machine/Lanes.lean ====
section
/-! DEFINITION. The lane controllers (chapter 1): classification of a page read, the taking of each request from the
port, the end of each operation, and what an abandoned operation leaves. -/

namespace Sys2Proof.Machine

/-! ## Classification (R2, R3, R4) -/

/-- The weak threshold the lanes use: the configured one, or 8 (R4). -/
def State.weakThreshold (s : State) : Nat := s.modes.config.elim Config.defaultWeak (·.weakThreshold)

/-- Bit errors of sector `i` as the read shows them. -/
def sectorErrors (seen : ArrayRead) (i : Nat) : Nat := seen.errors.getD i 0

/-- Sector `i` is uncorrectable (R3). -/
def sectorBad (seen : ArrayRead) (i : Nat) : Bool := decide (Config.correctable < sectorErrors seen i)

/-- What sector `i` adds to the highest corrected count (R3). -/
def sectorCount (seen : ArrayRead) (i : Nat) : Nat := if sectorBad seen i then 0 else sectorErrors seen i

/-- The highest corrected count (R3). -/
def highestCorrected (seen : ArrayRead) : Nat :=
  max (max (sectorCount seen 0) (sectorCount seen 1)) (max (sectorCount seen 2) (sectorCount seen 3))

/-- Some sector is uncorrectable (R3). -/
def anySectorBad (seen : ArrayRead) : Bool :=
  sectorBad seen 0 || sectorBad seen 1 || sectorBad seen 2 || sectorBad seen 3

/-- The tag written on a program (R2). -/
def tagFor (l : Lane) (id : PageId) : PageTag :=
  { band := id.band, row := id.row, level := id.level, role := roleOf id.level l, checkDelta := 0#16 }

/-- The tag passes its check and names the expected identity (R2, R4): as stored on a programmed page read without
damage; as shown on a page of no known content; never on an erased page. -/
def tagMatches (page : Page) (seen : ArrayRead) (l : Lane) (id : PageId) : Bool :=
  match page, seen.tag with
  | .programmed t _, .intact => decide (t = tagFor l id)
  | .indeterminate, .shows b r lv ro =>
      decide (b = id.band) && decide (r = id.row) && decide (lv = id.level) && decide (ro = roleOf id.level l)
  | .programmed _ _, .damaged => false
  | .programmed _ _, .shows _ _ _ _ => false
  | .indeterminate, .intact => false
  | .indeterminate, .damaged => false
  | .erased, _ => false

/-- The page outcome (R4): the first class of the table that applies. -/
def classify (weak : Nat) (page : Page) (seen : ArrayRead) (l : Lane) (id : PageId) : PageOutcome :=
  if seen.allOnes then { cls := .erased, highest := 0 }
  else
    let h := highestCorrected seen
    if anySectorBad seen then { cls := .uncorrectable, highest := h }
    else if !tagMatches page seen l id then { cls := .tagMismatch, highest := h }
    else if weak ≤ h then { cls := .weak, highest := h }
    else { cls := .good, highest := h }

/-- The part of a page that is sector `i`. -/
def sectorOf (page : List Byte) (i : Nat) : List Byte := (page.drop (i * Config.sectorBytes)).take Config.sectorBytes

/-- The bytes in the data register after a read (R3, R4): all ones on an erased page; of a programmed page the bytes
programmed where the sector was corrected and the bytes as read where not; else the bytes as read. -/
def bytesRead (page : Page) (seen : ArrayRead) : List Byte :=
  if seen.allOnes then List.replicate Config.pageBytes 0xFF#8
  else match page with
    | .programmed _ data =>
        let sector (i : Nat) := sectorOf (if sectorBad seen i then seen.asRead else data) i
        sector 0 ++ sector 1 ++ sector 2 ++ sector 3
    | .erased => seen.asRead
    | .indeterminate => seen.asRead

/-! ## Small changes of one lane -/

/-- The page in the cache register has this condition. -/
def LaneCtl.cacheIs (c : LaneCtl) (k : CacheCond) : Bool := c.cache.elim false (fun p => decide (p.cond = k))

/-- The request in the port has been taken. -/
def LaneCtl.taken (c : LaneCtl) : LaneCtl := { c with port := none }

/-- The request in the port. -/
def LaneCtl.request (c : LaneCtl) : Option LaneReq := c.port.map (·.2)

/-- A program is running on the data register. -/
def LaneCtl.programming (c : LaneCtl) : Bool :=
  match c.activity with
  | .program _ _ => true
  | .idle => false | .reading _ => false | .awaiting _ _ _ => false | .transfer _ _ _ => false
  | .move _ _ _ => false | .erase _ => false | .poweringUp => false | .off => false

/-- Once the cache register is empty, a read page that waits in the data register begins its transfer (R12, R13). -/
def LaneCtl.freeCache (c : LaneCtl) : LaneCtl :=
  match c.activity with
  | .awaiting id data o => { c with cache := none, activity := .transfer id data o }
  | .idle => { c with cache := none }
  | .program _ _ => { c with cache := none }
  | .reading _ => { c with cache := none }
  | .transfer _ _ _ => { c with cache := none }
  | .move _ _ _ => { c with cache := none }
  | .erase _ => { c with cache := none }
  | .poweringUp => { c with cache := none }
  | .off => { c with cache := none }

/-- The lane is in LANE_IDLE or LANE_CACHE_BUSY. -/
def LaneCtl.cacheOpen (c : LaneCtl) : Bool := c.state == .idle || c.state == .cacheBusy

/-- A lane writes its result record and sends its end report (R7). -/
def State.finish (s : State) (l : Lane) (c : LaneCtl) (op : LastOp) (outcome : Option PageOutcome) : State :=
  (s.setLane l { c with lastOp := some op }).emit (.report l { op := op, outcome := outcome })

/-! ## Requests taken (1.3 to 1.6) -/

/-- CACHE LOAD (R8). -/
def LaneCtl.takeLoad (c : LaneCtl) : LaneCtl :=
  match c.request with
  | some (.cacheLoad id data) =>
      if c.cache.isNone && (c.state == .idle || c.programming) then
        { c.taken with cache := some { data := data, id := id, cond := .loaded, outcome := none } }
      else c
  | _ => c

/-- CACHE COMMIT (R9): HELD after a failure, started in LANE_IDLE, ARMED behind a running program. -/
def LaneCtl.takeCommit (c : LaneCtl) : LaneCtl :=
  match c.request, c.cache with
  | some .cacheCommit, some page =>
      if page.cond = .loaded ∧ (c.state = .idle ∨ c.programming = true) then
        if c.prevFailed then { c.taken with cache := some { page with cond := .held } }
        else if c.state = .idle then { c.taken with cache := none, activity := .program page.id page.data }
        else { c.taken with cache := some { page with cond := .armed } }
      else c
  | _, _ => c

/-- CACHE DISCARD (R11). -/
def LaneCtl.takeDiscard (c : LaneCtl) : LaneCtl :=
  match c.request with
  | some .cacheDiscard => if c.cacheOpen then { c.taken.freeCache with prevFailed := false } else c
  | _ => c

/-- PAGE READ (R12). -/
def LaneCtl.takeRead (c : LaneCtl) : LaneCtl :=
  match c.request with
  | some (.pageRead id) =>
      if c.state = .idle ∧ (c.cache = none ∨ c.cacheIs .read = true) then { c.taken with activity := .reading id } else c
  | _ => c

/-- BLOCK ERASE (R15). -/
def LaneCtl.takeErase (c : LaneCtl) : LaneCtl :=
  match c.request with
  | some (.blockErase band) =>
      if c.state = .idle then { c.taken with cache := none, prevFailed := false, activity := .erase band } else c
  | _ => c

/-- POWER DOWN (R16). -/
def LaneCtl.takePowerDown (c : LaneCtl) : LaneCtl :=
  match c.request with
  | some .powerDown =>
      if c.state = .idle then { c.taken with cache := none, lastOp := none, prevFailed := false, activity := .off } else c
  | _ => c

/-- POWER UP (R17): it starts a power-up in LANE_OFF and has no effect elsewhere. -/
def LaneCtl.takePowerUp (c : LaneCtl) : LaneCtl :=
  match c.request with
  | some .powerUp => if c.state = .off then { c.taken with activity := .poweringUp } else c.taken
  | _ => c

/-- A request that changes its lane alone. -/
def State.laneStep (s : State) (l : Lane) (f : LaneCtl → LaneCtl) : State := s.setLane l (f (s.lane l))

/-- CACHE UNLOAD (R13): the page goes to the coder, and a waiting read page begins its transfer. -/
def State.takeUnload (s : State) (l : Lane) : State :=
  let c := s.lane l
  match c.request, c.cache with
  | some .cacheUnload, some page =>
      if page.cond = .read ∧ c.cacheOpen = true then
        (s.setLane l c.taken.freeCache).arrivePage l page.id page.data
          (page.outcome.getD { cls := .good, highest := 0 })
      else s
  | _, _ => s

/-- PAGE MOVE (R14): after a failed program it ends at once with FAIL, and otherwise the source is read. -/
def State.takeMove (s : State) (l : Lane) : State :=
  let c := s.lane l
  match c.request with
  | some (.pageMove source tb tr) =>
      if c.state = .idle then
        if c.prevFailed then s.finish l c.taken { kind := .move, band := tb, row := tr, outcome := .fail } none
        else s.setLane l { c.taken with activity := .move source tb tr }
      else s
  | _ => s

/-! ## Ends (1.3 to 1.6) -/

/-- The array page a program leaves: programmed with its tag on PASS, indeterminate on FAIL (R1, R2, R10). -/
def programmedPage (l : Lane) (id : PageId) (data : List Byte) (pass : Bool) : Page :=
  if pass then .programmed (tagFor l id) data else .indeterminate

/-- The lane after a program that ended (R10): an ARMED page starts on PASS and is HELD on FAIL. -/
def LaneCtl.afterProgram (c : LaneCtl) (pass : Bool) : LaneCtl :=
  match c.cache with
  | some page =>
      if page.cond = .armed then
        if pass then { c with cache := none, activity := .program page.id page.data }
        else { c with cache := some { page with cond := .held }, activity := .idle, prevFailed := true }
      else { c with activity := .idle, prevFailed := c.prevFailed || !pass }
  | none => { c with activity := .idle, prevFailed := c.prevFailed || !pass }

/-- The end of an array program (R10). -/
def State.endProgram (s : State) (l : Lane) (pass : Bool) : State :=
  let c := s.lane l
  match c.activity with
  | .program id data =>
      (s.setPage l id.band id.row (programmedPage l id data pass)).finish l (c.afterProgram pass)
        { kind := .program, band := id.band, row := id.row, outcome := if pass then .pass else .fail } none
  | _ => s

/-- The lane after a read: the page is transferred to an empty cache register, or waits for it (R12). -/
def LaneCtl.afterRead (c : LaneCtl) (id : PageId) (data : List Byte) (o : PageOutcome) : LaneCtl :=
  { c with activity := if c.cache.isNone then .transfer id data o else .awaiting id data o }

/-- The end of an array read (R12). -/
def State.endRead (s : State) (l : Lane) (seen : ArrayRead) : State :=
  let c := s.lane l
  match c.activity with
  | .reading id =>
      let page := s.page l id.band id.row
      let o := classify s.weakThreshold page seen l id
      s.finish l (c.afterRead id (bytesRead page seen) o)
        { kind := .read, band := id.band, row := id.row, outcome := .seen o.cls } (some o)
  | _ => s

/-- The end of a transfer from the data register to the cache register (R12). -/
def LaneCtl.endTransfer (c : LaneCtl) : LaneCtl :=
  match c.activity with
  | .transfer id data o =>
      { c with activity := .idle, cache := some { data := data, id := id, cond := .read, outcome := some o } }
  | _ => c

/-- A source page that a move may program: GOOD or WEAK (R14). -/
def PageClass.movable : PageClass → Bool
  | .good => true | .weak => true | .erased => false | .uncorrectable => false | .tagMismatch => false

/-- The end of a page move (R14). -/
def State.endMove (s : State) (l : Lane) (seen : ArrayRead) (pass : Bool) : State :=
  let c := s.lane l
  match c.activity with
  | .move source tb tr =>
      let page := s.page l source.band source.row
      let o := classify s.weakThreshold page seen l source
      let op (r : OpOutcome) : LastOp := { kind := .move, band := tb, row := tr, outcome := r }
      if o.cls.movable then
        let target : PageId := { band := tb, row := tr, level := source.level }
        (s.setPage l tb tr (programmedPage l target (bytesRead page seen) pass)).finish l
          { c with activity := .idle, prevFailed := c.prevFailed || !pass } (op (if pass then .pass else .fail)) (some o)
      else s.finish l { c with activity := .idle } (op .sourceBad) (some o)
  | _ => s

/-- The end of a block erase (R15). -/
def State.endErase (s : State) (l : Lane) (pass : Bool) : State :=
  let c := s.lane l
  match c.activity with
  | .erase band =>
      (s.setBlock l band (if pass then .erased else .indeterminate)).finish l { c with activity := .idle }
        { kind := .erase, band := band, row := 0, outcome := if pass then .pass else .fail } none
  | _ => s

/-- The end of a power-up (R17). -/
def LaneCtl.endPowerUp (c : LaneCtl) : LaneCtl :=
  match c.activity with
  | .poweringUp => { c with activity := .idle, cache := none, lastOp := none }
  | _ => c

/-! ## Abandonment (R18, R19) -/

/-- A page move that is cut had begun its program: the cut says what the read of its source saw, and the source page was
one that a move programs (R14, R18; log 14). -/
def State.moveProgramming (s : State) (cut : Cut) (l : Lane) (source : PageId) : Bool :=
  match cut.moves.find? (fun m => decide (m.1 = l)) with
  | some m => (classify s.weakThreshold (s.page l source.band source.row) m.2 l source).cls.movable
  | none => false

/-- What an operation that is abandoned leaves in the array (R18); `before` is the state at the cut. -/
def State.abandonLane (before : State) (cut : Cut) (s : State) (l : Lane) : State :=
  match (before.lane l).activity with
  | .program id _ => s.setPage l id.band id.row .indeterminate
  | .move source tb tr => if before.moveProgramming cut l source then s.setPage l tb tr .indeterminate else s
  | .erase band => s.setBlock l band .indeterminate
  | .idle => s | .reading _ => s | .awaiting _ _ _ => s | .transfer _ _ _ => s | .poweringUp => s | .off => s

/-- Every lane operation is abandoned, and every lane takes its values after reset (R18, R19). -/
def State.abandonLanes (s : State) (cut : Cut) : State :=
  { Lane.all.foldl (s.abandonLane cut) s with
    lanes := Six.build (fun _ => LaneCtl.reset) }

/-! ## The port (R6) -/

/-- A page of the coder for this lane was ready before the owner's request, or at the same event (R6). -/
def State.coderFirst (s : State) (l : Lane) : Bool :=
  let first (h : Option Handing) := h.elim false (fun h => h.lane == l && !h.behind)
  (s.coder.write.elim false (fun a => first a.handing)) || (s.coder.read.elim false (fun r => first r.handing))

/-- The coder's page for this lane no longer waits behind an earlier request of the owner. -/
def Coder.nowFirst (c : Coder) (l : Lane) : Coder :=
  let upd (h : Handing) : Handing := if h.lane = l then { h with behind := false } else h
  { c with write := c.write.map (fun a => { a with handing := a.handing.map upd }),
           read := c.read.map (fun r => { r with handing := r.handing.map upd }) }

/-- The owner's oldest waiting request is placed in the empty port of one lane (R6). -/
def State.placeOne (s : State) (l : Lane) : Option State :=
  let c := s.lane l
  match c.port, c.waiting with
  | none, r :: rest =>
      if s.coderFirst l then none
      else some { (s.setLane l { c with port := some (.owner, r), waiting := rest }) with coder := s.coder.nowFirst l }
  | _, _ => none

/-- The first lane whose port takes a waiting request. -/
def State.placeRequests (s : State) : Option State := Lane.all.findSome? s.placeOne

/-- All six lanes stand LANE_IDLE with empty ports (R174, R175, R178). -/
def State.lanesQuiet (s : State) : Bool := s.lanes.all LaneCtl.quiet

/-- All six lanes stand LANE_IDLE with empty ports, empty registers and PREVIOUS_FAILED 0 (R106, R119, R129). -/
def State.lanesClear (s : State) : Bool := s.lanes.all LaneCtl.clear

/-- Every lane stands LANE_IDLE or LANE_OFF with an empty port (R177). -/
def State.lanesStill (s : State) : Bool :=
  s.lanes.all (fun c => (c.state == .idle || c.state == .off) && c.port == none && c.waiting == [])

/-- All six lanes stand LANE_OFF (R177). -/
def State.lanesOff (s : State) : Bool := s.lanes.all (fun c => c.state == .off)

end Sys2Proof.Machine
end

