-- ==== Sys2Proof/Machine/Mover.lean ====
section
/-! DEFINITION. The memory mover and the arbiter of the bus master port (chapter 8). -/

namespace Sys2Proof.Machine

/-! ## Start (R150) -/

/-- Bytes of a row at a level: k times 2048 (R45). -/
def rowBytes (level : Level) : Nat := dataPages level * Config.pageBytes

/-- START (R150). The chain head stands as the next descriptor address of the cursor; a zero head is a chain with no
fragment. A FETCH has no chain. -/
def State.startMover (s : State) (owner : MoverOwner) (dir : Direction) (head permit unit : Nat) (fill : Option Byte) :
    State :=
  { s with mover := { Mover.reset with
      phase := .moving, owner := some owner, direction := some dir,
      burstLength := s.modes.config.elim 1 (·.burstLength), threshold := s.modes.config.elim 4 (·.threshold),
      permit := permit, unitSize := unit, fill := fill,
      cursor := some { descriptor := 0, fragment := 0, left := 0, next := head, walked := 0 },
      chain := if head = 0 ∧ dir ≠ .fetch then .atEnd else .notStarted } }

/-- The row reader asks for a fetch of `words` words, which sets the permit (R150, R158). -/
def State.startFetch (s : State) (address words : Nat) (who : FetchFor) : State :=
  { s with mover := { s.mover with permit := 4 * words, fetch := some { address := address, forWhom := who, got := [] } } }

/-! ## The chain walk (R151, R152) -/

/-- A walk (R152): the end of the chain, the walk limit, a misaligned descriptor address (R151 check 1), or a
descriptor read raised at the port. -/
def Mover.walk (m : Mover) : Mover :=
  match m.cursor with
  | none => m
  | some c =>
      if c.next = 0 then { m with chain := .atEnd }
      else if Config.walkLimit ≤ c.walked then { m with pendingEnding := some .fragment }
      else
        let m := { m with cursor := some { c with walked := c.walked + 1 } }
        if c.next % 16 ≠ 0 then { m with pendingEnding := some .fragment }
        else { m with access := some (.descriptor c.next []) }

/-- The mover needs a descriptor (R152, R153, R155). A walk waits for the end of the burst that took the last words of
the fragment, also one that reads nothing (the model's choice, log 35). -/
def Mover.walkDue (m : Mover) : Bool :=
  m.cursor.isSome && m.pendingEnding.isNone && m.access.isNone && !m.ended &&
    (m.chain == .notStarted || m.chain == .exhausted) &&
    match m.direction with
    | some .inbound => m.phase == .moving && decide (0 < m.permit)
    | some .outbound => (m.phase == .moving || m.phase == .flushing) && !m.fifo.isEmpty
    | some .fetch => false
    | none => false

/-- A descriptor read ends: the descriptor is checked, and the cursor enters its fragment (R151, R152). -/
def Mover.enterFragment (m : Mover) (address : Nat) (d : Descriptor) : Mover :=
  if d.good then
    { m with access := none, chain := .inFragment,
             cursor := some { descriptor := address, fragment := d.fragment, left := d.length, next := d.next,
                              walked := m.cursor.elim 0 (·.walked) } }
  else { m with access := none, pendingEnding := some .fragment }

/-! ## Bursts (R153, R155, R157, R158) -/

/-- The FIFO's free words. -/
def Mover.free (m : Mover) : Nat := Config.fifoWords - m.fifo.length

/-- Words up to the next 1 KiB boundary. -/
def wordsToBoundary (address : Nat) : Nat := (1024 - address % 1024) / 4

/-- The largest of 16, 8, 4 and 1 not above `n` (R157). -/
def burstBeats (n : Nat) : Nat := if 16 ≤ n then 16 else if 8 ≤ n then 8 else if 4 ≤ n then 4 else 1

/-- The FIFO holds the last word of a unit (R155). -/
def Mover.holdsUnitEnd (m : Mover) : Bool :=
  let u := m.unitSize / 4
  decide ((m.handed - m.fifo.length) / u < m.handed / u)

/-- Words the cursor has left before the fragment's end and the next 1 KiB boundary. -/
def Cursor.room (c : Cursor) : Nat := min (c.left / 4) (wordsToBoundary c.fragment)

/-- The burst that may start now, by the start conditions and the length rule (R153, R155, R157, R158). After END the
mover holds a burst only while one granted before it has not ended, and that one still starts (R157, R159; its length is
then taken with the FIFO as END left it, log 41). -/
def Mover.burstNow (m : Mover) : Option MoverAccess :=
  if m.access.isSome || m.pendingEnding.isSome then none
  else match m.direction, m.cursor with
    | some .inbound, some c =>
        if m.phase = .moving ∧ m.chain = .inFragment ∧ 0 < m.permit then
          let room := min c.room (m.permit / 4)
          if min m.threshold room ≤ m.free then
            some (.readBurst c.fragment (burstBeats (min (min m.burstLength room) m.free)))
          else none
        else none
    | some .outbound, some c =>
        if (m.phase = .moving ∨ m.phase = .flushing) ∧ m.chain = .inFragment ∧ m.fifo ≠ [] then
          if min m.threshold c.room ≤ m.fifo.length ∨ m.holdsUnitEnd = true then
            some (.writeBurst c.fragment (m.fifo.take (burstBeats (min (min m.burstLength c.room) m.fifo.length))))
          else none
        else none
    | some .fetch, _ =>
        match m.fetch with
        | some f =>
            if m.phase = .moving ∧ 0 < m.permit ∧ min m.threshold (m.permit / 4) ≤ m.free then
              some (.readBurst f.address
                (burstBeats (min (min m.burstLength (m.permit / 4)) (min (wordsToBoundary f.address) m.free))))
            else none
        | none => none
    | _, _ => none

/-- The cursor moves past `n` words; at the fragment's end the chain is EXHAUSTED (R152). -/
def Mover.advance (m : Mover) (n : Nat) : Mover :=
  match m.cursor with
  | none => m
  | some c =>
      { m with cursor := some { c with fragment := c.fragment + 4 * n, left := c.left - 4 * n },
               chain := if c.left - 4 * n = 0 then .exhausted else m.chain }

/-- A burst starts: the cursor or the fetch advances; an inbound permit and a fetch's are reduced, and outbound words
leave the FIFO (R153, R155, R158; log 16). No check of R120 keeps a patch's source below the top of the address space;
the fetch's address wraps at 2^32 (the model's choice, log 32). -/
def Mover.startBurst (m : Mover) (a : MoverAccess) : Mover :=
  match a with
  | .descriptor _ _ => m
  | .readBurst address beats =>
      if m.direction = some .fetch then
        { m with access := some (.readBurst address beats), permit := m.permit - 4 * beats,
                 fetch := m.fetch.map (fun f => { f with address := (f.address + 4 * beats) % Config.addressTop }) }
      else { m.advance beats with access := some (.readBurst address beats), permit := m.permit - 4 * beats }
  | .writeBurst address words =>
      { m.advance words.length with access := some (.writeBurst address words), fifo := m.fifo.drop words.length }

/-! ## Ends of accesses (R153, R155, R158, R161) -/

/-- The mover is back at its values after reset and reports FLUSHED (R159). -/
def State.moverFlushed (s : State) : State := { s with mover := Mover.reset }.emit .flushed

/-- The ending UNIT WRITTEN is reported `n` times (R155). -/
def State.emitUnits (s : State) : Nat → State
  | 0 => s
  | n + 1 => (s.emit .unitWritten).emitUnits n

/-- A read burst ended: its words join the FIFO (R153, R158); a bus error gives the pending ending BUS_ERROR, or ends
the fetch at once (R161). After END its words are not used (R159). -/
def State.endReadBurst (s : State) (words : Option (List Word)) : State :=
  let m := { s.mover with access := none }
  if m.ended then { s with mover := m }.moverFlushed
  else match words with
    | some ws => { s with mover := { m with fifo := m.fifo ++ ws } }
    | none =>
        if m.fetch.isSome then { s with mover := { m with fetch := none, phase := .stopped } }.emit (.moverEnding .busError)
        else { s with mover := { m with pendingEnding := some .busError } }

/-- A write burst ended: its words are counted and the units they complete reported, or the ending is BUS_ERROR
(R155, R161). -/
def State.endWriteBurst (s : State) (n : Nat) (ok : Bool) : State :=
  let m := { s.mover with access := none }
  if ok then
    let u := m.unitSize / 4
    let done := (m.written + n) / u - m.written / u
    { s with mover := { m with written := m.written + n, permit := m.permit - 4 * n,
                               unitsWritten := m.unitsWritten + done } }.emitUnits done
  else { s with mover := { m with pendingEnding := some .busError } }

/-- The beats of one access of a descriptor read: the four words singly at burst length 1, else one burst of 4 (R151). -/
def Mover.descriptorBeats (m : Mover) : Nat := if m.burstLength = 1 then 1 else 4

/-- An access of a descriptor read ended, `got` being the words before it: the next single beat is raised, or with the
fourth word the descriptor is checked (R151, R161). R151 gives no order for the four single beats; they are made in
ascending address order (the model's choice, log 45). -/
def State.endDescriptor (s : State) (address : Nat) (got : List Word) (words : Option (List Word)) : State :=
  if s.mover.ended then { s with mover := { s.mover with access := none } }.moverFlushed
  else match words with
    | some ws =>
        let all := got ++ ws
        if all.length < 4 then { s with mover := { s.mover with access := some (.descriptor address all) } }
        else { s with mover := s.mover.enterFragment address (descriptorOf all) }
    | none => { s with mover := { s.mover with access := none, pendingEnding := some .busError } }

/-! ## What the mover does at once -/

/-- A walk that the transfer needs (R152). -/
def State.moverWalk (s : State) : Option State :=
  if s.mover.walkDue then some { s with mover := s.mover.walk } else none

/-- The requester of a fetch takes the words of the FIFO in address order, as soon as they stand there; with the last
the mover reports FETCH DONE (R158; log 38). -/
def State.moverHandsFetch (s : State) : Option State :=
  let m := s.mover
  match m.direction, m.fetch, m.fifo with
  | some .fetch, some f, w :: ws =>
      let got := f.got ++ w :: ws
      some (if m.permit = 0 then { s with mover := { m with fifo := [], fetch := none } }.emit (.fetchDone f.forWhom got)
            else { s with mover := { m with fifo := [], fetch := some { f with got := got } } })
  | _, _, _ => none

/-- A word of four fill bytes (R153). -/
def fillWord (b : Byte) : Word := wordOf b b b b

/-- An INBOUND transfer at the end of its chain with bytes still permitted: fill words as room allows, or SHORT_CHAIN
(R153). An OUTBOUND one with a word to write: SHORT_CHAIN (R155). -/
def State.moverAtEnd (s : State) : Option State :=
  let m := s.mover
  if m.chain = .atEnd ∧ m.pendingEnding = none ∧ m.ended = false then
    match m.direction with
    | some .inbound =>
        if m.phase = .moving ∧ 0 < m.permit then
          match m.fill with
          | some b =>
              let n := min m.free (m.permit / 4)
              if 0 < n then
                some { s with mover := { m with fifo := m.fifo ++ List.replicate n (fillWord b), permit := m.permit - 4 * n } }
              else none
          | none => some { s with mover := { m with pendingEnding := some .shortChain } }
        else none
    | some .outbound =>
        if (m.phase = .moving ∨ m.phase = .flushing) ∧ m.fifo ≠ [] then
          some { s with mover := { m with pendingEnding := some .shortChain } }
        else none
    | some .fetch => none
    | none => none
  else none

/-- The coder asks for a word, or its write assembly is empty (R154). -/
def State.coderWants (s : State) : Bool := s.coder.write.elim true (·.asking)

/-- A pending ending is reported: an inbound one once the FIFO is empty and the coder asks for a word or holds no row
(R154); an outbound one at once (R155); one of a flush stops the flush (R159). -/
def State.moverReport (s : State) : Option State :=
  let m := s.mover
  match m.pendingEnding, m.direction with
  | some e, some .inbound =>
      if m.phase = .moving ∧ m.ended = false ∧ m.fifo = [] ∧ s.coderWants = true then
        some ({ s with mover := { m with phase := .stopped } }.emit (.moverEnding e))
      else none
  | some e, some .outbound =>
      if m.phase = .moving then some ({ s with mover := { m with phase := .stopped } }.emit (.moverEnding e))
      else if m.phase = .flushing then some ((s.emit (.moverEnding e)).moverFlushed)
      else none
  | _, _ => none

/-- A flush whose last word has been written ends (R159). -/
def State.moverFlushEnd (s : State) : Option State :=
  let m := s.mover
  if m.phase = .flushing ∧ m.fifo = [] ∧ m.access = none ∧ m.pendingEnding = none then some s.moverFlushed else none

/-! ## END (R159) -/

/-- A requester wants the port: it has raised an access or its burst may start. -/
def State.wantsPort (s : State) : Requester → Bool
  | .sheet => !s.sheetLine.isEmpty
  | .mover => s.mover.access.isSome || s.mover.burstNow.isSome
  | .report => s.patrol.write.isSome

/-- A bus access of the transfer has been granted the port and not ended: a descriptor read, or a burst, started or about
to start. Once granted it runs to its end, and is not cut by the end of the transfer (R157, R159). -/
def State.moverBusy (s : State) : Bool := s.wantsPort .mover && s.port == some .mover

/-- END (R159). -/
def State.endTransfer (s : State) : State :=
  let m := s.mover
  match m.phase with
  | .idle => s
  | .moving =>
      if m.direction = some .outbound then { s with mover := { m with phase := .flushing } }
      else if s.moverBusy then { s with mover := { m with fifo := [], ended := true } }
      else s.moverFlushed
  | .stopped => s.moverFlushed
  | .flushing => s

/-! ## A word handed (R155) -/

/-- The FIFO has room for a word of the owner. -/
def Mover.accepts (m : Mover) : Bool :=
  m.phase == .moving && m.direction == some .outbound && m.pendingEnding.isNone && decide (m.fifo.length < Config.fifoWords)

/-- A word joins the FIFO. -/
def State.handWord (s : State) (w : Word) : State :=
  { s with mover := { s.mover with fifo := s.mover.fifo ++ [w], handed := s.mover.handed + 1 } }

/-! ## The arbiter (R160) -/

/-- A block has an access for the sheet access requester to carry. -/
def State.hasAccess (s : State) : SheetUser → Bool
  | .sheets => s.sheets.access.isSome
  | .config => s.modes.configRead.isSome

/-- The accesses raised at the sheet access requester: those that stood there, then those given since, the sheet
processor's first (R160). -/
def State.raised (s : State) : List SheetUser :=
  let kept := s.sheetLine.filter s.hasAccess
  kept ++ [SheetUser.sheets, .config].filter (fun u => s.hasAccess u && !kept.contains u)

/-- An access just given is raised at the port (R160). -/
def State.raiseAccess (s : State) : Option State :=
  if s.raised = s.sheetLine then none else some { s with sheetLine := s.raised }

/-- The idle port is granted in the fixed order; a grant whose request has been withdrawn is given up (R160). -/
def State.arbitrate (s : State) : Option State :=
  match s.port with
  | some r => if s.wantsPort r then none else some { s with port := none }
  | none =>
      if s.wantsPort .sheet then some { s with port := some .sheet }
      else if s.wantsPort .mover then some { s with port := some .mover }
      else if s.wantsPort .report then some { s with port := some .report }
      else none

/-- The access in progress ends and leaves the port (R160). -/
def State.freePort (s : State) : State := { s with port := none }

/-- The single-beat access in progress at the port is this block's (R160). -/
def State.serves (s : State) (u : SheetUser) : Bool :=
  decide (s.port = some .sheet) && decide (s.sheetLine.head? = some u)

/-- The single-beat access in progress ends: it leaves the port, and the next of the two blocks' accesses stands first
(R160). -/
def State.endBeat (s : State) : State := { s with port := none, sheetLine := s.sheetLine.drop 1 }

end Sys2Proof.Machine
end

