-- ==== Sys2Proof/Machine/Writer.lean ====
section
/-! DEFINITION. The row writer (chapter 5): checks and start of WRITE ROWS, the two-row pipeline, program failure,
protection, the chain's end, the end of the order. -/

namespace Sys2Proof.Machine

/-! ## Checks and start (R90, R91) -/

/-- The first check of R90 that fails, from step 2 on; step 1 is the sheet processor's (R64). -/
def State.checkWrite (s : State) (o : Order) : Option OrderStatus :=
  let r := s.band o.band
  if Config.bands ≤ o.band then some .badBand
  else if s.table.storeFault then some .storeFault
  else if s.protect.frozen o.band then some .frozen
  else if s.protect.locked o.band then some .protected_
  else if ¬(r.state = .blank ∨ r.state = .opened) then some .bandState
  else if ¬(o.atNext = true ∨ o.startRow = r.nextRow) then some .badRow
  else if ¬(1 ≤ o.count ∧ o.count ≤ Config.rows ∧ r.nextRow + o.count ≤ Config.rows) then some .badCount
  else none

/-- The context of an order that starts (R91). -/
def Writer.start (o : Order) (r : BandRecord) : Writer :=
  { Writer.reset with
    order := some o, band := o.band, level := r.level, nextRow := r.nextRow, toBegin := o.count,
    bytesNeeded := o.count * rowBytes r.level }

/-- The row writer takes a WRITE ROWS order (R89, R91). -/
def State.startWrite (s : State) (o : Order) : State :=
  match s.checkWrite o with
  | some st => s.emit (.orderEnd (plainResult st))
  | none =>
      let r := s.band o.band
      ({ s with writer := Writer.start o r }.claimCoder .writer).startMover .writer .inbound o.chain.toNat
        (o.count * rowBytes r.level) 0 (if o.fill then some o.fillByte else none)

/-! ## Endings and discards -/

/-- The first ending set stands (R106). -/
def Writer.setEnding (w : Writer) (st : OrderStatus) : Writer :=
  match w.ending with
  | some _ => w
  | none => { w with ending := some st }

/-- The lanes whose CACHE LOAD the coder has placed for the row it assembles. -/
def State.placedLanes (s : State) : List Lane := s.coder.write.elim [] (·.loaded)

/-- The coder's write assembly holds this row. -/
def State.assembles (s : State) (row : Nat) : Bool := s.coder.write.elim false (fun a => decide (a.row = row))

/-- A row that is not committed is discarded (R105): the coder abandons it, its loaded lanes discard it. If the coder has
not taken its BEGIN WRITE ROW yet, that request is withdrawn: so R154 has it for the mover's ending; for a band made
FAILED (R101) and a FAULT for OPEN (R94) no rule speaks of it (the model's choice, log 47). -/
def State.discardFlight (s : State) (f : Flight) : State :=
  let s := { s with writer := { s.writer with flights := s.writer.flights.filter (fun g => g.row != f.row) } }
  match f.cond with
  | .assembling => if s.assembles f.row then s.abandonRow.giveAll .cacheDiscard s.placedLanes else s.withdrawWrite f.row
  | .loaded => s.giveAll .cacheDiscard f.loaded
  | .committed => s
  | .discarding => s

/-- Every row that is not committed is discarded. -/
def State.discardAll (s : State) : List Flight → State
  | [] => s
  | f :: fs => (s.discardFlight f).discardAll fs

/-- The rows in flight that are not committed. -/
def Writer.uncommitted (w : Writer) : List Flight :=
  w.flights.filter (fun f => decide (f.cond = .assembling) || decide (f.cond = .loaded))

/-! ## Beginning a row (R92, R93) -/

/-- The question ROW GO is due: the conditions of R92, and no answer is outstanding. -/
def State.writerAsks (s : State) : Bool :=
  let w := s.writer
  w.order.isSome && decide (w.toBegin ≠ 0) && w.ending.isNone && w.stopped.isNone && !w.go && !s.sheets.questionHeld &&
    match w.flights with
    | [] => true
    | [f] => decide (f.cond = .committed)
    | _ => false

/-- Row N begins (R93). -/
def State.beginRow (s : State) : State :=
  let w := s.writer
  let r := s.band w.band
  let lanes := lanesMinus (r.present w.nextRow) w.lanesFailed
  let f : Flight := { row := w.nextRow, cond := .assembling, loadSet := lanes, loaded := [], committed := [],
                      awaited := [], failed := [], permitAsked := false }
  let opens := decide (r.state = .blank)
  let b : RowBegin := { band := w.band, row := w.nextRow, level := w.level, purpose := .deliver, lanes := lanes }
  let s := { s with
    writer := { w with flights := w.flights ++ [f], toBegin := w.toBegin - 1, nextRow := w.nextRow + 1,
                       openWait := w.openWait || opens },
    coder := { s.coder with beginWrite := some b } }
  if opens then s.emit (.update .writer (.openBand w.band) true) else s

/-- The steps after GO (R92): the LOST NOTICE wait, the lock, the begin. -/
def State.writerBegin (s : State) : Option State :=
  let w := s.writer
  if w.go ∧ (w.lostWaits = 0 ∨ w.ending.isSome) then
    let s := { s with writer := { w with go := false } }
    if w.ending.isSome then some s
    else if s.protect.locked w.band then some { s with writer := s.writer.setEnding .protected_ }
    else some s.beginRow
  else none

/-! ## Loading and committing (R93, R95) -/

/-- The lanes named by ROW LOADED that have failed and whose page came after their discard (R99 step 4; log 19). -/
def State.lateLoads (s : State) (ls : List Lane) : List Lane :=
  ls.filter (fun l =>
    let c := s.lane l
    s.writer.lanesFailed.contains l && (c.cache.isSome || match c.request with | some (.cacheLoad _ _) => true | _ => false))

/-- ROW LOADED (R93, R99). -/
def State.writerLoaded (s : State) (ls : List Lane) : State :=
  let upd (f : Flight) : Flight := if f.cond = .assembling then { f with cond := .loaded, loaded := ls } else f
  { s with writer := { s.writer with flights := s.writer.flights.map upd } }.giveAll .cacheDiscard (s.lateLoads ls)

/-- The LOADED row whose commit is due: the oldest in flight, or behind a COMMITTED one (R95). -/
def Writer.commitDue (w : Writer) : Option Flight :=
  if w.openWait then none
  else match w.flights with
    | f :: rest =>
        if f.cond = .loaded then (if f.permitAsked then none else some f)
        else if f.cond = .committed then
          match rest with
          | g :: _ => if g.cond = .loaded ∧ g.permitAsked = false then some g else none
          | [] => none
        else none
    | [] => none

/-- The flights with one row changed. -/
def Writer.mapRow (w : Writer) (row : Nat) (f : Flight → Flight) : Writer :=
  { w with flights := w.flights.map (fun g => if g.row = row then f g else g) }

/-- Step 1 of R95: the store permit is asked for. -/
def State.writerCommit (s : State) : Option State :=
  match s.writer.commitDue with
  | some f =>
      some ({ s with writer := s.writer.mapRow f.row (fun g => { g with permitAsked := true }) }.emit (.askPermit .writer))
  | none => none

/-- Steps 2 and 3 of R95, once the permit is answered. -/
def State.writerPermit (s : State) (granted : Bool) : State :=
  let w := s.writer
  match w.flights.find? (fun f => f.permitAsked && decide (f.cond = .loaded)) with
  | none => s
  | some f =>
      if !granted then { s with writer := w.setEnding .storeFault }.discardFlight f
      else if s.protect.locked w.band then { s with writer := w.setEnding .protected_ }.discardFlight f
      else
        let ls := lanesMinus f.loaded w.lanesFailed
        { s with writer := w.mapRow f.row (fun g =>
            if g.cond = FlightCond.loaded then { g with cond := .committed, committed := ls, awaited := ls, permitAsked := false }
            else g) }.giveAll .cacheCommit ls

/-! ## Completion (R96) -/

/-- Row N completes. -/
def State.writerComplete (s : State) : Option State :=
  let w := s.writer
  match w.flights with
  | f :: rest =>
      let r := s.band w.band
      if f.cond = .committed ∧ f.awaited = [] ∧ f.failed.all (fun l => r.absent l f.row) = true then
        some ({ s with writer := { w with flights := rest, rowsDone := w.rowsDone + 1 } }.emit
          (.update .writer (.rowComplete w.band f.row) false))
      else none
  | [] => none

/-- A DISCARDING row leaves the list when the last of its awaited reports has arrived (R101). -/
def State.writerDiscarded (s : State) : Option State :=
  let gone (f : Flight) : Bool := decide (f.cond = .discarding) && f.awaited.isEmpty
  if s.writer.flights.any gone then
    some { s with writer := { s.writer with flights := s.writer.flights.filter (fun f => !gone f) } }
  else none

/-! ## Program failure (R99 to R102) -/

/-- The page of this row stands HELD in the lane. -/
def State.heldAt (s : State) (l : Lane) (row : Nat) : Bool :=
  (s.lane l).cache.elim false (fun p => decide (p.cond = .held) && decide (p.id.row = row))

/-- What becomes of one row in flight once the band is FAILED with failing row `n` (R101). -/
def State.failRow (s : State) (n : Nat) (f : Flight) : State :=
  if f.row < n then s
  else match f.cond with
    | .committed =>
        let held := f.awaited.filter (fun l => s.heldAt l f.row)
        { s with writer := s.writer.mapRow f.row (fun g =>
            { g with cond := .discarding, awaited := lanesMinus g.awaited held }) }.giveAll .cacheDiscard held
    | .assembling => s.discardFlight f
    | .loaded => s.discardFlight f
    | .discarding => s

/-- R101 for every row in flight. -/
def State.failRows (s : State) (n : Nat) : List Flight → State
  | [] => s
  | f :: fs => (s.failRow n f).failRows n fs

/-- The band is FAILED, or the failure could not be recorded: row `n` and those after it do not complete (R101, R102). -/
def State.writerFailed (s : State) (n : Nat) : State :=
  let w := s.writer
  match w.failing with
  | some _ => s.failRows n w.flights
  | none =>
      ({ s with writer := { w with failing := some n, ending := some .programFail } }).failRows n w.flights

/-- A FAIL report for lane `l` and row `n` (R99, R102). -/
def State.writerFail (s : State) (l : Lane) (n : Nat) : State :=
  let w := s.writer
  let upd (f : Flight) : Flight :=
    { f with awaited := if n ≤ f.row then dropLane f.awaited l else f.awaited,
             failed := if f.row = n then addLane f.failed l else f.failed }
  let s1 := { s with writer := { w with lanesFailed := addLane w.lanesFailed l, flights := w.flights.map upd } }
  let s2 := match w.failing with
    | none =>
        { s1 with writer := { s1.writer with lostWaits := s1.writer.lostWaits + 1 } }.emit
          (.update .writer (.programFail w.band l n) true)
    | some f => if n < f then s1.failRows n s1.writer.flights else s1
  (s2.give l .cacheDiscard).withdrawLane l

/-- An end report of a program (R96, R99). -/
def State.writerReport (s : State) (l : Lane) (op : LastOp) : State :=
  if op.outcome = .fail then s.writerFail l op.row
  else
    { s with writer := s.writer.mapRow op.row (fun g => { g with awaited := dropLane g.awaited l }) }

/-- The band table's answer to an update of the row writer (R94, R100 to R102; logs 20, 21). -/
def State.writerAnswer (s : State) (u : Update) (applied : Bool) : State :=
  match u with
  | .openBand _ =>
      if applied || s.table.storeFault then s else { s with writer := { s.writer with openWait := false } }
  | .programFail b _ n =>
      let s := if applied || s.table.storeFault then s
        else { s with writer := { s.writer with lostWaits := s.writer.lostWaits - 1 } }
      if !applied || decide ((s.band b).state = .failed) then s.writerFailed n else s
  | _ => s

/-- A notice for the row writer (R94, R100). -/
def State.writerNotice (s : State) (what : NoticeFor) (stored : Bool) : State :=
  match what with
  | .opened =>
      let s := { s with writer := { s.writer with openWait := false } }
      if stored then s
      else { s with writer := s.writer.setEnding .storeFault }.discardAll s.writer.uncommitted
  | .lost =>
      let w := { s.writer with lostWaits := s.writer.lostWaits - 1 }
      { s with writer := if stored then w else w.setEnding .storeFault }
  | _ => s

/-! ## The chain's end (R105) and the order's end (R106) -/

/-- The status of a mover's ending. -/
def MoverEnding.status : MoverEnding → OrderStatus
  | .shortChain => .shortChain | .fragment => .fragment | .busError => .busError

/-- The row is being loaded. -/
def Flight.isAssembling (f : Flight) : Bool := decide (f.cond = .assembling)

/-- The mover has ended the data path: the row being loaded is discarded (R105). -/
def State.writerMoverEnding (s : State) (e : MoverEnding) : State :=
  let loading := s.writer.flights.filter Flight.isAssembling
  { s with writer := s.writer.setEnding e.status }.discardAll loading

/-- A held question of an order that ends lapses (R106). -/
def State.dropQuestion (s : State) : State := { s with sheets := { s.sheets with questionHeld := false } }

/-- The conditions of R106 hold: END is given to the mover. -/
def State.writerEnd (s : State) : Option State :=
  let w := s.writer
  if w.order.isSome ∧ w.ended = false ∧ w.flights = [] ∧ (w.toBegin = 0 ∨ w.ending.isSome ∨ w.stopped.isSome) ∧
      w.openWait = false ∧ w.lostWaits = 0 ∧ w.go = false then
    some ({ s with writer := { w with ended := true } }.dropQuestion.endTransfer)
  else none

/-- The status of the order (R106). An ending stands before the STOP answered, also one that came after it and that no
begun row gave (the model's choice, log 40). -/
def Writer.status (w : Writer) : OrderStatus :=
  if w.failing.isSome then .programFail
  else match w.ending, w.stopped with
    | some st, _ => st
    | none, some st => st
    | none, none => .ok

/-- Once the mover has flushed and the lanes are clear, the coder is released and the result reported (R89, R106;
log 18). -/
def State.writerFinish (s : State) : Option State :=
  let w := s.writer
  if w.ended ∧ w.flushed ∧ s.lanesClear then
    some ({ s with writer := Writer.reset }.releaseCoder.emit
      (.orderEnd { status := w.status, rowsDone := w.rowsDone, pagesRebuilt := 0, weakSeen := 0 }))
  else none

end Sys2Proof.Machine
end

