-- ==== Sys2Proof/Machine/Reader.lean ====
section
/-! DEFINITION. The row reader (chapter 6): what READ ROWS and COPY ROWS share, and READ ROWS. -/

namespace Sys2Proof.Machine

/-! ## Shared -/

/-- The first ending set stands (R119, R129). -/
def Reader.setEnding (r : Reader) (st : OrderStatus) : Reader :=
  match r.ending with
  | some _ => r
  | none => { r with ending := some st }

/-- The order in progress is a COPY ROWS. -/
def Reader.isCopy (r : Reader) : Bool := r.order.elim false (fun o => decide (o.kind = .copyRows))

/-- The first row of the source range. -/
def Reader.startRow (r : Reader) : Nat := r.order.elim 0 (·.startRow)

/-- A page class that sets the band's attention (R23, R115, R124). -/
def PageClass.attends : PageClass → Bool
  | .weak => true | .uncorrectable => true | .tagMismatch => true | .erased => false | .good => false

/-- The source band's attention is set (R23). -/
def State.readerAttention (s : State) (due : Bool) : State :=
  if due then s.emit (.update .reader (.setAttention s.reader.band) false) else s

/-- Counts and attention from a row report (R115, R125). -/
def State.readerCount (s : State) (rep : RowReport) : State :=
  { s with reader := { s.reader with
      pagesRebuilt := satAdd 65535 s.reader.pagesRebuilt rep.rebuilt,
      weakSeen := satAdd 255 s.reader.weakSeen rep.weak } }.readerAttention (rep.outcomes.any (fun o => o.2.cls.attends))

/-- The question ROW GO is due (R113, R121). -/
def State.readerAsks (s : State) : Bool :=
  let r := s.reader
  r.order.isSome && r.started && decide (r.toBegin ≠ 0) && r.ending.isNone && r.stopped.isNone && !r.go &&
    !s.sheets.questionHeld && (if r.isCopy then r.copyRow.isNone else decide (r.flights.length ≤ 1))

/-! ## READ ROWS: checks and start (R111, R112) -/

/-- The states whose rows may be read (R111, R120). -/
def BandState.readable : BandState → Bool
  | .opened => true | .sealed => true | .failed => true
  | .unused => false | .erasing => false | .blank => false | .retired => false

/-- The first check of R111 that fails, from step 2 on. -/
def State.checkRead (s : State) (o : Order) : Option OrderStatus :=
  let r := s.band o.band
  if Config.bands ≤ o.band then some .badBand
  else if r.state.readable = false then some .bandState
  else if ¬(1 ≤ o.count ∧ o.count ≤ Config.rows) then some .badCount
  else if r.nextRow ≤ o.startRow then some .badRow
  else if r.nextRow < o.startRow + o.count then some .badCount
  else none

/-- The context of a READ ROWS order that starts (R112). -/
def Reader.startRead (o : Order) (rec : BandRecord) : Reader :=
  { Reader.reset with
    order := some o, started := true, usesMover := true, band := o.band, level := rec.level, nextRow := o.startRow,
    toBegin := o.count }

/-- The row reader takes a READ ROWS order (R110, R112). -/
def State.startRead (s : State) (o : Order) : State :=
  match s.checkRead o with
  | some st => s.emit (.orderEnd (plainResult st))
  | none =>
      let rec_ := s.band o.band
      ({ s with reader := Reader.startRead o rec_ }.claimCoder .reader).startMover .reader .outbound o.chain.toNat
        (o.count * rowBytes rec_.level) (rowBytes rec_.level) none

/-! ## READ ROWS: rows (R113 to R117) -/

/-- The coder is given BEGIN READ ROW for a row of the order (R113). -/
def State.giveReadRow (s : State) (row : Nat) (lanes : List Lane) : State :=
  let b : RowBegin := { band := s.reader.band, row := row, level := s.reader.level, purpose := .deliver, lanes := lanes }
  { s with coder := { s.coder with beginRead := some b } }

/-- Row N begins: its lanes are given PAGE READ, and the coder the row if it is alone in flight (R113). -/
def State.beginRead (s : State) : State :=
  let r := s.reader
  let lanes := (s.band r.band).present r.nextRow
  let alone := r.flights.isEmpty
  let f : ReadFlight := { row := r.nextRow, judged := false, expected := lanes }
  let s := { s with reader := { r with flights := r.flights ++ [f], toBegin := r.toBegin - 1, nextRow := r.nextRow + 1 } }
  let s := s.giveAll (.pageRead { band := r.band, row := f.row, level := r.level }) lanes
  if alone then s.giveReadRow f.row lanes else s

/-- The steps after GO for a read (R113): a void row ends the order, any other begins. -/
def State.readBegin (s : State) : Option State :=
  let r := s.reader
  if r.go ∧ r.isCopy = false then
    let s := { s with reader := { r with go := false } }
    if r.ending.isSome then some s
    else if (s.band r.band).isVoid r.nextRow then some { s with reader := s.reader.setEnding .voidRow }
    else some s.beginRead
  else none

/-- The judgement of a row to deliver (R115). -/
def State.readJudged (s : State) (rep : RowReport) : State :=
  let s := s.readerCount rep
  match rep.verdict with
  | .unrecoverable => { s with reader := { s.reader.setEnding .dataLoss with flights := [] } }
  | _ =>
      match s.reader.flights with
      | f :: rest => { s with reader := { s.reader with flights := { f with judged := true } :: rest } }
      | [] => s

/-- ROW DELIVERED (R116): the row leaves the flight, and the coder is given the next one in flight. -/
def State.readDelivered (s : State) : State :=
  let rest := s.reader.flights.drop 1
  let s := { s with reader := { s.reader with flights := rest } }
  match rest with
  | f :: _ => s.giveReadRow f.row f.expected
  | [] => s

/-- ROW WRITTEN (R116). -/
def State.readWritten (s : State) : State :=
  { s with reader := { s.reader with rowsDone := s.reader.rowsDone + 1 } }

/-- The mover has ended a read's data path (R118, R57). -/
def State.readMoverEnding (s : State) (e : MoverEnding) : State :=
  { s with reader := { s.reader.setEnding e.status with flights := [] } }.closeRead

/-! ## End of the order (R119, R129) -/

/-- No row will begin any more. -/
def Reader.noMore (r : Reader) : Bool := decide (r.toBegin = 0) || r.ending.isSome || r.stopped.isSome

/-- The pages left in the lanes' cache registers belong to no row in flight (R119, R123). -/
def Reader.leftovers (r : Reader) : Bool :=
  r.order.isSome && r.started &&
    (if r.isCopy then r.copyRow.elim true (·.closed) else r.flights.isEmpty && r.noMore)

/-- The lane holds a READ page and no request (R119). -/
def LaneCtl.holdsRead (c : LaneCtl) : Bool := c.cacheIs .read && c.port.isNone && c.waiting.isEmpty

/-- A READ page of a row that is not judged is discarded (R119, R123). -/
def State.readerCleanup (s : State) : Option State :=
  if s.reader.leftovers then
    match Lane.all.find? (fun l => (s.lane l).holdsRead) with
    | some l => some (s.give l .cacheDiscard)
    | none => none
  else none

/-- The conditions under which the order gives END to the mover (R119, R120, R129). -/
def Reader.endDue (r : Reader) : Bool :=
  r.order.isSome && !r.ended && !r.go &&
    (if r.started then
      r.flights.isEmpty && r.copyRow.isNone && r.noMore && !r.openWait && decide (r.lostWaits = 0)
    else r.ending.isSome)

/-- END is given, when the order has a transfer (R119, R120, R129). -/
def State.readerEnd (s : State) : Option State :=
  let r := s.reader
  if r.endDue then
    let s := { s with reader := { r with ended := true, flushed := !r.usesMover } }.dropQuestion
    some (if r.usesMover then s.endTransfer else s)
  else none

/-- The status of the order (R119, R129). An ending stands before the STOP answered, also one that came after it and that
no begun row gave (the model's choice, log 40). -/
def Reader.status (r : Reader) : OrderStatus :=
  if r.failing.isSome then .programFail
  else match r.ending, r.stopped with
    | some st, _ => st
    | none, some st => st
    | none, none => if 0 < r.pagesRebuilt then .okRebuilt else .ok

/-- Once the mover has flushed and the lanes are clear, the result is reported and the coder released (R110, R119,
R120, R129). -/
def State.readerFinish (s : State) : Option State :=
  let r := s.reader
  if r.ended ∧ r.flushed ∧ (r.started = false ∨ s.lanesClear = true) then
    let s := { s with reader := Reader.reset }
    let s := if r.started then s.releaseCoder else s
    some (s.emit (.orderEnd
      { status := r.status, rowsDone := r.rowsDone, pagesRebuilt := r.pagesRebuilt, weakSeen := r.weakSeen }))
  else none

end Sys2Proof.Machine
end

