-- ==== Sys2Proof/Machine/Copy.lean ====
section
/-! DEFINITION. COPY ROWS (6.3): checks with the patch descriptor, the lane plan, in-lane moves, the coder's pages,
program failure in the target, short rows. -/

namespace Sys2Proof.Machine

/-! ## Checks and start (R120, R121) -/

/-- The first check of R120 that fails, from step 2 to step 11. -/
def State.checkCopy (s : State) (o : Order) : Option OrderStatus :=
  let src := s.band o.band
  let tgt := s.band o.targetBand
  if Config.bands ≤ o.band ∨ Config.bands ≤ o.targetBand then some .badBand
  else if s.table.storeFault then some .storeFault
  else if s.protect.frozen o.targetBand then some .frozen
  else if s.protect.locked o.targetBand then some .protected_
  else if ¬(src.state.readable = true ∧ (tgt.state = .blank ∨ tgt.state = .opened)) then some .bandState
  else if src.level ≠ tgt.level then some .levelMismatch
  else if ¬(1 ≤ o.count ∧ o.count ≤ Config.rows) then some .badCount
  else if src.nextRow ≤ o.startRow then some .badRow
  else if src.nextRow < o.startRow + o.count ∨ Config.rows < tgt.nextRow + o.count then some .badCount
  else if src.voids.any (fun v => decide (o.startRow ≤ v) && decide (v < o.startRow + o.count)) then some .voidRow
  else none

/-- The context of a COPY ROWS order whose checks 1 to 11 have passed (R121); `started` once step 12 has. -/
def Reader.startCopy (o : Order) (src tgt : BandRecord) (started : Bool) : Reader :=
  { Reader.reset with
    order := some o, started := started, usesMover := !started, band := o.band, level := src.level,
    targetBand := o.targetBand, firstTarget := tgt.nextRow, nextRow := o.startRow, toBegin := o.count }

/-- The row reader takes a COPY ROWS order (R110, R120). Without a patch it starts at once; with one, a FETCH transfer
reads the patch descriptor, unless its address is misaligned. -/
def State.startCopy (s : State) (o : Order) : State :=
  match s.checkCopy o with
  | some st => s.emit (.orderEnd (plainResult st))
  | none =>
      let src := s.band o.band
      let tgt := s.band o.targetBand
      if o.aux2 = 0#32 then { s with reader := Reader.startCopy o src tgt true }.claimCoder .reader
      else
        let s := { s with reader := Reader.startCopy o src tgt false }.startMover .reader .fetch 0 0 0 none
        if o.aux2.toNat % 16 ≠ 0 then { s with reader := s.reader.setEnding .badRange }
        else s.startFetch o.aux2.toNat 4 .descriptor

/-- The patch descriptor has been fetched (R120 step 12). -/
def State.patchDescriptor (s : State) (ws : List Word) : State :=
  let p := patchOf ws
  if p.good (s.reader.order.elim 0 (·.count)) s.reader.level then
    { s with reader := { s.reader with started := true, patch := some p } }.claimCoder .reader
  else { s with reader := s.reader.setEnding .badRange }

/-! ## The lane plan (R122) -/

/-- The patch of this source row, if the order has one for it. -/
def Reader.patchFor (r : Reader) (row : Nat) : Option Patch :=
  r.patch.filter (fun p => decide (r.startRow + p.rowOffset = row))

/-- The lanes a patch names: its data page, P and Q (R122). -/
def patchLanes (level : Level) (p : Patch) : List Lane :=
  laneAt p.index :: ((pLane level).toList ++ (qLane level).toList)

/-- The lane is present in the target at a row (R122). -/
def State.inTarget (s : State) (l : Lane) (row : Nat) : Bool :=
  !(s.band s.reader.targetBand).absent l row && !s.reader.lanesFailed.contains l

/-- The class of one lane in the plan of source row `src` and target row `tgt` (R122). -/
def State.planClass (s : State) (src tgt : Nat) (l : Lane) : PlanClass :=
  let r := s.reader
  let here := !(s.band r.band).absent l src
  let named := (r.patchFor src).elim false (fun p => (patchLanes r.level p).contains l)
  if s.inTarget l tgt then (if here && !named then .move else .build)
  else if here then .feed
  else .idle

/-- Lanes of a class in the plan. -/
def CopyRow.lanesOf (c : CopyRow) (k : PlanClass) : List Lane := Lane.all.filter (fun l => decide (c.plan.get l = k))

/-! ## Beginning a row (R123) -/

/-- The coder is given the row, and the lanes `reads` are given PAGE READ of their source page (R123 step 5, R124). -/
def State.giveCopyRow (s : State) (c : CopyRow) (reads : List Lane) : State :=
  let r := s.reader
  let b : RowBegin := { band := r.band, row := c.source, level := r.level, purpose := .copy,
                        lanes := (s.band r.band).present c.source }
  let s := { s with reader := { r with copyRow := some { c with given := true, reads := reads } },
                    coder := { s.coder with beginRead := some b } }
  s.giveAll (.pageRead { band := r.band, row := c.source, level := r.level }) reads

/-- The mover reads the bytes of the patch, if this row carries it (R128). -/
def State.fetchPatch (s : State) (c : CopyRow) : State :=
  match s.reader.patchFor c.source with
  | some p =>
      let row := s.reader.copyRow.map (fun c => { c with fetching := true })
      { s with reader := { s.reader with copyRow := row } }.startFetch p.source.toNat ((p.length + 3) / 4) .patch
  | none => s

/-- A copy row with this plan, at the start of its steps. -/
def CopyRow.start (src tgt : Nat) (plan : Six PlanClass) : CopyRow :=
  { source := src, target := tgt, plan := plan, phase := .prepare, given := false, fetching := false, reads := [],
    moves := [], outcomes := Six.build (fun _ => none), touched := false, loaded := none, permitAsked := false,
    committed := false, awaited := [], failed := [], judged := false, openFault := false, closed := false }

/-- Steps 3 to 5 of R123, or DATA_LOSS when the lanes absent in the source pass the level (R122). -/
def State.beginCopy (s : State) : State :=
  let r := s.reader
  let rec_ := s.band r.band
  if r.level.val < 6 - (rec_.present r.nextRow).length then { s with reader := r.setEnding .dataLoss }
  else
    let tgt := r.firstTarget + (r.nextRow - r.startRow)
    let c := CopyRow.start r.nextRow tgt (Six.build (s.planClass r.nextRow tgt))
    let opens := decide ((s.band r.targetBand).state = .blank)
    let s := { s with reader := { r with copyRow := some c, toBegin := r.toBegin - 1, nextRow := r.nextRow + 1,
                                         openWait := r.openWait || opens } }
    let s := if opens then s.emit (.update .reader (.openBand r.targetBand) true) else s
    if (c.lanesOf .build).isEmpty then s
    else
      let reads := (rec_.present c.source).filter (fun l => decide (c.plan.get l ≠ .move))
      (s.giveCopyRow c reads).fetchPatch c

/-- The steps after GO for a copy (R123): the LOST NOTICE wait, the target's lock, the begin. -/
def State.copyBegin (s : State) : Option State :=
  let r := s.reader
  if r.go ∧ r.isCopy = true ∧ (r.lostWaits = 0 ∨ r.ending.isSome) then
    let s := { s with reader := { r with go := false } }
    if r.ending.isSome then some s
    else if s.protect.locked r.targetBand then some { s with reader := s.reader.setEnding .protected_ }
    else some s.beginCopy
  else none

/-- The outcomes of moves already reported are passed to the coder (R124). -/
def State.passOutcomes (s : State) (c : CopyRow) : List Lane → State
  | [] => s
  | l :: ls =>
      (match c.outcomes.get l with
        | some o => s.arriveOutcome l o
        | none => s).passOutcomes c ls

/-- The coder has taken a row: the unloads fall due (R114, R123 step 5, R183). -/
def State.readerBegun (s : State) (b : RowBegin) : State :=
  match b.purpose with
  | .deliver => s.giveAll .cacheUnload b.lanes
  | .copy =>
      match s.reader.copyRow with
      | some c => (s.giveAll .cacheUnload c.reads).passOutcomes c Lane.all
      | none => s
  | .check => s.giveAll .cacheUnload b.lanes

/-- The coder produces the target pages of the row, which it has judged RECOVERABLE: the BUILD lanes still present in the
target (R125). -/
def State.produceRow (s : State) (c : CopyRow) : State :=
  match s.coder.read with
  | some r =>
      s.produceCopy r ((c.lanesOf .build).filter (fun l => s.inTarget l c.target)) (s.reader.targetBand, c.target)
  | none => s

/-- The patch bytes have reached the coder's workspace (R128). A row already judged RECOVERABLE has waited for them at the
patch of R58; its pages are produced now (log 25). -/
def State.patchBytes (s : State) (ws : List Word) : State :=
  match s.reader.copyRow with
  | some c =>
      match s.reader.patchFor c.source with
      | some p =>
          if c.fetching then
            let bytes := (ws.flatMap wordBytes).take p.length
            let c := { c with fetching := false }
            let s := { s with reader := { s.reader with copyRow := some c },
                              coder := { s.coder with patch := some { index := p.index, offset := p.offset, bytes := bytes } } }
            if c.judged then s.produceRow c else s
          else s
      | none => s
  | none => s

/-! ## Closing a row (R123, R127) -/

/-- An ending closes the row in flight: the coder is released from it, and its pages that are loaded but not committed
are discarded (R123, R127). -/
def State.closeCopy (s : State) : State :=
  match s.reader.copyRow with
  | none => s
  | some c =>
      if c.closed then s
      else
        let placed := if c.loaded.isNone && c.given then s.coder.read.elim [] (·.loaded) else []
        let loaded := if c.committed then [] else c.loaded.getD []
        let s := { s with reader := { s.reader with
          copyRow := some { c with closed := true, fetching := false, permitAsked := false } } }
        (if c.given then s.closeRead else s).giveAll .cacheDiscard (placed ++ loaded)

/-- An ending is set and the row in flight closed. -/
def State.endCopyRow (s : State) (st : OrderStatus) : State := { s with reader := s.reader.setEnding st }.closeCopy

/-! ## Permits, moves and commits (R123 steps 6 to 9, R125) -/

/-- Step 5 of R123 has ended: the patch bytes are in, and every page read for the coder has been unloaded (log 25). -/
def State.copyPrepared (s : State) (c : CopyRow) : Bool :=
  !c.fetching &&
    (!c.given || c.judged || match s.coder.read with
      | some r => c.reads.all (fun l => !(r.slots.get l).isAwaited)
      | none => false)

/-- Steps 6 and 7 of R123, once step 5 has ended and the OPEN notice is in: after FAULT the row ends STORE_FAULT, else the
store permit is asked for. -/
def State.copyPermit (s : State) : Option State :=
  match s.reader.copyRow with
  | some c =>
      if c.phase = .prepare ∧ c.closed = false ∧ s.reader.openWait = false ∧ s.copyPrepared c = true then
        if c.openFault then some (s.endCopyRow .storeFault)
        else some ({ s with reader := { s.reader with copyRow := some { c with phase := .permit, permitAsked := true } } }.emit
          (.askPermit .reader))
      else none
  | none => none

/-- After ROW LOADED the store permit for the commit is asked for (R125). -/
def State.copyCommit (s : State) : Option State :=
  match s.reader.copyRow with
  | some c =>
      if c.phase = .moving ∧ c.closed = false ∧ c.loaded.isSome ∧ c.committed = false ∧ c.permitAsked = false then
        some ({ s with reader := { s.reader with copyRow := some { c with permitAsked := true } } }.emit
          (.askPermit .reader))
      else none
  | none => none

/-- Step 9 of R123: the MOVE lanes are given PAGE MOVE. -/
def State.giveMoves (s : State) (c : CopyRow) : State :=
  let r := s.reader
  let ls := c.lanesOf .move
  let s := { s with reader := { r with
    copyRow := some { c with phase := .moving, permitAsked := false, moves := ls } } }
  s.giveAll (.pageMove { band := r.band, row := c.source, level := r.level } r.targetBand c.target) ls

/-- The loaded lanes are given CACHE COMMIT (R125). -/
def State.giveCommits (s : State) (c : CopyRow) : State :=
  let ls := lanesMinus (c.loaded.getD []) s.reader.lanesFailed
  let s := { s with reader := { s.reader with
    copyRow := some { c with permitAsked := false, committed := true, awaited := ls,
                             touched := c.touched || !ls.isEmpty } } }
  s.giveAll .cacheCommit ls

/-- A store permit answered, and the target's lock taken (R123 steps 7 to 9, R125). -/
def State.readerPermit (s : State) (granted : Bool) : State :=
  match s.reader.copyRow with
  | some c =>
      if c.permitAsked then
        if !granted then s.endCopyRow .storeFault
        else if s.protect.locked s.reader.targetBand then s.endCopyRow .protected_
        else match c.phase with
          | .permit => s.giveMoves c
          | .moving => s.giveCommits c
          | .prepare => s
      else s
  | none => s

/-! ## Reports (R124, R126) -/

/-- A program of the target fails on lane `l` (R126). -/
def State.copyFail (s : State) (l : Lane) : State :=
  match s.reader.copyRow with
  | none => s.give l .cacheDiscard
  | some c =>
      let r := s.reader
      let r1 := { r with
        lanesFailed := addLane r.lanesFailed l,
        copyRow := some { c with awaited := dropLane c.awaited l, failed := addLane c.failed l } }
      let s := match r.failing with
        | none =>
            { s with reader := { r1 with lostWaits := r.lostWaits + 1 } }.emit
              (.update .reader (.programFail r.targetBand l c.target) true)
        | some _ => { s with reader := r1 }
      (s.give l .cacheDiscard).unnameLane l

/-- The class of a lane whose move has ended (R122): BUILD after SOURCE_BAD; after FAIL the lane is absent in the target,
and with its source present it is FEED. -/
def OpOutcome.reclass (o : OpOutcome) (k : PlanClass) : PlanClass :=
  match o with
  | .sourceBad => .build
  | .fail => .feed
  | .pass => k
  | .seen _ => k

/-- The end report of a move (R122, R124; log 23). With the first SOURCE_BAD the coder is given the row, and each FEED lane
a PAGE READ, those whose own move failed before among them (log 34). -/
def State.moveReport (s : State) (l : Lane) (op : LastOp) (outcome : Option PageOutcome) : State :=
  match s.reader.copyRow with
  | none => s
  | some c =>
      let o := outcome.getD { cls := .good, highest := 0 }
      let bad := decide (op.outcome = .sourceBad)
      let c := { c with moves := dropLane c.moves l, outcomes := c.outcomes.set l (some o),
                        touched := c.touched || !bad, plan := c.plan.set l (op.outcome.reclass (c.plan.get l)) }
      let s := { s with reader := { s.reader with copyRow := some c } }.readerAttention o.cls.attends
      let s := if c.given then s.arriveOutcome l o
        else if bad && !c.closed then s.giveCopyRow c (c.lanesOf .feed)
        else s
      if op.outcome = .fail then s.copyFail l else s

/-- The end report of a committed page (R126, R127). -/
def State.copyProgramReport (s : State) (l : Lane) (op : LastOp) : State :=
  if op.outcome = .fail then s.copyFail l
  else
    { s with reader := { s.reader with
        copyRow := s.reader.copyRow.map (fun c => { c with awaited := dropLane c.awaited l }) } }

/-- The target has become FAILED, or the failure could not be recorded (R126, as R101 and R102). -/
def State.copyFailed (s : State) (row : Nat) : State :=
  match s.reader.failing with
  | some _ => s
  | none => { s with reader := { s.reader with failing := some row, ending := some .programFail } }.closeCopy

/-- The band table's answer to an update of the row reader (R126; logs 20, 21). -/
def State.readerAnswer (s : State) (u : Update) (applied : Bool) : State :=
  match u with
  | .openBand _ =>
      if applied || s.table.storeFault then s else { s with reader := { s.reader with openWait := false } }
  | .programFail b _ n =>
      let s := if applied || s.table.storeFault then s
        else { s with reader := { s.reader with lostWaits := s.reader.lostWaits - 1 } }
      if !applied || decide ((s.band b).state = .failed) then s.copyFailed n else s
  | _ => s

/-- FAULT for OPEN: the row in flight takes it at step 6 of R123, after its step 5; with no row in flight the ending is
STORE_FAULT, unless one is set. -/
def Reader.openFailed (r : Reader) : Reader :=
  match r.copyRow with
  | some c => { r with copyRow := some { c with openFault := true } }
  | none => r.setEnding .storeFault

/-- A notice for the row reader (R123 steps 1 and 6, R126). -/
def State.readerNotice (s : State) (what : NoticeFor) (stored : Bool) : State :=
  match what with
  | .opened =>
      let r := { s.reader with openWait := false }
      { s with reader := if stored then r else r.openFailed }
  | .lost =>
      let r := { s.reader with lostWaits := s.reader.lostWaits - 1 }
      { s with reader := if stored then r else r.setEnding .storeFault }
  | _ => s

/-! ## The coder's part (R125) -/

/-- The verdict on a copy row (R125). A RECOVERABLE row whose patch bytes are still being read waits for them before its
pages are produced (R58 step 2; log 25). -/
def State.copyJudged (s : State) (rep : RowReport) : State :=
  match s.reader.copyRow with
  | none => s
  | some c =>
      let c := { c with judged := true }
      let s := s.readerCount rep
      let s := { s with reader := { s.reader with copyRow := some c } }
      match rep.verdict with
      | .recoverable => if c.fetching then s else s.produceRow c
      | .unrecoverable => s.endCopyRow .dataLoss
      | .needPages => s

/-- NEED_PAGES: each lane named is read and unloaded into the coder (R125). -/
def State.copyNeeds (s : State) (ls : List Lane) : State :=
  match s.reader.copyRow with
  | some c =>
      (s.giveAll (.pageRead { band := s.reader.band, row := c.source, level := s.reader.level }) ls).giveAll .cacheUnload ls
  | none => s

/-- ROW LOADED of a copy row (R125). -/
def State.copyLoaded (s : State) (ls : List Lane) : State :=
  { s with reader := { s.reader with copyRow := s.reader.copyRow.map (fun c => { c with loaded := some ls }) } }

/-- The mover has ended a fetch (R120, R128). -/
def State.copyMoverEnding (s : State) (e : MoverEnding) : State := s.endCopyRow e.status

/-! ## Completion (R127) -/

/-- The WEAK sources that no row report has counted (R124): of a row carried by moves alone, and of a row given to the
coder that was closed before it was judged (the model's choice, log 33). -/
def CopyRow.weakMoves (c : CopyRow) : Nat :=
  if c.judged then 0
  else (Lane.all.filter (fun l => (c.outcomes.get l).elim false (fun o => decide (o.cls = .weak)))).length

/-- The row leaves the flight. -/
def State.dropCopy (s : State) (c : CopyRow) : State :=
  { s with reader := { s.reader with copyRow := none, weakSeen := satAdd 255 s.reader.weakSeen c.weakMoves } }

/-- The row completes: ROW COMPLETE for the target, and rows_done advances (R127). -/
def State.completeCopy (s : State) (c : CopyRow) : State :=
  let s := s.dropCopy c
  { s with reader := { s.reader with rowsDone := s.reader.rowsDone + 1 } }.emit
    (.update .reader (.rowComplete s.reader.targetBand c.target) false)

/-- Every failure of the row has had its PROGRAM FAIL applied (R127). -/
def State.copyFailuresApplied (s : State) (c : CopyRow) : Bool :=
  c.failed.all (fun l => (s.band s.reader.targetBand).absent l c.target)

/-- The row in flight completes, is closed short, or leaves without completing (R123, R126, R127). -/
def State.copyRowEnd (s : State) : Option State :=
  match s.reader.copyRow with
  | none => none
  | some c =>
      if c.moves ≠ [] ∨ c.awaited ≠ [] then none
      else if c.closed then
        if c.touched = false ∨ s.reader.failing.isSome then some (s.dropCopy c)
        else if s.copyFailuresApplied c then some (s.completeCopy c)
        else none
      else if c.phase = .moving ∧ (c.given = false ∨ c.committed = true) ∧ s.copyFailuresApplied c = true then
        some (s.completeCopy c)
      else none

end Sys2Proof.Machine
end

