-- ==== Sys2Proof/Machine/Services.lean ====
section
/-! DEFINITION. The band services and the protection unit: ERASE BAND, SEAL BAND, QUERY BANDS, the lock orders and
FREEZE GROUP (chapters 2, 5 and 7). -/

namespace Sys2Proof.Machine

/-- The order ends with a status and all other result fields 0 (R131). -/
def State.serviceEnd (s : State) (st : OrderStatus) : State :=
  { s with services := Services.reset }.emit (.orderEnd (plainResult st))

/-! ## ERASE BAND (7.1) -/

/-- The first check of R132 that fails, from step 2 on. -/
def State.checkErase (s : State) (o : Order) : Option OrderStatus :=
  if Config.bands ≤ o.band then some .badBand
  else if o.eraseLevel = none then some .badRange
  else if s.table.storeFault then some .storeFault
  else if s.protect.frozen o.band then some .frozen
  else if s.protect.locked o.band then some .protected_
  else match (s.band o.band).state with
    | .unused | .blank | .opened | .sealed | .failed => none
    | .erasing | .retired => some .bandState

/-- The re-check of R133 and, at the same event, ERASE START with notice. -/
def State.eraseBegin (s : State) : State :=
  let v := s.services
  if s.protect.frozen v.band then s.serviceEnd .frozen
  else if s.protect.locked v.band then s.serviceEnd .protected_
  else { s with services := { v with phase := .eraseNotice } }.emit (.update .services (.eraseStart v.band v.level) true)

/-- A lane answers the query of R133 with LANE_IDLE and an empty port. -/
def LaneCtl.answersIdle (c : LaneCtl) : Bool := c.state == .idle && c.port == none

/-- One lane is queried for the erase; when every lane has shown itself idle the erase goes on (R133). -/
def State.eraseQuery (s : State) (l : Lane) : State :=
  let v := s.services
  if v.phase = .queryLanes ∧ (s.lane l).answersIdle = true then
    let ls := dropLane v.lanesAwaited l
    let s := { s with services := { v with lanesAwaited := ls } }
    if ls.isEmpty then s.eraseBegin else s
  else s

/-- The band services take an ERASE BAND order: the six lanes are queried at once (R132, R133). -/
def State.startErase (s : State) (o : Order) : State :=
  match s.checkErase o with
  | some st => s.emit (.orderEnd (plainResult st))
  | none =>
      let ls := Lane.all.filter (fun l => !(s.lane l).answersIdle)
      let v := { Services.reset with
        order := some o, phase := .queryLanes, band := o.band, level := o.eraseLevel.getD 0, lanesAwaited := ls }
      let s := { s with services := v }
      if ls.isEmpty then s.eraseBegin else s

/-- With the permit, BLOCK ERASE goes to all six lanes; refused, the order ends STORE_FAULT (R134). -/
def State.erasePermit (s : State) (granted : Bool) : State :=
  let v := s.services
  if v.phase = .erasePermit then
    if granted then
      { s with services := { v with phase := .erasing, lanesAwaited := Lane.all, failSeen := false } }.giveAll
        (.blockErase v.band) Lane.all
    else s.serviceEnd .storeFault
  else s

/-- An erase end report; with the sixth, ERASE END is given with notice (R134). -/
def State.eraseReport (s : State) (l : Lane) (op : LastOp) : State :=
  let v := s.services
  if v.phase = .erasing then
    let ls := dropLane v.lanesAwaited l
    let failed := v.failSeen || decide (op.outcome = .fail)
    let v := { v with lanesAwaited := ls, failSeen := failed }
    if ls.isEmpty then
      { s with services := { v with phase := .eraseEndNotice } }.emit (.update .services (.eraseEnd v.band (!failed)) true)
    else { s with services := v }
  else s

/-! ## SEAL BAND (5.8) -/

/-- The first check of R107 that fails, from step 2 on. -/
def State.checkSeal (s : State) (o : Order) : Option OrderStatus :=
  if Config.bands ≤ o.band then some .badBand
  else if s.table.storeFault then some .storeFault
  else if s.protect.frozen o.band then some .frozen
  else if s.protect.locked o.band then some .protected_
  else if (s.band o.band).state ≠ .opened then some .bandState
  else none

/-- The band services take a SEAL BAND order (R107). -/
def State.startSeal (s : State) (o : Order) : State :=
  match s.checkSeal o with
  | some st => s.emit (.orderEnd (plainResult st))
  | none =>
      let v := { Services.reset with order := some o, phase := .sealNotice, band := o.band }
      { s with services := v }.emit (.update .services (.sealBand o.band) true)

/-! ## QUERY BANDS (2.8) -/

/-- The first check of R43 that fails, from step 2 on. -/
def checkQuery (o : Order) : Option OrderStatus :=
  if Config.bands ≤ o.band then some .badBand
  else if ¬(1 ≤ o.count ∧ o.count ≤ Config.bands ∧ o.band + o.count ≤ Config.bands) then some .badCount
  else none

/-- The band services take a QUERY BANDS order (R43, R44). -/
def State.startQuery (s : State) (o : Order) : State :=
  match checkQuery o with
  | some st => s.emit (.orderEnd (plainResult st))
  | none =>
      let v := { Services.reset with order := some o, phase := .records, band := o.band, nextRecord := o.band }
      { s with services := v }.startMover .services .outbound o.chain.toNat (o.count * 16) 16 none

/-- The number of records of the order. -/
def Services.count (v : Services) : Nat := v.order.elim 0 (·.count)

/-- The band services hold a word to hand, or a further record to take (R44). -/
def Services.hasWord (v : Services) : Bool :=
  decide (v.phase = .records) && !v.ended && v.ending.isNone &&
    (!v.words.isEmpty || decide (v.nextRecord < v.band + v.count))

/-- The words of the record in hand, the next record being taken at its first word (R44; log 24). -/
def State.recordWords (s : State) : List Word :=
  let v := s.services
  if v.words.isEmpty then
    queryRecord v.nextRecord (s.band v.nextRecord) (s.protect.locked v.nextRecord) (s.protect.frozen v.nextRecord)
  else v.words

/-- A word of a band query record joins the FIFO (R44, R155). -/
def State.handRecordWord (s : State) : State :=
  let v := s.services
  let next := if v.words.isEmpty then v.nextRecord + 1 else v.nextRecord
  match s.recordWords with
  | w :: rest => { s with services := { v with words := rest, nextRecord := next } }.handWord w
  | [] => s

/-- A record has been written whole: it counts, and its flag is cleared when the order asks for it (R44). -/
def State.recordWritten (s : State) : State :=
  let v := s.services
  let clear := v.order.elim false (·.clearAttention)
  let v1 := { v with written := v.written + 1, answers := if clear then v.answers + 1 else v.answers }
  let s := { s with services := v1 }
  if clear then s.emit (.update .services (.clearAttention (v.band + v.written)) false) else s

/-- The mover has ended a query's data path (R44). -/
def State.queryMoverEnding (s : State) (e : MoverEnding) : State :=
  { s with services := { s.services with ending := some (s.services.ending.getD e.status), words := [] } }

/-- Every record has been written, or the mover has ended the order: END is given (R44, R159). -/
def State.queryEnd (s : State) : Option State :=
  let v := s.services
  if v.phase = .records ∧ v.ended = false ∧ (v.ending.isSome ∨ v.count ≤ v.written) then
    some ({ s with services := { v with ended := true } }.endTransfer)
  else none

/-- The result is reported after the flush and every answer (R44). -/
def State.queryFinish (s : State) : Option State :=
  let v := s.services
  if v.phase = .records ∧ v.ended = true ∧ v.flushed = true ∧ v.answers = 0 then
    some ({ s with services := Services.reset }.emit (.orderEnd
      { status := v.ending.getD .ok, rowsDone := v.written, pagesRebuilt := 0, weakSeen := 0 }))
  else none

/-! ## The lock orders (7.3) -/

/-- Steps 2 and 3 of R141 to R143. -/
def Protection.checkLock (p : Protection) : Option OrderStatus :=
  if !p.lockEnable then some .lockDisabled else if p.tight then some .lockTight else none

/-- SET UNLOCK RANGE on the picture (R141). -/
def Protection.setRange (p : Protection) (r : UnlockRange) : Protection × OrderStatus :=
  match p.checkLock with
  | some st => (p, st)
  | none =>
      if r.low ≤ r.high ∧ r.high < Config.bands then ({ p with range := some r, lockAll := false }, .ok)
      else (p, .badRange)

/-- LOCK ALL on the picture (R142). -/
def Protection.lockEvery (p : Protection) : Protection × OrderStatus :=
  match p.checkLock with
  | some st => (p, st)
  | none => ({ p with range := none, lockAll := true }, .ok)

/-- LOCK TIGHT on the picture (R143). -/
def Protection.makeTight (p : Protection) : Protection × OrderStatus :=
  match p.checkLock with
  | some st => (p, st)
  | none => if p.inhibit then (p, .protected_) else ({ p with tight := true }, .ok)

/-- A lock order is taken whole at one event and reports at once (7.3). -/
def State.lockOrder (s : State) (r : Protection × OrderStatus) : State :=
  { s with protect := r.1 }.emit (.orderEnd (plainResult r.2))

/-! ## FREEZE GROUP (7.4) -/

/-- Some band of a group is ERASING (R146). -/
def State.groupErasing (s : State) (g : Nat) : Bool :=
  s.table.working.any (fun e => decide (e.1 / Config.groupBands = g) && decide (e.2.state = .erasing))

/-- The first check of R146 that ends the order; step 4 ends it OK. -/
def State.checkFreeze (s : State) (o : Order) : Option OrderStatus :=
  if !s.protect.lockEnable then some .lockDisabled
  else if 64 ≤ o.group then some .badRange
  else if s.protect.working.getLsbD o.group then some .ok
  else if s.table.storeFault then some .storeFault
  else if s.groupErasing o.group then some .bandState
  else none

/-- The group of the freeze in hand. -/
def Services.group (v : Services) : Nat := v.order.elim 0 (·.group)

/-- The fuse write begins (R147, R148). -/
def State.beginFuse (s : State) : State :=
  { s with services := { s.services with phase := .fuseWriting },
           protect := { s.protect with fuseWrite := some s.services.group } }

/-- The band services take a FREEZE GROUP order (R146, R147). -/
def State.startFreeze (s : State) (o : Order) : State :=
  match s.checkFreeze o with
  | some st => s.emit (.orderEnd (plainResult st))
  | none =>
      let s := { s with services := { Services.reset with order := some o, phase := .freezeCommit } }
      if s.table.marker then s.beginFuse else s.emit (.commitRequest .services false true)

/-- The fuse row and its working copy with a bit set: a one-way change (R144, R148). -/
def Protection.blow (p : Protection) (g : Nat) : Protection :=
  { p with fuses := p.fuses ||| (1#64 <<< g), working := p.working ||| (1#64 <<< g), fuseWrite := none }

/-- A fuse write ends (R148): the bit is set, and the order in progress ends OK. -/
def State.endFuse (s : State) : State :=
  match s.protect.fuseWrite with
  | some g =>
      let s1 := { s with protect := s.protect.blow g }
      if s.services.phase = .fuseWriting then s1.serviceEnd .ok else s1
  | none => s

/-! ## What the band services are told -/

/-- The band table's answer to an update of the band services: CLEAR ATTENTION is counted off (R44). An ERASE START, ERASE
END or SEAL answered NOT_APPLIED without STORE_FAULT ends its order BAND_STATE: R107 and R132 to R135 give no status
there, and no run should reach it (the model's choice, log 46). -/
def State.servicesAnswer (s : State) (u : Update) (applied : Bool) : State :=
  let v := s.services
  match u with
  | .clearAttention _ => { s with services := { v with answers := v.answers - 1 } }
  | .eraseStart _ _ =>
      if applied || s.table.storeFault || decide (v.phase ≠ .eraseNotice) then s else s.serviceEnd .bandState
  | .eraseEnd _ _ =>
      if applied || s.table.storeFault || decide (v.phase ≠ .eraseEndNotice) then s else s.serviceEnd .bandState
  | .sealBand _ =>
      if applied || s.table.storeFault || decide (v.phase ≠ .sealNotice) then s else s.serviceEnd .bandState
  | _ => s

/-- A notice for the band services (R107, R133 to R135, R147). -/
def State.servicesNotice (s : State) (what : NoticeFor) (stored : Bool) : State :=
  let v := s.services
  match what, v.phase with
  | .eraseStart, .eraseNotice =>
      if stored then { s with services := { v with phase := .erasePermit } }.emit (.askPermit .services)
      else s.serviceEnd .storeFault
  | .eraseEnd, .eraseEndNotice =>
      s.serviceEnd (if !stored then .storeFault else if v.failSeen then .eraseFail else .ok)
  | .sealed, .sealNotice => s.serviceEnd (if stored then .ok else .storeFault)
  | .commitEnd, .freezeCommit => if stored then s.beginFuse else s.serviceEnd .storeFault
  | _, _ => s

end Sys2Proof.Machine
end

