-- ==== Sys2Proof/Machine/Sheets.lean ====
section
/-! DEFINITION. The sheet processor (chapter 4): posting, activation, orders, results, row questions, HOLD, RESUME,
ABORT, the closing of sheets and sheet faults. -/

namespace Sys2Proof.Machine

/-! ## Posting (R67) -/

/-- The modes in which a post is refused STATE (R67). -/
def Mode.refusesPost : Mode → Bool
  | .cold => true | .faulted => true | .awaitConfig => true | .drain => true | .parked => true
  | .run => false | .holding => false | .held => false | .standby => false | .patrol => false

/-- The first check of R67 that refuses a post. -/
def State.checkPost (s : State) (a : Word) : Option Reason :=
  if s.modes.mode.refusesPost then some .state
  else if a = 0#32 ∨ a.toNat % 32 ≠ 0 then some .align
  else if Config.queueDepth ≤ s.sheets.queue.length then some .full
  else none

/-- A post that has passed the checks joins the queue at its end (R67). -/
def State.enqueue (s : State) (a : Word) : State := { s with sheets := { s.sheets with queue := s.sheets.queue ++ [a] } }

/-! ## The sheet in hand (R69, R82) -/

/-- A sheet that is activated or taken up for closing, its header not yet read (R70, R82). -/
def SheetRun.fresh (a : Word) (e : Ending) : SheetRun :=
  { address := a, header := .unread, count := 0, notify := false, haltOnError := false, index := 0, ok := 0, failed := 0,
    skipped := 0, halted := false, ending := e }

/-- The sheet whose accesses are made: the active one, else the one of the closing list in hand (R82). -/
def Sheets.inHand (h : Sheets) : Option SheetRun :=
  match h.active with
  | some r => some r
  | none => h.closer

/-- The sheet in hand replaced. -/
def Sheets.setHand (h : Sheets) (r : SheetRun) : Sheets :=
  match h.active with
  | some _ => { h with active := some r }
  | none => { h with closer := some r }

/-- The sheet in hand is gone: it is no longer active, or it has left the closing list (R75, R82, R85). -/
def Sheets.dropHand (h : Sheets) : Sheets :=
  match h.active with
  | some _ => { h with active := none }
  | none => { h with closer := none, closing := h.closing.drop 1 }

/-- A sheet fault (R85): SHEET_FAULT is set and the sheet dropped. -/
def State.sheetFault (s : State) : State :=
  { s with sheets := { s.sheets.dropHand with access := none } }.setEvent .sheetFault

/-! ## Activation and the header (R70, R71) -/

/-- The conditions of R70. -/
def State.mayActivate (s : State) : Bool :=
  !s.sheets.queue.isEmpty && decide (s.modes.mode = .run) && s.sheets.active.isNone && decide (s.sheets.stop = .none) &&
    s.sheets.closing.isEmpty

/-- Activation (R70): the oldest address becomes the active sheet, and its header read is raised. -/
def State.activate (s : State) : State :=
  if s.mayActivate then
    match s.sheets.queue with
    | a :: rest =>
        { s with sheets := { s.sheets with queue := rest, active := some (SheetRun.fresh a .normal),
                                           access := some (.header []) } }
    | [] => s
  else s

/-- The header words read, as the sheet in hand takes them (R71). -/
def SheetRun.withHeader (r : SheetRun) (h : Header) : SheetRun :=
  { r with header := if h.accepted then .accepted else .refused, count := h.count, notify := h.notify,
           haltOnError := h.haltOnError }

/-- The sheet access in progress set or ended. -/
def State.setAccess (s : State) (a : Option SheetAccess) : State := { s with sheets := { s.sheets with access := a } }

/-- One of the two header reads ends; with the second the header is checked (R70, R71, R85). -/
def State.endHeaderRead (s : State) (reply : BusReply) : State :=
  match s.sheets.access, s.sheets.inHand with
  | some (.header got), some r =>
      match s.beatRead reply (headerWordAddress r.address got.length) with
      | (s, none) => s.sheetFault
      | (s, some w) =>
          match got with
          | [] => s.setAccess (some (.header [w]))
          | w0 :: _ => { s with sheets := { s.sheets.setHand (r.withHeader (headerOf w0 w)) with access := none } }
  | _, _ => s

/-! ## Orders (R72, R73) -/

/-- The conditions of R72. -/
def State.mayStartOrder (s : State) : Bool :=
  s.sheets.active.elim false (fun r => decide (r.header = .accepted) && decide (r.index < r.count) && !r.halted) &&
    s.sheets.order.isNone && s.sheets.access.isNone && decide (s.sheets.stop = .none) && decide (s.modes.mode = .run)

/-- The entry read is raised (R72). -/
def State.startEntryRead (s : State) : State :=
  if s.mayStartOrder then { s with sheets := { s.sheets with access := some (.entry []) } } else s

/-- The order is handed to its path (R64, R72). -/
def State.handOrder (s : State) (o : Order) : State :=
  match o.kind with
  | .writeRows => s.startWrite o
  | .readRows => s.startRead o
  | .copyRows => s.startCopy o
  | .eraseBand => s.startErase o
  | .sealBand => s.startSeal o
  | .queryBands => s.startQuery o
  | .setUnlockRange => s.lockOrder (s.protect.setRange o.unlockRange)
  | .lockAll => s.lockOrder s.protect.lockEvery
  | .lockTight => s.lockOrder s.protect.makeTight
  | .freezeGroup => s.startFreeze o

/-- The six order words have been read: they are set aside, or the order starts, or it ends BAD_KIND (R64, R72). -/
def State.takeEntry (s : State) (index : Nat) (ws : List Word) : State :=
  let s := s.setAccess none
  if s.modes.mode ≠ .run ∨ s.sheets.stop ≠ .none then s
  else
    match orderOf (ws.getD 0 0#32) (ws.getD 1 0#32) (ws.getD 2 0#32) (ws.getD 3 0#32) (ws.getD 4 0#32) with
    | none => s.setAccess (some (.result (plainResult .badKind) 0))
    | some o => { s with sheets := { s.sheets with order := some { kind := o.kind, index := index } } }.handOrder o

/-- One of the six reads of an entry ends; with the last the words are taken (R72, R85). R72 gives no order for the six;
they are read in ascending address order, words 0 to 5 (the model's choice, log 45). -/
def State.endEntryRead (s : State) (reply : BusReply) : State :=
  match s.sheets.access, s.sheets.active with
  | some (.entry got), some r =>
      match s.beatRead reply (entryWordAddress r.address r.index got.length) with
      | (s, none) => s.sheetFault
      | (s, some w) => if got.length < 5 then s.setAccess (some (.entry (got ++ [w]))) else s.takeEntry r.index (got ++ [w])
  | _, _ => s

/-- An order has ended: its result is written into the entry (R73). -/
def State.takeOrderEnd (s : State) (r : OrderResult) : State :=
  { s with sheets := { s.sheets with order := none, access := some (.result r 0), questionHeld := false } }

/-- The sheet's position and counts after a result has been written (R73). -/
def SheetRun.counted (r : SheetRun) (st : OrderStatus) : SheetRun :=
  match st.cls with
  | .ok => { r with index := r.index + 1, ok := r.ok + 1 }
  | .skipped => { r with index := r.index + 1, skipped := r.skipped + 1 }
  | .failed => { r with index := r.index + 1, failed := r.failed + 1, halted := r.halted || r.haltOnError }

/-- The write of a result that its access makes next, as a list of one: word 2 first, then word 1 (R65). -/
def nextResultWrite (r : SheetRun) (v : OrderResult) (done : Nat) : List (Nat × Word) :=
  ((resultWrites r.address r.index v).drop done).take 1

/-- One of the two result writes ends; with the second the result counts (R65, R73, R85). -/
def State.endResultWrite (s : State) (reply : BusReply) : State :=
  match s.sheets.access, s.sheets.inHand with
  | some (.result v done), some r =>
      match s.busWrite reply (nextResultWrite r v done) with
      | (s, true) =>
          if done = 0 then s.setAccess (some (.result v 1))
          else { s with sheets := { s.sheets.setHand (r.counted v.status) with access := none } }
      | (s, false) => s.sheetFault
  | _, _ => s

/-! ## Closing a sheet (R66, R75) -/

/-- The completion state (R66). -/
def SheetRun.completion (r : SheetRun) : CompletionState :=
  if r.header = .refused then .doneRefused
  else match r.ending with
    | .aborted => .doneAborted
    | .interrupted => .doneInterrupted
    | .normal => if r.failed = 0 then .doneOk else .doneErrors

/-- The completion word of a sheet (R66): a refused one counts its order count as skipped. -/
def SheetRun.completionWord (r : SheetRun) : Word :=
  if r.header = .refused then Machine.completionWord .doneRefused 0 0 r.count
  else Machine.completionWord r.completion r.ok r.failed r.skipped

/-- The completion write ends (R75, R85). -/
def State.endCompletionWrite (s : State) (reply : BusReply) : State :=
  match s.sheets.access, s.sheets.inHand with
  | some (.completion w), some r =>
      match s.busWrite reply [(headerWordAddress r.address 1, w)] with
      | (s, true) =>
          let s := { s with sheets := { s.sheets.dropHand with access := none } }
          if r.notify then s.setEvent .sheetDone else s
      | (s, false) => s.sheetFault
  | _, _ => s

/-! ## What the sheet processor does at once -/

/-- The sheet in hand, with no order in progress and no access, its header read. -/
def Sheets.atRest (h : Sheets) : Option SheetRun :=
  if h.order.isSome || h.access.isSome then none
  else h.inHand.filter (fun r => decide (r.header ≠ .unread))

/-- The next entry is skipped (R74, R82). -/
def State.sheetSkip (s : State) : Option State :=
  match s.sheets.atRest with
  | some r =>
      if r.header = .accepted ∧ r.index < r.count ∧ (r.halted = true ∨ r.ending ≠ .normal) then
        some { s with sheets := { s.sheets with access := some (.result (plainResult .skipped) 0) } }
      else none
  | none => none

/-- The sheet closes: its completion write is raised (R71, R75). -/
def State.sheetClose (s : State) : Option State :=
  match s.sheets.atRest with
  | some r =>
      if r.header = .refused ∨ r.count ≤ r.index then
        some { s with sheets := { s.sheets with access := some (.completion r.completionWord) } }
      else none
  | none => none

/-- The next sheet of the closing list is taken up (R82). -/
def State.closeNext (s : State) : Option State :=
  let h := s.sheets
  if (h.stop = .abort ∨ h.stop = .drain) ∧ h.active = none ∧ h.closer = none ∧ h.access = none then
    match h.closing with
    | (a, e) :: _ => some { s with sheets := { h with closer := some (SheetRun.fresh a e), access := some (.header []) } }
    | [] => none
  else none

/-- The modes in which a sheet may be active. -/
def Mode.sheetMode : Mode → Bool
  | .run => true | .holding => true | .held => true
  | .cold => false | .faulted => false | .awaitConfig => false | .standby => false | .patrol => false | .drain => false
  | .parked => false

/-- The abort ends (R82). -/
def State.abortEnd (s : State) : Option State :=
  let h := s.sheets
  if h.stop = .abort ∧ h.active = none ∧ h.closing = [] then
    some { s with sheets := { h with stop := .none },
                  modes := if s.modes.mode.sheetMode then { s.modes with mode := .run } else s.modes }
  else none

/-- Every row begun by the row order in progress has completed or been discarded, and its question is held (R78). A row of
a READ ROWS counts as completed at ROW DELIVERED, though its last words may still stand in the FIFO or in a burst (the
model's choice, log 39). -/
def State.rowOrderResting (s : State) : Bool :=
  s.sheets.questionHeld && s.writer.flights.isEmpty && s.reader.flights.isEmpty && s.reader.copyRow.isNone

/-- The conditions of QUIET (R78): the order in progress, the sheet access, and no skip or close due. -/
def State.quiet (s : State) : Bool :=
  (match s.sheets.order with
    | none => true
    | some o => o.kind.isRow && s.rowOrderResting) &&
    s.sheets.access.isNone && s.sheetSkip.isNone && s.sheetClose.isNone

/-- QUIET is reported and the mode becomes HELD (R78). -/
def State.enterHeld (s : State) : Option State :=
  if s.modes.mode = .holding ∧ s.sheets.stop = .hold ∧ s.quiet = true then
    some ({ s with modes := { s.modes with mode := .held } }.setEvent .held)
  else none

/-! ## Row questions (R76) -/

/-- The answers to a row question. -/
inductive RowAnswer where
  | go
  | stopped (status : OrderStatus)
  deriving DecidableEq, Repr

/-- The path of the order in progress takes an answer (R76, R81). -/
def State.answerRow (s : State) (a : RowAnswer) : State :=
  let s := { s with sheets := { s.sheets with questionHeld := false } }
  if s.writer.order.isSome then
    { s with writer := match a with
        | .go => { s.writer with go := true }
        | .stopped st => { s.writer with stopped := some st } }
  else
    { s with reader := match a with
        | .go => { s.reader with go := true }
        | .stopped st => { s.reader with stopped := some st } }

/-- A path asks ROW GO and is answered by the stop state (R76). -/
def State.rowGo (s : State) : State :=
  if s.writerAsks || s.readerAsks then
    match s.sheets.stop with
    | .none => s.answerRow .go
    | .hold => { s with sheets := { s.sheets with questionHeld := true } }
    | .abort => s.answerRow (.stopped .aborted)
    | .drain => s.answerRow (.stopped .interrupted)
  else s

/-- A held question is answered (R79, R80, R84). -/
def State.answerHeld (s : State) (a : RowAnswer) : State := if s.sheets.questionHeld then s.answerRow a else s

/-! ## HOLD, RESUME and ABORT (R77, R79, R80) -/

/-- HOLD (R77). -/
def State.hold (s : State) : State :=
  match s.modes.mode, s.sheets.stop with
  | .run, .none => { s with sheets := { s.sheets with stop := .hold }, modes := { s.modes with mode := .holding } }
  | .holding, .hold => s
  | .held, .hold => s
  | _, _ => s.requestRefused

/-- RESUME (R79). -/
def State.resume (s : State) : State :=
  let go := { s with sheets := { s.sheets with stop := .none }, modes := { s.modes with mode := .run } }.answerHeld .go
  match s.modes.mode, s.sheets.stop with
  | .holding, .hold => go
  | .held, .hold => go
  | .run, .none => s
  | _, _ => s.requestRefused

/-- The addresses of the queue join the closing list with an ending, and the active sheet takes it, unless its
completion write has begun or it is ABORTED already (R80, R84). A completion write has begun once it is raised, though it
may still wait for the port (the model's choice, log 31). -/
def Sheets.closeAll (h : Sheets) (e : Ending) : Sheets :=
  let begun := match h.access with | some (.completion _) => true | _ => false
  { h with queue := [], closing := h.closing ++ h.queue.map (fun a => (a, e)),
           active := h.active.map (fun r => if begun || decide (r.ending = .aborted) then r else { r with ending := e }) }

/-- ABORT (R80). -/
def State.abort (s : State) : State :=
  if s.modes.mode.sheetMode then
    match s.sheets.stop with
    | .none => { s with sheets := { s.sheets.closeAll .aborted with stop := .abort } }.answerHeld (.stopped .aborted)
    | .hold => { s with sheets := { s.sheets.closeAll .aborted with stop := .abort } }.answerHeld (.stopped .aborted)
    | .abort => s
    | .drain => s.requestRefused
  else s.requestRefused

/-- The notice of DRAIN entry (R84). -/
def State.drainSheets (s : State) : State :=
  { s with sheets := { s.sheets.closeAll .interrupted with stop := .drain } }.answerHeld (.stopped .interrupted)

end Sys2Proof.Machine
end

