-- ==== Sys2Proof/Machine/Modes.lean ====
section
/-! DEFINITION. The mode controller (chapter 9): the cold path, the recovery scan, configuration, standby and wake, the
PATROL mode's lane power, the power warning, DRAIN and PARKED. -/

namespace Sys2Proof.Machine

/-! ## Small changes -/

/-- The mode changed. -/
def State.setMode (s : State) (m : Mode) : State := { s with modes := { s.modes with mode := m } }

/-- The timer is stopped, the seconds counted discarded (R181). -/
def State.stopTimer (s : State) : State := { s with patrol := { s.patrol with timer := none } }

/-- The timer starts from zero when the interval is not 0 (R181). -/
def State.startTimer (s : State) : State :=
  { s with patrol := { s.patrol with
      timer := if s.modes.config.elim 0 (·.patrolInterval) = 0 then none else some 0 } }

/-- POWER UP is given to the six lanes. -/
def State.powerUpAll (s : State) : State := s.giveAll .powerUp Lane.all

/-- POWER DOWN is given to the six lanes. -/
def State.powerDownAll (s : State) : State := s.giveAll .powerDown Lane.all

/-- The clean commit request is raised, and its end awaited unless STORE_FAULT keeps it from starting (R173, R175,
R177). -/
def State.awaitClean (s : State) : State :=
  let s := s.emit (.commitRequest .mode true (!s.table.storeFault))
  { s with modes := { s.modes with commitAwaited := !s.table.storeFault } }

/-! ## Standby and wake (R173, R174) -/

/-- STANDBY is taken (R164, R173). -/
def State.mayStandby (s : State) : Bool :=
  decide (s.modes.mode = .run) && decide (s.sheets.stop = .none) && s.sheets.active.isNone && s.sheets.queue.isEmpty &&
    s.sheets.closing.isEmpty && s.modes.configRead.isNone

/-- STANDBY (R173). -/
def State.standby (s : State) : State :=
  if s.mayStandby then
    (({ s with modes := { s.modes with mode := .standby, wake := false, powerGiven := false } }.awaitClean).powerDownAll).startTimer
  else s.requestRefused

/-- A wake starts, when none is pending (R174). -/
def State.startWake (s : State) : State :=
  if s.modes.wake then s
  else { s with modes := { s.modes with wake := true, powerGiven := false } }.stopTimer

/-- A post or WAKE in PATROL ends the run after the row in hand; a run that has ended is not waited for any longer
(R175). -/
def State.patrolWakeUp (s : State) : State :=
  match s.modes.patrolStage with
  | .committing =>
      { s with modes := { s.modes with mode := .run, patrolStage := .none, commitAwaited := false } }.emit
        (.forgetCommit .mode)
  | _ =>
      { s with modes := { s.modes with patrolWake := true },
               patrol := { s.patrol with run := s.patrol.run.map (fun r => { r with endRequested := true }) } }

/-- WORK POSTED, or a WAKE, by the mode (R67, R174, R175). -/
def State.wakeUp (s : State) : State :=
  match s.modes.mode with
  | .standby => s.startWake
  | .patrol => s.patrolWakeUp
  | _ => s

/-- WAKE (R164, R174, R175). -/
def State.wake (s : State) : State :=
  match s.modes.mode with
  | .standby => s.startWake
  | .patrol => s.patrolWakeUp
  | .run => s
  | .holding => s
  | .held => s
  | _ => s.requestRefused

/-- POST (R67). -/
def State.post (s : State) (a : Word) : State :=
  match s.checkPost a with
  | some r => s.refuse false r
  | none => (s.enqueue a).wakeUp

/-- The wake goes on: lanes powered up once no commit is awaited, RUN once they stand idle (R174). -/
def State.wakeOn (s : State) : Option State :=
  let m := s.modes
  if m.mode = .standby ∧ m.wake = true ∧ m.commitAwaited = false then
    if m.powerGiven = false then some { s with modes := { m with powerGiven := true } }.powerUpAll
    else if s.lanesQuiet then some { s with modes := { m with mode := .run, wake := false, powerGiven := false } }
    else none
  else none

/-! ## The PATROL mode (R175) -/

/-- The seconds of the patrol interval of the configuration applied (R181). -/
def State.patrolInterval (s : State) : Nat := s.modes.config.elim 0 (·.patrolInterval)

/-- A whole second passes on a running timer (R181): short of the interval it counts; with it the interval is reached,
the timer expires, and PATROL is entered from STANDBY with no wake pending (R175). -/
def State.second (s : State) : State :=
  match s.patrol.timer with
  | some n =>
      if n + 1 < s.patrolInterval then { s with patrol := { s.patrol with timer := some (n + 1) } }
      else if s.modes.mode = .standby ∧ s.modes.wake = false then
        { s.stopTimer with modes := { s.modes with mode := .patrol, patrolStage := .waking, powerGiven := false,
                                                   patrolWake := false } }
      else s.stopTimer
  | none => s

/-- The second that reaches the interval passes, if it is the next one (R181). -/
def State.timerExpiry (s : State) : State :=
  match s.patrol.timer with
  | some n => if n + 1 < s.patrolInterval then s else s.second
  | none => s

/-- A run that begins (R182). -/
def PatrolRun.start (budget : Nat) : PatrolRun :=
  { budget := budget, endRequested := false, recordChanged := false, answersAwaited := 0, finishing := false }

/-- The lanes are powered up for the patrol; once they stand idle the run begins, or RUN is entered if a post or WAKE
came first (R175). -/
def State.patrolOn (s : State) : Option State :=
  let m := s.modes
  if m.mode = .patrol ∧ m.patrolStage = .waking ∧ m.commitAwaited = false then
    if m.powerGiven = false then some { s with modes := { m with powerGiven := true } }.powerUpAll
    else if s.lanesQuiet then
      if m.patrolWake then
        some { s with modes := { m with mode := .run, patrolStage := .none, powerGiven := false, patrolWake := false } }
      else
        some { s with modes := { m with patrolStage := .running, powerGiven := false },
                      patrol := { s.patrol with run := some (PatrolRun.start (m.config.elim 0 (·.patrolBudget))),
                                                writeFailed := false } }
    else none
  else none

/-- The part goes back to STANDBY after a run that ended by itself (R175). -/
def State.patrolDone (s : State) : State :=
  ((({ s with modes := { s.modes with mode := .standby, patrolStage := .none, wake := false, powerGiven := false } }.powerDownAll).startTimer).setEvent
    .patrolDone)

/-- The patrol unit reports the end of its run, having raised the clean request or not (R175, R177, R187). -/
def State.patrolReported (s : State) (changed : Bool) : State :=
  let m := s.modes
  match m.mode with
  | .patrol =>
      if m.patrolWake then
        { s with modes := { m with mode := .run, patrolStage := .none, patrolWake := false } }
      else if changed && !s.table.storeFault then
        { s with modes := { m with patrolStage := .committing, commitAwaited := true } }.emit
          (.commitRequest .mode true true)
      else s.patrolDone
  | .drain => { s with modes := { m with drain := m.drain.map (fun d => { d with patrolEnded := true }) } }
  | _ => s

/-! ## Configuration (R170 to R172) -/

/-- The conditions of step 1 of R171. -/
def State.mayApply (s : State) : Bool :=
  match s.modes.mode with
  | .awaitConfig => true
  | .run =>
      decide (s.sheets.stop = .none) && s.sheets.active.isNone && s.sheets.queue.isEmpty && s.sheets.closing.isEmpty
  | _ => false

/-- APPLY: steps 1 to 3 of R171, then the configuration read is raised (R170). -/
def State.apply (s : State) : State :=
  let a := s.window.configAddress
  if !s.mayApply || s.modes.configRead.isSome then s.refuse true .state
  else if a = 0#32 ∨ a.toNat % 16 ≠ 0 then s.refuse true .align
  else { s with modes := { s.modes with configRead := some { address := a, got := [], startMode := s.modes.mode } } }

/-- The report area of a configuration differs from that of the one before, or there was none (R172). -/
def newArea (old : Option Applied) (c : Applied) : Bool :=
  match old with
  | none => true
  | some o => decide (o.reportAddress ≠ c.reportAddress) || decide (o.reportCapacity ≠ c.reportCapacity)

/-- The header write of an APPLY that takes effect joins the commands for the report writer: before every REPORT_CLEAR that
still waits, since that takes effect later (R186). -/
def dueWithHeader (due : List ReportDue) (area : Word) : List ReportDue :=
  due.filter (fun d => decide (d ≠ .clear)) ++ .header area :: due.filter (fun d => decide (d = .clear))

/-- The patrol unit's part of an APPLY that takes effect (R172, R186). -/
def Patrol.applied (p : Patrol) (fresh : Bool) (c : Applied) : Patrol :=
  if fresh then
    { p with fill := 0, dropped := 0, dropNoted := false,
             due := if c.reportCapacity = 0 then p.due else dueWithHeader p.due c.reportAddress }
  else p

/-- DRAIN is entered (R177, R84). -/
def State.enterDrain (s : State) : State :=
  let d : Drain := { closed := false, patrolEnded := s.patrol.run.isNone, lanesQuiet := false, commitDone := false,
                     lanesOff := false }
  let s : State := { s with
    modes := { s.modes with mode := .drain, wake := false, drain := some d, commitAwaited := false, powerGiven := false,
                            patrolStage := .none, patrolWake := false },
    patrol := { s.patrol with timer := none, run := s.patrol.run.map (fun r => { r with endRequested := true }) } }
  (s.emit (.forgetCommit .mode)).drainSheets

/-- A configuration takes effect (R172). -/
def State.configure (s : State) (c : Applied) : State :=
  let s1 := { s with modes := { s.modes with config := some c },
                     patrol := s.patrol.applied (newArea s.modes.config c) c }.setEvent .configDone
  if s.modes.mode = .awaitConfig then
    if s.modes.warning then (s1.setEvent .powerWarn).enterDrain else s1.setMode .run
  else s1

/-- The four words of the block have been read: steps 5 to 8 of R171. Step 8 looks at the moment of taking effect alone,
so a HOLD that was resumed, or a sheet that was activated and closed, while the block was read does not refuse the APPLY
(the model's choice, log 36). -/
def State.takeConfig (s : State) (startMode : Mode) (ws : List Word) : State :=
  let s := { s with modes := { s.modes with configRead := none } }
  match checkConfig ws with
  | .inr reason => s.refuse true reason
  | .inl c =>
      if s.modes.mode = startMode ∧ s.sheets.active = none ∧ s.sheets.queue = [] then s.configure c
      else s.refuse true .state

/-- One of the four configuration reads ends: a bus error stops the read; with the fourth word the block is checked
(R170, R171 step 4). -/
def State.endConfigRead (s : State) (reply : BusReply) : State :=
  match s.modes.configRead with
  | none => s
  | some r =>
      match s.beatRead reply (r.address.toNat + 4 * r.got.length) with
      | (s, none) => { s with modes := { s.modes with configRead := none } }.refuse true .bus
      | (s, some w) =>
          if r.got.length < 3 then { s with modes := { s.modes with configRead := some { r with got := r.got ++ [w] } } }
          else s.takeConfig r.startMode (r.got ++ [w])

/-! ## The cold path (R165, R145, R41) -/

/-- The fuse row is loaded (R145). -/
def State.loadFuses (s : State) : State :=
  if s.modes.cold = .fuseLoad ∧ s.protect.fuseWrite = none then
    { s with protect := { s.protect with working := s.protect.fuses }, modes := { s.modes with cold := .tableLoad } }
  else s

/-! ## The recovery scan (9.3) -/

/-- The lowest band at or above `b` whose working record has this state and whose group is not frozen (R167, R168). -/
def State.nextBand (s : State) (st : BandState) (b : Nat) : Option Nat :=
  (s.table.working.find? (fun e => decide (b ≤ e.1) && decide (e.2.state = st) && !s.protect.frozen e.1)).map (·.1)

/-- The scan cursor and stage set. -/
def State.setScan (s : State) (c : Scan) : State := { s with modes := { s.modes with scan := some c } }

/-- Whether the scan has changed a record by ROW FOUND or ROW TORN. -/
def State.scanChanged (s : State) : Bool := s.modes.scan.elim false (·.changed)

/-- The scan has ended: RECOVERED is set and AWAIT_CONFIG entered (R169). -/
def State.scanDone (s : State) : State :=
  { s with modes := { s.modes with scan := none, cold := .none, mode := .awaitConfig } }.setEvent .recovered

/-- The last OPEN band has been examined (R169). -/
def State.scanEnd (s : State) : State :=
  if s.scanChanged then
    if s.table.storeFault then (s.emit (.commitRequest .scan false false)).scanDone
    else
      (s.setScan { openPhase := true, band := 0, row := 0, stage := .commitEnd, changed := true }).emit
        (.commitRequest .scan false true)
  else s.scanDone

/-- The present lanes of the row examined are read (R168). -/
def State.scanRow (s : State) (b : Nat) : State :=
  let r := s.band b
  let ls := r.present r.nextRow
  (s.setScan { openPhase := true, band := b, row := r.nextRow, stage := .reading ls [], changed := s.scanChanged }).giveAll
    (.pageRead { band := b, row := r.nextRow, level := r.level }) ls

/-- The scan goes on to the next OPEN band, from band `b` on (R168). -/
def State.scanOpen (s : State) (b : Nat) : State :=
  match s.nextBand .opened b with
  | some b' => s.scanRow b'
  | none => s.scanEnd

/-- The scan goes on to the next ERASING band, from band `b` on, and then to the OPEN bands (R167). -/
def State.scanErasing (s : State) (b : Nat) : State :=
  match s.nextBand .erasing b with
  | some b' =>
      (s.setScan { openPhase := false, band := b', row := 0, stage := .permit, changed := false }).emit (.askPermit .scan)
  | none => s.scanOpen 0

/-- The table is loaded and checked; the next step of the cold path follows (R41, R165, R166). -/
def State.loadTable (s : State) (agrees : Bool) : State :=
  if s.modes.cold = .tableLoad then
    if agrees && decide (s.table.checkDelta = 0) then
      let s := { s with table := s.table.load }
      if s.table.marker then { s with modes := { s.modes with cold := .none, mode := .awaitConfig } }
      else { s with modes := { s.modes with cold := .scan } }.scanErasing 0
    else
      { s with table := s.table.failLoad, modes := { s.modes with cold := .none, mode := .faulted } }.setEvent
        .storeFault
  else s

/-- A store permit for the scan's erase (R167). -/
def State.scanPermit (s : State) (granted : Bool) : State :=
  match s.modes.scan with
  | some c =>
      match c.stage with
      | .permit =>
          if granted then (s.setScan { c with stage := .erasing Lane.all false }).giveAll (.blockErase c.band) Lane.all
          else s.scanErasing (c.band + 1)
      | _ => s
  | none => s

/-- The judgement of a row by its classes (R168): `some true` complete, `some false` torn, `none` erased. -/
def judgeClasses (ks : List PageClass) : Option Bool :=
  if ks.all (fun k => decide (k = .good) || decide (k = .weak)) then some true
  else if ks.all (fun k => decide (k = .erased)) then none
  else some false

/-- The row examined is judged: its update is given, and its present lanes discard their pages (R168). -/
def State.scanJudge (s : State) (c : Scan) (ks : List PageClass) : State :=
  let s := match judgeClasses ks with
    | some true => s.emit (.update .scan (.rowFound c.band c.row) false)
    | some false => s.emit (.update .scan (.rowTorn c.band c.row) false)
    | none => s
  (s.setScan { c with stage := .discarding }).giveAll .cacheDiscard ((s.band c.band).present c.row)

/-- An end report for the scan (R167, R168). -/
def State.scanReport (s : State) (l : Lane) (op : LastOp) (outcome : Option PageOutcome) : State :=
  match s.modes.scan with
  | some c =>
      match c.stage with
      | .erasing awaited failSeen =>
          let ls := dropLane awaited l
          let failed := failSeen || decide (op.outcome = .fail)
          if ls.isEmpty then
            (s.setScan { c with stage := .notice }).emit (.update .scan (.eraseEnd c.band (!failed)) true)
          else s.setScan { c with stage := .erasing ls failed }
      | .reading awaited classes =>
          let ls := dropLane awaited l
          let ks := classes ++ (outcome.map (·.cls)).toList
          if ls.isEmpty then s.scanJudge c ks else s.setScan { c with stage := .reading ls ks }
      | _ => s
  | none => s

/-- Once every discard has been taken the scan goes on with the band, or with the next one (R168). -/
def State.scanOn (s : State) : Option State :=
  match s.modes.scan with
  | some c =>
      let r := s.band c.band
      if c.stage = .discarding ∧ s.lanesClear = true then
        some (if r.state = .opened ∧ r.nextRow ≠ c.row then s.scanRow c.band else s.scanOpen (c.band + 1))
      else none
  | none => none

/-- The band table's answer to an update of the scan: an applied ROW FOUND or ROW TORN is remembered (R169). -/
def State.scanAnswer (s : State) (u : Update) (applied : Bool) : State :=
  match s.modes.scan, u with
  | some c, .rowFound _ _ => if applied then s.setScan { c with changed := true } else s
  | some c, .rowTorn _ _ => if applied then s.setScan { c with changed := true } else s
  | _, _ => s

/-- A notice for the scan: an ERASE END is stored or not, or the last commit has ended (R167, R169). -/
def State.scanNotice (s : State) : State :=
  match s.modes.scan with
  | some c =>
      match c.stage with
      | .notice => s.scanErasing (c.band + 1)
      | .commitEnd => s.scanDone
      | _ => s
  | none => s

/-! ## Notices for the mode controller (R173, R175, R177) -/

/-- The clean commit the mode controller waited for has ended. -/
def State.modeNotice (s : State) : State :=
  let m := s.modes
  if m.commitAwaited then
    let s : State := { s with modes := { m with
      commitAwaited := false, drain := m.drain.map (fun d => { d with commitDone := d.commitDone || d.lanesQuiet }) } }
    if m.mode = .patrol ∧ m.patrolStage = .committing then s.patrolDone else s
  else s

/-! ## The power warning (R176 to R178) -/

/-- PWR_WARN_N is asserted (R176). -/
def State.warnAsserted (s : State) : State :=
  let s := { s with modes := { s.modes with warning := true } }.setEvent .powerWarn
  match s.modes.mode with
  | .run => s.enterDrain
  | .holding => s.enterDrain
  | .held => s.enterDrain
  | .standby => s.enterDrain
  | .patrol => s.enterDrain
  | .parked =>
      if s.modes.leaving then { s with modes := { s.modes with leaving := false } }.powerDownAll else s
  | .cold => s
  | .faulted => s
  | .awaitConfig => s
  | .drain => s

/-- PWR_WARN_N is withdrawn (R176); the leave of PARKED follows at once (R178). -/
def State.warnWithdrawn (s : State) : State := { s with modes := { s.modes with warning := false } }

/-- The drain progress changed. -/
def State.setDrain (s : State) (d : Drain) : State := { s with modes := { s.modes with drain := some d } }

/-- The sheet processor holds no sheet and no order, and makes no access (R84). -/
def Sheets.allClosed (h : Sheets) : Bool :=
  h.order.isNone && h.active.isNone && h.closing.isEmpty && h.closer.isNone && h.access.isNone

/-- The lanes not in LANE_OFF. -/
def State.lanesOn (s : State) : List Lane := Lane.all.filter (fun l => decide ((s.lane l).state ≠ .off))

/-- The drain goes on (R84, R177): CLOSED, the quiet lanes, the clean commit and the lanes' power-down, PARKED. Under
STORE_FAULT the clean request is raised too, and stays pending; its commit is not waited for (R38, R40). -/
def State.drainOn (s : State) : Option State :=
  match s.modes.mode, s.modes.drain with
  | .drain, some d =>
      if d.closed = false then if s.sheets.allClosed then some (s.setDrain { d with closed := true }) else none
      else if d.lanesQuiet = false then
        if d.patrolEnded ∧ s.modes.configRead = none ∧ s.lanesStill = true then
          some ((s.setDrain { d with lanesQuiet := true }).giveAll .powerDown s.lanesOn)
        else none
      else if d.lanesOff = false ∧ s.lanesOff = true then some (s.setDrain { d with lanesOff := true })
      else if d.commitDone = false then
        if s.modes.commitAwaited then none
        else if s.table.commit.isSome then none
        else if s.table.marker && !s.table.plainReq && !s.table.cleanReq then
          some (s.setDrain { d with commitDone := true })
        else if s.table.storeFault then some (s.setDrain { d with commitDone := true }).awaitClean
        else some s.awaitClean
      else if d.lanesOff then some { s with modes := { s.modes with mode := .parked, drain := none, leaving := false } }
      else none
  | _, _ => none

/-- PARKED is left while the warning level is WITHDRAWN (R178). -/
def State.parkedOn (s : State) : Option State :=
  let m := s.modes
  if m.mode = .parked ∧ m.warning = false then
    if m.leaving = false then some { s with modes := { m with leaving := true } }.powerUpAll
    else if s.lanesQuiet then
      some { s with modes := { m with mode := .run, leaving := false }, sheets := { s.sheets with stop := .none } }
    else none
  else none

end Sys2Proof.Machine
end

