-- ==== Sys2Proof/Machine/Patrol.lean ====
section
/-! DEFINITION. The patrol unit (chapter 10): the search, the visit, findings, the report area, the end of a run. -/

namespace Sys2Proof.Machine

/-! ## The search (R182) -/

/-- A row qualifies for a visit (R182). -/
def BandRecord.qualifies (r : BandRecord) (row : Nat) : Bool :=
  r.state.readable && decide (row < r.nextRow) && !r.isVoid row

/-- The first qualifying row of a band in `lo` to `lo + n - 1`. -/
def BandRecord.firstRow (r : BandRecord) : Nat → Nat → Option Nat
  | _, 0 => none
  | lo, n + 1 => if r.qualifies lo then some lo else r.firstRow (lo + 1) n

/-- The first qualifying row of the listed records at or above band `b` and below band `e`; an unlisted band is UNUSED
and has none. -/
def firstBandRow (b e : Nat) : Sparse BandRecord → Option (Nat × Nat)
  | [] => none
  | (k, r) :: rest =>
      if b ≤ k ∧ k < e then
        match r.firstRow 0 r.nextRow with
        | some row => some (k, row)
        | none => firstBandRow b e rest
      else firstBandRow b e rest

/-- The next row to visit from the cursor (R182): the starting band from the cursor row on, the bands after it, the
bands before it, then the starting band below the cursor row. -/
def State.nextVisit (s : State) : Option (Nat × Nat) :=
  let b := s.patrol.cursorBand
  let r := s.patrol.cursorRow
  let rec_ := s.band b
  match rec_.firstRow r (rec_.nextRow - r) with
  | some row => some (b, row)
  | none =>
      match firstBandRow (b + 1) Config.bands s.table.working with
      | some v => some v
      | none =>
          match firstBandRow 0 b s.table.working with
          | some v => some v
          | none => (rec_.firstRow 0 (min r rec_.nextRow)).map (fun row => (b, row))

/-! ## Visits (R182, R183) -/

/-- The patrol unit decides its next step now. It waits for every report write and every waiting command of the report
writer, those of a REPORT_CLEAR too (the model's choice, log 26). -/
def State.patrolDecides (s : State) : Bool :=
  let p := s.patrol
  p.run.elim false (fun r => !r.finishing) && p.visit.isNone && p.findings.isEmpty && p.write.isNone && p.due.isEmpty &&
    s.coder.owner.isNone

/-- The run ends at a step of R182; it then waits for its answers (R187). -/
def State.finishRun (s : State) : State :=
  { s with patrol := { s.patrol with run := s.patrol.run.map (fun r => { r with finishing := true }) } }

/-- Row `n` of band `b` is visited (R183): the coder is claimed and given the row, and each present lane is given its
read; its unload follows once the coder has taken the row (`State.readerBegun`; log 26). -/
def State.visitRow (s : State) (b n : Nat) : State :=
  let r := s.band b
  let ls := r.present n
  let v : Visit := { band := b, row := n, level := r.level, expected := ls, checked := false }
  let begun : RowBegin := { band := b, row := n, level := r.level, purpose := .check, lanes := ls }
  let s1 := s.claimCoder .patrol
  let s2 := { s1 with patrol := { s1.patrol with visit := some v }, coder := { s1.coder with beginRead := some begun } }
  s2.giveAll (.pageRead { band := b, row := n, level := r.level }) ls

/-- PATROL_VISIT: steps 1 to 3 of R182. -/
def State.patrolVisit (s : State) : State :=
  if s.patrolDecides then
    match s.patrol.run with
    | some r =>
        if r.endRequested || decide (r.budget = 0) then s.finishRun
        else match s.nextVisit with
          | some (b, n) => s.visitRow b n
          | none => s.finishRun
    | none => s
  else s

/-! ## Findings (R184) -/

/-- The page finding of one lane (R184). -/
def pageFinding (v : Visit) (rep : RowReport) (l : Lane) : Option Finding :=
  let outcome := (rep.outcomes.find? (fun o => decide (o.1 = l))).map (·.2)
  let count := outcome.elim 0 (·.highest)
  let make (k : FindingKind) (n : Nat) : Finding := { band := v.band, row := v.row, lane := l, kind := k, highest := n }
  match rep.missing.find? (fun m => decide (m.lane = l)) with
  | some m =>
      match m.cause with
      | .absent => none
      | .uncorrectable => some (make .uncorrectable count)
      | .tag => some (make .tag count)
      | .erased => some (make .tag 0)
  | none =>
      match outcome with
      | some o => if o.cls = .weak then some (make .weak count) else none
      | none => none

/-- The PARITY finding of one comparison (R184). -/
def parityFinding (v : Visit) (rep : RowReport) (c : ParityCompared) : Option Finding :=
  if c.matched then none
  else some { band := v.band, row := v.row, lane := c.lane, kind := .parity,
              highest := ((rep.outcomes.find? (fun o => decide (o.1 = c.lane))).map (·.2)).elim 0 (·.highest) }

/-- The findings of a visited row, in the order of R184; the comparisons stand in lane order. -/
def rowFindings (v : Visit) (rep : RowReport) (cs : List ParityCompared) : List Finding :=
  Lane.all.filterMap (pageFinding v rep) ++ cs.filterMap (parityFinding v rep)

/-- The check result is taken (R183, R184). -/
def State.patrolChecked (s : State) (rep : RowReport) (cs : List ParityCompared) : State :=
  match s.patrol.visit with
  | some v =>
      { s with patrol := { s.patrol with visit := some { v with checked := true }, findings := rowFindings v rep cs } }
  | none => s

/-! ## Recording (R185) -/

/-- The capacity of the report area applied. -/
def State.reportCapacity (s : State) : Nat := s.modes.config.elim 0 (·.reportCapacity)

/-- The address of the report area applied. -/
def State.reportArea (s : State) : Word := s.modes.config.elim 0#32 (·.reportAddress)

/-- A finding counts as dropped, and REPORT_FULL is set at the first drop (R185). -/
def State.dropFinding (s : State) : State :=
  let p := s.patrol
  let s1 := { s with patrol := { p with dropped := satAdd 65535 p.dropped 1, dropNoted := true } }
  if p.dropNoted then s1 else s1.setEvent .reportFull

/-- SET ATTENTION is given with a finding, and its answer awaited (R184). The count of answers awaited has no upper bound
here (the model's choice, log 44). -/
def State.findingAttention (s : State) (b : Nat) : State :=
  let run := s.patrol.run.map (fun r => { r with answersAwaited := r.answersAwaited + 1 })
  { s with patrol := { s.patrol with run := run } }.emit (.update .patrol (.setAttention b) false)

/-- The next finding of the row is recorded or dropped (R185). -/
def State.recordNext (s : State) : Option State :=
  let p := s.patrol
  match p.write, p.due, p.findings with
  | none, [], f :: rest =>
      let s1 := { s with patrol := { p with findings := rest } }.findingAttention f.band
      if p.writeFailed then some s1.dropFinding
      else if p.fill < s.reportCapacity then
        some { s1 with patrol := { s1.patrol with write := some (.finding s.reportArea f) } }
      else
        let s2 := s1.dropFinding
        some (if s.reportCapacity = 0 then s2
              else { s2 with patrol := { s2.patrol with write := some (.headerDrop s.reportArea) } })
  | _, _, _ => none

/-! ## The report writer (R185, R186) -/

/-- The words of a report write, with their addresses. -/
def Patrol.writes (p : Patrol) : ReportWrite → List (Nat × Word)
  | .finding area f => consecutive (slotAddress area p.fill) f.words
  | .headerFor area => consecutive area.toNat (reportHeader (p.fill + 1) p.dropped)
  | .headerDrop area => consecutive area.toNat (reportHeader p.fill p.dropped)
  | .headerOnly area => consecutive area.toNat (reportHeader p.fill p.dropped)

/-- The burst of a report write that is made next: the words left of it, cut by R157 with the write's end in place of the
fragment's end (R160). -/
def Patrol.burst (p : Patrol) (burstLength : Nat) (w : ReportWrite) : List (Nat × Word) :=
  let rest := (p.writes w).drop p.writeDone
  rest.take (burstBeats (min (min burstLength rest.length) (rest.head?.elim 1 (fun x => wordsToBoundary x.1))))

/-- The configured burst length; 1 while no configuration is applied. -/
def State.burstLength (s : State) : Nat := s.modes.config.elim 1 (·.burstLength)

/-- A report write has ended without a bus error: the header follows its finding, and its end counts it (R185). -/
def Patrol.wrote (p : Patrol) : ReportWrite → Patrol
  | .finding area _ => { p with write := some (.headerFor area) }
  | .headerFor _ => { p with write := none, fill := p.fill + 1 }
  | .headerDrop _ => { p with write := none }
  | .headerOnly _ => { p with write := none }

/-- A report write has ended with a bus error (R161, R185, R186; log 26): a finding not yet counted is dropped, no
further finding of the run is written, and the run ends after the row in hand. -/
def State.reportFailed (s : State) (w : ReportWrite) : State :=
  let s := { s with patrol := { s.patrol with write := none, writeDone := 0 } }
  let s := match w with
    | .finding _ _ => s.dropFinding
    | .headerFor _ => s.dropFinding
    | .headerDrop _ => s
    | .headerOnly _ => s
  let p := s.patrol
  { s with patrol := { p with
      writeFailed := true,
      run := if p.visit.isSome then p.run else p.run.map (fun r => { r with endRequested := true }) } }

/-- The end of a burst of the report write in progress; with its last burst the write has ended (R160, R185, R186). -/
def State.endReportWrite (s : State) (reply : BusReply) : State :=
  match s.patrol.write with
  | none => s
  | some w =>
      let ws := s.patrol.burst s.burstLength w
      let done := s.patrol.writeDone + ws.length
      match s.busWrite reply ws with
      | (s, true) =>
          { s with patrol :=
              if (s.patrol.writes w).length ≤ done then { s.patrol.wrote w with writeDone := 0 }
              else { s.patrol with writeDone := done } }
      | (s, false) => s.reportFailed w

/-- REPORT_CLEAR on the counts (R186). -/
def Patrol.cleared (p : Patrol) : Patrol := { p with fill := 0, dropped := 0, dropNoted := false }

/-- A REPORT_CLEAR, or the header write of an APPLY, is taken once no report write is in progress (R186). -/
def State.takeDue (s : State) : Option State :=
  let p := s.patrol
  match p.write, p.due with
  | none, .clear :: rest =>
      let p := { p.cleared with due := rest }
      some { s with patrol :=
        if s.reportCapacity = 0 then p else { p with write := some (.headerOnly s.reportArea) } }
  | none, .header area :: rest => some { s with patrol := { p with due := rest, write := some (.headerOnly area) } }
  | _, _ => none

/-- REPORT_CLEAR joins the commands waiting for the report writer (R186). -/
def State.reportClear (s : State) : State := { s with patrol := { s.patrol with due := s.patrol.due ++ [.clear] } }

/-! ## The end of a visit and of a run (R183, R187) -/

/-- The run after one visit: the budget is reduced, and the end requested if a report write has failed (R183, R185). -/
def PatrolRun.visited (r : PatrolRun) (failed : Bool) : PatrolRun :=
  { r with budget := r.budget - 1, endRequested := r.endRequested || failed }

/-- The visit ends once its findings are recorded: the coder is released and the cursor moved (R183). It waits for every
report write and every waiting command of the report writer (the model's choice, log 26). -/
def State.endVisit (s : State) : Option State :=
  let p := s.patrol
  match p.visit with
  | some v =>
      if v.checked ∧ p.findings = [] ∧ p.write = none ∧ p.due = [] then
        let run := p.run.map (fun r => r.visited p.writeFailed)
        some { s with patrol := { p with visit := none, cursorBand := v.band, cursorRow := v.row + 1, run := run } }.releaseCoder
      else none
  | none => none

/-- An answer to SET ATTENTION (R184). -/
def State.patrolAnswer (s : State) (changed : Bool) : State :=
  let run := s.patrol.run.map (fun r =>
    { r with answersAwaited := r.answersAwaited - 1, recordChanged := r.recordChanged || changed })
  { s with patrol := { s.patrol with run := run } }

/-- With every answer in, the run ends: the clean request is raised if a record changed, and the end is reported
(R187). -/
def State.endRun (s : State) : Option State :=
  match s.patrol.run with
  | some r =>
      if r.finishing ∧ r.answersAwaited = 0 then
        let s1 := { s with patrol := { s.patrol with run := none } }
        let s2 := if r.recordChanged then s1.emit (.commitRequest .patrol true false) else s1
        some (s2.patrolReported r.recordChanged)
      else none
  | none => none

end Sys2Proof.Machine
end

