-- ==== Sys2Proof/Machine/Settle.lean ====
section
/-! DEFINITION. What comes about inside a step (95): the messages between blocks and the reactions that follow at the
same event, in one fixed order (log 2). -/

namespace Sys2Proof.Machine

/-! ## Messages -/

/-- A commit request, and the wait for the end of the first commit that starts from now on (R35, R38, R147, R169). -/
def State.takeRequest (s : State) (client : Client) (clean tell : Bool) : State :=
  let s := if clean then s.raiseClean else s.raisePlain
  if tell then s.awaitCommit client else s

/-- A client no longer waits for a commit's end. -/
def State.forgetCommit (s : State) (client : Client) : State :=
  { s with table := { s.table with
      waiters := s.table.waiters.filter (fun w => !(decide (w.client = client) && decide (w.what = .commitEnd))) } }

/-- An end report reaches the owner that gave the request (R7): the recovery scan while it runs, else the block whose
order is in progress. The patrol unit, which waits for its unloads alone, makes no use of one. -/
def State.takeReport (s : State) (l : Lane) (e : EndReport) : State :=
  if s.modes.scan.isSome then s.scanReport l e.op e.outcome
  else match e.op.kind with
    | .program => if s.writer.order.isSome then s.writerReport l e.op else s.copyProgramReport l e.op
    | .move => s.moveReport l e.op e.outcome
    | .erase => s.eraseReport l e.op
    | .read => s

/-- An answer of the band table reaches the giver (R26). -/
def State.takeAnswer (s : State) (c : Client) (u : Update) (applied changed : Bool) : State :=
  match c with
  | .writer => s.writerAnswer u applied
  | .reader => s.readerAnswer u applied
  | .services => s.servicesAnswer u applied
  | .patrol => s.patrolAnswer changed
  | .scan => s.scanAnswer u applied
  | .mode => s

/-- A notice reaches its giver (R26, R36). -/
def State.takeNotice (s : State) (c : Client) (what : NoticeFor) (stored : Bool) : State :=
  match c with
  | .writer => s.writerNotice what stored
  | .reader => s.readerNotice what stored
  | .services => s.servicesNotice what stored
  | .scan => s.scanNotice
  | .mode => s.modeNotice
  | .patrol => s

/-- A store permit reaches the owner that asked for it (R39, R40). -/
def State.takePermit (s : State) (c : Client) (granted : Bool) : State :=
  match c with
  | .writer => s.writerPermit granted
  | .reader => s.readerPermit granted
  | .services => s.erasePermit granted
  | .scan => s.scanPermit granted
  | .mode => s
  | .patrol => s

/-- ROW LOADED reaches the row path whose order is in progress (R50, R58). -/
def State.takeLoaded (s : State) (ls : List Lane) : State :=
  if s.writer.order.isSome then s.writerLoaded ls else s.copyLoaded ls

/-- A row report reaches the row reader (R54). -/
def State.takeJudged (s : State) (r : RowReport) : State := if s.reader.isCopy then s.copyJudged r else s.readJudged r

/-- UNIT WRITTEN reaches the transfer's owner (R155). -/
def State.takeUnit (s : State) : State := if s.reader.order.isSome then s.readWritten else s.recordWritten

/-- The mover's ending reaches the transfer's owner (R105, R118, R120, R128, R44). -/
def State.takeEnding (s : State) (e : MoverEnding) : State :=
  if s.writer.order.isSome then s.writerMoverEnding e
  else if s.reader.order.isSome then (if s.reader.isCopy then s.copyMoverEnding e else s.readMoverEnding e)
  else s.queryMoverEnding e

/-- FLUSHED reaches the transfer's owner (R159). -/
def State.takeFlushed (s : State) : State :=
  if s.writer.order.isSome then { s with writer := { s.writer with flushed := true } }
  else if s.reader.order.isSome then { s with reader := { s.reader with flushed := true } }
  else { s with services := { s.services with flushed := true } }

/-- FETCH DONE reaches the row reader (R158). -/
def State.takeFetched (s : State) (who : FetchFor) (ws : List Word) : State :=
  match who with
  | .descriptor => if s.reader.order.isSome then s.patchDescriptor ws else s
  | .patch => s.patchBytes ws

/-- A block changes its own state and speaks to the band table by messages alone: the table stays as it was. -/
def keepTable (f : State → State) (s : State) : State := { f s with table := s.table }

/-- One message is taken by the block it goes to. The first four go to the band table and its store controller. -/
def State.dispatch (s : State) : Signal → State
  | .update c u n => s.giveUpdate c u n
  | .askPermit c => s.askPermit c
  | .commitRequest c clean tell => s.takeRequest c clean tell
  | .forgetCommit c => s.forgetCommit c
  | .report l e => keepTable (fun s => s.takeReport l e) s
  | .answer c u a ch => keepTable (fun s => s.takeAnswer c u a ch) s
  | .notice c w st => keepTable (fun s => s.takeNotice c w st) s
  | .permit c g => keepTable (fun s => s.takePermit c g) s
  | .rowLoaded ls => keepTable (fun s => s.takeLoaded ls) s
  | .readBegun b => keepTable (fun s => s.readerBegun b) s
  | .judged r => keepTable (fun s => s.takeJudged r) s
  | .needPages ls => keepTable (fun s => s.copyNeeds ls) s
  | .rowDelivered => keepTable (fun s => s.readDelivered) s
  | .checked r cs => keepTable (fun s => s.patrolChecked r cs) s
  | .unitWritten => keepTable (fun s => s.takeUnit) s
  | .moverEnding e => keepTable (fun s => s.takeEnding e) s
  | .flushed => keepTable (fun s => s.takeFlushed) s
  | .fetchDone w ws => keepTable (fun s => s.takeFetched w ws) s
  | .orderEnd r => keepTable (fun s => s.takeOrderEnd r) s

/-! ## Reactions -/

/-- The gate has opened, or STORE_FAULT is set: what it holds is taken (R39, R40). -/
def State.gateReleases (s : State) : Option State :=
  if s.table.holds && (s.table.gateOpen || s.table.storeFault) then some s.releaseHeld else none

/-- The coder judges a row as soon as no lane of it is awaited (R53). -/
def State.coderJudges (s : State) : Option State := if s.coder.judgeDue then some s.judge else none

/-- The reactions of the blocks, in the order in which they are tried. -/
def blockReactions : List (State → Option State) :=
  [ State.placeRequests, State.coderJudges, State.moverWalk, State.moverHandsFetch, State.moverAtEnd, State.moverReport, State.moverFlushEnd,
    State.writerBegin, State.writerCommit, State.writerComplete, State.writerDiscarded, State.writerEnd,
    State.writerFinish,
    State.readBegin, State.copyBegin, State.copyPermit, State.copyCommit, State.copyRowEnd, State.readerCleanup,
    State.readerEnd, State.readerFinish,
    State.queryEnd, State.queryFinish,
    State.sheetSkip, State.sheetClose, State.closeNext, State.abortEnd, State.enterHeld,
    State.scanOn, State.wakeOn, State.patrolOn, State.drainOn, State.parkedOn,
    State.takeDue, State.recordNext, State.endVisit, State.endRun,
    State.raiseAccess, State.arbitrate ]

/-- A reaction of a block leaves the table as it was. -/
def keepTableOpt (f : State → Option State) (s : State) : Option State := (f s).map (fun t => { t with table := s.table })

/-- The first reaction that is due: those of the band table before those of the blocks. -/
def State.react (s : State) : Option State :=
  match s.gateReleases with
  | some t => some t
  | none => blockReactions.findSome? (fun f => keepTableOpt f s)

/-- One thing that comes about: the oldest message is taken, or, when there is none, a reaction. -/
def State.advance (s : State) : Option State :=
  match s.signals with
  | m :: rest => some ({ s with signals := rest }.dispatch m)
  | [] => s.react

/-- The size of a message: one, and with a check result its comparisons, each of which may be a finding. -/
def Signal.size : Signal → Nat
  | .checked _ cs => cs.length + 1
  | _ => 1

/-- The work of which one event may set any amount free: the updates and permits held, the messages already given, the
rows in flight of a write, the requests that wait at the lanes, the findings and commands of the patrol unit, and the
bands a recovery scan may pass over. -/
def State.backlog (s : State) : Nat :=
  s.table.heldUpdates.length + s.table.heldPermits.length + s.table.working.length + (s.signals.map Signal.size).sum +
    s.writer.flights.length + s.patrol.findings.length + s.patrol.due.length +
    (Lane.all.map (fun l => (s.lane l).waiting.length)).sum

/-- How many messages and reactions a step may run through: far above what it needs, and growing with its backlog
(log 2). -/
@[irreducible] def State.fuel (s : State) : Nat := Config.reactionFuel + Config.reactionsPerWork * s.backlog

/-- Messages and reactions until none is left, or the fuel is used up. -/
def State.settleLoop : Nat → State → State
  | 0, s => s
  | n + 1, s =>
      match s.advance with
      | some t => State.settleLoop n t
      | none => s

/-- One lane after the reactions: they move requests to and in its port, and nothing else of it. -/
def LaneCtl.withRequests (old new : LaneCtl) : LaneCtl := { old with port := new.port, waiting := new.waiting }

/-- The table after the reactions: the store, its marker and its check change at commits alone (R34). -/
def Table.withWork (old new : Table) : Table :=
  { new with stored := old.stored, marker := old.marker, checkDelta := old.checkDelta, loaded := old.loaded,
             commit := old.commit, storeFault := old.storeFault }

/-- The state `s` of a step after its messages and reactions, `t` being what they lead to. What they may change is
named here once: the ports, the working table and its requests, and the blocks' own state. What only an end, a commit, a
bus access, a post or a reset changes stays: the registers and operations of the lanes, the page array, the store, the
fuses, the lock picture, host memory, the sheet queue, the configuration, the lines and the waiting commands. An event
flag once set stays (R191). -/
def State.settled (s t : State) : State :=
  { s with
    lanes := Six.build (fun l => (s.lane l).withRequests (t.lane l)),
    table := s.table.withWork t.table,
    protect := { s.protect with fuseWrite := t.protect.fuseWrite },
    coder := t.coder, writer := t.writer, reader := t.reader, services := t.services, mover := t.mover, port := t.port,
    sheetLine := t.sheetLine, sheets := { t.sheets with queue := s.sheets.queue },
    modes := { t.modes with config := s.modes.config, warning := s.modes.warning },
    patrol := t.patrol,
    window := { s.window with events := s.window.events ||| t.window.events },
    signals := [] }

/-- The state once everything that comes about inside the step has come about. -/
def State.settle (s : State) : State := s.settled (State.settleLoop s.fuel s)

end Sys2Proof.Machine
end

