-- ==== Sys2Proof/Machine/Resets.lean ====
section
/-! DEFINITION. Power-on, RESET_N, soft reset and loss of supply (9.7): what each abandons, cuts, keeps and sets. -/

namespace Sys2Proof.Machine

/-- The word writes of the burst or single beat in progress, in order: that of the sheet processor, the mover or the
report writer that holds the port (R87, R149, R180). -/
def State.writesInProgress (s : State) : List (Nat × Word) :=
  match s.port with
  | some .sheet =>
      if s.serves .sheets then
        match s.sheets.access, s.sheets.inHand with
        | some (.result v done), some r => nextResultWrite r v done
        | some (.completion w), some r => [(headerWordAddress r.address 1, w)]
        | _, _ => []
      else []
  | some .mover =>
      match s.mover.access with
      | some (.writeBurst a ws) => consecutive a ws
      | _ => []
  | some .report => s.patrol.write.elim [] (s.patrol.burst s.burstLength)
  | none => []

/-- A write in progress is cut: a leading part of its words stands in host memory (R87, R149). -/
def State.cutWrites (s : State) (cut : Cut) : State :=
  { s with mem := Memory.writeWords s.mem (s.writesInProgress.take cut.words) }

/-- Every block takes its values after reset (R19, R42, R47, R69, R87, R88, R109, R131, R149, R160, R163, R180, 11.1).
The protection unit, the array, the stored table, the lines, host memory and the waiting commands are kept. -/
def State.resetBlocks (s : State) (cut : Cut) : State :=
  { s.abandonLanes cut with
    queryAnswer := none, table := s.table.cleared, coder := .reset, sheets := .reset, writer := .reset, reader := .reset,
    services := .reset, mover := .reset, port := none, sheetLine := [], modes := .reset s.warnLine, patrol := .reset, window := .reset,
    signals := [] }

/-- The cold path begins: PWR_WARN_N is sampled, and POWER_WARN set if it is asserted (R165). -/
def State.coldStart (s : State) : State :=
  let s1 := { s with modes := .reset s.warnLine }
  if s.warnLine then s1.setEvent .powerWarn else s1

/-- The lock picture set anew from lock-enable, with the line sampled (R137). -/
def Protection.rebuilt (p : Protection) (line : Bool) : Protection :=
  { p with lockAll := p.lockEnable, range := none, tight := false, inhibit := line }

/-- Soft reset (R179). -/
def State.softReset (s : State) (cut : Cut) : State := ((s.cutWrites cut).resetBlocks cut).coldStart

/-- RESET_N is asserted (R179, R137): every block is held at its reset values. -/
def State.assertReset (s : State) (cut : Cut) : State :=
  let s1 := (s.cutWrites cut).resetBlocks cut
  { s1 with resetHeld := true, protect := s1.protect.rebuilt s1.inhibitLine }

/-- RESET_N is withdrawn (R165): the lines are sampled, the lock picture stands rebuilt, and the cold path begins. -/
def State.withdrawReset (s : State) : State :=
  { s with resetHeld := false, protect := s.protect.rebuilt s.inhibitLine }.coldStart

/-- A fuse write in progress is cut: its bit reads set, or stays clear (R148). -/
def Protection.cutFuse (p : Protection) (wasSet : Bool) : Protection :=
  match p.fuseWrite with
  | some g => { p with fuses := if wasSet then p.fuses ||| (1#64 <<< g) else p.fuses, fuseWrite := none }
  | none => p

/-- Loss of supply (R18, R34, R148, R149). -/
def State.loseSupply (s : State) (cut : Cut) : State :=
  let s1 := (s.cutWrites cut).resetBlocks cut
  { s1 with supply := false, protect := s1.protect.cutFuse cut.fuseSet }

/-- Supply becomes stable (R179, R137): LOCK_EN and the lines are sampled, and the cold path begins, or waits while
RESET_N is asserted. -/
def State.gainSupply (s : State) (lockEn warn inhibit : Bool) (cut : Cut) : State :=
  let s1 := { s.resetBlocks cut with
    supply := true, warnLine := warn, inhibitLine := inhibit, modes := .reset warn,
    protect := { s.protect with lockEnable := lockEn }.rebuilt inhibit }
  if s.resetHeld then s1 else s1.coldStart

/-- POWER_ON; on a part that has supply it is a loss and a return (log 10). -/
def State.powerOn (s : State) (lockEn warn inhibit : Bool) (cut : Cut) : State :=
  (if s.supply then s.loseSupply cut else s).gainSupply lockEn warn inhibit cut

end Sys2Proof.Machine
end

