-- ==== Sys2Proof/Machine/SupplyCommands.lean ====
section
/-! DEFINITION. The commands from supply, reset lines, warning and inhibit lines and the patrol timer, and the steps of
the cold path. -/

namespace Sys2Proof.Machine

/-- The outcome of every command here: a next state (INVENTORY, Faults). -/
abbrev Result := Host.Outcome State Fault Refusal

/-- A command that a powered part out of reset takes, with all that comes about at it (logs 2, 10). -/
def State.takes (s : State) (f : State → State) : Result := .next (s.whenLive (fun s => (f s).settle))

/-- POWER_ON (R179). -/
def execPowerOn (lockEn warn inhibit : Bool) (cut : Cut) (s : State) : Result :=
  .next (s.powerOn lockEn warn inhibit cut)

/-- RESET_N_ASSERTED (R179). -/
def execResetNAsserted (cut : Cut) (s : State) : Result :=
  .next (if s.resetHeld then s else if s.supply then s.assertReset cut else { s with resetHeld := true })

/-- RESET_N_WITHDRAWN (R165). -/
def execResetNWithdrawn (s : State) : Result :=
  .next (if s.resetHeld then (if s.supply then s.withdrawReset else { s with resetHeld := false }) else s)

/-- SOFT_RESET (R179). -/
def execSoftReset (cut : Cut) (s : State) : Result := .next (s.whenLive (fun s => s.softReset cut))

/-- LOSS_OF_SUPPLY (R18, R148). -/
def execLossOfSupply (cut : Cut) (s : State) : Result := .next (if s.supply then s.loseSupply cut else s)

/-- PWR_WARN_ASSERTED (R176): the line is asserted, and a live part acts on it. -/
def execPwrWarnAsserted (s : State) : Result :=
  { s with warnLine := true }.takes State.warnAsserted

/-- PWR_WARN_WITHDRAWN (R176, R178). -/
def execPwrWarnWithdrawn (s : State) : Result :=
  { s with warnLine := false }.takes State.warnWithdrawn

/-- The lock picture at an assertion of WRITE_INHIBIT_N (R139). -/
def Protection.inhibited (p : Protection) : Protection := { p with inhibit := true }

/-- The lock picture at a withdrawal of WRITE_INHIBIT_N (R140). -/
def Protection.released (p : Protection) : Protection :=
  if p.lockEnable then { p with inhibit := false, lockAll := true, range := none, tight := false }
  else { p with inhibit := false }

/-- WRITE_INHIBIT_ASSERTED (R139). -/
def execWriteInhibitAsserted (s : State) : Result :=
  .next ({ s with inhibitLine := true }.whenLive (fun s => { s with protect := s.protect.inhibited }))

/-- WRITE_INHIBIT_WITHDRAWN (R140). -/
def execWriteInhibitWithdrawn (s : State) : Result :=
  .next ({ s with inhibitLine := false }.whenLive (fun s => { s with protect := s.protect.released }))

/-- PATROL_TIMER_EXPIRY (R181, R175). -/
def execPatrolTimerExpiry (s : State) : Result := s.takes State.timerExpiry

/-- FUSE_ROW_LOAD (R145, R165). -/
def execFuseRowLoad (s : State) : Result := s.takes State.loadFuses

/-- TABLE_LOAD (R41, R165). -/
def execTableLoad (agrees : Bool) (s : State) : Result := s.takes (fun s => s.loadTable agrees)

/-- FUSE_WRITE_END (R148): a fuse write needs supply alone. -/
def execFuseWriteEnd (s : State) : Result := .next (if s.supply then s.endFuse.settle else s)

end Sys2Proof.Machine
end

