-- ==== Sys2Proof/Machine/CoderCommands.lean ====
section
/-! DEFINITION. The commands of the stripe coder (chapter 3) and of the words handed to the mover (R155). -/

namespace Sys2Proof.Machine

/-- The coder takes BEGIN WRITE ROW once its write assembly is empty (R49). -/
def State.beginWriteRow (s : State) : State :=
  match s.coder.beginWrite, s.coder.write with
  | some b, none => { s with coder := { s.coder with beginWrite := none, write := some (WriteAsm.start b) } }
  | _, _ => s

/-- The coder takes a word of an INBOUND transfer from the staging FIFO (R50, R153). -/
def State.takeStagingWord (s : State) : State :=
  match s.coder.write, s.mover.fifo with
  | some a, w :: rest =>
      if a.asking = true ∧ s.mover.direction = some .inbound ∧ s.mover.phase = .moving then
        let s1 := { s with mover := { s.mover with fifo := rest },
                           writer := { s.writer with bytesNeeded := s.writer.bytesNeeded - 4 } }
        s1.coderTake a w
      else s
  | _, _ => s

/-- A CACHE LOAD of the coder is placed in an empty port (R6, R50). -/
def State.placeLoad (s : State) (h : Handing) (id : PageId) : State :=
  s.setLane h.lane { s.lane h.lane with port := some (.coder, .cacheLoad id h.data) }

/-- The port of the lane is free for the coder's page (R6). -/
def State.portOpen (s : State) (h : Handing) : Bool :=
  let c := s.lane h.lane
  c.port.isNone && (!h.behind || c.waiting.isEmpty)

/-- The page of the row being assembled enters its lane's port (R50). -/
def State.handWritePage (s : State) (a : WriteAsm) (h : Handing) : State :=
  (s.placeLoad h { band := a.band, row := a.row, level := a.level }).putWrite
    { a with handing := none, index := a.index + 1, loaded := addLane a.loaded h.lane }

/-- A target page of a copy enters its lane's port, carrying the target band and row (R58). -/
def State.handCopyPage (s : State) (r : ReadAsm) (h : Handing) : State :=
  (s.placeLoad h { band := r.target.1, row := r.target.2, level := r.level }).putCopy
    { r with handing := none, loaded := addLane r.loaded h.lane }

/-- The page of the write assembly being handed. -/
def Coder.writeHanding (c : Coder) : Option (WriteAsm × Handing) := c.write.bind (fun a => a.handing.map (fun h => (a, h)))

/-- The page of the read assembly being handed. -/
def Coder.copyHanding (c : Coder) : Option (ReadAsm × Handing) := c.read.bind (fun r => r.handing.map (fun h => (r, h)))

/-- PAGE_HANDED: the page being handed is placed when its port is empty (R50, R58). -/
def State.handPage (s : State) : State :=
  match s.coder.writeHanding, s.coder.copyHanding with
  | some (a, h), _ => if s.portOpen h then s.handWritePage a h else s
  | none, some (r, h) => if s.portOpen h then s.handCopyPage r h else s
  | none, none => s

/-- The coder takes BEGIN READ ROW once its read assembly is empty (R53). -/
def State.beginReadRow (s : State) : State :=
  match s.coder.beginRead, s.coder.read with
  | some b, none =>
      { s with coder := { s.coder with beginRead := none, read := some (ReadAsm.start b), verdict := none } }.emit
        (.readBegun b)
  | _, _ => s

/-- A row judged RECOVERABLE stands ready to be handed to the mover (R57). -/
def Coder.delivering (c : Coder) : Option ReadAsm :=
  c.read.filter (fun r => decide (r.purpose = .deliver) && c.verdict.isSome)

/-- The next word of a delivered row joins the FIFO; with the last, ROW DELIVERED is told and the row released (R57). -/
def State.handRowWord (s : State) (r : ReadAsm) : State :=
  let s1 := s.handWord (r.wordAt r.handed)
  if dataPages r.level * Config.pageWords ≤ r.handed + 1 then s1.releaseRead.emit .rowDelivered
  else { s1 with coder := { s1.coder with read := some { r with handed := r.handed + 1 } } }

/-- WORD_HANDED: a word of the coder or of the band services joins the FIFO while it has room (R155). -/
def State.handNext (s : State) : State :=
  if s.mover.accepts then
    if s.services.hasWord then s.handRecordWord
    else match s.coder.delivering with
      | some r => s.handRowWord r
      | none => s
  else s

/-- BEGIN_WRITE_ROW (R49). -/
def execBeginWriteRow (s : State) : Result := s.takes State.beginWriteRow

/-- STAGING_WORD_TAKEN (R50). -/
def execStagingWordTaken (s : State) : Result := s.takes State.takeStagingWord

/-- PAGE_HANDED (R50, R58). -/
def execPageHanded (s : State) : Result := s.takes State.handPage

/-- BEGIN_READ_ROW (R53). -/
def execBeginReadRow (s : State) : Result := s.takes State.beginReadRow

/-- WORD_HANDED (R57, R155). -/
def execWordHanded (s : State) : Result := s.takes State.handNext

end Sys2Proof.Machine
end

