-- ==== Sys2Proof/Machine/LaneCommands.lean ====
section
/-! DEFINITION. The commands of the lanes (chapter 1): each request taken from the port, and each end. -/

namespace Sys2Proof.Machine

/-- CACHE_LOAD (R8). -/
def execCacheLoad (l : Lane) (s : State) : Result := s.takes (fun s => s.laneStep l LaneCtl.takeLoad)

/-- CACHE_COMMIT (R9). -/
def execCacheCommit (l : Lane) (s : State) : Result := s.takes (fun s => s.laneStep l LaneCtl.takeCommit)

/-- CACHE_DISCARD (R11). -/
def execCacheDiscard (l : Lane) (s : State) : Result := s.takes (fun s => s.laneStep l LaneCtl.takeDiscard)

/-- CACHE_UNLOAD (R13). -/
def execCacheUnload (l : Lane) (s : State) : Result := s.takes (fun s => s.takeUnload l)

/-- PAGE_READ (R12). -/
def execPageRead (l : Lane) (s : State) : Result := s.takes (fun s => s.laneStep l LaneCtl.takeRead)

/-- PAGE_MOVE (R14). -/
def execPageMove (l : Lane) (s : State) : Result := s.takes (fun s => s.takeMove l)

/-- BLOCK_ERASE (R15). -/
def execBlockErase (l : Lane) (s : State) : Result := s.takes (fun s => s.laneStep l LaneCtl.takeErase)

/-- POWER_DOWN (R16). -/
def execPowerDown (l : Lane) (s : State) : Result := s.takes (fun s => s.laneStep l LaneCtl.takePowerDown)

/-- POWER_UP (R17). -/
def execPowerUp (l : Lane) (s : State) : Result := s.takes (fun s => s.laneStep l LaneCtl.takePowerUp)

/-- The lane answers, and the band services take the answer they wait for (R7, R133). -/
def State.query (s : State) (l : Lane) : State :=
  { s with queryAnswer := some ((s.lane l).answer l) }.eraseQuery l

/-- RESULT_QUERY (R7). -/
def execResultQuery (l : Lane) (s : State) : Result := s.takes (fun s => s.query l)

/-- PROGRAM_END (R10). -/
def execProgramEnd (l : Lane) (pass : Bool) (s : State) : Result := s.takes (fun s => s.endProgram l pass)

/-- READ_END (R12). -/
def execReadEnd (l : Lane) (seen : ArrayRead) (s : State) : Result := s.takes (fun s => s.endRead l seen)

/-- TRANSFER_END (R12). -/
def execTransferEnd (l : Lane) (s : State) : Result := s.takes (fun s => s.laneStep l LaneCtl.endTransfer)

/-- MOVE_END (R14). -/
def execMoveEnd (l : Lane) (seen : ArrayRead) (pass : Bool) (s : State) : Result :=
  s.takes (fun s => s.endMove l seen pass)

/-- BLOCK_ERASE_END (R15). -/
def execBlockEraseEnd (l : Lane) (pass : Bool) (s : State) : Result := s.takes (fun s => s.endErase l pass)

/-- POWER_UP_END (R17). -/
def execPowerUpEnd (l : Lane) (s : State) : Result := s.takes (fun s => s.laneStep l LaneCtl.endPowerUp)

end Sys2Proof.Machine
end

