-- ==== Sys2Proof/Machine/MoverCommands.lean ====
section
/-! DEFINITION. The commands of the memory mover (chapter 8). -/

namespace Sys2Proof.Machine

/-- An access of a descriptor read ends (R151). -/
def State.descriptorEnds (s : State) (reply : BusReply) : State :=
  match s.port, s.mover.access with
  | some .mover, some (.descriptor a got) =>
      match s.freePort.busRead reply (a + 4 * got.length) s.mover.descriptorBeats with
      | (s, ws) => s.endDescriptor a got ws
  | _, _ => s

/-- With the port granted, a burst starts when its condition holds (R157). -/
def State.burstStarts (s : State) : State :=
  match s.port, s.mover.burstNow with
  | some .mover, some a => { s with mover := s.mover.startBurst a }
  | _, _ => s

/-- A burst ends (R161). -/
def State.burstEnds (s : State) (reply : BusReply) : State :=
  match s.port, s.mover.access with
  | some .mover, some (.readBurst a n) =>
      match s.freePort.busRead reply a n with
      | (s, ws) => s.endReadBurst ws
  | some .mover, some (.writeBurst a ws) =>
      match s.freePort.busWrite reply (consecutive a ws) with
      | (s, ok) => s.endWriteBurst ws.length ok
  | _, _ => s

/-- DESCRIPTOR_READ_END (R151). -/
def execDescriptorReadEnd (reply : BusReply) (s : State) : Result := s.takes (fun s => s.descriptorEnds reply)

/-- BURST_START (R157). -/
def execBurstStart (s : State) : Result := s.takes State.burstStarts

/-- BURST_END (R161). -/
def execBurstEnd (reply : BusReply) (s : State) : Result := s.takes (fun s => s.burstEnds reply)

end Sys2Proof.Machine
end

