-- ==== Sys2Proof/Machine/SheetCommands.lean ====
section
/-! DEFINITION. The commands of the sheet processor (chapter 4) and the configuration read (R171). -/

namespace Sys2Proof.Machine

/-- The sheet accesses by kind (R69). -/
inductive AccessKind where
  | header | entry | result | completion
  deriving DecidableEq, Repr

/-- The kind of a sheet access. -/
def SheetAccess.kind : SheetAccess → AccessKind
  | .header _ => .header | .entry _ => .entry | .result _ _ => .result | .completion _ => .completion

/-- A sheet access of this kind is in progress at the port. -/
def State.accessing (s : State) (k : AccessKind) : Bool :=
  s.serves .sheets && decide (s.sheets.access.map SheetAccess.kind = some k)

/-- A single beat of the sheet access in progress ends and leaves the port (R160). -/
def State.accessEnds (s : State) (k : AccessKind) (f : State → State) : State :=
  if s.accessing k then f s.endBeat else s

/-- SHEET_ACTIVATION (R70). -/
def execSheetActivation (s : State) : Result := s.takes State.activate

/-- HEADER_READ_END (R71). -/
def execHeaderReadEnd (reply : BusReply) (s : State) : Result :=
  s.takes (fun s => s.accessEnds .header (fun s => s.endHeaderRead reply))

/-- ORDER_START (R72). -/
def execOrderStart (s : State) : Result := s.takes State.startEntryRead

/-- ENTRY_READ_END (R72). -/
def execEntryReadEnd (reply : BusReply) (s : State) : Result :=
  s.takes (fun s => s.accessEnds .entry (fun s => s.endEntryRead reply))

/-- RESULT_WRITE_END (R73). -/
def execResultWriteEnd (reply : BusReply) (s : State) : Result :=
  s.takes (fun s => s.accessEnds .result (fun s => s.endResultWrite reply))

/-- COMPLETION_WRITE_END (R75). -/
def execCompletionWriteEnd (reply : BusReply) (s : State) : Result :=
  s.takes (fun s => s.accessEnds .completion (fun s => s.endCompletionWrite reply))

/-- ROW_GO (R76). -/
def execRowGo (s : State) : Result := s.takes State.rowGo

/-- A configuration read ends, if it holds the port (R160, R171). -/
def State.configEnds (s : State) (reply : BusReply) : State :=
  if s.serves .config then s.endBeat.endConfigRead reply else s

/-- CONFIG_READ_END (R171). -/
def execConfigReadEnd (reply : BusReply) (s : State) : Result := s.takes (fun s => s.configEnds reply)

end Sys2Proof.Machine
end

