-- ==== Sys2Proof/Machine/StoreCommands.lean ====
section
/-! DEFINITION. The commands of the table store controller (chapter 2) and of the patrol unit (chapter 10). -/

namespace Sys2Proof.Machine

/-- A commit may start (R35). -/
def Table.commitDue (t : Table) : Bool := t.commit.isNone && !t.storeFault && (t.plainReq || t.cleanReq)

/-- A commit starts (R35). -/
def State.beginCommit (s : State) : State := if s.table.commitDue then { s with table := s.table.startCommit } else s

/-- The commit in flight ends (R36). -/
def State.commitEnds (s : State) (pass : Bool) : State :=
  match s.table.commit with
  | some c => s.endCommit c pass
  | none => s

/-- COMMIT_START (R35). -/
def execCommitStart (s : State) : Result := s.takes State.beginCommit

/-- COMMIT_END (R36). -/
def execCommitEnd (pass : Bool) (s : State) : Result := s.takes (fun s => s.commitEnds pass)

/-- PATROL_VISIT (R182, R183). -/
def execPatrolVisit (s : State) : Result := s.takes State.patrolVisit

/-- The report writer's access ends, if it holds the port (R185). -/
def State.reportEnds (s : State) (reply : BusReply) : State :=
  if s.port = some .report ∧ s.patrol.write.isSome then s.freePort.endReportWrite reply else s

/-- REPORT_WRITE_END (R185). -/
def execReportWriteEnd (reply : BusReply) (s : State) : Result := s.takes (fun s => s.reportEnds reply)

end Sys2Proof.Machine
end

