-- ==== Sys2Proof/Machine/WindowCommands.lean ====
section
/-! DEFINITION. The commands of the register window (chapter 11): POST, the CONTROL commands, EVENTS, EVENT_ENABLE and
every other register write. -/

namespace Sys2Proof.Machine

/-- EVENTS written (R191). -/
def State.writeEvents (s : State) (v : Word) : State := { s with window := s.window.clearEvents v }

/-- EVENT_ENABLE written (R192). -/
def State.writeEnable (s : State) (v : Word) : State := { s with window := s.window.setEnable v }

/-- CONFIG_ADDRESS written (R188). -/
def State.writeConfigAddress (s : State) (v : Word) : State := { s with window := { s.window with configAddress := v } }

/-- The command bits 0 to 6 that a CONTROL write sets (R189). -/
def controlBits (v : Word) : List Nat := (List.range 7).filter (fun i => v.getLsbD i)

/-- The command of one CONTROL bit (R189). -/
def State.controlCommand (s : State) : Nat → State
  | 0 => s.apply
  | 1 => s.hold
  | 2 => s.resume
  | 3 => s.abort
  | 4 => s.standby
  | 5 => s.wake
  | _ => s.reportClear

/-- A CONTROL write (R189): a reset when bit 31 is set, the command of the one bit set, a refusal when two or more are. -/
def State.writeControl (s : State) (v : Word) (cut : Cut) : State :=
  if v.getLsbD 31 then s.softReset cut
  else match controlBits v with
    | [] => s
    | [i] => s.controlCommand i
    | _ => s.requestRefused

/-- A register write (R188): fewer than 32 bits, a read-only register and an unused offset are ignored. -/
def State.writeRegister (s : State) (offset bytes : Nat) (v : Word) (cut : Cut) : State :=
  if bytes ≠ 4 then s
  else if offset = 0x08 then s.post v
  else if offset = 0x0C then s.writeControl v cut
  else if offset = 0x10 then s.writeEvents v
  else if offset = 0x14 then s.writeEnable v
  else if offset = 0x18 then s.writeConfigAddress v
  else s

/-- POST (R67). -/
def execPost (address : Word) (s : State) : Result := s.takes (fun s => s.post address)

/-- APPLY (R170). -/
def execApply (s : State) : Result := s.takes State.apply

/-- HOLD (R77). -/
def execHold (s : State) : Result := s.takes State.hold

/-- RESUME (R79). -/
def execResume (s : State) : Result := s.takes State.resume

/-- ABORT (R80). -/
def execAbort (s : State) : Result := s.takes State.abort

/-- STANDBY (R173). -/
def execStandby (s : State) : Result := s.takes State.standby

/-- WAKE (R174). -/
def execWake (s : State) : Result := s.takes State.wake

/-- REPORT_CLEAR (R186). -/
def execReportClear (s : State) : Result := s.takes State.reportClear

/-- EVENTS_WRITE (R191). -/
def execEventsWrite (value : Word) (s : State) : Result := .next (s.whenLive (fun s => s.writeEvents value))

/-- EVENT_ENABLE_WRITE (R192). -/
def execEventEnableWrite (value : Word) (s : State) : Result := .next (s.whenLive (fun s => s.writeEnable value))

/-- REGISTER_WRITE (R188, R189). -/
def execRegisterWrite (offset bytes : Nat) (value : Word) (cut : Cut) (s : State) : Result :=
  s.takes (fun s => s.writeRegister offset bytes value cut)

end Sys2Proof.Machine
end

