-- ==== Sys2Proof/Machine/Dispatch.lean ====
section
/-! DEFINITION. One arm per command, each a direct call of its meaning. -/

namespace Sys2Proof.Machine

def exec (i : Instr) (s : State) : Host.Outcome State Fault Refusal :=
  match i with
  | .powerOn lockEn warn inhibit cut => Sys2Proof.Machine.execPowerOn lockEn warn inhibit cut s
  | .resetNAsserted cut => Sys2Proof.Machine.execResetNAsserted cut s
  | .resetNWithdrawn => Sys2Proof.Machine.execResetNWithdrawn s
  | .softReset cut => Sys2Proof.Machine.execSoftReset cut s
  | .pwrWarnAsserted => Sys2Proof.Machine.execPwrWarnAsserted s
  | .pwrWarnWithdrawn => Sys2Proof.Machine.execPwrWarnWithdrawn s
  | .writeInhibitAsserted => Sys2Proof.Machine.execWriteInhibitAsserted s
  | .writeInhibitWithdrawn => Sys2Proof.Machine.execWriteInhibitWithdrawn s
  | .post address => Sys2Proof.Machine.execPost address s
  | .apply => Sys2Proof.Machine.execApply s
  | .hold => Sys2Proof.Machine.execHold s
  | .resume => Sys2Proof.Machine.execResume s
  | .abort => Sys2Proof.Machine.execAbort s
  | .standby => Sys2Proof.Machine.execStandby s
  | .wake => Sys2Proof.Machine.execWake s
  | .reportClear => Sys2Proof.Machine.execReportClear s
  | .eventsWrite value => Sys2Proof.Machine.execEventsWrite value s
  | .eventEnableWrite value => Sys2Proof.Machine.execEventEnableWrite value s
  | .registerWrite offset bytes value cut => Sys2Proof.Machine.execRegisterWrite offset bytes value cut s
  | .patrolTimerExpiry => Sys2Proof.Machine.execPatrolTimerExpiry s
  | .fuseRowLoad => Sys2Proof.Machine.execFuseRowLoad s
  | .tableLoad agrees => Sys2Proof.Machine.execTableLoad agrees s
  | .cacheLoad l => Sys2Proof.Machine.execCacheLoad l s
  | .cacheCommit l => Sys2Proof.Machine.execCacheCommit l s
  | .cacheDiscard l => Sys2Proof.Machine.execCacheDiscard l s
  | .cacheUnload l => Sys2Proof.Machine.execCacheUnload l s
  | .pageRead l => Sys2Proof.Machine.execPageRead l s
  | .pageMove l => Sys2Proof.Machine.execPageMove l s
  | .blockErase l => Sys2Proof.Machine.execBlockErase l s
  | .powerDown l => Sys2Proof.Machine.execPowerDown l s
  | .powerUp l => Sys2Proof.Machine.execPowerUp l s
  | .resultQuery l => Sys2Proof.Machine.execResultQuery l s
  | .programEnd l pass => Sys2Proof.Machine.execProgramEnd l pass s
  | .readEnd l seen => Sys2Proof.Machine.execReadEnd l seen s
  | .transferEnd l => Sys2Proof.Machine.execTransferEnd l s
  | .moveEnd l seen pass => Sys2Proof.Machine.execMoveEnd l seen pass s
  | .blockEraseEnd l pass => Sys2Proof.Machine.execBlockEraseEnd l pass s
  | .powerUpEnd l => Sys2Proof.Machine.execPowerUpEnd l s
  | .beginWriteRow => Sys2Proof.Machine.execBeginWriteRow s
  | .stagingWordTaken => Sys2Proof.Machine.execStagingWordTaken s
  | .pageHanded => Sys2Proof.Machine.execPageHanded s
  | .beginReadRow => Sys2Proof.Machine.execBeginReadRow s
  | .wordHanded => Sys2Proof.Machine.execWordHanded s
  | .commitStart => Sys2Proof.Machine.execCommitStart s
  | .commitEnd pass => Sys2Proof.Machine.execCommitEnd pass s
  | .sheetActivation => Sys2Proof.Machine.execSheetActivation s
  | .headerReadEnd reply => Sys2Proof.Machine.execHeaderReadEnd reply s
  | .orderStart => Sys2Proof.Machine.execOrderStart s
  | .entryReadEnd reply => Sys2Proof.Machine.execEntryReadEnd reply s
  | .resultWriteEnd reply => Sys2Proof.Machine.execResultWriteEnd reply s
  | .completionWriteEnd reply => Sys2Proof.Machine.execCompletionWriteEnd reply s
  | .rowGo => Sys2Proof.Machine.execRowGo s
  | .descriptorReadEnd reply => Sys2Proof.Machine.execDescriptorReadEnd reply s
  | .burstStart => Sys2Proof.Machine.execBurstStart s
  | .burstEnd reply => Sys2Proof.Machine.execBurstEnd reply s
  | .configReadEnd reply => Sys2Proof.Machine.execConfigReadEnd reply s
  | .fuseWriteEnd => Sys2Proof.Machine.execFuseWriteEnd s
  | .patrolVisit => Sys2Proof.Machine.execPatrolVisit s
  | .reportWriteEnd reply => Sys2Proof.Machine.execReportWriteEnd reply s
  | .lossOfSupply cut => Sys2Proof.Machine.execLossOfSupply cut s

end Sys2Proof.Machine
end

