-- ==== Sys2Proof/Machine/Step.lean ====
section
/-! DEFINITION. One step: the command at the front of the queue; a second of the patrol timer when none waits. -/

namespace Sys2Proof.Machine

/-- One step. With a command waiting, its meaning on the state with the rest of the queue; with none, the block idles
and a whole second passes on a live part's running patrol timer, with what an expiry brings (log 6). -/
def step (s : State) : Host.Outcome State Fault Refusal :=
  match s.pending with
  | c :: rest => exec c { s with pending := rest }
  | [] => .next (s.whenLive (fun s => s.second.settle))

/-- The command a word spells put at the front of the queue; the table spells none, so the state stays. -/
def State.withFetchWord (s : State) (nbits w : Nat) : State :=
  match decodeTableWord nbits w with
  | some c => { s with pending := c :: s.pending }
  | none => s

end Sys2Proof.Machine
end

