-- ==== Sys2Proof/Safety.lean ====
section
/-! DEFINITION. What the part promises: the invariants that every step keeps, the orders in which bands, locks and fuses
change, and the names the statements use for what a step leaves alone. -/

namespace Sys2Proof.Machine

/-! ## Band records (R20, R25, R31) -/

/-- A lost list longer than the level is found in FAILED, ERASING and RETIRED alone (R31). -/
def BandRecord.lossFits (r : BandRecord) : Bool :=
  decide (r.lost.length ≤ r.level.val) || decide (r.state = .failed) || decide (r.state = .erasing) ||
    decide (r.state = .retired)

/-- A band record as R20 and R31 bound it. -/
def BandRecord.sound (r : BandRecord) : Bool := r.wf && r.lossFits

/-- Every listed record is sound. -/
def soundAll (m : Sparse BandRecord) : Bool := m.all (fun e => e.2.sound)

/-- The working and the stored records, and those a commit carries, are sound, and the two tables stand in their
canonical form. -/
def Table.sound (t : Table) : Bool :=
  soundAll t.working && soundAll t.stored && Sparse.wf .factory t.working && Sparse.wf .factory t.stored &&
    t.commit.elim true (fun c => soundAll c.records && (!c.clean || Sparse.wf .factory c.records))

/-- The moves of a band between states (R25); a record may also stay in its state. -/
def stateMoves : BandState → List BandState
  | .unused => [.erasing]
  | .erasing => [.blank, .retired]
  | .blank => [.opened, .erasing]
  | .opened => [.sealed, .failed, .erasing]
  | .sealed => [.erasing]
  | .failed => [.erasing]
  | .retired => []

/-! ## The clean marker (R39) -/

/-- The part of R39 that the table alone shows. After a load, until the next reset: with the stored marker 1 the stored
table is the working table, and while STORE_FAULT is 0 nothing is dirty; a clean commit in flight carries the working
table as it stands, and a plain one that flies while the marker is 1 carries no record; no commit flies under
STORE_FAULT. -/
def Table.gated (t : Table) : Bool :=
  !t.loaded ||
    ((!t.marker || decide (t.stored = t.working)) && (!t.marker || t.storeFault || t.dirty.isEmpty) &&
      t.commit.elim true (fun c =>
        !t.storeFault &&
          (if c.clean then decide (c.records = t.working) && t.dirty.isEmpty else !t.marker || c.records.isEmpty)))

/-! ## Locks and fuses (R137, R144) -/

/-- The lock picture as R137 bounds it. -/
def Protection.sound (p : Protection) : Bool :=
  (if p.lockEnable then p.lockAll == p.range.isNone else !p.lockAll && p.range.isNone && !p.tight) &&
    p.range.elim true (fun r => decide (r.low ≤ r.high) && decide (r.high < Config.bands))

/-- Every fuse bit that was set is set (R144). -/
def fusesStay (p q : Protection) : Prop := ∀ i, p.fuses.getLsbD i = true → q.fuses.getLsbD i = true

/-! ## Memory, array, queue -/

/-- Host memory and the page array stand in their canonical form. -/
def State.canonical (s : State) : Bool := Memory.wf s.mem && Sparse.wf .erased s.array

/-- The sheet queue holds at most two addresses (R68). -/
def State.queueFits (s : State) : Bool := decide (s.sheets.queue.length ≤ Config.queueDepth)

/-! ## What a step leaves alone -/

/-- The registers and the operation of a lane: what its own requests and ends change, and resets. -/
def LaneCtl.sameWork (a b : LaneCtl) : Prop :=
  a.cache = b.cache ∧ a.activity = b.activity ∧ a.lastOp = b.lastOp ∧ a.prevFailed = b.prevFailed

/-- Every other lane keeps its registers and its operation. -/
def State.othersKept (l : Lane) (s t : State) : Prop := ∀ l', l' ≠ l → (s.lane l').sameWork (t.lane l')

/-- Every lane keeps its registers and its operation. -/
def State.lanesKept (s t : State) : Prop := ∀ l, (s.lane l).sameWork (t.lane l)

/-- Every byte of host memory reads as before. -/
def State.memoryKept (s t : State) : Prop := ∀ a, Memory.readByte t.mem a = Memory.readByte s.mem a

/-- Every page of the array is as before. -/
def State.arrayKept (s t : State) : Prop := ∀ l band row, t.page l band row = s.page l band row

/-- The table store is as before: its records, marker and check, the commit in flight and STORE_FAULT. -/
def State.storeKept (s t : State) : Prop :=
  (∀ b, t.table.storedRecord b = s.table.storedRecord b) ∧ t.table.marker = s.table.marker ∧
    t.table.checkDelta = s.table.checkDelta ∧ t.table.commit = s.table.commit ∧
    t.table.storeFault = s.table.storeFault ∧ t.table.loaded = s.table.loaded

/-- The lock picture and the fuse row with its working copy are as before. -/
def State.protectKept (s t : State) : Prop :=
  t.protect.lockEnable = s.protect.lockEnable ∧ t.protect.lockAll = s.protect.lockAll ∧
    t.protect.range = s.protect.range ∧ t.protect.tight = s.protect.tight ∧ t.protect.inhibit = s.protect.inhibit ∧
    t.protect.fuses = s.protect.fuses ∧ t.protect.working = s.protect.working

/-- The registers of the window are as before, but that event flags may have been set. -/
def State.windowKept (s t : State) : Prop :=
  (∀ i, s.window.events.getLsbD i = true → t.window.events.getLsbD i = true) ∧ t.window.enable = s.window.enable ∧
    t.window.configAddress = s.window.configAddress ∧ t.window.errorAddress = s.window.errorAddress ∧
    t.window.refusal = s.window.refusal ∧ t.window.refusalApply = s.window.refusalApply

/-- Supply, the lines and the waiting commands are as before. -/
def State.outsideKept (s t : State) : Prop :=
  t.supply = s.supply ∧ t.resetHeld = s.resetHeld ∧ t.warnLine = s.warnLine ∧ t.inhibitLine = s.inhibitLine ∧
    t.pending = s.pending

/-- The sheet queue, the applied configuration and the warning level are as before. -/
def State.postsKept (s t : State) : Prop :=
  t.sheets.queue = s.sheets.queue ∧ t.modes.config = s.modes.config ∧ t.modes.warning = s.modes.warning

/-- All that the messages and reactions inside a step leave alone. -/
def State.reactionsKept (s t : State) : Prop :=
  State.lanesKept s t ∧ State.memoryKept s t ∧ State.arrayKept s t ∧ State.storeKept s t ∧ State.protectKept s t ∧
    State.windowKept s t ∧ State.outsideKept s t ∧ State.postsKept s t ∧ t.queryAnswer = s.queryAnswer

/-! ## Blocks after a reset -/

/-- Every block but the protection unit holds its values after reset (R19, R42, R47, R69, R88, R109, R131, R149, R160,
R180). -/
def State.blocksReset (s t : State) : Prop :=
  (∀ l, t.lane l = LaneCtl.reset) ∧ t.table = s.table.cleared ∧ t.coder = .reset ∧ t.sheets = .reset ∧
    t.writer = .reset ∧ t.reader = .reset ∧ t.services = .reset ∧ t.mover = .reset ∧ t.port = none ∧
    t.sheetLine = [] ∧ t.patrol = .reset

end Sys2Proof.Machine
end

