-- ==== Sys2Proof/Certificates/Slice0/Obligations.lean ====
section
/-! DEFINITION. The statements for the provers. Each conclusion of the form `exec c s = .next t` says that the command is
taken; where `t` is a `settle`, its argument is the state after the command's own effect, and `settle` adds what comes
about inside the same step (95; log 2). -/

open Sys2Proof Sys2Proof.Machine

/-! ## The queue -/

/-- A step runs the command at the front of the queue on the state with the rest of the queue. Every command, on every
state, answers a next state: no rule stops the part (the model's reading, INVENTORY, Faults). -/
def Obligations.StepRunsFrontCommand : Prop :=
  (∀ (c : Instr) (s : State) (rest : List Instr),
    step { s with pending := c :: rest } = exec c { s with pending := rest }) ∧
  (∀ (c : Instr) (s : State), ∃ t : State, exec c s = .next t)

/-- With no command waiting, a second passes on a live part's running patrol timer (the model's choice, log 6): short of
the interval it is counted, and PATROL_TIMER_EXPIRY does nothing. With the second that reaches the interval, and at
PATROL_TIMER_EXPIRY then, the timer expires: it stops, and in STANDBY with no wake pending the mode becomes PATROL, its
lanes to be woken (R175, R181). A stopped timer, and a part that is not live, see no second. In PATROL the lanes are
given POWER UP once no commit is awaited, and once they stand idle the run begins with the configured budget, or RUN is
entered if a post or WAKE came first (R175, R182). A visit whose findings are recorded, with no report write and no
report command left (log 26), ends: the cursor moves to the row after, the coder is released, the budget is one less,
and the end is asked for if a report write failed (R183, R185). An answer of the run's SET ATTENTION counts off, and a
changed record is remembered (R184). A run that has ended at a step of R182 is over once its answers are in: with a
record changed the clean commit is requested (R187); after a WAKE the mode is RUN; else, with a record changed and
STORE_FAULT 0, that commit's end is awaited; else, and at that end, the part goes back to STANDBY: POWER DOWN given to
each lane, the timer started, PATROL_DONE set (R175). In DRAIN its end is noted (R177). -/
def Obligations.PatrolTimerAndRuns : Prop :=
  (∀ (s : State) (n : Nat) (c : Applied), s.live = true → s.patrol.timer = some n → s.modes.config = some c →
     let stopped : State := { s with patrol := { s.patrol with timer := none } }
     let expired : State :=
       if s.modes.mode = .standby ∧ s.modes.wake = false then
         { stopped with modes := { s.modes with
             mode := .patrol, patrolStage := .waking, powerGiven := false, patrolWake := false } }
       else stopped
     (n + 1 < c.patrolInterval → exec .patrolTimerExpiry s = .next s.settle ∧
       (s.pending = [] →
         step s = .next (State.settle { s with patrol := { s.patrol with timer := some (n + 1) } }))) ∧
     (c.patrolInterval ≤ n + 1 → exec .patrolTimerExpiry s = .next expired.settle ∧
       (s.pending = [] → step s = .next expired.settle))) ∧
  (∀ (s : State), s.pending = [] →
     (s.live = true → s.patrol.timer = none → step s = .next s.settle) ∧ (s.live = false → step s = .next s)) ∧
  (∀ (s : State),
     let m := s.modes
     let idle := ∀ l, (s.lane l).state = .idle ∧ (s.lane l).port = none ∧ (s.lane l).waiting = []
     let waking := m.mode = .patrol ∧ m.patrolStage = .waking ∧ m.commitAwaited = false
     let started : PatrolRun := { budget := m.config.elim 0 (·.patrolBudget), endRequested := false,
                                  recordChanged := false, answersAwaited := 0, finishing := false }
     (waking → m.powerGiven = false → ∃ t : State, s.patrolOn = some t ∧ t.modes = { m with powerGiven := true } ∧
       t.patrol = s.patrol ∧ ∀ l, t.lane l = { s.lane l with waiting := (s.lane l).waiting ++ [.powerUp] }) ∧
     (waking → m.powerGiven = true → idle →
       (m.patrolWake = true → s.patrolOn = some { s with modes := { m with
         mode := .run, patrolStage := .none, powerGiven := false, patrolWake := false } }) ∧
       (m.patrolWake = false → s.patrolOn = some { s with
         modes := { m with patrolStage := .running, powerGiven := false },
         patrol := { s.patrol with run := some started, writeFailed := false } })) ∧
     (¬waking ∨ (m.powerGiven = true ∧ ¬idle) → s.patrolOn = none)) ∧
  (∀ (s : State) (v : Visit), s.patrol.visit = some v →
     let p := s.patrol
     let due := v.checked = true ∧ p.findings = [] ∧ p.write = none ∧ p.due = []
     (due → s.endVisit = some { s with
       patrol := { p with
         visit := none, cursorBand := v.band, cursorRow := v.row + 1,
         run := p.run.map (fun r => { r with
           budget := r.budget - 1, endRequested := r.endRequested || p.writeFailed }) },
       coder := { Coder.reset with owner := s.coder.claim } }) ∧
     (¬due → s.endVisit = none)) ∧
  (∀ (s : State) (run : PatrolRun), s.patrol.run = some run →
     let m := s.modes
     let ended : State := { s with
       patrol := { s.patrol with run := none },
       signals := s.signals ++ (if run.recordChanged then [.commitRequest .patrol true false] else []) }
     let awaits := run.recordChanged = true ∧ s.table.storeFault = false
     (∀ changed, s.patrolAnswer changed = { s with patrol := { s.patrol with run := some { run with
       answersAwaited := run.answersAwaited - 1, recordChanged := run.recordChanged || changed } } }) ∧
     (run.finishing = false ∨ run.answersAwaited ≠ 0 → s.endRun = none) ∧
     (run.finishing = true → run.answersAwaited = 0 →
       (m.mode = .patrol → m.patrolWake = true → s.endRun = some { ended with modes := { m with
         mode := .run, patrolStage := .none, patrolWake := false } }) ∧
       (m.mode = .patrol → m.patrolWake = false → awaits → s.endRun = some { ended with
         modes := { m with patrolStage := .committing, commitAwaited := true },
         signals := ended.signals ++ [.commitRequest .mode true true] }) ∧
       (m.mode = .patrol → m.patrolWake = false → ¬awaits → s.endRun = some ended.patrolDone) ∧
       (∀ d, m.mode = .drain → m.drain = some d → s.endRun = some { ended with modes := { m with
         drain := some { d with patrolEnded := true } } }))) ∧
  (∀ (s : State) (c : Applied), s.modes.config = some c →
     let m := s.modes
     let t := s.patrolDone
     t.modes = { m with mode := .standby, patrolStage := .none, wake := false, powerGiven := false } ∧
     (∀ l, t.lane l = { s.lane l with waiting := (s.lane l).waiting ++ [.powerDown] }) ∧
     t.patrol = { s.patrol with timer := if c.patrolInterval = 0 then none else some 0 } ∧
     t.window = s.window.set .patrolDone ∧ t.signals = s.signals ∧
     (m.mode = .patrol → m.patrolStage = .committing → m.commitAwaited = true → m.drain = none →
       s.modeNotice = State.patrolDone { s with modes := { m with commitAwaited := false } }))

/-- What the messages and reactions inside a step leave alone, however many of them run: the lanes' registers and
operations, the array, the store, locks and fuses, host memory, the registers of the window, the sheet queue, the
configuration, the lines and the waiting commands; an event flag once set stays (95; the model's form, log 2). -/
def Obligations.ReactionsLeaveAlone : Prop :=
  ∀ (n : Nat) (s : State), State.reactionsKept s (State.settleLoop n s)

/-- What comes about inside a step comes to rest: within the fuel of the step no message is left and no reaction is due,
and the step ends in the very state that they lead to, so that nothing is cut off, whatever the state (95; the model's
form, log 2). The oldest message is taken first, by the block it goes to: an update, a permit, a commit request and its
withdrawal by the band table; an end report by the recovery scan while it runs, else by the path whose order gave the
request (R7); an answer, a notice and a permit by the client they name (R26, R36, R39); ROW LOADED, the row report, UNIT
WRITTEN, the mover's ending, FLUSHED and FETCH DONE by the path whose order is in progress (R50, R54, R155, R158, R159);
an order's result by the sheet processor (R73). No block changes the band table but by its messages. With no message
left the gate releases what it holds, and else the first reaction that is due, in the order listed, comes about (that
order is the model's choice, log 2). -/
def Obligations.ReactionsComeToRest : Prop :=
  (∀ (s : State), (State.settleLoop s.fuel s).advance = none ∧ s.settle = State.settleLoop s.fuel s) ∧
  (∀ (s : State) (n : Nat), State.settleLoop 0 s = s ∧ (s.advance = none → State.settleLoop n s = s) ∧
     (∀ t, s.advance = some t → State.settleLoop (n + 1) s = State.settleLoop n t)) ∧
  (∀ (q : State) (rest : List Signal), q.signals = rest →
     let took (m : Signal) (t : State) : Prop := State.advance { q with signals := m :: rest } = some t
     let block (m : Signal) (t : State) : Prop := took m { t with table := q.table }
     (∀ c u n, took (.update c u n) (q.giveUpdate c u n)) ∧ (∀ c, took (.askPermit c) (q.askPermit c)) ∧
     (∀ c clean tell, took (.commitRequest c clean tell) { q with table := { q.table with
       plainReq := q.table.plainReq || !clean, cleanReq := q.table.cleanReq || clean,
       waiters := q.table.waiters ++ if tell then [{ client := c, what := .commitEnd, covered := false }] else [] } }) ∧
     (∀ c, took (.forgetCommit c) { q with table := { q.table with
       waiters := q.table.waiters.filter (fun w => !(decide (w.client = c) && decide (w.what = .commitEnd))) } }) ∧
     (∀ l e,
       (q.modes.scan ≠ none → block (.report l e) (q.scanReport l e.op e.outcome)) ∧
       (q.modes.scan = none →
         (e.op.kind = .program → q.writer.order ≠ none → block (.report l e) (q.writerReport l e.op)) ∧
         (e.op.kind = .program → q.writer.order = none → block (.report l e) (q.copyProgramReport l e.op)) ∧
         (e.op.kind = .move → block (.report l e) (q.moveReport l e.op e.outcome)) ∧
         (e.op.kind = .erase → block (.report l e) (q.eraseReport l e.op)) ∧
         (e.op.kind = .read → block (.report l e) q))) ∧
     (∀ u applied changed,
       block (.answer .writer u applied changed) (q.writerAnswer u applied) ∧
       block (.answer .reader u applied changed) (q.readerAnswer u applied) ∧
       block (.answer .services u applied changed) (q.servicesAnswer u applied) ∧
       block (.answer .patrol u applied changed) (q.patrolAnswer changed) ∧
       block (.answer .scan u applied changed) (q.scanAnswer u applied) ∧
       block (.answer .mode u applied changed) q) ∧
     (∀ what stored,
       block (.notice .writer what stored) (q.writerNotice what stored) ∧
       block (.notice .reader what stored) (q.readerNotice what stored) ∧
       block (.notice .services what stored) (q.servicesNotice what stored) ∧
       block (.notice .scan what stored) q.scanNotice ∧ block (.notice .mode what stored) q.modeNotice ∧
       block (.notice .patrol what stored) q) ∧
     (∀ granted,
       block (.permit .writer granted) (q.writerPermit granted) ∧
       block (.permit .reader granted) (q.readerPermit granted) ∧
       block (.permit .services granted) (q.erasePermit granted) ∧
       block (.permit .scan granted) (q.scanPermit granted) ∧
       block (.permit .mode granted) q ∧ block (.permit .patrol granted) q) ∧
     (∀ ls, block (.rowLoaded ls) (if q.writer.order ≠ none then q.writerLoaded ls else q.copyLoaded ls)) ∧
     (∀ b, block (.readBegun b) (q.readerBegun b)) ∧
     (∀ r, block (.judged r) (if q.reader.isCopy = true then q.copyJudged r else q.readJudged r)) ∧
     (∀ ls, block (.needPages ls) (q.copyNeeds ls)) ∧ block .rowDelivered q.readDelivered ∧
     (∀ r cs, block (.checked r cs) (q.patrolChecked r cs)) ∧
     block .unitWritten (if q.reader.order ≠ none then q.readWritten else q.recordWritten) ∧
     (∀ e, block (.moverEnding e)
       (if q.writer.order ≠ none then q.writerMoverEnding e
        else if q.reader.order ≠ none then (if q.reader.isCopy = true then q.copyMoverEnding e else q.readMoverEnding e)
        else q.queryMoverEnding e)) ∧
     block .flushed
       (if q.writer.order ≠ none then { q with writer := { q.writer with flushed := true } }
        else if q.reader.order ≠ none then { q with reader := { q.reader with flushed := true } }
        else { q with services := { q.services with flushed := true } }) ∧
     (∀ ws, block (.fetchDone .patch ws) (q.patchBytes ws) ∧
       block (.fetchDone .descriptor ws) (if q.reader.order ≠ none then q.patchDescriptor ws else q)) ∧
     (∀ r, block (.orderEnd r) (q.takeOrderEnd r))) ∧
  (∀ (s : State), s.signals = [] →
     let blocks : List (State → Option State) :=
       [State.placeRequests, State.coderJudges,
        State.moverWalk, State.moverHandsFetch, State.moverAtEnd, State.moverReport, State.moverFlushEnd,
        State.writerBegin, State.writerCommit, State.writerComplete, State.writerDiscarded, State.writerEnd,
        State.writerFinish,
        State.readBegin, State.copyBegin, State.copyPermit, State.copyCommit, State.copyRowEnd, State.readerCleanup,
        State.readerEnd, State.readerFinish,
        State.queryEnd, State.queryFinish,
        State.sheetSkip, State.sheetClose, State.closeNext, State.abortEnd, State.enterHeld,
        State.scanOn, State.wakeOn, State.patrolOn, State.drainOn, State.parkedOn,
        State.takeDue, State.recordNext, State.endVisit, State.endRun,
        State.raiseAccess, State.arbitrate]
     (∀ t, s.gateReleases = some t → s.advance = some t) ∧
     (s.gateReleases = none →
       ((∀ f ∈ blocks, f s = none) → s.advance = none) ∧
       (∀ before f after t, blocks = before ++ f :: after → (∀ g ∈ before, g s = none) → f s = some t →
         s.advance = some { t with table := s.table })))

/-- What the commands of the blocks leave alone, group by group: the lanes' registers and operations, the array, the
store, locks and fuses, host memory, the register window, the lines and the waiting commands; a group is named where one
of its commands may change the item. -/
def Obligations.BlockCommandFrame : Prop :=
  ∀ (c : Instr) (s t : State), s.live = true → exec c s = .next t →
    (c ∈ [Instr.beginWriteRow, .stagingWordTaken, .pageHanded, .beginReadRow, .wordHanded, .orderStart, .rowGo,
        .burstStart, .patrolVisit, .sheetActivation] →
      State.lanesKept s t ∧ State.memoryKept s t ∧ State.arrayKept s t ∧ State.storeKept s t ∧ State.protectKept s t ∧
        State.windowKept s t ∧ State.outsideKept s t ∧ (c ≠ .sheetActivation → State.postsKept s t)) ∧
    (∀ r, c ∈ [Instr.headerReadEnd r, .entryReadEnd r, .resultWriteEnd r, .completionWriteEnd r, .descriptorReadEnd r,
        .burstEnd r, .configReadEnd r, .reportWriteEnd r] →
      State.lanesKept s t ∧ State.arrayKept s t ∧ State.storeKept s t ∧ State.outsideKept s t ∧
        (c ≠ .entryReadEnd r → State.protectKept s t) ∧
        (c ∈ [Instr.headerReadEnd r, .entryReadEnd r, .descriptorReadEnd r, .configReadEnd r] → r.stores = [] →
          State.memoryKept s t)) ∧
    ((c ∈ [Instr.apply, .hold, .resume, .abort, .standby, .wake, .reportClear, .patrolTimerExpiry] ∨ ∃ a, c = .post a) →
      State.lanesKept s t ∧ State.memoryKept s t ∧ State.arrayKept s t ∧ State.storeKept s t ∧ State.protectKept s t ∧
        State.outsideKept s t) ∧
    (c = .commitStart ∨ (∃ pass, c = .commitEnd pass) → State.lanesKept s t ∧ State.memoryKept s t ∧
      State.arrayKept s t ∧ State.protectKept s t ∧ State.outsideKept s t ∧ State.postsKept s t)

/-! ## Supply and resets -/

/-- Power-on with RESET_N withdrawn: every block takes its values after reset, LOCK_EN and the lines are sampled, the
lock picture is set from lock-enable, and the cold path begins; the stored table is kept (R19, R42, R137, R165, R179).
Power-on with RESET_N asserted: the same, but that the part is held at its values after reset, no event set, until the
line is withdrawn (R179; that RESET_N keeps its level through the loss of supply is the model's choice, log 10).
Loss of supply: every block, the mode controller and the register window with them, is at its values after reset, the
store keeps its table, and a running fuse write is cut with its bit set or clear, as the outside decides (R34, R42,
R148). RESET_N asserted on a powered part: every block is held at its values after reset, and the lock picture is set
anew from the lock-enable held since power-on (R137, R179). RESET_N withdrawn: the cold path begins, with PWR_WARN_N
sampled and the lock picture rebuilt from lock-enable (R165, R137). -/
def Obligations.SupplyAndResetN : Prop :=
  (∀ (s : State) (lockEn warn inhibit : Bool) (cut : Cut), s.resetHeld = false →
     ∃ t : State, exec (.powerOn lockEn warn inhibit cut) s = .next t ∧
       t.supply = true ∧ t.resetHeld = false ∧ State.blocksReset s t ∧ t.modes = ModeCtl.reset warn ∧
       t.modes.mode = .cold ∧ t.protect.lockEnable = lockEn ∧ t.protect.lockAll = lockEn ∧ t.protect.range = none ∧
       t.protect.tight = false ∧ t.protect.inhibit = inhibit ∧
       t.window = (if warn then Window.reset.set .powerWarn else Window.reset) ∧
       (∀ b, t.table.storedRecord b = s.table.storedRecord b) ∧ t.table.marker = s.table.marker ∧ t.pending = s.pending) ∧
  (∀ (s : State) (lockEn warn inhibit : Bool) (cut : Cut), s.resetHeld = true →
     ∃ t : State, exec (.powerOn lockEn warn inhibit cut) s = .next t ∧
       t.supply = true ∧ t.resetHeld = true ∧ t.live = false ∧ State.blocksReset s t ∧ t.modes = ModeCtl.reset warn ∧
       t.window = Window.reset ∧ t.warnLine = warn ∧ t.inhibitLine = inhibit ∧ t.protect.lockEnable = lockEn ∧
       t.protect.lockAll = lockEn ∧ t.protect.range = none ∧ t.protect.tight = false ∧ t.protect.inhibit = inhibit ∧
       (∀ b, t.table.storedRecord b = s.table.storedRecord b) ∧ t.table.marker = s.table.marker ∧ t.pending = s.pending) ∧
  (∀ (s : State) (cut : Cut), s.supply = true →
     ∃ t : State, exec (.lossOfSupply cut) s = .next t ∧
       t.supply = false ∧ State.blocksReset s t ∧ t.modes = ModeCtl.reset s.warnLine ∧ t.window = Window.reset ∧
       t.protect.fuseWrite = none ∧
       (s.protect.fuseWrite = none → t.protect.fuses = s.protect.fuses) ∧
       (∀ g, s.protect.fuseWrite = some g →
         t.protect.fuses = if cut.fuseSet then s.protect.fuses ||| (1#64 <<< g) else s.protect.fuses) ∧
       t.resetHeld = s.resetHeld ∧ t.pending = s.pending) ∧
  (∀ (s : State) (cut : Cut), s.supply = true → s.resetHeld = false →
     ∃ t : State, exec (.resetNAsserted cut) s = .next t ∧
       t.resetHeld = true ∧ State.blocksReset s t ∧ t.modes = ModeCtl.reset s.warnLine ∧ t.window = Window.reset ∧
       t.protect = { s.protect with
         lockAll := s.protect.lockEnable, range := none, tight := false, inhibit := s.inhibitLine } ∧
       t.pending = s.pending) ∧
  (∀ (s : State), s.supply = true → s.resetHeld = true →
     ∃ t : State, exec .resetNWithdrawn s = .next t ∧
       t.resetHeld = false ∧ t.live = true ∧ t.modes = ModeCtl.reset s.warnLine ∧
       t.modes.mode = .cold ∧ t.modes.warning = s.warnLine ∧ t.window.flag .powerWarn = (s.warnLine || s.window.flag .powerWarn) ∧
       t.protect = { s.protect with
         lockAll := s.protect.lockEnable, range := none, tight := false, inhibit := s.inhibitLine } ∧
       t.table = s.table ∧ t.array = s.array ∧ t.mem = s.mem ∧ t.pending = s.pending)

/-- A soft reset is taken in every mode: every block takes its values after reset, the protection unit keeps the whole
lock picture, the fuses and a running fuse write, and the cold path begins (R179, R137, R145, R165). What a soft reset,
RESET_N, a loss of supply or a new power-on leaves of the lane operations it abandons in the array (R18): the page of a
program and every page of an erase's block are indeterminate, and so is the target of a move that had begun its program,
its source read as GOOD or WEAK; every other page keeps its content, and where no program, no erase and no move's
program was cut, no page changes. Whether a move had read its source is the outside's word (log 14). Host memory keeps
what stood there, but for a leading part, as long as the outside says (log 4), of the words of the write burst or single
beat in progress at the port: of the sheet processor's result or completion write, the mover's burst, or the report
writer's (R87, R149, R160, R180). -/
def Obligations.ResetsCutLanesAndWrites : Prop :=
  (∀ (s : State) (cut : Cut), s.live = true →
     ∃ t : State, exec (.softReset cut) s = .next t ∧
       State.blocksReset s t ∧ t.modes = ModeCtl.reset s.warnLine ∧ t.modes.mode = .cold ∧
       t.protect = s.protect ∧ t.window = (if s.warnLine then Window.reset.set .powerWarn else Window.reset) ∧
       State.outsideKept s t) ∧
  (∀ (s : State) (cut : Cut) (c : Instr), s.live = true → Sparse.wf .erased s.array = true →
     c ∈ [Instr.softReset cut, .resetNAsserted cut, .lossOfSupply cut] ∨
       (∃ lockEn warn inhibit, c = .powerOn lockEn warn inhibit cut) →
     let sourceGood (l : Lane) (source : PageId) := ∃ m, cut.moves.find? (fun m => decide (m.1 = l)) = some m ∧
       (classify (s.modes.config.elim 8 (·.weakThreshold)) (s.page l source.band source.row) m.2 l source).cls ∈
         [PageClass.good, .weak]
     ∃ t : State, exec c s = .next t ∧
       (∀ l id data, (s.lane l).activity = .program id data → t.page l id.band id.row = .indeterminate) ∧
       (∀ l source band row, (s.lane l).activity = .move source band row → sourceGood l source →
         t.page l band row = .indeterminate) ∧
       (∀ l band row, (s.lane l).activity = .erase band → row < 64 → t.page l band row = .indeterminate) ∧
       ((∀ l id data, (s.lane l).activity ≠ .program id data) →
         (∀ l source b r, (s.lane l).activity = .move source b r → ¬sourceGood l source) →
         (∀ l b, (s.lane l).activity ≠ .erase b) → State.arrayKept s t) ∧
       (let cutAt (l : Lane) (b r : Nat) := (∃ id data, (s.lane l).activity = .program id data ∧ id.band = b ∧ id.row = r) ∨
          (∃ source, (s.lane l).activity = .move source b r ∧ sourceGood l source) ∨ (s.lane l).activity = .erase b
        (∀ l b r, cutAt l b r → b < 1024 ∧ (r < 64 ∨ (s.lane l).activity = .erase b)) →
          ∀ l b r, b < 1024 → r < 64 → ¬cutAt l b r → t.page l b r = s.page l b r) ∧
       t.mem = Memory.writeWords s.mem (s.writesInProgress.take cut.words) ∧
       (Memory.wf s.mem = true → ∀ x, (∀ y ∈ s.writesInProgress.take cut.words, x < y.1 ∨ y.1 + 4 ≤ x) →
         Memory.readByte t.mem x = Memory.readByte s.mem x)) ∧
  (∀ (s : State),
     (s.port = none → s.writesInProgress = []) ∧
     (s.port = some .mover →
       (∀ a ws, s.mover.access = some (.writeBurst a ws) → s.writesInProgress = consecutive a ws) ∧
       ((∀ a ws, s.mover.access ≠ some (.writeBurst a ws)) → s.writesInProgress = [])) ∧
     (s.port = some .report →
       (∀ w, s.patrol.write = some w → s.writesInProgress = s.patrol.burst s.burstLength w) ∧
       (s.patrol.write = none → s.writesInProgress = [])) ∧
     (s.port = some .sheet → s.sheetLine.head? ≠ some .sheets → s.writesInProgress = []) ∧
     (∀ r, s.port = some .sheet → s.sheetLine.head? = some .sheets →
       s.sheets.active = some r ∨ (s.sheets.active = none ∧ s.sheets.closer = some r) →
       (∀ v done, s.sheets.access = some (.result v done) → s.writesInProgress =
         (if done = 0 then [(entryWordAddress r.address r.index 7, v.word2)]
          else if done = 1 then [(entryWordAddress r.address r.index 6, v.word1)] else [])) ∧
       (∀ w, s.sheets.access = some (.completion w) → s.writesInProgress = [(headerWordAddress r.address 1, w)]) ∧
       (∀ got, s.sheets.access = none ∨ s.sheets.access = some (.header got) ∨ s.sheets.access = some (.entry got) →
         s.writesInProgress = [])))

/-! ## Lines -/

/-- PWR_WARN_N asserted: the warning level and POWER_WARN are set; RUN, HOLDING, HELD, STANDBY and PATROL go to DRAIN
with stop state DRAIN, the queue on the closing list as INTERRUPTED and the timer stopped; the active sheet's ending is
INTERRUPTED unless it is ABORTED or its completion write has begun (that it has begun once it is raised is the model's
choice, log 31), a held question is answered STOP INTERRUPTED, and a patrol run is asked to end (R84, R177); the drain
begins with no part of it done but the end of the patrol run, where none is in progress: the sheet processor has not yet
reported CLOSED, whatever it holds, and a wait for a commit from before is given up (R177); COLD,
FAULTED, AWAIT_CONFIG and DRAIN see nothing more; a leave of PARKED is cancelled, each lane given POWER DOWN (R176,
R178). PWR_WARN_N withdrawn: the warning level changes, and no event is set. -/
def Obligations.PowerWarningByMode : Prop :=
  (∀ (s : State), s.live = true →
     (s.modes.mode ∈ [Mode.run, .holding, .held, .standby, .patrol] →
       ∃ u : State, exec .pwrWarnAsserted s = .next u.settle ∧ u.warnLine = true ∧
         u.window = s.window.set .powerWarn ∧ u.modes = { s.modes with
           mode := .drain, warning := true, wake := false, commitAwaited := false, powerGiven := false,
           patrolStage := .none, patrolWake := false,
           drain := some { closed := false, patrolEnded := s.patrol.run.isNone, lanesQuiet := false, commitDone := false,
                           lanesOff := false } } ∧
         u.signals = s.signals ++ [.forgetCommit .mode] ∧ u.sheets.stop = .drain ∧
         u.sheets.queue = [] ∧
         u.sheets.closing = s.sheets.closing ++ s.sheets.queue.map (fun a => (a, Ending.interrupted)) ∧
         ((∀ w, s.sheets.access ≠ some (.completion w)) → u.sheets.active =
           s.sheets.active.map (fun r => if r.ending = .aborted then r else { r with ending := .interrupted })) ∧
         (∀ w, s.sheets.access = some (.completion w) → u.sheets.active = s.sheets.active) ∧
         u.sheets.order = s.sheets.order ∧ u.sheets.access = s.sheets.access ∧ u.sheets.questionHeld = false ∧
         (s.sheets.questionHeld = true → s.writer.order ≠ none →
           u.writer = { s.writer with stopped := some .interrupted } ∧ u.reader = s.reader) ∧
         (s.sheets.questionHeld = true → s.writer.order = none →
           u.reader = { s.reader with stopped := some .interrupted } ∧ u.writer = s.writer) ∧
         (s.sheets.questionHeld = false → u.writer = s.writer ∧ u.reader = s.reader) ∧
         u.patrol.run = s.patrol.run.map (fun r => { r with endRequested := true }) ∧
         u.patrol.timer = none ∧ State.lanesKept s u ∧ State.arrayKept s u ∧ State.memoryKept s u ∧ u.table = s.table) ∧
     (s.modes.mode ∈ [Mode.cold, .faulted, .awaitConfig, .drain] →
       exec .pwrWarnAsserted s = .next (State.settle { s with
         warnLine := true, modes := { s.modes with warning := true }, window := s.window.set .powerWarn })) ∧
     (s.modes.mode = .parked →
       ∃ u : State, exec .pwrWarnAsserted s = .next u.settle ∧ u.modes.warning = true ∧ u.window.flag .powerWarn = true ∧
         u.modes.mode = .parked ∧ u.modes.leaving = false ∧
         (s.modes.leaving = true → ∀ l, u.lane l = { s.lane l with waiting := (s.lane l).waiting ++ [.powerDown] }) ∧
         (s.modes.leaving = false → u.lanes = s.lanes))) ∧
  (∀ (s : State), s.live = true →
     exec .pwrWarnWithdrawn s = .next (State.settle { s with
       warnLine := false, modes := { s.modes with warning := false } }))

/-- WRITE_INHIBIT_N asserted: the inhibit level is ASSERTED and nothing else changes; with lock-enable 1 and tight 0
every band is then locked, with tight 1 no band's lock changes, and with lock-enable 0 no band is locked (R139).
WRITE_INHIBIT_N withdrawn: the inhibit level is WITHDRAWN and, with lock-enable 1, the picture becomes lock-all, no
range, tight 0, so that every band is locked; with lock-enable 0 only the level changes (R140). SET UNLOCK RANGE, LOCK
ALL and LOCK TIGHT on the lock picture, with the statuses of their checks (R141, R142, R143; step 1, the kind, is the
sheet processor's). -/
def Obligations.LockPictureChanges : Prop :=
  (∀ (s : State), s.live = true →
     ∃ t : State, exec .writeInhibitAsserted s = .next t ∧
       t = { s with inhibitLine := true, protect := { s.protect with inhibit := true } } ∧
       (s.protect.lockEnable = true → s.protect.tight = false → ∀ b, t.protect.locked b = true) ∧
       (s.protect.tight = true → ∀ b, t.protect.locked b = s.protect.locked b) ∧
       (s.protect.lockEnable = false → ∀ b, t.protect.locked b = false ∧ s.protect.locked b = false)) ∧
  (∀ (s : State), s.live = true →
     (s.protect.lockEnable = true →
       ∃ t : State, exec .writeInhibitWithdrawn s = .next t ∧
         t = { s with inhibitLine := false, protect := { s.protect with
           inhibit := false, lockAll := true, range := none, tight := false } } ∧ ∀ b, t.protect.locked b = true) ∧
     (s.protect.lockEnable = false →
       exec .writeInhibitWithdrawn s =
         .next { s with inhibitLine := false, protect := { s.protect with inhibit := false } })) ∧
  (∀ (p : Protection) (r : UnlockRange),
     (p.lockEnable = false → p.setRange r = (p, .lockDisabled) ∧ p.lockEvery = (p, .lockDisabled) ∧
       p.makeTight = (p, .lockDisabled)) ∧
     (p.lockEnable = true → p.tight = true → p.setRange r = (p, .lockTight) ∧ p.lockEvery = (p, .lockTight) ∧
       p.makeTight = (p, .lockTight)) ∧
     (p.lockEnable = true → p.tight = false →
       (r.low ≤ r.high → r.high < 1024 → p.setRange r = ({ p with range := some r, lockAll := false }, .ok)) ∧
       (r.high < r.low ∨ 1024 ≤ r.high → p.setRange r = (p, .badRange)) ∧
       p.lockEvery = ({ p with range := none, lockAll := true }, .ok) ∧
       (p.inhibit = false → p.makeTight = ({ p with tight := true }, .ok)) ∧
       (p.inhibit = true → p.makeTight = (p, .protected_))))

/-! ## The cold path -/

/-- The fuse load, which waits for a running fuse write: the working copy takes the fuses, and the table load is next;
no order, lock or fuse changes (R145, R165). The table load. Check agreeing: every working record becomes its stored
record and nothing is dirty; with marker 1 the mode becomes AWAIT_CONFIG. Check differing: STORE_FAULT and its event are
set, every working record stays UNUSED and the mode becomes FAULTED. The store is not written (R41, R165, R166). -/
def Obligations.ColdPathLoads : Prop :=
  (∀ (s : State), s.live = true → s.modes.cold = .fuseLoad →
     (s.protect.fuseWrite = none →
       exec .fuseRowLoad s = .next (State.settle { s with
         protect := { s.protect with working := s.protect.fuses }, modes := { s.modes with cold := .tableLoad } })) ∧
     (s.protect.fuseWrite ≠ none → exec .fuseRowLoad s = .next s.settle)) ∧
  (∀ (s : State) (agrees : Bool), s.live = true → s.modes.cold = .tableLoad →
     (agrees = true → s.table.checkDelta = 0 → s.table.marker = true →
       ∃ u : State, exec (.tableLoad agrees) s = .next u.settle ∧ u.modes.mode = .awaitConfig ∧ u.table.working = s.table.stored ∧
         u.table.dirty = [] ∧ u.table.stored = s.table.stored ∧ u.table.marker = s.table.marker ∧
         u.table.storeFault = false ∧ State.lanesKept s u ∧ State.arrayKept s u) ∧
     (agrees = true → s.table.checkDelta = 0 → s.table.marker = false →
       ∃ u : State, exec (.tableLoad agrees) s = .next u.settle ∧ u.table.working = s.table.stored ∧ u.table.dirty = [] ∧
         u.table.stored = s.table.stored ∧ u.table.marker = s.table.marker ∧ u.table.storeFault = false) ∧
     (agrees = false ∨ s.table.checkDelta ≠ 0 →
       ∃ u : State, exec (.tableLoad agrees) s = .next u.settle ∧ u.modes.mode = .faulted ∧ u.table.storeFault = true ∧
         u.window.flag .storeFault = true ∧ (∀ b, u.table.record b = BandRecord.factory) ∧
         u.table.stored = s.table.stored ∧ u.table.marker = s.table.marker))

/-- The recovery scan. The lowest band in a state, from a band on and not in a frozen group, is the next it takes (R167,
R168). The table load with marker 0 begins it: at the lowest ERASING band with a store permit asked; with no ERASING
band at the lowest OPEN band, each lane present at its next_row given a PAGE READ; with neither it ends at once. With
its permit granted BLOCK ERASE goes to all six lanes; refused, the scan goes on. The sixth end report gives ERASE END
with notice, PASS if every lane passed, and the notice takes the scan to the next ERASING band (R167). A row's classes:
every page GOOD or WEAK gives ROW FOUND, every page ERASED nothing, any other combination ROW TORN; each present lane is
given a CACHE DISCARD (R168). The answer that ROW FOUND or ROW TORN was applied marks the scan as having changed a
record; no other answer does (R169). At its end a changed record raises one plain request, whose commit's end is awaited
unless STORE_FAULT is set; then, or at once, RECOVERED is set and the mode is AWAIT_CONFIG (R169). -/
def Obligations.RecoveryScanByRule : Prop :=
  (∀ (s : State) (st : BandState) (lo : Nat), st ≠ .unused → Sparse.wf .factory s.table.working = true →
     let takes (b : Nat) := lo ≤ b ∧ (s.band b).state = st ∧ s.protect.frozen b = false
     (∀ b, s.nextBand st lo = some b → takes b ∧ ∀ c, c < b → ¬takes c) ∧
     (s.nextBand st lo = none → ∀ c, ¬takes c)) ∧
  (∀ (s : State) (lo : Nat),
     let scan (c : Scan) : ModeCtl := { s.modes with scan := some c }
     (∀ b, s.nextBand .erasing lo = some b → s.scanErasing lo = { s with
       modes := scan { openPhase := false, band := b, row := 0, stage := .permit, changed := false },
       signals := s.signals ++ [.askPermit .scan] }) ∧
     (s.nextBand .erasing lo = none → s.scanErasing lo = s.scanOpen 0) ∧
     (∀ b, s.nextBand .opened lo = some b → s.scanOpen lo = s.scanRow b) ∧
     (s.nextBand .opened lo = none → s.scanOpen lo = s.scanEnd) ∧
     (∀ b, let r := s.band b
       let present := r.present r.nextRow
       (s.scanRow b).modes = scan
         { openPhase := true, band := b, row := r.nextRow, stage := .reading present [], changed := s.scanChanged } ∧
       (s.scanRow b).signals = s.signals ∧
       ∀ l, (s.scanRow b).lane l = if l ∈ present then
           { s.lane l with
             waiting := (s.lane l).waiting ++ [.pageRead { band := b, row := r.nextRow, level := r.level }] }
         else s.lane l)) ∧
  (∀ (s : State), s.live = true → s.modes.cold = .tableLoad → s.table.checkDelta = 0 → s.table.marker = false →
     s.modes.scan = none → Sparse.wf .factory s.table.stored = true →
     let takes (st : BandState) (b : Nat) := (s.table.storedRecord b).state = st ∧ s.protect.frozen b = false
     (∀ b, takes .erasing b → (∀ c, c < b → ¬takes .erasing c) →
       ∃ u : State, exec (.tableLoad true) s = .next u.settle ∧ u.modes.mode = s.modes.mode ∧
         u.modes.scan = some { openPhase := false, band := b, row := 0, stage := .permit, changed := false } ∧
         u.signals = s.signals ++ [.askPermit .scan] ∧ u.lanes = s.lanes ∧ u.table.working = s.table.stored) ∧
     (∀ b, (∀ c, ¬takes .erasing c) → takes .opened b → (∀ c, c < b → ¬takes .opened c) →
       let r := s.table.storedRecord b
       let present := r.present r.nextRow
       ∃ u : State, exec (.tableLoad true) s = .next u.settle ∧ u.modes.mode = s.modes.mode ∧
         u.modes.scan = some
           { openPhase := true, band := b, row := r.nextRow, stage := .reading present [], changed := false } ∧
         (∀ l, u.lane l = if l ∈ present then
             { s.lane l with
               waiting := (s.lane l).waiting ++ [.pageRead { band := b, row := r.nextRow, level := r.level }] }
           else s.lane l) ∧ u.signals = s.signals ∧ u.table.working = s.table.stored) ∧
     ((∀ c, ¬takes .erasing c ∧ ¬takes .opened c) →
       ∃ u : State, exec (.tableLoad true) s = .next u.settle ∧ u.modes.mode = .awaitConfig ∧ u.modes.scan = none ∧
         u.window.flag .recovered = true ∧ u.table.working = s.table.stored)) ∧
  (∀ (s : State) (c : Scan), s.modes.scan = some c →
     (c.stage = .permit →
       (s.scanPermit true).modes.scan = some { c with stage := .erasing Lane.all false } ∧
       (∀ l, (s.scanPermit true).lane l =
         { s.lane l with waiting := (s.lane l).waiting ++ [.blockErase c.band] }) ∧
       s.scanPermit false = s.scanErasing (c.band + 1)) ∧
     (∀ awaited failSeen l op outcome, c.stage = .erasing awaited failSeen →
       let left := dropLane awaited l
       let failed := failSeen || decide (op.outcome = .fail)
       (left ≠ [] → (s.scanReport l op outcome).modes.scan = some { c with stage := .erasing left failed }) ∧
       (left = [] → (s.scanReport l op outcome).modes.scan = some { c with stage := .notice } ∧
         (s.scanReport l op outcome).signals = s.signals ++ [.update .scan (.eraseEnd c.band (!failed)) true])) ∧
     (∀ awaited classes l op o, c.stage = .reading awaited classes →
       let left := dropLane awaited l
       let ks := classes ++ [o.cls]
       let after := s.scanReport l op (some o)
       (left ≠ [] → after.modes.scan = some { c with stage := .reading left ks } ∧ after.signals = s.signals) ∧
       (left = [] → after.modes.scan = some { c with stage := .discarding } ∧
         (∀ k, after.lane k = if k ∈ (s.band c.band).present c.row then
             { s.lane k with waiting := (s.lane k).waiting ++ [.cacheDiscard] } else s.lane k) ∧
         ((∀ k ∈ ks, k = .good ∨ k = .weak) →
           after.signals = s.signals ++ [.update .scan (.rowFound c.band c.row) false]) ∧
         ((∀ k ∈ ks, k = .erased) → after.signals = s.signals) ∧
         ((∃ k ∈ ks, k ≠ .good ∧ k ≠ .weak) → (∃ k ∈ ks, k ≠ .erased) →
           after.signals = s.signals ++ [.update .scan (.rowTorn c.band c.row) false]))) ∧
     (∀ u applied,
       let marks := applied = true ∧ ∃ b n, u = .rowFound b n ∨ u = .rowTorn b n
       (marks → s.scanAnswer u applied =
         { s with modes := { s.modes with scan := some { c with changed := true } } }) ∧
       (¬marks → s.scanAnswer u applied = s)) ∧
     s.scanChanged = c.changed ∧
     (c.stage = .notice → s.scanNotice = s.scanErasing (c.band + 1)) ∧
     (c.stage = .discarding → s.lanesClear = true →
       ((s.band c.band).state = .opened → (s.band c.band).nextRow ≠ c.row →
         s.scanOn = some (s.scanRow c.band)) ∧
       ((s.band c.band).state ≠ .opened ∨ (s.band c.band).nextRow = c.row →
         s.scanOn = some (s.scanOpen (c.band + 1))))) ∧
  (∀ (s : State),
     let done (t : State) := t.modes.mode = .awaitConfig ∧ t.modes.scan = none ∧ t.window.flag .recovered = true
     (s.scanChanged = false → done s.scanEnd ∧ s.scanEnd.signals = s.signals) ∧
     (s.scanChanged = true → s.table.storeFault = true →
       done s.scanEnd ∧ s.scanEnd.signals = s.signals ++ [.commitRequest .scan false false]) ∧
     (s.scanChanged = true → s.table.storeFault = false → s.scanEnd.modes.mode = s.modes.mode ∧
       s.scanEnd.signals = s.signals ++ [.commitRequest .scan false true] ∧
       ∀ t : State, t.modes.scan = s.scanEnd.modes.scan → done t.scanNotice))

/-! ## The register window -/

/-- EVENT_ENABLE: one enable bit for each of the 13 event bits, the other bits reading 0; IRQ_N is asserted exactly
while some flag is set with its enable bit set; after every kind of reset EVENT_ENABLE is 0 and IRQ_N withdrawn (R192). -/
def Obligations.EventEnableDrivesIrq : Prop :=
  (∀ (s : State) (v : Word), s.live = true →
    ∃ t : State, exec (.eventEnableWrite v) s = .next t ∧ t = { s with window := { s.window with enable := t.window.enable } } ∧
      ∀ i, t.window.enable.getLsbD i = (v.getLsbD i && decide (i < 13))) ∧
  (∀ (s : State), s.irqAsserted = true ↔ ∃ i, s.window.events.getLsbD i = true ∧ s.window.enable.getLsbD i = true) ∧
  (∀ (s t : State) (cut : Cut), s.live = true → exec (.softReset cut) s = .next t ∨ exec (.resetNAsserted cut) s = .next t →
    t.window.enable = 0#32 ∧ t.irqAsserted = false) ∧
  (∀ (s t : State) (a b c : Bool) (cut : Cut), exec (.powerOn a b c cut) s = .next t →
    t.window.enable = 0#32 ∧ t.irqAsserted = false)

/-- STATUS shows the fields of R190, its other bits 0, while the queue holds at most two addresses. A 32-bit read
returns the register at each of the eight offsets: ID its constant, POST and CONTROL 0; an offset from 0x20 on reads 0;
while RESET_N is asserted the values after reset are read. A shorter read returns the bytes asked for of the whole
register (R188, R190). EVENTS: a bit written 1 is cleared, a bit written 0 stays, and no other state changes (R191).
Other register writes: CONFIG_ADDRESS takes the value; a write to POST is a post, and a CONTROL write of one command bit
is that command; a write to EVENTS or EVENT_ENABLE is that row's write, and a CONTROL write with bit 31 a soft reset,
whatever its other bits hold (the row stands for these too by the model's choice, log 30); a write of fewer than 32
bits, to ID, STATUS or ERROR_ADDRESS, or at 0x20 and above is ignored; a CONTROL write of two or more command bits
without bit 31 is refused with REQUEST_REFUSED, and one of none has no effect (R188, R189). -/
def Obligations.RegisterReadsAndWrites : Prop :=
  (∀ (s : State), s.queueFits = true →
     (∀ p ∈ [(Mode.cold, 0), (.faulted, 1), (.awaitConfig, 2), (.run, 3), (.holding, 4), (.held, 5), (.standby, 6),
         (.patrol, 7), (.drain, 8), (.parked, 9)], s.modes.mode = p.1 → bits s.status 0 4 = p.2) ∧
     bits s.status 4 2 = s.sheets.queue.length ∧
     (s.status.getLsbD 6 = true ↔ s.sheets.active ≠ none) ∧ (s.status.getLsbD 7 = true ↔ s.sheets.closing ≠ []) ∧
     (∀ p ∈ [(StopState.none, 0), (.hold, 1), (.abort, 2), (.drain, 3)], s.sheets.stop = p.1 → bits s.status 8 2 = p.2) ∧
     s.status.getLsbD 12 = s.table.storeFault ∧ (s.status.getLsbD 13 = true ↔ s.modes.config ≠ none) ∧
     s.status.getLsbD 14 = s.modes.wake ∧
     (∀ p ∈ [(Reason.none, 0), (.state, 1), (.align, 2), (.full, 3), (.bus, 4), (.range, 5), (.burstThreshold, 6)],
       s.window.refusal = p.1 → bits s.status 16 4 = p.2) ∧
     s.status.getLsbD 20 = s.window.refusalApply ∧
     (∀ i, i = 10 ∨ i = 11 ∨ i = 15 ∨ 21 ≤ i → s.status.getLsbD i = false)) ∧
  (∀ (s : State), s.readRegister 0x00 = 0x5E060001#32 ∧
     (s.resetHeld = false →
       s.readRegister 0x04 = s.status ∧ s.readRegister 0x08 = 0#32 ∧ s.readRegister 0x0C = 0#32 ∧
       s.readRegister 0x10 = s.window.events ∧ s.readRegister 0x14 = s.window.enable ∧
       s.readRegister 0x18 = s.window.configAddress ∧ s.readRegister 0x1C = s.window.errorAddress ∧
       ∀ offset, 0x20 ≤ offset → s.readRegister offset = 0#32) ∧
     (s.resetHeld = true → ∀ offset, offset ≠ 0x00 → s.readRegister offset = 0#32) ∧
     ∀ offset count, offset % 4 + count ≤ 4 →
       (s.readBytes offset count).length = count ∧
         ∀ i, i < count → (s.readBytes offset count)[i]? =
           some (wordByte (s.readRegister (offset / 4 * 4)) (offset % 4 + i))) ∧
  (∀ (s : State) (v : Word), s.live = true →
     ∃ t : State, exec (.eventsWrite v) s = .next t ∧ t = { s with window := { s.window with events := t.window.events } } ∧
       ∀ i, t.window.events.getLsbD i = (s.window.events.getLsbD i && !v.getLsbD i)) ∧
  (∀ (s : State) (v : Word) (cut : Cut), s.live = true →
     exec (.registerWrite 0x18 4 v cut) s = .next (State.settle { s with window := { s.window with configAddress := v } }) ∧
     exec (.registerWrite 0x08 4 v cut) s = exec (.post v) s ∧
     (∀ i, i < 7 → v.getLsbD 31 = false → (∀ j, j < 7 → (v.getLsbD j = true ↔ j = i)) →
       exec (.registerWrite 0x0C 4 v cut) s =
         exec ([Instr.apply, .hold, .resume, .abort, .standby, .wake, .reportClear].getD i .apply) s) ∧
     (∀ offset bytes, bytes ≠ 4 → exec (.registerWrite offset bytes v cut) s = .next s.settle) ∧
     (∀ offset, offset = 0x00 ∨ offset = 0x04 ∨ offset = 0x1C ∨ 0x20 ≤ offset →
       exec (.registerWrite offset 4 v cut) s = .next s.settle) ∧
     (∀ t, exec (.eventsWrite v) s = .next t → exec (.registerWrite 0x10 4 v cut) s = .next t.settle) ∧
     (∀ t, exec (.eventEnableWrite v) s = .next t → exec (.registerWrite 0x14 4 v cut) s = .next t.settle) ∧
     (∀ t, v.getLsbD 31 = true → exec (.softReset cut) s = .next t →
       exec (.registerWrite 0x0C 4 v cut) s = .next t.settle) ∧
     (∀ i j, i < j → j < 7 → v.getLsbD i = true → v.getLsbD j = true → v.getLsbD 31 = false →
       exec (.registerWrite 0x0C 4 v cut) s = .next (State.settle { s with window := s.window.set .requestRefused })) ∧
     ((∀ i, i < 7 → v.getLsbD i = false) → v.getLsbD 31 = false →
       exec (.registerWrite 0x0C 4 v cut) s = .next s.settle))

/-- A bus error sets BUS_ERROR; if the flag was 0, ERROR_ADDRESS is loaded with the word address and the direction, and
otherwise it keeps the first error. A write that clears the flag leaves ERROR_ADDRESS, and both are 0 after every kind
of reset (R162, R193). -/
def Obligations.BusErrorRecord : Prop :=
  ∀ (s : State) (address : Nat) (write : Bool),
    (s.busError address write).window.flag .busError = true ∧
    (s.window.flag .busError = false → (s.busError address write).window.errorAddress = errorWord address write) ∧
    (s.window.flag .busError = true → (s.busError address write).window.errorAddress = s.window.errorAddress) ∧
    (address < 4294967296 → ((errorWord address write).toNat / 4 = address / 4 ∧
      (errorWord address write).getLsbD 0 = write ∧ (errorWord address write).getLsbD 1 = false)) ∧
    (∀ v, s.live = true → ∃ t : State, exec (.eventsWrite v) s = .next t ∧
      t.window.errorAddress = s.window.errorAddress) ∧
    (∀ cut, s.live = true →
      (∃ t : State, exec (.softReset cut) s = .next t ∧ t.window.errorAddress = 0#32 ∧ t.window.flag .busError = false) ∧
      (∃ t : State, exec (.resetNAsserted cut) s = .next t ∧ t.window.errorAddress = 0#32 ∧
        t.window.flag .busError = false)) ∧
    (∀ a b c cut, ∃ t : State, exec (.powerOn a b c cut) s = .next t ∧ t.window.errorAddress = 0#32 ∧
      t.window.flag .busError = false)

/-- A POST that passes the checks joins the queue at its end; in RUN, HOLDING and HELD nothing else changes, and in
STANDBY with no wake pending it starts a wake, the timer stopped (R67, R68, R174); in PATROL it ends the patrol as a
WAKE does (R175). A POST that fails a check is refused with the reason of the first check that fails: the queue stays,
POST_REFUSED is set and STATUS shows the reason (R67). -/
def Obligations.PostByChecks : Prop :=
  (∀ (s : State) (a : Word), s.live = true →
     s.modes.mode ∈ [Mode.run, .holding, .held, .standby, .patrol] → a ≠ 0#32 → a.toNat % 32 = 0 →
     s.sheets.queue.length < 2 →
     (∃ t : State, exec (.post a) s = .next t ∧ t.sheets.queue = s.sheets.queue ++ [a] ∧ t.window.refusal = s.window.refusal ∧
       t.window.refusalApply = s.window.refusalApply ∧ State.lanesKept s t ∧ State.memoryKept s t ∧
       State.arrayKept s t ∧ State.storeKept s t ∧ State.protectKept s t ∧ State.outsideKept s t) ∧
     (s.modes.mode ∈ [Mode.run, .holding, .held] →
       exec (.post a) s = .next (State.settle { s with sheets := { s.sheets with queue := s.sheets.queue ++ [a] } })) ∧
     (let queued := { s.sheets with queue := s.sheets.queue ++ [a] }
      (s.modes.mode = .standby → s.modes.wake = false →
        exec (.post a) s = .next (State.settle { s with
          sheets := queued, modes := { s.modes with wake := true, powerGiven := false },
          patrol := { s.patrol with timer := none } })) ∧
      (s.modes.mode = .standby → s.modes.wake = true → exec (.post a) s = .next (State.settle { s with sheets := queued })) ∧
      (s.modes.mode = .patrol → s.modes.patrolStage = .committing → exec (.post a) s = .next (State.settle { s with
        sheets := queued, modes := { s.modes with mode := .run, patrolStage := .none, commitAwaited := false },
        signals := s.signals ++ [.forgetCommit .mode] })) ∧
      (s.modes.mode = .patrol → s.modes.patrolStage ≠ .committing → exec (.post a) s = .next (State.settle { s with
        sheets := queued, modes := { s.modes with patrolWake := true },
        patrol := { s.patrol with run := s.patrol.run.map (fun r => { r with endRequested := true }) } })))) ∧
  (∀ (s : State) (a : Word), s.live = true →
     let bad := s.modes.mode ∈ [Mode.cold, .faulted, .awaitConfig, .drain, .parked]
     let skew := a = 0#32 ∨ a.toNat % 32 ≠ 0
     let full := 2 ≤ s.sheets.queue.length
     ∀ r, (bad ∧ r = Reason.state) ∨ (¬bad ∧ skew ∧ r = .align) ∨ (¬bad ∧ ¬skew ∧ full ∧ r = .full) →
       ∃ t : State, exec (.post a) s = .next t ∧ t.sheets.queue = s.sheets.queue ∧ t.window.flag .postRefused = true ∧
         t.window.refusal = r ∧ t.window.refusalApply = false ∧ State.lanesKept s t ∧ State.memoryKept s t ∧
         State.arrayKept s t ∧ State.storeKept s t)

/-- HOLD by the mode and the stop state (R77): from RUN with NONE the stop state becomes HOLD and the mode HOLDING; held
already, no effect; under ABORT and in the other modes refused with REQUEST_REFUSED. RESUME by the mode and the stop
state (R79): from HOLDING or HELD with HOLD the stop state becomes NONE, the mode RUN, and a held question is answered
GO; in RUN with NONE no effect; under ABORT and in the other modes refused. ABORT by the mode and the stop state (R80):
the queue joins the closing list as ABORTED, the active sheet's ending becomes ABORTED unless its completion write has
begun (that it has begun once it is raised, though it may still wait for the port, is the model's choice, log 31), a
held question is answered STOP ABORTED; a further ABORT has no effect; in the other modes it is refused. STANDBY in an
idle RUN: the mode is STANDBY, the clean commit is requested and, unless STORE_FAULT is set, awaited, POWER DOWN is
given to each lane and the timer starts from zero when the interval is not 0; otherwise it is refused (R164, R173).
WAKE: in STANDBY it starts a wake when none is pending; in RUN, HOLDING and HELD it has no effect; in COLD, FAULTED,
AWAIT_CONFIG, DRAIN and PARKED it is refused; in PATROL the run is asked to end, and one that has ended, its clean
commit awaited, is waited for no longer: the mode is RUN (R164, R174, R175). -/
def Obligations.ControlCommandsByMode : Prop :=
  (∀ (s : State), s.live = true →
     (s.modes.mode = .run → s.sheets.stop = .none →
       exec .hold s = .next (State.settle { s with
         sheets := { s.sheets with stop := .hold }, modes := { s.modes with mode := .holding } })) ∧
     (s.modes.mode ∈ [Mode.holding, .held] → s.sheets.stop = .hold → exec .hold s = .next s.settle) ∧
     (s.sheets.stop = .abort ∨ s.modes.mode ∉ [Mode.run, .holding, .held] →
       exec .hold s = .next (State.settle { s with window := s.window.set .requestRefused }))) ∧
  (∀ (s : State), s.live = true →
     (s.modes.mode ∈ [Mode.holding, .held] → s.sheets.stop = .hold →
       ∃ u : State, exec .resume s = .next u.settle ∧ u.sheets = { s.sheets with stop := .none, questionHeld := false } ∧
         u.modes = { s.modes with mode := .run } ∧
         (s.sheets.questionHeld = true → s.writer.order ≠ none → u.writer = { s.writer with go := true }) ∧
         (s.sheets.questionHeld = true → s.writer.order = none → u.reader = { s.reader with go := true }) ∧
         (s.sheets.questionHeld = false → u.writer = s.writer ∧ u.reader = s.reader) ∧
         u.table = s.table ∧ u.lanes = s.lanes ∧ u.window = s.window) ∧
     (s.modes.mode = .run → s.sheets.stop = .none → exec .resume s = .next s.settle) ∧
     (s.sheets.stop = .abort ∨ s.modes.mode ∉ [Mode.run, .holding, .held] →
       exec .resume s = .next (State.settle { s with window := s.window.set .requestRefused }))) ∧
  (∀ (s : State), s.live = true →
     (s.modes.mode ∈ [Mode.run, .holding, .held] → s.sheets.stop = .none ∨ s.sheets.stop = .hold →
       ∃ u : State, exec .abort s = .next u.settle ∧ u.sheets.stop = .abort ∧ u.sheets.queue = [] ∧
         u.sheets.closing = s.sheets.closing ++ s.sheets.queue.map (fun a => (a, Ending.aborted)) ∧
         ((∀ w, s.sheets.access ≠ some (.completion w)) →
           u.sheets.active = s.sheets.active.map (fun r => { r with ending := .aborted })) ∧
         (∀ w, s.sheets.access = some (.completion w) → u.sheets.active = s.sheets.active) ∧
         u.sheets.order = s.sheets.order ∧ u.sheets.access = s.sheets.access ∧ u.sheets.questionHeld = false ∧
         (s.sheets.questionHeld = true → s.writer.order ≠ none →
           u.writer = { s.writer with stopped := some .aborted }) ∧
         (s.sheets.questionHeld = true → s.writer.order = none →
           u.reader = { s.reader with stopped := some .aborted }) ∧
         u.modes = s.modes ∧ u.table = s.table ∧ u.lanes = s.lanes ∧ u.mover = s.mover ∧ u.coder = s.coder) ∧
     (s.modes.mode ∈ [Mode.run, .holding, .held] → s.sheets.stop = .abort → exec .abort s = .next s.settle) ∧
     (s.modes.mode ∉ [Mode.run, .holding, .held] →
       exec .abort s = .next (State.settle { s with window := s.window.set .requestRefused }))) ∧
  (∀ (s : State), s.live = true →
     let idle := s.modes.mode = .run ∧ s.sheets.stop = .none ∧ s.sheets.active = none ∧ s.sheets.queue = [] ∧
       s.sheets.closing = [] ∧ s.modes.configRead = none
     (idle → ∀ c, s.modes.config = some c →
       ∃ u : State, exec .standby s = .next u.settle ∧
         u.modes = { s.modes with
           mode := .standby, wake := false, powerGiven := false, commitAwaited := !s.table.storeFault } ∧
         u.signals = s.signals ++ [.commitRequest .mode true (!s.table.storeFault)] ∧
         (∀ l, u.lane l = { s.lane l with waiting := (s.lane l).waiting ++ [.powerDown] }) ∧
         u.patrol.timer = (if c.patrolInterval = 0 then none else some 0) ∧ u.table = s.table ∧ u.array = s.array ∧
         u.mem = s.mem) ∧
     (idle → s.signals = [] → ∃ t : State, exec .standby s = .next t ∧ t.table.cleanReq = true) ∧
     (¬idle → exec .standby s = .next (State.settle { s with window := s.window.set .requestRefused }))) ∧
  (∀ (s : State), s.live = true →
     (s.modes.mode = .standby → s.modes.wake = false →
       exec .wake s = .next (State.settle { s with
         modes := { s.modes with wake := true, powerGiven := false }, patrol := { s.patrol with timer := none } })) ∧
     (s.modes.mode = .standby → s.modes.wake = true → exec .wake s = .next s.settle) ∧
     (s.modes.mode ∈ [Mode.run, .holding, .held] → exec .wake s = .next s.settle) ∧
     (s.modes.mode = .patrol → s.modes.patrolStage = .committing →
       exec .wake s = .next (State.settle { s with
         modes := { s.modes with mode := .run, patrolStage := .none, commitAwaited := false },
         signals := s.signals ++ [.forgetCommit .mode] })) ∧
     (s.modes.mode = .patrol → s.modes.patrolStage ≠ .committing →
       exec .wake s = .next (State.settle { s with
         modes := { s.modes with patrolWake := true },
         patrol := { s.patrol with run := s.patrol.run.map (fun r => { r with endRequested := true }) } })) ∧
     (s.modes.mode ∈ [Mode.cold, .faulted, .awaitConfig, .drain, .parked] →
       exec .wake s = .next (State.settle { s with window := s.window.set .requestRefused })))

/-! ## Lanes -/

/-- A lane command changes its own lane's registers alone: every other lane keeps its registers and operation, and
array, host memory, store, locks and fuses, window registers, queue and lines stay (R1, R5). -/
def Obligations.LaneCommandFrame : Prop :=
  ∀ (c : Instr) (l : Lane) (s t : State), (∃ seen, c = .readEnd l seen) ∨
      c ∈ [Instr.cacheLoad l, .cacheCommit l, .cacheDiscard l, .cacheUnload l, .pageRead l, .pageMove l, .blockErase l,
        .powerDown l, .powerUp l, .resultQuery l, .transferEnd l, .powerUpEnd l] →
    s.live = true → exec c s = .next t →
      State.othersKept l s t ∧ State.arrayKept s t ∧ State.memoryKept s t ∧ State.storeKept s t ∧
        State.protectKept s t ∧ State.windowKept s t ∧ State.outsideKept s t ∧ State.postsKept s t

/-- CACHE LOAD, taken with an empty cache register in LANE_IDLE or behind a running program: the page stands LOADED; the
lane state, data register and result record stay (R8). CACHE COMMIT of a LOADED page: HELD when PREVIOUS_FAILED is 1;
else in LANE_IDLE its program starts and the cache register is empty; else behind a running program it is ARMED (R9).
CACHE DISCARD in LANE_IDLE or LANE_CACHE_BUSY: the cache register is emptied and PREVIOUS_FAILED cleared; a read page
that waits for the cache register begins its transfer (R11, R12). CACHE UNLOAD of a READ page: the cache register is
emptied, a waiting read page begins its transfer, and the page, with its outcome, stands in the coder's read assembly of
its row, before the judgement or after it (R13, R53). -/
def Obligations.CacheRequestsTaken : Prop :=
  (∀ (s : State) (l : Lane) (g : PortGiver) (id : PageId) (data : List Byte), s.live = true →
     (s.lane l).port = some (g, .cacheLoad id data) → (s.lane l).cache = none →
     ((s.lane l).state = .idle ∨ ∃ i d, (s.lane l).activity = .program i d) →
       exec (.cacheLoad l) s = .next (State.settle (s.setLane l { s.lane l with
         port := none, cache := some { data := data, id := id, cond := .loaded, outcome := none } }))) ∧
  (∀ (s : State) (l : Lane) (g : PortGiver) (page : CachePage), s.live = true →
     (s.lane l).port = some (g, .cacheCommit) → (s.lane l).cache = some page → page.cond = .loaded →
     ((s.lane l).prevFailed = true → ((s.lane l).state = .idle ∨ ∃ i d, (s.lane l).activity = .program i d) →
       exec (.cacheCommit l) s = .next (State.settle (s.setLane l { s.lane l with
         port := none, cache := some { page with cond := .held } }))) ∧
     ((s.lane l).prevFailed = false → (s.lane l).state = .idle →
       exec (.cacheCommit l) s = .next (State.settle (s.setLane l { s.lane l with
         port := none, cache := none, activity := .program page.id page.data }))) ∧
     ((s.lane l).prevFailed = false → (∃ i d, (s.lane l).activity = .program i d) →
       exec (.cacheCommit l) s = .next (State.settle (s.setLane l { s.lane l with
         port := none, cache := some { page with cond := .armed } })))) ∧
  (∀ (s : State) (l : Lane) (g : PortGiver), s.live = true → (s.lane l).port = some (g, .cacheDiscard) →
     (((s.lane l).activity = .idle ∨ (∃ i d, (s.lane l).activity = .program i d) ∨
         ∃ i, (s.lane l).activity = .reading i) →
       exec (.cacheDiscard l) s = .next (State.settle (s.setLane l { s.lane l with
         port := none, cache := none, prevFailed := false }))) ∧
     (∀ id data o, (s.lane l).activity = .awaiting id data o →
       exec (.cacheDiscard l) s = .next (State.settle (s.setLane l { s.lane l with
         port := none, cache := none, prevFailed := false, activity := .transfer id data o })))) ∧
  (∀ (s : State) (l : Lane) (g : PortGiver) (page : CachePage) (o : PageOutcome), s.live = true →
     (s.lane l).port = some (g, .cacheUnload) → (s.lane l).cache = some page → page.cond = .read →
     page.outcome = some o → (s.lane l).state = .idle ∨ (s.lane l).state = .cacheBusy →
     ∃ u : State, exec (.cacheUnload l) s = .next u.settle ∧ (u.lane l).cache = none ∧ (u.lane l).port = none ∧
       (∀ id data oo, (s.lane l).activity = .awaiting id data oo → (u.lane l).activity = .transfer id data oo) ∧
       ((∀ id data oo, (s.lane l).activity ≠ .awaiting id data oo) → (u.lane l).activity = (s.lane l).activity) ∧
       (∀ r, s.coder.read = some r → r.band = page.id.band → r.row = page.id.row → l ∈ r.expected →
         u.coder = { s.coder with read := some { r with slots := r.slots.set l (.held page.data o) } }) ∧
       (s.coder.read = none → u.coder = s.coder))

/-- PAGE READ in LANE_IDLE with the cache register empty or READ: the array read starts (R12). PAGE MOVE in LANE_IDLE:
with PREVIOUS_FAILED 1 it ends at once with FAIL, nothing read or programmed, and its end report, which carries no
outcome of a source page (log 23), goes to the owner (R7, R14); otherwise the source read starts (R14).
BLOCK ERASE in LANE_IDLE empties the cache register, clears PREVIOUS_FAILED and starts the erase; POWER DOWN in
LANE_IDLE empties the registers and the result record; POWER UP starts a power-up in LANE_OFF and has no effect
elsewhere (R15, R16, R17). -/
def Obligations.ArrayAndPowerRequestsTaken : Prop :=
  (∀ (s : State) (l : Lane) (g : PortGiver) (id : PageId), s.live = true →
     (s.lane l).port = some (g, .pageRead id) → (s.lane l).state = .idle →
     ((s.lane l).cache = none ∨ ∃ p, (s.lane l).cache = some p ∧ p.cond = .read) →
       exec (.pageRead l) s = .next (State.settle (s.setLane l { s.lane l with port := none, activity := .reading id }))) ∧
  (∀ (s : State) (l : Lane) (g : PortGiver) (src : PageId) (band row : Nat), s.live = true →
     (s.lane l).port = some (g, .pageMove src band row) → (s.lane l).state = .idle →
     ((s.lane l).prevFailed = false →
       exec (.pageMove l) s = .next (State.settle (s.setLane l { s.lane l with
         port := none, activity := .move src band row }))) ∧
     ((s.lane l).prevFailed = true →
       let op : LastOp := { kind := .move, band := band, row := row, outcome := .fail }
       exec (.pageMove l) s = .next (State.settle { s.setLane l { s.lane l with port := none, lastOp := some op } with
         signals := s.signals ++ [.report l { op := op, outcome := none }] }))) ∧
  (∀ (s : State) (l : Lane) (g : PortGiver), s.live = true →
     (∀ band, (s.lane l).port = some (g, .blockErase band) → (s.lane l).state = .idle →
       exec (.blockErase l) s = .next (State.settle (s.setLane l { s.lane l with
         port := none, cache := none, prevFailed := false, activity := .erase band }))) ∧
     ((s.lane l).port = some (g, .powerDown) → (s.lane l).state = .idle →
       exec (.powerDown l) s = .next (State.settle (s.setLane l { s.lane l with
         port := none, cache := none, lastOp := none, prevFailed := false, activity := .off }))) ∧
     ((s.lane l).port = some (g, .powerUp) → (s.lane l).state = .off →
       exec (.powerUp l) s = .next (State.settle (s.setLane l { s.lane l with port := none, activity := .poweringUp }))) ∧
     ((s.lane l).port = some (g, .powerUp) → (s.lane l).state ≠ .off →
       exec (.powerUp l) s = .next (State.settle (s.setLane l { s.lane l with port := none }))))

/-- RESULT QUERY is answered in every lane state, at once, with the lane state, the port, the cache condition, the last
operation and PREVIOUS_FAILED, and changes none of them (R7). A request that the lane state or the condition of its
registers does not allow is not lost: the lane, its port and its registers stay (R5, R6). By the lane state wait the
cache requests in LANE_OFF and LANE_ARRAY_BUSY, and the array requests and POWER DOWN outside LANE_IDLE (R5); CACHE LOAD
waits over any page of the cache register, and it and CACHE COMMIT wait behind a read that runs or awaits its transfer
(R8, R9); CACHE COMMIT waits without a LOADED page (R9), CACHE UNLOAD without a READ page (R13), and PAGE READ over a
LOADED, ARMED or HELD one (R12). What else comes about in a step takes no request out of a port (R6). An owner's request
waits behind those it gave the lane before; the oldest is placed in the port once that is empty, one lane after the
other, unless a page of the coder for the lane was ready before it, and such a page comes first from then on (R6). -/
def Obligations.ResultQueryAnswersOthersWait : Prop :=
  (∀ (s : State) (l : Lane), s.live = true →
     ∃ t : State, exec (.resultQuery l) s = .next t ∧
       t.queryAnswer = some { lane := l, state := (s.lane l).state, portHolds := (s.lane l).port.isSome,
                              cache := (s.lane l).cache.map (·.cond), lastOp := (s.lane l).lastOp,
                              prevFailed := (s.lane l).prevFailed } ∧
       State.lanesKept s t ∧ State.arrayKept s t) ∧
  (∀ (s : State) (l : Lane), s.live = true →
     ((s.lane l).state = .off ∨ (s.lane l).state = .arrayBusy →
       exec (.cacheLoad l) s = .next s.settle ∧ exec (.cacheCommit l) s = .next s.settle ∧
       exec (.cacheDiscard l) s = .next s.settle ∧ exec (.cacheUnload l) s = .next s.settle) ∧
     ((s.lane l).state ≠ .idle →
       exec (.pageRead l) s = .next s.settle ∧ exec (.pageMove l) s = .next s.settle ∧
       exec (.blockErase l) s = .next s.settle ∧ exec (.powerDown l) s = .next s.settle) ∧
     ((s.lane l).cache ≠ none → exec (.cacheLoad l) s = .next s.settle) ∧
     ((∃ i, (s.lane l).activity = .reading i) ∨ (∃ i d o, (s.lane l).activity = .awaiting i d o) →
       exec (.cacheLoad l) s = .next s.settle ∧ exec (.cacheCommit l) s = .next s.settle) ∧
     ((∀ p, (s.lane l).cache = some p → p.cond ≠ .loaded) → exec (.cacheCommit l) s = .next s.settle) ∧
     ((∀ p, (s.lane l).cache = some p → p.cond ≠ .read) → exec (.cacheUnload l) s = .next s.settle) ∧
     (∀ p, (s.lane l).cache = some p → p.cond ∈ [CacheCond.loaded, .armed, .held] →
       exec (.pageRead l) s = .next s.settle)) ∧
  (∀ (s : State) (l : Lane) (q : PortGiver × LaneReq), (s.lane l).port = some q → (s.settle.lane l).port = some q) ∧
  (∀ (s : State),
     let pageFirst (l : Lane) := ∃ h : Handing, h.lane = l ∧ h.behind = false ∧
       ((∃ a, s.coder.write = some a ∧ a.handing = some h) ∨ ∃ r, s.coder.read = some r ∧ r.handing = some h)
     let due (l : Lane) := (s.lane l).port = none ∧ (s.lane l).waiting ≠ [] ∧ ¬pageFirst l
     (∀ l q rest, due l → (∀ k, k.number < l.number → ¬due k) → (s.lane l).waiting = q :: rest →
       ∃ t : State, s.placeRequests = some t ∧ t.signals = s.signals ∧
         (∀ k, t.lane k = if k = l then { s.lane l with port := some (.owner, q), waiting := rest } else s.lane k) ∧
         (∀ a, s.coder.write = some a → t.coder.write = some { a with handing := a.handing.map (fun h =>
           if h.lane = l then { h with behind := false } else h) })) ∧
     ((∀ l, ¬due l) → s.placeRequests = none) ∧
     (∀ l q, (s.give l q).lane l = { s.lane l with waiting := (s.lane l).waiting ++ [q] }))

/-- The end of a program (R10, R1, R2, R7): the record is written, and the end report with the same values is sent, once,
to be taken by the owner in the same step; on PASS the page holds the data with its tag and an
ARMED page starts; on FAIL the page is indeterminate, PREVIOUS_FAILED is 1 and an ARMED page is HELD. -/
def Obligations.ProgramEnds : Prop :=
  ∀ (s : State) (l : Lane) (id : PageId) (data : List Byte) (pass : Bool), s.live = true →
    (s.lane l).activity = .program id data → Sparse.wf .erased s.array = true →
    let op : LastOp := { kind := .program, band := id.band, row := id.row, outcome := if pass then .pass else .fail }
    ∃ u : State, exec (.programEnd l pass) s = .next u.settle ∧
      u.signals = s.signals ++ [.report l { op := op, outcome := none }] ∧
      let t := u.settle
      (t.lane l).lastOp = some op ∧
      t.page l id.band id.row = (if pass then .programmed { band := id.band, row := id.row, level := id.level,
                                                            role := roleOf id.level l, checkDelta := 0#16 } data
                                 else .indeterminate) ∧
      (t.lane l).prevFailed = ((s.lane l).prevFailed || !pass) ∧
      (∀ p, (s.lane l).cache = some p → p.cond = .armed → pass = true →
        (t.lane l).activity = .program p.id p.data ∧ (t.lane l).cache = none) ∧
      (∀ p, (s.lane l).cache = some p → p.cond = .armed → pass = false →
        (t.lane l).activity = .idle ∧ (t.lane l).cache = some { p with cond := .held }) ∧
      ((∀ p, (s.lane l).cache = some p → p.cond ≠ .armed) →
        (t.lane l).activity = .idle ∧ (t.lane l).cache = (s.lane l).cache) ∧
      State.othersKept l s t ∧ State.memoryKept s t ∧ State.storeKept s t ∧ State.protectKept s t ∧
      (∀ l' b r, id.band < 1024 → id.row < 64 → b < 1024 → r < 64 → (l', b, r) ≠ (l, id.band, id.row) →
        t.page l' b r = s.page l' b r)

/-- The page class: the first row of the table of R4 that applies, with the weak threshold of the configuration. A
stored tag read without damage matches when it passes its check and its band, row, level and role are those expected; a
damaged one never does, nor one that shows as another than it is stored; on a page of no known content the tag it shows
is compared; an erased page holds no tag that matches (R2, R4). The bytes a read shows: all ones where the page reads
all ones; of a programmed page each sector of at most 8 bit errors as it was programmed, and one of more as the array
gives it; of a page of no known content as the array gives them (R1, R3, R4). -/
def Obligations.PageClassByTable : Prop :=
  (∀ (weak : Nat) (page : Page) (seen : ArrayRead) (l : Lane) (id : PageId),
     let o := classify weak page seen l id
     let bad := ∃ i, i < 4 ∧ 8 < seen.errors.getD i 0
     let h := highestCorrected seen
     (seen.allOnes = true → o = { cls := .erased, highest := 0 }) ∧
     (seen.allOnes = false → bad → o = { cls := .uncorrectable, highest := h }) ∧
     (seen.allOnes = false → ¬bad → tagMatches page seen l id = false → o = { cls := .tagMismatch, highest := h }) ∧
     (seen.allOnes = false → ¬bad → tagMatches page seen l id = true → weak ≤ h → o = { cls := .weak, highest := h }) ∧
     (seen.allOnes = false → ¬bad → tagMatches page seen l id = true → h < weak → o = { cls := .good, highest := h }) ∧
     (∀ i, i < 4 → seen.errors.getD i 0 ≤ 8 → seen.errors.getD i 0 ≤ h) ∧
     (h = 0 ∨ ∃ i, i < 4 ∧ seen.errors.getD i 0 ≤ 8 ∧ h = seen.errors.getD i 0) ∧
     (∀ tag data, page = .programmed tag data → seen.tag = .intact →
       (tagMatches page seen l id = true ↔ tag.checkDelta = 0#16 ∧ tag.band = id.band ∧ tag.row = id.row ∧
         tag.level = id.level ∧ tag.role = roleOf id.level l)) ∧
     (seen.tag = .damaged → tagMatches page seen l id = false) ∧
     (page = .erased → tagMatches page seen l id = false) ∧
     (∀ tag data band row level role, page = .programmed tag data → seen.tag = .shows band row level role →
       tagMatches page seen l id = false) ∧
     (∀ band row level role, page = .indeterminate → seen.tag = .shows band row level role →
       (tagMatches page seen l id = true ↔ band = id.band ∧ row = id.row ∧ level = id.level ∧
         role = roleOf id.level l)) ∧
     (roleOf id.level l =
       if l.number < 6 - id.level.val then .data l.number else if id.level.val = 2 ∧ l = .l5 then .q else .p)) ∧
  (∀ (page : Page) (seen : ArrayRead),
     (seen.allOnes = true → bytesRead page seen = List.replicate 2048 0xFF#8) ∧
     (∀ tag data, page = .programmed tag data → seen.allOnes = false → data.length = 2048 → seen.asRead.length = 2048 →
       (bytesRead page seen).length = 2048 ∧ ∀ j, j < 2048 → (bytesRead page seen)[j]? =
         if 8 < seen.errors.getD (j / 512) 0 then seen.asRead[j]? else data[j]?) ∧
     (page = .erased ∨ page = .indeterminate → seen.allOnes = false → bytesRead page seen = seen.asRead))

/-- The end of a read (R12, R7): the class goes into the record; the page begins its transfer when the cache register is
empty, and waits for it otherwise. The weak threshold is the configured one, or 8 (R4). The end of a transfer puts the
page in the cache register as READ, the lane idle; the end of a power-up leaves the lane idle with nothing held (R12,
R17). The end of a move (R14): a source that is not GOOD or WEAK ends SOURCE_BAD with nothing programmed; otherwise the
target is programmed with the corrected bytes under its own tag, or left indeterminate on FAIL. The end of an erase
(R15, R1): after PASS every page of the block is erased, after FAIL indeterminate; no other page changes. At the end of
a read, a move and an erase the end report with the record's values, and the page outcome of a read or a move, is sent,
once, to be taken by the owner in the same step; the end of a transfer and of a power-up sends none (R7). -/
def Obligations.ReadMoveAndEraseEnd : Prop :=
  (∀ (s : State) (l : Lane) (id : PageId) (seen : ArrayRead), s.live = true → (s.lane l).activity = .reading id →
     let weak := s.modes.config.elim 8 (·.weakThreshold)
     let page := s.page l id.band id.row
     let o := classify weak page seen l id
     let op : LastOp := { kind := .read, band := id.band, row := id.row, outcome := .seen o.cls }
     ∃ u : State, exec (.readEnd l seen) s = .next u.settle ∧
       u.signals = s.signals ++ [.report l { op := op, outcome := some o }] ∧
       let t := u.settle
       (t.lane l).lastOp = some op ∧
       ((s.lane l).cache = none → (t.lane l).activity = .transfer id (bytesRead page seen) o ∧
         (t.lane l).state = .arrayBusy) ∧
       ((s.lane l).cache ≠ none → (t.lane l).activity = .awaiting id (bytesRead page seen) o ∧
         (t.lane l).state = .cacheBusy) ∧
       (t.lane l).cache = (s.lane l).cache ∧ (t.lane l).prevFailed = (s.lane l).prevFailed) ∧
  (∀ (s : State) (l : Lane), s.live = true →
     (∀ id data o, (s.lane l).activity = .transfer id data o →
       exec (.transferEnd l) s = .next (State.settle (s.setLane l { s.lane l with
         activity := .idle, cache := some { data := data, id := id, cond := .read, outcome := some o } }))) ∧
     ((s.lane l).activity = .poweringUp →
       exec (.powerUpEnd l) s = .next (State.settle (s.setLane l { s.lane l with
         activity := .idle, cache := none, lastOp := none })))) ∧
  (∀ (s : State) (l : Lane) (src : PageId) (band row : Nat) (seen : ArrayRead) (pass : Bool), s.live = true →
     (s.lane l).activity = .move src band row → Sparse.wf .erased s.array = true →
     let page := s.page l src.band src.row
     let o := classify (s.modes.config.elim 8 (·.weakThreshold)) page seen l src
     ∃ u : State, exec (.moveEnd l seen pass) s = .next u.settle ∧
       u.signals = s.signals ++ [.report l
         { op := { kind := .move, band := band, row := row,
                   outcome := if o.cls ∈ [PageClass.good, .weak] then (if pass then .pass else .fail) else .sourceBad },
           outcome := some o }] ∧
       let t := u.settle
       (t.lane l).activity = .idle ∧
       (t.lane l).cache = (s.lane l).cache ∧ State.othersKept l s t ∧ State.memoryKept s t ∧ State.storeKept s t ∧
       (o.cls ∈ [PageClass.erased, .uncorrectable, .tagMismatch] →
         (t.lane l).lastOp = some { kind := .move, band := band, row := row, outcome := .sourceBad } ∧
         (t.lane l).prevFailed = (s.lane l).prevFailed ∧ State.arrayKept s t) ∧
       (o.cls ∈ [PageClass.good, .weak] →
         (t.lane l).lastOp = some { kind := .move, band := band, row := row,
                                    outcome := if pass then .pass else .fail } ∧
         (t.lane l).prevFailed = ((s.lane l).prevFailed || !pass) ∧
         t.page l band row = (if pass then .programmed { band := band, row := row, level := src.level,
                                                         role := roleOf src.level l, checkDelta := 0#16 }
                                             (bytesRead page seen)
                              else .indeterminate) ∧
         (∀ l' b r, band < 1024 → row < 64 → b < 1024 → r < 64 → (l', b, r) ≠ (l, band, row) →
           t.page l' b r = s.page l' b r))) ∧
  (∀ (s : State) (l : Lane) (band : Nat) (pass : Bool), s.live = true → (s.lane l).activity = .erase band →
     Sparse.wf .erased s.array = true →
     let op : LastOp := { kind := .erase, band := band, row := 0, outcome := if pass then .pass else .fail }
     ∃ u : State, exec (.blockEraseEnd l pass) s = .next u.settle ∧
       u.signals = s.signals ++ [.report l { op := op, outcome := none }] ∧
       let t := u.settle
       (t.lane l).activity = .idle ∧
       (t.lane l).cache = (s.lane l).cache ∧ (t.lane l).prevFailed = (s.lane l).prevFailed ∧
       (t.lane l).lastOp = some op ∧
       (∀ row, row < 64 → t.page l band row = if pass then .erased else .indeterminate) ∧
       (∀ l' b r, band < 1024 → b < 1024 → r < 64 → (l', b) ≠ (l, band) → t.page l' b r = s.page l' b r) ∧
       State.othersKept l s t ∧ State.memoryKept s t ∧ State.storeKept s t ∧ State.protectKept s t)

/-! ## The stripe coder -/

/-- BEGIN WRITE ROW, taken when the write assembly is empty, sets it up with zero P and Q, index 0 and nothing received
(R49). BEGIN READ ROW, taken when the read assembly is empty, awaits the expected lanes and no other (R53). PAGE HANDED:
the page being handed is placed in its lane's empty port as a CACHE LOAD with the row's identity; a copy's page carries
the target band and row (R50, R58). PAGE HANDED and ROW LOADED. A page whose port is not free, or behind requests of the
lane's owner given before it, waits (R6, R50). The page of a write placed, the next data page is filled; after the last
data page the P page and then the Q page are handed to their lanes, or dropped when those are not in the load set; with
nothing left to hand ROW LOADED names the lanes loaded and the assembly is emptied (R50). A RECOVERABLE copy row: the
missing data pages rebuilt, the patch applied, the missing parity regenerated, the pages named are handed one after the
other; with the last placed, or none named, ROW LOADED names the lanes loaded and the assembly is released (R58). -/
def Obligations.CoderBeginsAndLoadsRows : Prop :=
  (∀ (s : State) (b : RowBegin), s.live = true →
     (s.coder.beginWrite = some b → s.coder.write = none →
       exec .beginWriteRow s = .next (State.settle { s with coder := { s.coder with
         beginWrite := none,
         write := some { band := b.band, row := b.row, level := b.level, loadSet := b.lanes, index := 0, received := [],
                         p := zeroPage, q := zeroPage, handing := none,
                         loaded := [] } } })) ∧
     (s.coder.beginRead = some b → s.coder.read = none →
       ∃ (u : State) (r : ReadAsm), exec .beginReadRow s = .next u.settle ∧ u.coder.read = some r ∧ u.coder.beginRead = none ∧
         u.coder.verdict = none ∧ u.signals = s.signals ++ [.readBegun b] ∧ r.band = b.band ∧ r.row = b.row ∧
         r.level = b.level ∧ r.purpose = b.purpose ∧ r.expected = b.lanes ∧
         (∀ l, r.slots.get l = if l ∈ b.lanes then .awaited else .notExpected) ∧ u.lanes = s.lanes ∧ u.mem = s.mem)) ∧
  (∀ (s : State) (h : Handing), s.live = true → (s.lane h.lane).port = none → h.behind = false →
     (∀ a, s.coder.write = some a → a.handing = some h →
       ∃ u : State, exec .pageHanded s = .next u.settle ∧
         (u.lane h.lane).port =
           some (.coder, .cacheLoad { band := a.band, row := a.row, level := a.level } h.data) ∧
         (u.lane h.lane).cache = (s.lane h.lane).cache ∧ (∀ l, l ≠ h.lane → u.lane l = s.lane l)) ∧
     (∀ r, s.coder.write = none → s.coder.read = some r → r.handing = some h →
       ∃ u : State, exec .pageHanded s = .next u.settle ∧
         (u.lane h.lane).port =
           some (.coder, .cacheLoad { band := r.target.1, row := r.target.2, level := r.level } h.data) ∧
         (u.lane h.lane).cache = (s.lane h.lane).cache ∧ (∀ l, l ≠ h.lane → u.lane l = s.lane l))) ∧
  (∀ (s : State) (a : WriteAsm) (h : Handing), s.live = true → s.coder.write = some a → a.handing = some h →
     ((s.lane h.lane).port ≠ none ∨ (h.behind = true ∧ (s.lane h.lane).waiting ≠ []) →
       exec .pageHanded s = .next s.settle) ∧
     ((s.lane h.lane).port = none → h.behind = false ∨ (s.lane h.lane).waiting = [] →
       let k := 6 - a.level.val
       let i := a.index + 1
       let loaded := addLane a.loaded h.lane
       ∃ u : State, exec .pageHanded s = .next u.settle ∧
         (u.lane h.lane).port = some (.coder, .cacheLoad { band := a.band, row := a.row, level := a.level } h.data) ∧
         (i < k → u.coder.write = some { a with handing := none, index := i, loaded := loaded } ∧
           u.signals = s.signals) ∧
         (k ≤ i → (∀ j, i ≤ j → j < 6 → laneAt j ∉ a.loadSet) →
           u.coder.write = none ∧ u.signals = s.signals ++ [.rowLoaded loaded]) ∧
         (∀ n, k ≤ i → i ≤ n → n < 6 → laneAt n ∈ a.loadSet → (∀ j, i ≤ j → j < n → laneAt j ∉ a.loadSet) →
           ∃ g : Handing, g.lane = laneAt n ∧ g.data = (if n = k then a.p else a.q) ∧ u.signals = s.signals ∧
             u.coder.write = some { a with handing := some g, received := [], index := n, loaded := loaded }))) ∧
  (∀ (s : State) (r : ReadAsm) (h : Handing), s.live = true → s.coder.write = none → s.coder.read = some r →
     r.handing = some h → (s.lane h.lane).port = none → h.behind = false ∨ (s.lane h.lane).waiting = [] →
     let loaded := addLane r.loaded h.lane
     ∃ u : State, exec .pageHanded s = .next u.settle ∧
       (r.toHand = [] → u.coder.read = none ∧ u.signals = s.signals ++ [.rowLoaded loaded]) ∧
       (∀ l d rest, r.toHand = (l, d) :: rest → ∃ (b : ReadAsm) (g : Handing), u.coder.read = some b ∧
         b.handing = some g ∧ g.lane = l ∧ g.data = d ∧ b.toHand = rest ∧ b.loaded = loaded ∧
         u.signals = s.signals)) ∧
  (∀ (s : State) (r : ReadAsm) (named : List Lane) (target : Nat × Nat), r.handing = none →
     let t := s.produceCopy r named target
     let pHere := (pLane r.level).elim false (fun l => !r.isMissing l)
     let qHere := (qLane r.level).elim false (fun l => !r.isMissing l)
     let whole := r.placeAll r.rebuilt
     let made := match s.coder.patch with | none => whole | some p => whole.patched p pHere qHere
     let page (l : Lane) :=
       if pLane r.level = some l ∧ pHere = false then parityP made.dataPagesOf
       else if qLane r.level = some l ∧ qHere = false then parityQ 0 made.dataPagesOf
       else made.bytes l
     (named = [] → t.coder.read = none ∧ t.signals = s.signals ++ [.rowLoaded r.loaded]) ∧
     (∀ l rest, named = l :: rest → ∃ (b : ReadAsm) (g : Handing), t.coder.read = some b ∧ b.handing = some g ∧
       g.lane = l ∧ g.data = page l ∧ b.toHand = rest.map (fun k => (k, page k)) ∧ b.target = target ∧
       b.loaded = r.loaded ∧ t.signals = s.signals))

/-- A word taken from the staging FIFO (R50): its four bytes follow the bytes of the page being filled, and enter P at
levels 1 and 2 and Q, times g^i, at level 2. With the last word of a data page the page is handed when its lane is in
the load set. Outside the load set it is dropped once it has entered the parity, and the next data page is filled; after
the last data page the P page, then the Q page, is handed or dropped in the same way, and with nothing left to hand ROW
LOADED names the lanes loaded and the assembly is emptied (R50). WORD HANDED: while the FIFO has room, the next word of
a row judged RECOVERABLE, data pages in index order, or of a band query record joins its end; with the last word of the
row, ROW DELIVERED is told (R57, R155, R44). Word n of a row is the four bytes at 4 (n mod 512) of data page n / 512. A
band query record is taken when its first word is handed (the model's reading of R44, log 24): the band's working record
with its locked and frozen flags, in the layout of 11.4 with the band state codes of 11.6 (R44). -/
def Obligations.WordsPassTheFifo : Prop :=
  (∀ (s : State) (a : WriteAsm) (w : Word) (rest : List Word), s.live = true → s.coder.write = some a →
     a.handing = none → a.index < dataPages a.level → s.mover.direction = some .inbound → s.mover.phase = .moving →
     s.mover.fifo = w :: rest → a.received.length + 4 < 2048 →
       exec .stagingWordTaken s = .next (State.settle { s with
         mover := { s.mover with fifo := rest },
         writer := { s.writer with bytesNeeded := s.writer.bytesNeeded - 4 },
         coder := { s.coder with write := some { a with
           received := a.received ++ wordBytes w,
           p := if a.level.val = 0 then a.p else addAt a.p a.received.length (wordBytes w),
           q := if a.level.val = 2 then addAt a.q a.received.length (timesG a.index (wordBytes w)) else a.q } } })) ∧
  (∀ (s : State) (a : WriteAsm) (w : Word) (rest : List Word), s.live = true → s.coder.write = some a →
     a.handing = none → a.index < dataPages a.level → s.mover.direction = some .inbound → s.mover.phase = .moving →
     s.mover.fifo = w :: rest → a.received.length + 4 = 2048 →
     let full : WriteAsm := { a with
       received := [],
       p := if a.level.val = 0 then a.p else addAt a.p a.received.length (wordBytes w),
       q := if a.level.val = 2 then addAt a.q a.received.length (timesG a.index (wordBytes w)) else a.q }
     let k := 6 - a.level.val
     let i := a.index + 1
     ∃ u : State, exec .stagingWordTaken s = .next u.settle ∧ u.mover = { s.mover with fifo := rest } ∧
       u.lanes = s.lanes ∧ u.writer = { s.writer with bytesNeeded := s.writer.bytesNeeded - 4 } ∧
       (laneAt a.index ∈ a.loadSet → u.signals = s.signals ∧ ∃ h : Handing, h.lane = laneAt a.index ∧
         h.data = a.received ++ wordBytes w ∧ u.coder.write = some { full with handing := some h }) ∧
       (laneAt a.index ∉ a.loadSet →
         (i < k → u.coder.write = some { full with index := i } ∧ u.signals = s.signals) ∧
         (k ≤ i → (∀ j, i ≤ j → j < 6 → laneAt j ∉ a.loadSet) →
           u.coder.write = none ∧ u.signals = s.signals ++ [.rowLoaded a.loaded]) ∧
         (∀ n, k ≤ i → i ≤ n → n < 6 → laneAt n ∈ a.loadSet → (∀ j, i ≤ j → j < n → laneAt j ∉ a.loadSet) →
           ∃ g : Handing, g.lane = laneAt n ∧ g.data = (if n = k then full.p else full.q) ∧ u.signals = s.signals ∧
             u.coder.write = some { full with handing := some g, index := n }))) ∧
  (∀ (s : State), s.live = true → s.mover.phase = .moving → s.mover.direction = some .outbound →
     s.mover.pendingEnding = none → s.mover.fifo.length < 16 →
     (∀ w rest, s.services.phase = .records → s.services.ended = false → s.services.ending = none →
       s.services.words = w :: rest →
       exec .wordHanded s = .next (State.settle { s with
         services := { s.services with words := rest },
         mover := { s.mover with fifo := s.mover.fifo ++ [w], handed := s.mover.handed + 1 } })) ∧
     (∀ o, s.services.phase = .records → s.services.ended = false → s.services.ending = none → s.services.words = [] →
       s.services.order = some o → s.services.nextRecord < s.services.band + o.count →
       let b := s.services.nextRecord
       let ws := queryRecord b (s.band b) (s.protect.locked b) (s.protect.frozen b)
       exec .wordHanded s = .next (State.settle { s with
         services := { s.services with words := ws.drop 1, nextRecord := b + 1 },
         mover := { s.mover with fifo := s.mover.fifo ++ ws.take 1, handed := s.mover.handed + 1 } })) ∧
     (∀ b (rec : BandRecord) locked frozen, b < 1024 → rec.wf = true → (∀ e ∈ rec.lost, e.fromRow < 64) →
       let ws := queryRecord b rec locked frozen
       let word (i : Nat) := ws.getD i 0#32
       let code (st : BandState) := match st with
         | .unused => 0 | .erasing => 1 | .blank => 2 | .opened => 3 | .sealed => 4 | .failed => 5 | .retired => 6
       ws.length = 4 ∧ bits (word 0) 0 16 = b ∧ bits (word 0) 16 8 = code rec.state ∧ bits (word 0) 24 8 = rec.level.val ∧
         bits (word 1) 0 8 = rec.nextRow ∧ bits (word 1) 8 8 = rec.lost.length ∧ bits (word 1) 16 8 = rec.voids.length ∧
         bits (word 1) 24 8 = rec.attention.toNat + 2 * locked.toNat + 4 * frozen.toNat ∧
         (∀ i, i < 2 → bits (word 2) (16 * i) 8 = (rec.lost[i]?).elim 0 (fun e => e.lane.number) ∧
           bits (word 2) (16 * i + 8) 8 = (rec.lost[i]?).elim 0 (·.fromRow)) ∧
         (∀ i, i < 4 → bits (word 3) (8 * i) 8 = (rec.voids[i]?).getD 0)) ∧
     (∀ (r : ReadAsm) n data o, r.slots.get (laneAt (n / 512)) = .held data o → data.length = 2048 →
       wordBytes (r.wordAt n) = (data.drop (4 * (n % 512))).take 4) ∧
     (∀ r v, s.services.phase ≠ .records → s.coder.read = some r → r.purpose = .deliver → s.coder.verdict = some v →
       ∃ u : State, exec .wordHanded s = .next u.settle ∧ u.mover.fifo = s.mover.fifo ++ [r.wordAt r.handed] ∧
         u.mover.handed = s.mover.handed + 1 ∧
         (r.handed + 1 < dataPages r.level * 512 →
           u.coder.read = some { r with handed := r.handed + 1 } ∧ u.signals = s.signals) ∧
         (dataPages r.level * 512 ≤ r.handed + 1 →
           u.coder.read = none ∧ u.signals = s.signals ++ [.rowDelivered])))

/-- The coder's judgement of a read row. It is judged once no lane is awaited, at once, also a copy's row
whose patch bytes are still being read (R53). A page is missing ABSENT when its lane is not expected,
and else by its class, ERASED, UNCORRECTABLE or TAG; GOOD and WEAK are present (R52). The row report gives the verdict,
the missing pages in lane order, the data pages rebuilt, the weak pages and every outcome held (R54). More pages missing
than the level: UNRECOVERABLE, the row released. Else a DELIVER row is rebuilt and stands ready; a COPY row is
RECOVERABLE when the coder holds every page its method needs, and otherwise NEED_PAGES names the needed ones held by
outcome alone, which are awaited again (R54 to R59). A CHECK row is released with its result (R61), its parity compared
as the table of R60 says. -/
def Obligations.CoderJudgesRows : Prop :=
  (∀ (s : State) (r : ReadAsm), s.coder.read = some r → s.coder.verdict = none → r.toHand = [] → r.handing = none →
     ((∃ l, r.slots.get l = .awaited) → s.coderJudges = none) ∧
     ((∀ l, r.slots.get l ≠ .awaited) → s.coderJudges = some s.judge)) ∧
  (∀ (r : ReadAsm),
     let known (l : Lane) (o : PageOutcome) := r.slots.get l = .outcomeOnly o ∨ ∃ d, r.slots.get l = .held d o
     (∀ l, r.isMissing l = true ↔ r.slots.get l = .notExpected ∨
       ∃ o, known l o ∧ o.cls ∈ [PageClass.erased, .uncorrectable, .tagMismatch]) ∧
     r.missing.map (·.lane) = Lane.all.filter r.isMissing ∧
     (∀ m ∈ r.missing, m.role = roleOf r.level m.lane ∧ (m.cause = .absent ↔ r.slots.get m.lane = .notExpected) ∧
       ∀ o, known m.lane o → (m.cause = .erased ↔ o.cls = .erased) ∧
         (m.cause = .uncorrectable ↔ o.cls = .uncorrectable) ∧ (m.cause = .tag ↔ o.cls = .tagMismatch)) ∧
     (∀ v, let p := r.report v
       p.verdict = v ∧ p.missing = r.missing ∧ List.Sublist (p.outcomes.map (·.1)) Lane.all ∧
         (∀ l o, (l, o) ∈ p.outcomes ↔ known l o) ∧
         p.weak = (p.outcomes.filter (fun x => decide (x.2.cls = .weak))).length ∧
         (v ≠ .recoverable → p.rebuilt = 0) ∧
         (v = .recoverable → r.purpose ≠ .check → p.rebuilt =
           (Lane.all.filter (fun l => decide (l.number < 6 - r.level.val) && r.isMissing l)).length) ∧
         (v = .recoverable → r.purpose = .check →
           (∀ l, r.level.val = 2 → r.missing.map (·.lane) = [l] → r.slots.get l = .notExpected →
             p.rebuilt = if l.number < 4 then 1 else 0) ∧
           (r.level.val ≠ 2 ∨ r.missing.length ≠ 1 ∨ (∃ m ∈ r.missing, m.cause ≠ .absent) → p.rebuilt = 0)))) ∧
  (∀ (s : State) (r : ReadAsm), s.coder.read = some r →
     let t := s.judge
     let beyond := r.level.val < r.missing.length
     let released := { s.coder with read := none, workspace := none, patch := none, verdict := none }
     let lacking := r.lacking s.coder.patch
     (r.purpose = .check → t.coder = released ∧ t.signals = s.signals ++
       [.checked (r.report (if r.level.val < r.missing.length then .unrecoverable else .recoverable)) r.compared]) ∧
     (r.purpose ≠ .check → beyond →
       t.coder = released ∧ t.signals = s.signals ++ [.judged (r.report .unrecoverable)]) ∧
     (r.purpose = .deliver → ¬beyond → t.signals = s.signals ++ [.judged (r.report .recoverable)] ∧
       ∃ q : ReadAsm, t.coder = { s.coder with
           read := some q, workspace := r.workspace, verdict := some (r.report .recoverable) } ∧
         (∀ x ∈ r.rebuilt, q.bytes x.1 = x.2) ∧
         (∀ l, (∀ x ∈ r.rebuilt, x.1 ≠ l) → q.slots.get l = r.slots.get l) ∧ q = { r with slots := q.slots }) ∧
     (r.purpose = .copy → ¬beyond →
       (lacking = [] → t.coder = { s.coder with verdict := some (r.report .recoverable) } ∧
         t.signals = s.signals ++ [.judged (r.report .recoverable)]) ∧
       (lacking ≠ [] → t.signals = s.signals ++ [.needPages lacking] ∧
         ∃ q : ReadAsm, t.coder = { s.coder with read := some q } ∧ q = { r with slots := q.slots } ∧
           ∀ l, q.slots.get l = if l ∈ lacking then .awaited else r.slots.get l)) ∧
     t.lanes = s.lanes ∧ t.mover = s.mover ∧ t.mem = s.mem) ∧
  (∀ (r : ReadAsm) (patch : Option PatchBytes), (∀ l, r.slots.get l ≠ .awaited) →
     let data (l : Lane) := l.number < 6 - r.level.val
     let gone (l : Lane) := data l ∧ r.isMissing l = true
     let isP (l : Lane) := pLane r.level = some l
     let isQ (l : Lane) := qLane r.level = some l
     List.Sublist (r.lacking patch) Lane.all ∧
     ∀ l, l ∈ r.lacking patch ↔ (∃ o, r.slots.get l = .outcomeOnly o) ∧ r.isMissing l = false ∧
       (((∃ x, gone x) ∧ (data l ∨ isP l ∨
           (isQ l ∧ ((∃ k, isP k ∧ r.isMissing k = true) ∨ ∃ x y, x ≠ y ∧ gone x ∧ gone y)))) ∨
         ((∃ k, (isP k ∨ isQ k) ∧ r.isMissing k = true) ∧ data l) ∨
         ∃ p, patch = some p ∧ (l = laneAt p.index ∨ isP l ∨ isQ l))) ∧
  (∀ (r : ReadAsm),
     let data (page : Lane → List Byte) := (Lane.all.filter (fun l => decide (l.number < 6 - r.level.val))).map page
     let p (l : Lane) (page : Lane → List Byte) : ParityCompared :=
       { lane := l, role := .p, matched := decide (parityP (data page) = r.bytes l) }
     let q (page : Lane → List Byte) : ParityCompared :=
       { lane := .l5, role := .q, matched := decide (parityQ 0 (data page) = r.bytes .l5) }
     (r.level.val = 0 ∨ (∃ m ∈ r.missing, m.cause ≠ .absent) → r.compared = []) ∧
     ((∀ m ∈ r.missing, m.cause = .absent) →
       (r.level.val = 1 → (r.missing = [] → r.compared = [p .l5 r.bytes]) ∧ (r.missing ≠ [] → r.compared = [])) ∧
       (r.level.val = 2 →
         (r.missing = [] → r.compared = [p .l4 r.bytes, q r.bytes]) ∧
         (∀ l, r.missing.map (·.lane) = [l] →
           (l.number < 4 → r.compared = [q (fun k => if k = l then r.pPrime else r.bytes k)]) ∧
           (l = .l4 → r.compared = [q r.bytes]) ∧ (l = .l5 → r.compared = [p .l4 r.bytes])) ∧
         (2 ≤ r.missing.length → r.compared = []))))

/-- The coding field (R46): multiplication by g and by g^-1 as stated; the powers of g run through all 255 non-zero
bytes before g^255 = 1; g^-x is g^(255-x); every non-zero byte times its inverse is 1; for two indexes x and y the sum
of g^x and g^y is one of six bytes; the product is linear and agrees with the powers of g. -/
def Obligations.CodingField : Prop :=
  (∀ b : Byte, gMul b = if b.getLsbD 7 then (b <<< 1) ^^^ 0x1D#8 else b <<< 1) ∧
  (∀ b : Byte, gDiv (gMul b) = b ∧ gMul (gDiv b) = b) ∧
  (∀ i, 0 < i → i < 255 → gPow i 1#8 ≠ 1#8) ∧ gPow 255 1#8 = 1#8 ∧
  (gPow 0 1#8, gPow 1 1#8, gPow 2 1#8, gPow 3 1#8) = (0x01#8, 0x02#8, 0x04#8, 0x08#8) ∧
  (gPowInv 1 1#8, gPowInv 2 1#8, gPowInv 3 1#8) = (0x8E#8, 0x47#8, 0xAD#8) ∧
  (∀ b : Byte, b ≠ 0#8 → ∃ i, i < 255 ∧ gPow i 1#8 = b) ∧
  (∀ x, x < 4 → ∀ b : Byte, gPowInv x b = gPow (255 - x) b) ∧
  (∀ x y, x < y → y < 4 → gPow x 1#8 ^^^ gPow y 1#8 ∈ [0x03#8, 0x05#8, 0x06#8, 0x09#8, 0x0A#8, 0x0C#8]) ∧
  (∀ d : Byte, d ≠ 0#8 → fieldMul d (fieldInv d) = 1#8) ∧
  (∀ a b c : Byte, fieldMul a (b ^^^ c) = fieldMul a b ^^^ fieldMul a c) ∧
  (∀ i b, i < 8 → fieldMul (gPow i 1#8) b = gPow i b)

/-- One missing data page is rebuilt from P: P plus the present data pages is the missing page, byte by byte; from Q it
is Q' times g^-x (R55). `others` are the present data pages with their indexes. Two missing data pages are rebuilt from
P and Q: with P' the sum of the two pages and Q' the sum of g^x and g^y times them, the rebuild gives the two pages,
byte by byte (R56). So the coder rebuilds the pages written: where the pages it holds of a row with data pages `D` are
those pages and their parity, what it rebuilds for one missing data page with P or Q present, and for two with both, are
the missing ones. -/
def Obligations.MissingPagesRebuilt : Prop :=
  (∀ (n x : Nat) (page : List Byte) (others : List (Nat × List Byte)), x < 4 → page.length = n →
     (∀ o ∈ others, o.2.length = n) →
     let zero := List.replicate n 0#8
     let p := addPage (sumPages zero (others.map (·.2))) page
     let q := addPage (sumPages zero (others.map (fun o => timesG o.1 o.2))) (timesG x page)
     sumPages p (others.map (·.2)) = page ∧
       (sumPages q (others.map (fun o => timesG o.1 o.2))).map (gPowInv x) = page) ∧
  (∀ (x y : Nat) (px py : List Byte), x < y → y < 4 → px.length = py.length →
     rebuildTwo x y (addPage px py) (addPage (timesG x px) (timesG y py)) = (px, py)) ∧
  (∀ (r : ReadAsm) (D : Nat → List Byte), (∀ i, (D i).length = 2048) →
     let pages := (List.range (dataPages r.level)).map D
     (∀ l, l.number < dataPages r.level → r.isMissing l = false → r.bytes l = D l.number) →
     (∀ l, pLane r.level = some l → r.isMissing l = false → r.bytes l = parityP pages) →
     (∀ l, qLane r.level = some l → r.isMissing l = false → r.bytes l = parityQ 0 pages) →
     (∀ x, r.missingData = [x] → r.parityPresent (pLane r.level) = true ∨ r.parityPresent (qLane r.level) = true →
       r.rebuilt = [(x, D x.number)]) ∧
     (∀ x y, r.missingData = [x, y] → r.parityPresent (pLane r.level) = true → r.parityPresent (qLane r.level) = true →
       r.pPrime = addPage (D x.number) (D y.number) ∧
         r.qPrime = addPage (timesG x.number (D x.number)) (timesG y.number (D y.number)) ∧
         r.rebuilt = [(x, D x.number), (y, D y.number)]))

/-- A patch's deltas give the parity of a fresh write: adding the delta to P, and g^i times it to Q, gives the P and Q
of the patched data, for pages of one length (R59). So a patched row with data pages `D` holds the patched page, the
other data pages as before, and in each parity page present the parity of the patched data. -/
def Obligations.PatchDeltaKeepsParity : Prop :=
  (∀ (n i offset : Nat) (old new p q : List Byte), old.length = n → p.length = n → q.length = n →
    offset + new.length ≤ n →
    let cut := (old.drop offset).take new.length
    let delta := addPage cut new
    addAt (addPage p old) offset delta = addPage p (putAt old offset new) ∧
      addAt (addPage q (timesG i old)) offset (timesG i delta) = addPage q (timesG i (putAt old offset new))) ∧
  (∀ (r : ReadAsm) (p : PatchBytes) (D : Nat → List Byte) (pHere qHere : Bool), (∀ i, (D i).length = 2048) →
    p.index < dataPages r.level → p.offset + p.bytes.length ≤ 2048 →
    (∀ l, l.number < dataPages r.level → r.bytes l = D l.number) →
    (∀ l, pLane r.level = some l → pHere = true → r.bytes l = parityP ((List.range (dataPages r.level)).map D)) →
    (∀ l, qLane r.level = some l → qHere = true → r.bytes l = parityQ 0 ((List.range (dataPages r.level)).map D)) →
    let D' (i : Nat) := if i = p.index then putAt (D i) p.offset p.bytes else D i
    let t := r.patched p pHere qHere
    (∀ l, l.number < dataPages r.level → t.bytes l = D' l.number) ∧
      (∀ l, pLane r.level = some l → pHere = true → t.bytes l = parityP ((List.range (dataPages r.level)).map D')) ∧
      (∀ l, qLane r.level = some l → qHere = true → t.bytes l = parityQ 0 ((List.range (dataPages r.level)).map D')))

/-! ## The band table and its store -/

/-- ERASE START, in any state but ERASING and RETIRED: the state is ERASING, the level the one carried, the rest as it
was. ERASE END, in ERASING: with PASS the band is BLANK and cleared, its level kept, with FAIL it is RETIRED. OPEN takes
BLANK to OPEN, SEAL OPEN to SEALED. Each of the four is requesting, and not applied in another state (R27, R28, R29,
R32). ROW FOUND and ROW TORN, in OPEN with N next_row: next_row is N+1, and the state SEALED at row 64; ROW TORN lists N
while fewer than 4 rows are listed, and otherwise seals the band (R33). The attention updates change the flag alone
(R23). ROW COMPLETE (R30): applied in OPEN and FAILED when N is next_row, and then next_row is N+1; in OPEN at row 64
the state is SEALED; requesting when the state changes or the band is FAILED; otherwise not applied. PROGRAM FAIL (R31):
in OPEN, a lane not yet listed is appended while the failed lanes number no more than the level; beyond it the band is
FAILED, and the lane is listed while the list holds fewer than two entries; a listed lane, and a band not OPEN, leave it
not applied. It is requesting. A band changes state at the updates of R25 and no others: every applied update keeps the
state or makes one of the moves of the table, and none moves a band out of RETIRED (R25). -/
def Obligations.BandUpdatesByRule : Prop :=
  (∀ (r : BandRecord) (b : Nat) (level : Level),
     (r.state ∉ [BandState.erasing, .retired] →
       applyUpdate r (.eraseStart b level) = some { r with state := .erasing, level := level }) ∧
     (r.state ∈ [BandState.erasing, .retired] → applyUpdate r (.eraseStart b level) = none) ∧
     (r.state = .erasing →
       applyUpdate r (.eraseEnd b true) =
         some { state := .blank, level := r.level, nextRow := 0, lost := [], voids := [], attention := false } ∧
       applyUpdate r (.eraseEnd b false) = some { r with state := .retired }) ∧
     (r.state ≠ .erasing → ∀ pass, applyUpdate r (.eraseEnd b pass) = none) ∧
     applyUpdate r (.openBand b) = (if r.state = .blank then some { r with state := .opened } else none) ∧
     applyUpdate r (.sealBand b) = (if r.state = .opened then some { r with state := .sealed } else none) ∧
     (∀ r' pass, Update.requesting r r' (.eraseStart b level) = true ∧ Update.requesting r r' (.eraseEnd b pass) = true ∧
       Update.requesting r r' (.openBand b) = true ∧ Update.requesting r r' (.sealBand b) = true)) ∧
  (∀ (r : BandRecord) (b n : Nat),
     let state := if n = 63 then BandState.sealed else .opened
     (r.state = .opened → n = r.nextRow → n < 64 →
       applyUpdate r (.rowFound b n) = some { r with nextRow := n + 1, state := state } ∧
       (r.voids.length < 4 →
         applyUpdate r (.rowTorn b n) = some { r with nextRow := n + 1, state := state, voids := r.voids ++ [n] }) ∧
       (4 ≤ r.voids.length → applyUpdate r (.rowTorn b n) = some { r with nextRow := n + 1, state := .sealed })) ∧
     (r.state ≠ .opened ∨ n ≠ r.nextRow → applyUpdate r (.rowFound b n) = none ∧ applyUpdate r (.rowTorn b n) = none) ∧
     applyUpdate r (.setAttention b) = some { r with attention := true } ∧
     applyUpdate r (.clearAttention b) = some { r with attention := false } ∧
     (∀ r', Update.requesting r r' (.rowFound b n) = false ∧ Update.requesting r r' (.rowTorn b n) = false ∧
       Update.requesting r r' (.setAttention b) = false ∧ Update.requesting r r' (.clearAttention b) = false)) ∧
  (∀ (r : BandRecord) (b n : Nat),
     (r.state = .opened → n = r.nextRow → n + 1 < 64 →
       applyUpdate r (.rowComplete b n) = some { r with nextRow := n + 1 } ∧
         Update.requesting r { r with nextRow := n + 1 } (.rowComplete b n) = false) ∧
     (r.state = .opened → n = r.nextRow → n + 1 = 64 →
       applyUpdate r (.rowComplete b n) = some { r with nextRow := 64, state := .sealed } ∧
         Update.requesting r { r with nextRow := 64, state := .sealed } (.rowComplete b n) = true) ∧
     (r.state = .failed → n = r.nextRow → n < 64 →
       applyUpdate r (.rowComplete b n) = some { r with nextRow := n + 1 } ∧
         Update.requesting r { r with nextRow := n + 1 } (.rowComplete b n) = true) ∧
     (n ≠ r.nextRow ∨ (r.state ≠ .opened ∧ r.state ≠ .failed) → applyUpdate r (.rowComplete b n) = none)) ∧
  (∀ (r : BandRecord) (b n : Nat) (l : Lane), r.lost.length ≤ 2 →
     let listed := ∃ e ∈ r.lost, e.lane = l
     (r.state = .opened → ¬listed → r.lost.length + 1 ≤ r.level.val →
       applyUpdate r (.programFail b l n) = some { r with lost := r.lost ++ [{ lane := l, fromRow := n }] }) ∧
     (r.state = .opened → ¬listed → r.level.val < r.lost.length + 1 → r.lost.length < 2 →
       applyUpdate r (.programFail b l n) =
         some { r with state := .failed, lost := r.lost ++ [{ lane := l, fromRow := n }] }) ∧
     (r.state = .opened → ¬listed → r.level.val < r.lost.length + 1 → r.lost.length = 2 →
       applyUpdate r (.programFail b l n) = some { r with state := .failed }) ∧
     (r.state ≠ .opened ∨ listed → applyUpdate r (.programFail b l n) = none) ∧
     (∀ r', Update.requesting r r' (.programFail b l n) = true)) ∧
  (∀ (r r' : BandRecord) (u : Update), applyUpdate r u = some r' →
     (r'.state = r.state ∨ r'.state ∈ stateMoves r.state) ∧ (r.state = .retired → r'.state = .retired))

/-- COMMIT START, with no commit in flight, STORE_FAULT 0 and a request pending: a clean one when the clean request is
pending, with every record, else a plain one with the dirty records; the dirty set and both requests are cleared (R35).
With a commit in flight, under STORE_FAULT, or with no request pending, none starts, and requests stay pending (R35,
R40). COMMIT END with PASS: the store holds every record the commit carried, each other record as before, and its
marker; with FAIL the store is as before, STORE_FAULT and its event are set, and the bands are dirty again (R34, R36,
R40). Each wait for notice that stood when the commit started is told STORED at its PASS, in order, and a later one goes
on waiting; at a FAIL every wait is told FAULT (R36; that this ends the mode controller's wait for a commit not yet
started is the model's choice, log 42). -/
def Obligations.CommitsChangeStoreWhole : Prop :=
  (∀ (s : State), s.live = true → s.table.commit = none → s.table.storeFault = false →
     s.table.plainReq = true ∨ s.table.cleanReq = true →
     ∃ (u : State) (run : CommitRun), exec .commitStart s = .next u.settle ∧ u.table.commit = some run ∧ run.clean = s.table.cleanReq ∧
       (s.table.cleanReq = true → run.records = s.table.working) ∧
       (s.table.cleanReq = false → run.records = s.table.dirty.map (fun b => (b, s.table.record b))) ∧
       u.table.dirty = [] ∧ u.table.plainReq = false ∧ u.table.cleanReq = false ∧ u.table.working = s.table.working ∧
       u.table.stored = s.table.stored ∧ u.table.marker = s.table.marker ∧ u.lanes = s.lanes) ∧
  (∀ (s : State) (run : CommitRun), s.live = true → s.table.commit = some run →
     Sparse.wf .factory s.table.stored = true →
     (∃ t : State, exec (.commitEnd true) s = .next t ∧ t.table.commit = none ∧ t.table.marker = run.clean ∧
       t.table.checkDelta = 0 ∧
       (run.clean = true → ∀ b, t.table.storedRecord b = Sparse.read .factory run.records b) ∧
       (run.clean = false → (run.records.map (·.1)).Nodup → ∀ b r, (b, r) ∈ run.records → t.table.storedRecord b = r) ∧
       (run.clean = false → ∀ b, b ∉ run.records.map (·.1) → t.table.storedRecord b = s.table.storedRecord b)) ∧
     (∃ u : State, exec (.commitEnd false) s = .next u.settle ∧ u.table.commit = none ∧ u.table.storeFault = true ∧
       u.window.flag .storeFault = true ∧ u.table.stored = s.table.stored ∧ u.table.marker = s.table.marker ∧
       (run.clean = false → ∀ b, b ∈ run.records.map (·.1) → b ∈ u.table.dirty) ∧
       (run.clean = true → ∀ b, b < 1024 → b ∈ u.table.dirty))) ∧
  (∀ (s : State) (run : CommitRun) (pass : Bool), s.live = true → s.table.commit = some run →
     let told := if pass then s.table.waiters.filter (·.covered) else s.table.waiters
     ∃ u : State, exec (.commitEnd pass) s = .next u.settle ∧
       u.signals = s.signals ++ told.map (fun w => .notice w.client w.what pass) ∧
       u.table.waiters = (if pass then s.table.waiters.filter (fun w => !w.covered) else []) ∧
       u.table.working = s.table.working ∧ State.lanesKept s u ∧ State.memoryKept s u ∧ State.arrayKept s u) ∧
  (∀ (s : State), s.live = true → s.table.commit = none → s.table.storeFault = false →
     s.table.plainReq = true ∨ s.table.cleanReq = true →
     ∃ u : State, exec .commitStart s = .next u.settle ∧ u.signals = s.signals ∧
       u.table.waiters = s.table.waiters.map (fun w => { w with covered := true })) ∧
  (∀ (s : State), s.live = true →
     s.table.commit ≠ none ∨ s.table.storeFault = true ∨ (s.table.plainReq = false ∧ s.table.cleanReq = false) →
     exec .commitStart s = .next s.settle)

/-- The clean-marker gate (R39, R40): it is closed while the stored marker is 1, while a clean commit is in flight, and
while a clean request is pending (the model's reading, log 43), and an update or a permit that meets it closed is held;
with marker 1 and no clean commit in flight, the unclean write is requested. An update that meets the open gate, or
STORE_FAULT with marker 0, is applied to its record alone, and the wait for its notice is noted, or told FAULT under
STORE_FAULT (R26, R37). One that changes the record adds the band to the dirty set, which holds it once, and raises the
plain commit request if it is requesting, none if it is riding; one that changes nothing leaves both as they were (R26,
R35); one that meets STORE_FAULT with marker 1 is answered NOT_APPLIED with the working table
unchanged. A permit is granted at an open gate and refused under STORE_FAULT. Work held when a clean commit ends with
PASS asks for the unclean write. Once the gate is open, or under STORE_FAULT, what is held is taken: the updates one by
one in their order of arrival, each as one that meets the gate so, and then the permits are answered in order (R39,
R40). -/
def Obligations.GateHoldsUpdates : Prop :=
  (∀ (s : State) (c : Client) (u : Update) (n : Bool),
    let flying := ∃ run, s.table.commit = some run ∧ run.clean = true
    let shut := flying ∨ s.table.cleanReq = true
    (s.table.storeFault = false → s.table.marker = true ∨ shut →
      ∃ request, (request = true ↔ s.table.plainReq = true ∨ (s.table.marker = true ∧ ¬flying)) ∧
        (s.giveUpdate c u n).table = { s.table with
          heldUpdates := s.table.heldUpdates ++ [{ client := c, update := u, notice := n }], plainReq := request } ∧
        (s.askPermit c).table = { s.table with heldPermits := s.table.heldPermits ++ [c], plainReq := request } ∧
        (s.giveUpdate c u n).signals = s.signals ∧ (s.askPermit c).signals = s.signals) ∧
    (s.table.storeFault = true → s.table.marker = true → s.table.heldUpdates = [] →
      (s.giveUpdate c u n).table = s.table ∧ .answer c u false false ∈ (s.giveUpdate c u n).signals) ∧
    (s.table.marker = false → s.table.storeFault = true ∨ ¬shut → s.table.heldUpdates = [] →
      Sparse.wf .factory s.table.working = true →
      (∀ new, applyUpdate (s.band u.band) u = some new →
        (s.giveUpdate c u n).band u.band = new ∧ (∀ b, b ≠ u.band → (s.giveUpdate c u n).band b = s.band b) ∧
          .answer c u true (decide (new ≠ s.band u.band)) ∈ (s.giveUpdate c u n).signals ∧
          (new ≠ s.band u.band →
            (s.giveUpdate c u n).table.plainReq = (s.table.plainReq || Update.requesting (s.band u.band) new u) ∧
            (∀ b, b ∈ (s.giveUpdate c u n).table.dirty ↔ b ∈ s.table.dirty ∨ b = u.band) ∧
            (s.table.dirty.Nodup → (s.giveUpdate c u n).table.dirty.Nodup)) ∧
          (new = s.band u.band → (s.giveUpdate c u n).table.plainReq = s.table.plainReq ∧
            (s.giveUpdate c u n).table.dirty = s.table.dirty) ∧
          (n = true → s.table.storeFault = false → (s.giveUpdate c u n).table.waiters =
            s.table.waiters ++ [{ client := c, what := u.noticeFor, covered := false }]) ∧
          (n = true → s.table.storeFault = true → .notice c u.noticeFor false ∈ (s.giveUpdate c u n).signals)) ∧
      (applyUpdate (s.band u.band) u = none → (s.giveUpdate c u n).table = s.table ∧
        .answer c u false false ∈ (s.giveUpdate c u n).signals)) ∧
    (s.table.storeFault = true → s.askPermit c = s.emit (.permit c false)) ∧
    (s.table.storeFault = false → s.table.marker = false → ¬shut → s.askPermit c = s.emit (.permit c true)) ∧
    (∀ run, run.clean = true → s.table.storeFault = false → s.table.heldUpdates ≠ [] ∨ s.table.heldPermits ≠ [] →
      (s.endCommit run true).table.plainReq = true)) ∧
  (∀ (s : State),
    let held := s.table.heldUpdates ≠ [] ∨ s.table.heldPermits ≠ []
    let free := s.table.storeFault = true ∨ (s.table.marker = false ∧ s.table.cleanReq = false ∧
      ∀ run, s.table.commit = some run → run.clean = false)
    let left : State := { s with table := { s.table with heldUpdates := [], heldPermits := [] } }
    let answered (t : State) : State :=
      { t with signals := t.signals ++ s.table.heldPermits.map (fun c => .permit c (!s.table.storeFault)) }
    (held → free → s.gateReleases = some (answered (left.takeAll s.table.heldUpdates))) ∧
    (¬held ∨ ¬free → s.gateReleases = none) ∧ s.takeAll [] = s ∧
    (free → s.table.heldUpdates = [] → ∀ c u n rest,
      s.takeAll ({ client := c, update := u, notice := n } :: rest) = (s.giveUpdate c u n).takeAll rest))

/-! ## Sheets and orders -/

/-- The words the part reads (11.4, R64, R194): the fields of an entry's order words, by bit; a kind code of 0 or above
10 is no kind. The fields of a patch descriptor, and the codes of burst length and threshold of a configuration block.
The words the part writes (11.4 to 11.6, R194): the two result words, the completion word, a finding and the report
header, field by field, every bit not named 0, with the codes of statuses, completion states and kinds of finding. -/
def Obligations.WordLayouts : Prop :=
  (let part (w : Word) (lo len : Nat) := w.toNat / 2 ^ lo % 2 ^ len
   (∀ (w0 w1 w2 w3 w4 : Word),
      let kinds := [OrderKind.writeRows, .readRows, .copyRows, .eraseBand, .sealBand, .queryBands, .setUnlockRange, .lockAll,
        .lockTight, .freezeGroup]
      let code := part w0 0 8
      (orderOf w0 w1 w2 w3 w4 = none ↔ code = 0 ∨ 10 < code) ∧
      (∀ o, orderOf w0 w1 w2 w3 w4 = some o →
        kinds[code - 1]? = some o.kind ∧ o.atNext = w0.getLsbD 8 ∧ o.fill = w0.getLsbD 9 ∧
        o.clearAttention = w0.getLsbD 10 ∧ o.band = part w0 16 16 ∧ o.startRow = part w1 0 16 ∧ o.count = part w1 16 16 ∧
        o.chain = w2 ∧ o.aux2 = w4 ∧ o.fillByte.toNat = part w3 0 8 ∧
        (∀ level : Level, o.eraseLevel = some level ↔ level.val = part w3 0 8) ∧ o.targetBand = part w3 0 16 ∧
        o.unlockRange = { low := part w0 16 16, high := part w3 0 16, invert := w3.getLsbD 16 } ∧
        o.group = part w3 0 16)) ∧
   (∀ (w0 w1 w2 w3 : Word),
      patchOf [w0, w1, w2, w3] = { rowOffset := part w0 0 8, index := part w0 8 8, offset := part w0 16 16,
                                   length := part w1 0 16, source := w2 }) ∧
   (∀ code, burstOfCode code = [1, 4, 8, 16][code]? ∧ thresholdOfCode code = [4, 8, 12, 16][code]?) ∧
   (∀ k : OrderKind, k.isRow = true ↔ k ∈ [OrderKind.writeRows, .readRows, .copyRows])) ∧
  (let part (w : Word) (lo len : Nat) := w.toNat / 2 ^ lo % 2 ^ len
   (∀ r : OrderResult, r.rowsDone < 65536 → r.pagesRebuilt < 65536 → r.weakSeen < 256 →
      (∀ p ∈ [(OrderStatus.ok, 0), (.okRebuilt, 1), (.aborted, 2), (.interrupted, 3), (.skipped, 4), (.badKind, 16),
          (.badBand, 17), (.badRow, 18), (.badCount, 19), (.badRange, 20), (.bandState, 21), (.levelMismatch, 22),
          (.protected_, 23), (.frozen, 24), (.lockDisabled, 25), (.lockTight, 26), (.storeFault, 27), (.fragment, 32),
          (.shortChain, 33), (.busError, 34), (.programFail, 48), (.eraseFail, 49), (.dataLoss, 50), (.voidRow, 51)],
        r.status = p.1 → part r.word1 0 8 = p.2) ∧
      part r.word1 8 8 = 0 ∧ part r.word1 16 16 = r.rowsDone ∧ part r.word2 0 16 = r.pagesRebuilt ∧
      part r.word2 16 8 = r.weakSeen ∧ part r.word2 24 8 = 0) ∧
   (∀ (st : CompletionState) (ok failed skipped : Nat), ok < 256 → failed < 256 → skipped < 256 →
      let w := completionWord st ok failed skipped
      (∀ p ∈ [(CompletionState.doneOk, 1), (.doneErrors, 2), (.doneAborted, 3), (.doneInterrupted, 4), (.doneRefused, 5)],
        st = p.1 → part w 0 8 = p.2) ∧
      part w 8 8 = ok ∧ part w 16 8 = failed ∧ part w 24 8 = skipped ∧ w ≠ 0#32) ∧
   (∀ f : Finding, f.band < 1024 → f.row < 64 → f.highest ≤ 8 →
      ∃ w0 w1 : Word, f.words = [w0, w1, 0#32, 0#32] ∧ part w0 0 16 = f.band ∧ part w0 16 8 = f.row ∧
        part w0 24 8 = f.lane.number ∧ part w1 8 8 = f.highest ∧ part w1 16 16 = 0 ∧
        (∀ p ∈ [(FindingKind.weak, 1), (.uncorrectable, 2), (.tag, 3), (.parity, 4)], f.kind = p.1 → part w1 0 8 = p.2)) ∧
   (∀ fill dropped, fill < 4294967296 → dropped < 4294967296 →
      (reportHeader fill dropped).map BitVec.toNat = [fill, dropped]))

/-- Activation: the oldest address becomes the active sheet, its header read raised, with counts and index 0 and ending
NORMAL (R70). The two header reads, of the active sheet or of the sheet of the closing list in hand (R82), one single
beat each, their addresses wrapping at 2^32 (the model's choice, log 13): after the first, header word 0 is held; with
the second the order count and flags are taken from word 0, and the header is accepted exactly when the count is 1 to 32
and the completion word is zero; a bus error in either drops the sheet, active or off the closing list, with
SHEET_FAULT, and ERROR_ADDRESS names the word that failed, if BUS_ERROR was clear (R71, R85, R160, R161). An order
starts: with an accepted header, an entry left, no order and no access in progress, halted 0, stop state NONE and mode
RUN, the entry read is raised; in another mode or stop state none starts (R72). The six reads of an entry, one single
beat each, order words 0 to 5: the words are held until the last; that they are read in ascending address order, and
that their addresses wrap at 2^32, are the model's choices (logs 45 and 13). With the last, in RUN with stop state NONE,
an order of a valid kind is in progress and handed to its path, and one of no valid kind ends BAD_KIND; else the words
are set aside. A bus error in any drops the sheet, and ERROR_ADDRESS names the word that failed, if BUS_ERROR was clear
(R64, R72, R85, R160, R161). -/
def Obligations.SheetsActivateAndReadEntries : Prop :=
  (∀ (s : State) (a : Word) (rest : List Word), s.live = true → s.sheets.queue = a :: rest → s.modes.mode = .run →
     s.sheets.active = none → s.sheets.stop = .none → s.sheets.closing = [] →
     ∃ (u : State) (r : SheetRun), exec .sheetActivation s = .next u.settle ∧ u.sheets.active = some r ∧ u.sheets.queue = rest ∧
       u.sheets.access = some (.header []) ∧ r.address = a ∧ r.index = 0 ∧ r.ok = 0 ∧ r.failed = 0 ∧ r.skipped = 0 ∧
       r.halted = false ∧ r.ending = .normal ∧ u.modes = s.modes ∧ u.lanes = s.lanes ∧ u.mem = s.mem) ∧
  (∀ (s : State) (r : SheetRun) (got : List Word) (reply : BusReply), s.live = true → s.port = some .sheet →
     s.sheetLine.head? = some .sheets → s.sheets.access = some (.header got) →
     s.sheets.active = some r ∨ (s.sheets.active = none ∧ s.sheets.closer = some r) → reply.stores = [] →
     let put (q : SheetRun) : Sheets :=
       if s.sheets.active = none then { s.sheets with closer := some q, access := none }
       else { s.sheets with active := some q, access := none }
     let dropped : Sheets :=
       if s.sheets.active = none then
         { s.sheets with closer := none, closing := s.sheets.closing.drop 1, access := none }
       else { s.sheets with active := none, access := none }
     let at_ := (r.address + BitVec.ofNat 32 (4 * got.length)).toNat
     let w := Memory.readWord s.mem at_
     (reply.error = none → got = [] →
       exec (.headerReadEnd reply) s = .next (State.settle { s with
         port := none, sheetLine := s.sheetLine.drop 1, sheets := { s.sheets with access := some (.header [w]) } })) ∧
     (reply.error = none → ∀ w0, got = [w0] →
       ∃ u : State, exec (.headerReadEnd reply) s = .next u.settle ∧ u.mem = s.mem ∧ u.port = none ∧
         u.sheets = put { r with
           count := bits w0 0 8, notify := w0.getLsbD 8, haltOnError := w0.getLsbD 9,
           header := if 1 ≤ bits w0 0 8 ∧ bits w0 0 8 ≤ 32 ∧ w = 0#32 then .accepted else .refused }) ∧
     (reply.error = some 0 →
       ∃ u : State, exec (.headerReadEnd reply) s = .next u.settle ∧ u.sheets = dropped ∧
         u.window.flag .sheetFault = true ∧ u.window.flag .busError = true ∧
         u.window.errorAddress = (if s.window.flag .busError then s.window.errorAddress else errorWord at_ false) ∧
         u.mem = s.mem)) ∧
  (∀ (s : State) (r : SheetRun), s.live = true → s.sheets.active = some r →
     (r.header = .accepted → r.index < r.count → r.halted = false → s.sheets.order = none → s.sheets.access = none →
       s.sheets.stop = .none → s.modes.mode = .run →
       exec .orderStart s = .next (State.settle { s with sheets := { s.sheets with access := some (.entry []) } })) ∧
     (s.modes.mode ≠ .run ∨ s.sheets.stop ≠ .none → exec .orderStart s = .next s.settle)) ∧
  (∀ (s : State) (r : SheetRun) (got : List Word) (reply : BusReply), s.live = true → s.port = some .sheet →
     s.sheetLine.head? = some .sheets → s.sheets.access = some (.entry got) → s.sheets.active = some r →
     reply.stores = [] →
     let at_ := (r.address + BitVec.ofNat 32 (32 + 32 * r.index + 4 * got.length)).toNat
     let ws := got ++ [Memory.readWord s.mem at_]
     let word (i : Nat) := ws.getD i 0#32
     let o := orderOf (word 0) (word 1) (word 2) (word 3) (word 4)
     let free : State := { s with
       port := none, sheetLine := s.sheetLine.drop 1, sheets := { s.sheets with access := none } }
     (reply.error = none → got.length < 5 →
       exec (.entryReadEnd reply) s = .next (State.settle { free with
         sheets := { s.sheets with access := some (.entry ws) } })) ∧
     (reply.error = none → got.length = 5 →
       (s.modes.mode = .run → s.sheets.stop = .none → ∀ order, o = some order →
         exec (.entryReadEnd reply) s = .next (State.settle (State.handOrder { free with
           sheets := { s.sheets with access := none, order := some { kind := order.kind, index := r.index } } } order))) ∧
       (s.modes.mode = .run → s.sheets.stop = .none → o = none →
         exec (.entryReadEnd reply) s = .next (State.settle { free with
           sheets := { s.sheets with access := some (.result
             { status := .badKind, rowsDone := 0, pagesRebuilt := 0, weakSeen := 0 } 0) } })) ∧
       (s.modes.mode ≠ .run ∨ s.sheets.stop ≠ .none →
         exec (.entryReadEnd reply) s = .next (State.settle free))) ∧
     (reply.error = some 0 →
       ∃ u : State, exec (.entryReadEnd reply) s = .next u.settle ∧ u.sheets.active = none ∧ u.sheets.access = none ∧
         u.sheets.order = s.sheets.order ∧ u.window.flag .sheetFault = true ∧ u.window.flag .busError = true ∧
         u.window.errorAddress = (if s.window.flag .busError then s.window.errorAddress else errorWord at_ false) ∧
         u.mem = s.mem))

/-- The checks at the start of each order, in the order of its table: the first that fails gives the status (R43, R90,
R107, R111, R120 steps 2 to 11, R132, R146; the kind is the sheet processor's check). FREEZE GROUP of a frozen group
ends OK. The patch of a COPY ROWS is well formed within the ranges of R120. -/
def Obligations.OrderChecksByTable : Prop :=
  (∀ (s : State) (o : Order),
     let first (checks : List (Bool × OrderStatus)) := (checks.find? (·.1)).map (·.2)
     let r := s.band o.band
     let t := s.band o.targetBand
     let readable := r.state = .opened ∨ r.state = .sealed ∨ r.state = .failed
     let last := o.startRow + o.count
     s.checkWrite o = first
       [(decide (1024 ≤ o.band), .badBand), (s.table.storeFault, .storeFault), (s.protect.frozen o.band, .frozen),
        (s.protect.locked o.band, .protected_), (decide (r.state ≠ .blank ∧ r.state ≠ .opened), .bandState),
        (!o.atNext && decide (o.startRow ≠ r.nextRow), .badRow),
        (decide (o.count = 0 ∨ 64 < o.count ∨ 64 < r.nextRow + o.count), .badCount)] ∧
     s.checkRead o = first
       [(decide (1024 ≤ o.band), .badBand), (decide (¬readable), .bandState),
        (decide (o.count = 0 ∨ 64 < o.count), .badCount), (decide (r.nextRow ≤ o.startRow), .badRow),
        (decide (r.nextRow < last), .badCount)] ∧
     s.checkCopy o = first
       [(decide (1024 ≤ o.band ∨ 1024 ≤ o.targetBand), .badBand), (s.table.storeFault, .storeFault),
        (s.protect.frozen o.targetBand, .frozen), (s.protect.locked o.targetBand, .protected_),
        (decide (¬readable ∨ (t.state ≠ .blank ∧ t.state ≠ .opened)), .bandState),
        (decide (r.level ≠ t.level), .levelMismatch), (decide (o.count = 0 ∨ 64 < o.count), .badCount),
        (decide (r.nextRow ≤ o.startRow), .badRow),
        (decide (r.nextRow < last ∨ 64 < t.nextRow + o.count), .badCount),
        (decide (∃ v ∈ r.voids, o.startRow ≤ v ∧ v < last), .voidRow)] ∧
     s.checkErase o = first
       [(decide (1024 ≤ o.band), .badBand), (decide (o.eraseLevel = none), .badRange),
        (s.table.storeFault, .storeFault), (s.protect.frozen o.band, .frozen), (s.protect.locked o.band, .protected_),
        (decide (r.state = .erasing ∨ r.state = .retired), .bandState)] ∧
     s.checkSeal o = first
       [(decide (1024 ≤ o.band), .badBand), (s.table.storeFault, .storeFault), (s.protect.frozen o.band, .frozen),
        (s.protect.locked o.band, .protected_), (decide (r.state ≠ .opened), .bandState)] ∧
     checkQuery o = first
       [(decide (1024 ≤ o.band), .badBand),
        (decide (o.count = 0 ∨ 1024 < o.count ∨ 1024 < o.band + o.count), .badCount)] ∧
     s.checkFreeze o = first
       [(!s.protect.lockEnable, .lockDisabled), (decide (64 ≤ o.group), .badRange),
        (s.protect.working.getLsbD o.group, .ok), (s.table.storeFault, .storeFault),
        (s.groupErasing o.group, .bandState)]) ∧
  (∀ (s : State) (g : Nat), Sparse.wf .factory s.table.working = true →
     (s.groupErasing g = true ↔ ∃ b, b / 16 = g ∧ (s.band b).state = .erasing)) ∧
  (∀ (p : Patch) (count : Nat) (level : Level), p.good count level = true ↔
     p.rowOffset < count ∧ p.index < 6 - level.val ∧ 1 ≤ p.length ∧ p.length ≤ 256 ∧ p.offset + p.length ≤ 2048 ∧
       p.source ≠ 0#32 ∧ p.source.toNat % 4 = 0)

/-- What an order does when its path takes it. One that fails a check ends at once with the check's status and nothing
else. One that passes starts: WRITE ROWS and READ ROWS claim the coder and start a transfer with the chain head, permit,
unit and fill byte of R150; COPY ROWS claims the coder, but with a patch its descriptor is fetched first, and the order
starts or is refused BAD_RANGE by it; ERASE BAND waits for idle lanes and then gives ERASE START; SEAL BAND gives SEAL;
QUERY BANDS starts a transfer; FREEZE GROUP begins the fuse write, with marker 0 after a commit; the lock orders are
taken at once (R44, R89, R91, R107, R110, R112, R120, R121, R133, R141 to R143, R147, R150). -/
def Obligations.OrdersStart : Prop :=
  (∀ (s : State) (o : Order) (st : OrderStatus),
     (o.kind = .writeRows ∧ s.checkWrite o = some st) ∨ (o.kind = .readRows ∧ s.checkRead o = some st) ∨
       (o.kind = .copyRows ∧ s.checkCopy o = some st) ∨ (o.kind = .eraseBand ∧ s.checkErase o = some st) ∨
       (o.kind = .sealBand ∧ s.checkSeal o = some st) ∨ (o.kind = .queryBands ∧ checkQuery o = some st) ∨
       (o.kind = .freezeGroup ∧ s.checkFreeze o = some st) →
     s.handOrder o = s.emit (.orderEnd { status := st, rowsDone := 0, pagesRebuilt := 0, weakSeen := 0 })) ∧
  (∀ (s : State) (o : Order), s.coder.owner = none →
     let r := s.band o.band
     let t := s.handOrder o
     let unit := (6 - r.level.val) * 2048
     let transfer (owner : MoverOwner) (dir : Direction) (permit unit : Nat) (fill : Option Byte) : Mover :=
       { Mover.reset with
         phase := .moving, owner := some owner, direction := some dir, permit := permit, unitSize := unit, fill := fill,
         burstLength := s.modes.config.elim 1 (·.burstLength), threshold := s.modes.config.elim 4 (·.threshold),
         cursor := some { descriptor := 0, fragment := 0, left := 0, next := o.chain.toNat, walked := 0 },
         chain := if o.chain = 0#32 then .atEnd else .notStarted }
     let copy (started : Bool) : Reader := { Reader.reset with
       order := some o, started := started, usesMover := !started, band := o.band, level := r.level,
       targetBand := o.targetBand, firstTarget := (s.band o.targetBand).nextRow, nextRow := o.startRow,
       toBegin := o.count }
     (o.kind = .writeRows → s.checkWrite o = none →
       t.writer = { Writer.reset with
         order := some o, band := o.band, level := r.level, nextRow := r.nextRow, toBegin := o.count,
         bytesNeeded := o.count * unit } ∧ t.coder.owner = some .writer ∧
       t.mover = transfer .writer .inbound (o.count * unit) 0 (if o.fill then some o.fillByte else none)) ∧
     (o.kind = .readRows → s.checkRead o = none →
       t.reader = { Reader.reset with
         order := some o, started := true, usesMover := true, band := o.band, level := r.level, nextRow := o.startRow,
         toBegin := o.count } ∧ t.coder.owner = some .reader ∧
       t.mover = transfer .reader .outbound (o.count * unit) unit none) ∧
     (o.kind = .copyRows → s.checkCopy o = none →
       (o.aux2 = 0#32 → t.reader = copy true ∧ t.coder.owner = some .reader ∧ t.mover = s.mover) ∧
       (o.aux2 ≠ 0#32 → o.aux2.toNat % 16 ≠ 0 → t.reader = { copy false with ending := some .badRange } ∧
         t.mover.fetch = none ∧ t.coder.owner = none) ∧
       (o.aux2 ≠ 0#32 → o.aux2.toNat % 16 = 0 → t.reader = copy false ∧ t.coder.owner = none ∧
         t.mover.direction = some .fetch ∧ t.mover.phase = .moving ∧ t.mover.permit = 16 ∧
         t.mover.fetch = some { address := o.aux2.toNat, forWhom := .descriptor, got := [] } ∧
         ∀ ws, let q := patchOf ws
           (q.good o.count r.level = true →
             (t.patchDescriptor ws).reader = { copy true with usesMover := true, patch := some q } ∧
               (t.patchDescriptor ws).coder.owner = some .reader) ∧
           (q.good o.count r.level = false →
             t.patchDescriptor ws = { t with reader := { copy false with ending := some .badRange } }))) ∧
     (o.kind = .eraseBand → s.checkErase o = none → ∀ level, o.eraseLevel = some level →
       ((∀ l, (s.lane l).state = .idle ∧ (s.lane l).port = none) →
         t.services.phase = .eraseNotice ∧
           t.signals = s.signals ++ [.update .services (.eraseStart o.band level) true]) ∧
       (∀ l, (s.lane l).state ≠ .idle ∨ (s.lane l).port ≠ none →
         t.services.phase = .queryLanes ∧ l ∈ t.services.lanesAwaited ∧ t.signals = s.signals)) ∧
     (o.kind = .sealBand → s.checkSeal o = none →
       t.services.phase = .sealNotice ∧ t.signals = s.signals ++ [.update .services (.sealBand o.band) true]) ∧
     (o.kind = .queryBands → checkQuery o = none →
       t.services = { Services.reset with order := some o, phase := .records, band := o.band, nextRecord := o.band } ∧
         t.mover = transfer .services .outbound (o.count * 16) 16 none) ∧
     (o.kind = .freezeGroup → s.checkFreeze o = none →
       (s.table.marker = true → t.services.phase = .fuseWriting ∧ t.protect.fuseWrite = some o.group ∧
         t.signals = s.signals) ∧
       (s.table.marker = false → t.services.phase = .freezeCommit ∧ t.protect = s.protect ∧
         t.signals = s.signals ++ [.commitRequest .services false true])) ∧
     (∀ taken, (o.kind = .setUnlockRange ∧ taken = s.protect.setRange o.unlockRange) ∨
         (o.kind = .lockAll ∧ taken = s.protect.lockEvery) ∨ (o.kind = .lockTight ∧ taken = s.protect.makeTight) →
       t = { s with protect := taken.1, signals := s.signals ++ [.orderEnd
         { status := taken.2, rowsDone := 0, pagesRebuilt := 0, weakSeen := 0 }] }))

/-- An order ends: the order in progress becomes none, a question held is withdrawn, and the write of the result the path
gave is raised, whatever sheet is active or none; nothing else changes (R73). The two result writes, one single beat
each: result word 2 first, the access going on, then result word 1; each
stands in the entry (that its address wraps at 2^32 is the model's choice, log 13), every other byte of host memory as
it was. With the second the index and the count of the status's class advance, and a failed order halts a HALT_ON_ERROR
sheet (R65, R73). The result SKIPPED of an entry passed over is written and counted in the same way, of the active sheet
and of the sheet of the closing list in hand (R74, R82). A bus error in either write is a sheet fault: the sheet is
dropped, active or off the closing list, ERROR_ADDRESS names the word that failed, if BUS_ERROR was clear, and host
memory is as it was outside that word, and all of it unless the bus partner took the word (R85, R160, R161). The
completion write ends: the completion word stands in header word 1 (its address wrapping at 2^32 by the model's choice,
log 13) and no other byte changes, the sheet is no longer active, and SHEET_DONE is set when NOTIFY was 1; a bus error
is a sheet fault, SHEET_DONE not set, ERROR_ADDRESS names that word, if BUS_ERROR was clear, and host memory is as it
was in the same way (R75, R85, R161). The completion state and counts: the first line of R66 that applies. -/
def Obligations.ResultsAndCompletionWritten : Prop :=
  (∀ (s : State) (v : OrderResult), s.takeOrderEnd v = { s with
     sheets := { s.sheets with order := none, access := some (.result v 0), questionHeld := false } }) ∧
  (∀ (s : State) (r : SheetRun) (v : OrderResult) (done : Nat) (reply : BusReply), s.live = true →
     s.port = some .sheet → s.sheetLine.head? = some .sheets → s.sheets.access = some (.result v done) →
     s.sheets.active = some r ∨ (s.sheets.active = none ∧ s.sheets.closer = some r) → reply.stores = [] →
     Memory.wf s.mem = true → done < 2 →
     let put (q : SheetRun) : Sheets :=
       if s.sheets.active = none then { s.sheets with closer := some q, access := none }
       else { s.sheets with active := some q, access := none }
     let dropped : Sheets :=
       if s.sheets.active = none then
         { s.sheets with closer := none, closing := s.sheets.closing.drop 1, access := none }
       else { s.sheets with active := none, access := none }
     let good := v.status = .ok ∨ v.status = .okRebuilt
     let bad := ¬good ∧ v.status ≠ .skipped
     let at_ := entryWordAddress r.address r.index (if done = 0 then 7 else 6)
     (reply.error = none →
       ∃ u : State, exec (.resultWriteEnd reply) s = .next u.settle ∧
         Memory.readWord u.mem at_ = (if done = 0 then v.word2 else v.word1) ∧
         (∀ a, a < at_ ∨ at_ + 4 ≤ a → Memory.readByte u.mem a = Memory.readByte s.mem a) ∧
         (done = 0 → u.sheets = { s.sheets with access := some (.result v 1) }) ∧
         (done = 1 → u.sheets = put { r with
           index := r.index + 1, ok := if good then r.ok + 1 else r.ok,
           skipped := if v.status = .skipped then r.skipped + 1 else r.skipped,
           failed := if bad then r.failed + 1 else r.failed,
           halted := if bad then r.halted || r.haltOnError else r.halted }) ∧
         u.port = none ∧ State.lanesKept s u ∧ State.arrayKept s u ∧ u.table = s.table) ∧
     (reply.error = some 0 →
       ∃ u : State, exec (.resultWriteEnd reply) s = .next u.settle ∧ u.sheets = dropped ∧
         u.window.flag .sheetFault = true ∧ u.window.flag .busError = true ∧
         u.window.errorAddress = (if s.window.flag .busError then s.window.errorAddress else errorWord at_ true) ∧
         (∀ a, a < at_ ∨ at_ + 4 ≤ a → Memory.readByte u.mem a = Memory.readByte s.mem a) ∧
         (reply.landed.head? ≠ some true → State.memoryKept s u))) ∧
  (∀ (s : State) (r : SheetRun) (w : Word) (reply : BusReply), s.live = true → s.port = some .sheet →
     s.sheetLine.head? = some .sheets →
     s.sheets.access = some (.completion w) → s.sheets.active = some r → reply.stores = [] → Memory.wf s.mem = true →
     (reply.error = none →
       ∃ u : State, exec (.completionWriteEnd reply) s = .next u.settle ∧
         Memory.readWord u.mem (headerWordAddress r.address 1) = w ∧
         (∀ a, (a < headerWordAddress r.address 1 ∨ headerWordAddress r.address 1 + 4 ≤ a) →
           Memory.readByte u.mem a = Memory.readByte s.mem a) ∧
         u.sheets.active = none ∧ u.sheets.access = none ∧
         u.window = (if r.notify then s.window.set .sheetDone else s.window) ∧ u.sheets.queue = s.sheets.queue) ∧
     (reply.error = some 0 →
       ∃ u : State, exec (.completionWriteEnd reply) s = .next u.settle ∧ u.sheets.active = none ∧ u.sheets.access = none ∧
         u.window.flag .sheetFault = true ∧ u.window.flag .busError = true ∧
         u.window.errorAddress =
           (if s.window.flag .busError then s.window.errorAddress else errorWord (headerWordAddress r.address 1) true) ∧
         u.window.flag .sheetDone = s.window.flag .sheetDone ∧
         (∀ a, a < headerWordAddress r.address 1 ∨ headerWordAddress r.address 1 + 4 ≤ a →
           Memory.readByte u.mem a = Memory.readByte s.mem a) ∧
         (reply.landed.head? ≠ some true → State.memoryKept s u))) ∧
  (∀ (r : SheetRun),
     (r.header = .refused → r.completionWord = completionWord .doneRefused 0 0 r.count) ∧
     (r.header ≠ .refused → r.ending = .aborted → r.completionWord = completionWord .doneAborted r.ok r.failed r.skipped) ∧
     (r.header ≠ .refused → r.ending = .interrupted →
       r.completionWord = completionWord .doneInterrupted r.ok r.failed r.skipped) ∧
     (r.header ≠ .refused → r.ending = .normal → r.failed = 0 →
       r.completionWord = completionWord .doneOk r.ok r.failed r.skipped) ∧
     (r.header ≠ .refused → r.ending = .normal → r.failed ≠ 0 →
       r.completionWord = completionWord .doneErrors r.ok r.failed r.skipped))

/-- ROW GO is answered by the stop state: GO on NONE, held on HOLD, STOP ABORTED on ABORT, STOP INTERRUPTED on DRAIN;
the answer reaches the path whose order is in progress (R76). -/
def Obligations.RowQuestionAnswered : Prop :=
  ∀ (s : State), s.live = true →
    (s.writerAsks = true →
      (s.sheets.stop = .none → exec .rowGo s = .next (State.settle { s with
        sheets := { s.sheets with questionHeld := false }, writer := { s.writer with go := true } })) ∧
      (s.sheets.stop = .hold → exec .rowGo s = .next (State.settle { s with
        sheets := { s.sheets with questionHeld := true } })) ∧
      (s.sheets.stop = .abort → exec .rowGo s = .next (State.settle { s with
        sheets := { s.sheets with questionHeld := false }, writer := { s.writer with stopped := some .aborted } })) ∧
      (s.sheets.stop = .drain → exec .rowGo s = .next (State.settle { s with
        sheets := { s.sheets with questionHeld := false },
        writer := { s.writer with stopped := some .interrupted } }))) ∧
    (s.writer.order = none → s.readerAsks = true →
      (s.sheets.stop = .none → exec .rowGo s = .next (State.settle { s with
        sheets := { s.sheets with questionHeld := false }, reader := { s.reader with go := true } })) ∧
      (s.sheets.stop = .hold → exec .rowGo s = .next (State.settle { s with
        sheets := { s.sheets with questionHeld := true } })) ∧
      (s.sheets.stop = .abort → exec .rowGo s = .next (State.settle { s with
        sheets := { s.sheets with questionHeld := false }, reader := { s.reader with stopped := some .aborted } })) ∧
      (s.sheets.stop = .drain → exec .rowGo s = .next (State.settle { s with
        sheets := { s.sheets with questionHeld := false },
        reader := { s.reader with stopped := some .interrupted } })))

/-- The sheet in hand, active or of the closing list, at rest: a header not yet read waits; an accepted one with an
entry left has it skipped when halted or not NORMAL, and otherwise waits for its order; a refused header, or no entry
left, raises the completion write (R71, R74, R75, R82). In ABORT and DRAIN, with no active sheet, the next sheet of the
closing list is taken up, its header read raised (R82); the end of its completion write, in error or not, takes it off
the list (R82, R85). With no active sheet and nothing on the list the abort ends, in a mode that may hold a sheet in RUN
(R82). QUIET, no access and no order, or a row order whose question is held with no row in flight, and no skip or close
due on the active sheet, makes HOLDING HELD, with its event (R78; that a row of READ ROWS counts as completed at ROW
DELIVERED is the model's choice, log 39). -/
def Obligations.SheetsSkipCloseAndRest : Prop :=
  (∀ (s : State) (r : SheetRun),
     s.sheets.active = some r ∨ (s.sheets.active = none ∧ s.sheets.closer = some r) →
     let raised (a : SheetAccess) : State := { s with sheets := { s.sheets with access := some a } }
     (s.sheets.order = none → s.sheets.access = none →
       (r.header = .unread → s.sheetSkip = none ∧ s.sheetClose = none) ∧
       (r.header = .accepted → r.index < r.count → s.sheetClose = none ∧
         (r.halted = true ∨ r.ending ≠ .normal → s.sheetSkip = some (raised (.result
           { status := .skipped, rowsDone := 0, pagesRebuilt := 0, weakSeen := 0 } 0))) ∧
         (r.halted = false → r.ending = .normal → s.sheetSkip = none)) ∧
       (r.header = .refused ∨ (r.header = .accepted ∧ r.count ≤ r.index) →
         s.sheetSkip = none ∧ s.sheetClose = some (raised (.completion r.completionWord)))) ∧
     (s.sheets.order ≠ none ∨ s.sheets.access ≠ none → s.sheetSkip = none ∧ s.sheetClose = none)) ∧
  (∀ (s : State),
     let h := s.sheets
     let free := (h.stop = .abort ∨ h.stop = .drain) ∧ h.active = none ∧ h.closer = none ∧ h.access = none
     (∀ a e rest, free → h.closing = (a, e) :: rest →
       s.closeNext = some { s with sheets := { h with
         access := some (.header []),
         closer := some { address := a, header := .unread, count := 0, notify := false, haltOnError := false, index := 0,
                          ok := 0, failed := 0, skipped := 0, halted := false, ending := e } } }) ∧
     (¬free ∨ h.closing = [] → s.closeNext = none)) ∧
  (∀ (s : State) (r : SheetRun) (x : Word × Ending) (rest : List (Word × Ending)) (w : Word) (reply : BusReply),
     s.live = true → s.port = some .sheet → s.sheetLine.head? = some .sheets →
     s.sheets.access = some (.completion w) → s.sheets.active = none → s.sheets.closer = some r →
     s.sheets.closing = x :: rest → reply.stores = [] → Memory.wf s.mem = true →
     let left := { s.sheets with closer := none, closing := rest, access := none }
     (reply.error = none → ∃ u : State, exec (.completionWriteEnd reply) s = .next u.settle ∧ u.sheets = left ∧
       Memory.readWord u.mem (headerWordAddress r.address 1) = w ∧
       u.window = (if r.notify then s.window.set .sheetDone else s.window)) ∧
     (reply.error = some 0 → ∃ u : State, exec (.completionWriteEnd reply) s = .next u.settle ∧ u.sheets = left ∧
       u.window.flag .sheetFault = true ∧ u.window.flag .busError = true)) ∧
  (∀ (s : State),
     let due := s.sheets.stop = .abort ∧ s.sheets.active = none ∧ s.sheets.closing = []
     let ended : State := { s with sheets := { s.sheets with stop := .none } }
     (due → s.modes.mode ∈ [Mode.run, .holding, .held] →
       s.abortEnd = some { ended with modes := { s.modes with mode := .run } }) ∧
     (due → s.modes.mode ∉ [Mode.run, .holding, .held] → s.abortEnd = some ended) ∧ (¬due → s.abortEnd = none)) ∧
  (∀ (s : State),
     let resting := s.sheets.questionHeld = true ∧ s.writer.flights = [] ∧ s.reader.flights = [] ∧ s.reader.copyRow = none
     let quiet := s.sheets.access = none ∧ (s.sheets.order = none ∨ ∃ o, s.sheets.order = some o ∧
       o.kind ∈ [OrderKind.writeRows, .readRows, .copyRows] ∧ resting)
     let due := s.modes.mode = .holding ∧ s.sheets.stop = .hold ∧ quiet ∧ s.sheetSkip = none ∧ s.sheetClose = none
     (due → s.enterHeld = some { s with modes := { s.modes with mode := .held }, window := s.window.set .held }) ∧
     (¬due → s.enterHeld = none))

/-! ## The row orders -/

/-- A row of WRITE ROWS. A question is due with a row left to begin, no ending or STOP, and no row in flight or one that
is COMMITTED (R92). After its GO (R92, R93): while a LOST NOTICE is awaited nothing comes about; with the band locked
the ending becomes PROTECTED; otherwise row N begins with the lanes present at N and not failed, the coder is given
BEGIN WRITE ROW, and the first row of a BLANK band gives OPEN. ROW LOADED makes the row LOADED, and
a failed lane whose page came after its discard is given a further CACHE DISCARD (R99; log 19). The store permit of the
oldest LOADED row, or of the one behind a COMMITTED row, is asked once the OPEN notice is in; granted, with the band
unlocked, each loaded lane not failed is given CACHE COMMIT; refused, or with the band locked, the row is discarded and
the ending set (R95). -/
def Obligations.WriterBeginsAndCommitsRows : Prop :=
  (∀ (s : State),
     let w := s.writer
     s.writerAsks = true ↔ w.order ≠ none ∧ w.toBegin ≠ 0 ∧ w.ending = none ∧ w.stopped = none ∧ w.go = false ∧
       s.sheets.questionHeld = false ∧ (w.flights = [] ∨ ∃ f, w.flights = [f] ∧ f.cond = .committed)) ∧
  (∀ (s : State), s.writer.go = true →
     let w := s.writer
     let r := s.band w.band
     let lanes := (r.present w.nextRow).filter (fun l => !w.lanesFailed.contains l)
     let begun : RowBegin :=
       { band := w.band, row := w.nextRow, level := w.level, purpose := .deliver, lanes := lanes }
     let flight : Flight := { row := w.nextRow, cond := .assembling, loadSet := lanes, loaded := [], committed := [],
                              awaited := [], failed := [], permitAsked := false }
     (w.ending = none → w.lostWaits ≠ 0 → s.writerBegin = none) ∧
     (w.ending ≠ none → s.writerBegin = some { s with writer := { w with go := false } }) ∧
     (w.ending = none → w.lostWaits = 0 → s.protect.locked w.band = true →
       s.writerBegin = some { s with writer := { w with go := false, ending := some .protected_ } }) ∧
     (w.ending = none → w.lostWaits = 0 → s.protect.locked w.band = false →
       s.writerBegin = some { s with
         writer := { w with
           go := false, toBegin := w.toBegin - 1, nextRow := w.nextRow + 1,
           openWait := w.openWait || decide (r.state = .blank),
           flights := w.flights ++ [flight] },
         coder := { s.coder with beginWrite := some begun },
         signals := s.signals ++
           (if r.state = .blank then [.update .writer (.openBand w.band) true] else []) })) ∧
  (∀ (s : State) (ls : List Lane),
     (s.writerLoaded ls).writer = { s.writer with flights := s.writer.flights.map (fun f =>
       if f.cond = .assembling then { f with cond := .loaded, loaded := ls } else f) } ∧
     ∀ l,
       let late := l ∈ s.writer.lanesFailed ∧ l ∈ ls ∧
         ((s.lane l).cache ≠ none ∨ ∃ g id page, (s.lane l).port = some (g, .cacheLoad id page))
       (late → (s.writerLoaded ls).lane l = { s.lane l with waiting := (s.lane l).waiting ++ [.cacheDiscard] }) ∧
       (¬late → (s.writerLoaded ls).lane l = s.lane l)) ∧
  (∀ (s : State) (f g : Flight) (rest : List Flight),
     let w := s.writer
     let asked (fs : List Flight) : State := { s with
       writer := { w with flights := fs }, signals := s.signals ++ [.askPermit .writer] }
     (w.openWait = true → s.writerCommit = none) ∧
     (w.openWait = false → w.flights = f :: rest → f.cond = .loaded → f.permitAsked = false →
       (∀ h ∈ rest, h.row ≠ f.row) → s.writerCommit = some (asked ({ f with permitAsked := true } :: rest))) ∧
     (w.openWait = false → w.flights = [f, g] → f.cond = .committed → g.cond = .loaded → g.permitAsked = false →
       f.row ≠ g.row → s.writerCommit = some (asked [f, { g with permitAsked := true }])) ∧
     (w.flights = [f, g] → f.cond ≠ .loaded → f.cond ≠ .committed → s.writerCommit = none)) ∧
  (∀ (s : State) (f : Flight), f.cond = .loaded →
     s.writer.flights.find? (fun f => f.permitAsked && decide (f.cond = .loaded)) = some f →
     let w := s.writer
     let given (t : State) (ls : List Lane) (q : LaneReq) :=
       ∀ l, t.lane l = if l ∈ ls then { s.lane l with waiting := (s.lane l).waiting ++ [q] } else s.lane l
     let ends (t : State) (st : OrderStatus) := given t f.loaded .cacheDiscard ∧ t.writer =
       { w with ending := some (w.ending.getD st), flights := w.flights.filter (fun h => decide (h.row ≠ f.row)) }
     let ls := f.loaded.filter (fun l => !w.lanesFailed.contains l)
     ends (s.writerPermit false) .storeFault ∧
     (s.protect.locked w.band = true → ends (s.writerPermit true) .protected_) ∧
     (s.protect.locked w.band = false → given (s.writerPermit true) ls .cacheCommit ∧
       (s.writerPermit true).writer = { w with flights := w.flights.map (fun h => if h.row = f.row ∧ h.cond = .loaded then
         { h with cond := .committed, committed := ls, awaited := ls, permitAsked := false } else h) }))

/-- The end of the rows of WRITE ROWS. The oldest row, COMMITTED with every report in and every failed lane lost,
completes with ROW COMPLETE and rows_done one more (R96). A PASS takes the lane from its row's awaited lanes; a FAIL,
while no row is failing, joins lanes failed, gives PROGRAM FAIL with notice, and the lane a CACHE DISCARD and WITHDRAW
LANE (R99; that the wait for its notice counts from the giving, and is taken back when no notice will come, is the
model's reading, log 20). Once the band is FAILED, or the failure cannot be recorded (under STORE_FAULT the model's
reading, log 21), row n is the failing row, the ending PROGRAM_FAIL, and no row from n on completes: a COMMITTED one is
DISCARDING, its HELD pages discarded and no longer awaited, a LOADED one discarded in every lane loaded, an ASSEMBLING
one in every lane its pages were placed in, the coder abandoning it. With a failing row set a FAIL gives no update;
below that row it does the same from its own row on. A DISCARDING row with no report awaited leaves (R101, R102). A
FAULT notice for OPEN sets STORE_FAULT and discards the rows not committed, one for a lost lane sets STORE_FAULT (R94,
R100). An ending of the mover discards the row being loaded alone (R105). To discard is to give CACHE DISCARD to each
lane of a LOADED row, and for an ASSEMBLING one ABANDON ROW to the coder and CACHE DISCARD to each lane whose CACHE LOAD
it has placed; the BEGIN WRITE ROW of a row that the coder has not taken yet is withdrawn (R94, R105, R154; but for the
mover's ending the model's choice, log 47). END is given with no row in flight, no row to begin and no wait; the result
is reported once the mover has flushed and the lanes are clear (log 18): PROGRAM_FAIL, else the first ending set, else
the STOP's status, else OK (R106; that an ending which no begun row gave stands before a STOP is the model's choice, log
40). -/
def Obligations.WriterRowsEnd : Prop :=
  (∀ (s : State) (f : Flight) (rest : List Flight), s.writer.flights = f :: rest →
     let w := s.writer
     (f.cond = .committed → f.awaited = [] → (∀ l ∈ f.failed, (s.band w.band).absent l f.row = true) →
       s.writerComplete = some { s with
         writer := { w with flights := rest, rowsDone := w.rowsDone + 1 },
         signals := s.signals ++ [.update .writer (.rowComplete w.band f.row) false] }) ∧
     (f.cond ≠ .committed ∨ f.awaited ≠ [] ∨ (∃ l ∈ f.failed, (s.band w.band).absent l f.row = false) →
       s.writerComplete = none)) ∧
  (∀ (s : State) (l : Lane) (op : LastOp),
     let w := s.writer
     let t := s.writerReport l op
     let without (f : Flight) := f.awaited.filter (fun k => !(k == l))
     (op.outcome = .pass → t = { s with writer := { w with flights := w.flights.map (fun f =>
       if f.row = op.row then { f with awaited := without f } else f) } }) ∧
     (op.outcome = .fail → w.failing = none →
       (∀ k, k ∈ t.writer.lanesFailed ↔ k ∈ w.lanesFailed ∨ k = l) ∧ t.writer.lostWaits = w.lostWaits + 1 ∧
       t.signals = s.signals ++ [.update .writer (.programFail w.band l op.row) true] ∧
       (∀ k, t.lane k = if k = l then { s.lane k with waiting := (s.lane k).waiting ++ [.cacheDiscard] } else s.lane k) ∧
       (∀ a, s.coder.write = some a →
         t.coder.write = some { a with loadSet := a.loadSet.filter (fun k => !(k == l)) }) ∧
       t.writer.flights.map (·.row) = w.flights.map (·.row) ∧
       ∀ f ∈ w.flights, ∃ g ∈ t.writer.flights, g.row = f.row ∧ g.cond = f.cond ∧
         g.awaited = (if op.row ≤ f.row then without f else f.awaited) ∧
         (∀ k, k ∈ g.failed ↔ k ∈ f.failed ∨ (f.row = op.row ∧ k = l))) ∧
     (op.outcome = .fail → w.failing ≠ none → t.signals = s.signals ∧ t.writer.lostWaits = w.lostWaits ∧
       t.writer.failing = w.failing ∧ t.writer.ending = w.ending ∧
       ∀ k, k ∈ t.writer.lanesFailed ↔ k ∈ w.lanesFailed ∨ k = l)) ∧
  (∀ (s : State) (b : Nat) (l : Lane) (n : Nat),
     let told : State := { s with writer := { s.writer with lostWaits := s.writer.lostWaits - 1 } }
     ((s.band b).state = .failed → s.writerAnswer (.programFail b l n) true = s.writerFailed n) ∧
     ((s.band b).state ≠ .failed → s.writerAnswer (.programFail b l n) true = s) ∧
     (s.table.storeFault = true → s.writerAnswer (.programFail b l n) false = s.writerFailed n) ∧
     (s.table.storeFault = false → s.writerAnswer (.programFail b l n) false = told.writerFailed n)) ∧
  (∀ (s : State), s.writer.flights.length ≤ 2 → (s.writer.flights.map (·.row)).Nodup →
     let w := s.writer
     s.writerNotice .opened true = { s with writer := { w with openWait := false } } ∧
     (s.writerNotice .opened false).writer = { w with
       openWait := false, ending := some (w.ending.getD .storeFault),
       flights := w.flights.filter (fun f => decide (f.cond = .committed) || decide (f.cond = .discarding)) } ∧
     s.writerNotice .lost true = { s with writer := { w with lostWaits := w.lostWaits - 1 } } ∧
     s.writerNotice .lost false = { s with writer := { w with
       lostWaits := w.lostWaits - 1, ending := some (w.ending.getD .storeFault) } }) ∧
  (∀ (s : State) (e : MoverEnding), s.writer.flights.length ≤ 2 → (s.writer.flights.map (·.row)).Nodup →
     let assembled (g : Flight) := ∃ a, s.coder.write = some a ∧ a.row = g.row
     let placed (k : Lane) (row : Nat) := s.coder.write.elim false (fun a => decide (a.row = row) && a.loaded.contains k)
     let thrown (g : Flight) (k : Lane) : Bool := match g.cond with
       | .loaded => g.loaded.contains k
       | .assembling => placed k g.row
       | .committed => false
       | .discarding => false
     let discards (conds : List FlightCond) (t : State) : Prop :=
       let lost := s.writer.flights.filter (fun g => decide (g.cond ∈ conds))
       let abandoned := ∃ g ∈ lost, g.cond = .assembling ∧ assembled g
       let withdrawn (b : RowBegin) := ∃ g ∈ lost, g.cond = .assembling ∧ ¬assembled g ∧ g.row = b.row
       let given (k : Lane) : List LaneReq := List.replicate (lost.filter (fun g => thrown g k)).length .cacheDiscard
       (∀ k, t.lane k = { s.lane k with waiting := (s.lane k).waiting ++ given k }) ∧
       (abandoned → t.coder.write = none) ∧ (¬abandoned → t.coder.write = s.coder.write) ∧
       (s.coder.beginWrite = none → t.coder.beginWrite = none) ∧
       (∀ b, s.coder.beginWrite = some b → (withdrawn b → t.coder.beginWrite = none) ∧
         (¬withdrawn b → t.coder.beginWrite = some b)) ∧
       t.signals = s.signals ∧ t.table = s.table ∧ t.mover = s.mover
     discards [.assembling, .loaded] (s.writerNotice .opened false) ∧
       discards [.assembling] (s.writerMoverEnding e)) ∧
  (∀ (s : State) (n : Nat), s.writer.flights.length ≤ 2 → (s.writer.flights.map (·.row)).Nodup →
     let w := s.writer
     let held (k : Lane) (row : Nat) := (s.lane k).cache.elim false (fun p => decide (p.cond = .held) && decide (p.id.row = row))
     let placed (k : Lane) (row : Nat) := s.coder.write.elim false (fun a => decide (a.row = row) && a.loaded.contains k)
     let thrown (g : Flight) (k : Lane) : Bool := decide (n ≤ g.row) && match g.cond with
       | .committed => g.awaited.contains k && held k g.row
       | .loaded => g.loaded.contains k
       | .assembling => placed k g.row
       | .discarding => false
     let stays (g : Flight) : Bool := decide (g.row < n) || decide (g.cond = .committed) || decide (g.cond = .discarding)
     let after (fs : List Flight) : List Flight := (fs.filter stays).map (fun g =>
       if n ≤ g.row ∧ g.cond = .committed then
         { g with cond := .discarding, awaited := g.awaited.filter (fun k => !held k g.row) }
       else g)
     let discards (fs : List Flight) (k : Lane) : List LaneReq :=
       List.replicate (fs.filter (fun g => thrown g k)).length .cacheDiscard
     let given (t : State) (q : Lane → List LaneReq) :=
       ∀ k, t.lane k = { s.lane k with waiting := (s.lane k).waiting ++ q k }
     let abandoned := ∃ g ∈ w.flights, n ≤ g.row ∧ g.cond = .assembling ∧ ∃ a, s.coder.write = some a ∧ a.row = g.row
     (let t := s.writerFailed n
      t.writer = { w with
        failing := some (w.failing.getD n), ending := if w.failing = none then some .programFail else w.ending,
        flights := after w.flights } ∧ given t (discards w.flights) ∧ t.signals = s.signals ∧
      (abandoned → t.coder.write = none) ∧ (¬abandoned → t.coder.write = s.coder.write)) ∧
     (∀ (l : Lane) (op : LastOp) (f : Nat), op.row = n → op.outcome = .fail → w.failing = some f →
       let t := s.writerReport l op
       let fs := w.flights.map (fun g => { g with
         awaited := if n ≤ g.row then g.awaited.filter (fun k => !(k == l)) else g.awaited,
         failed := if g.row = n then addLane g.failed l else g.failed })
       (f ≤ n → t.writer = { w with lanesFailed := addLane w.lanesFailed l, flights := fs } ∧
         given t (fun k => if k = l then [.cacheDiscard] else [])) ∧
       (n < f → t.writer = { w with lanesFailed := addLane w.lanesFailed l, flights := after fs } ∧
         given t (fun k => discards fs k ++ if k = l then [.cacheDiscard] else [])))) ∧
  (∀ (s : State),
     let gone (f : Flight) := f.cond = .discarding ∧ f.awaited = []
     ((∃ f ∈ s.writer.flights, gone f) → s.writerDiscarded = some { s with writer := { s.writer with
       flights := s.writer.flights.filter (fun f => !(decide (f.cond = .discarding) && decide (f.awaited = []))) } }) ∧
     ((∀ f ∈ s.writer.flights, ¬gone f) → s.writerDiscarded = none)) ∧
  (∀ (s : State) (e : MoverEnding), s.writer.flights.length ≤ 2 → (s.writer.flights.map (·.row)).Nodup →
     let t := s.writerMoverEnding e
     let st := match e with | .shortChain => OrderStatus.shortChain | .fragment => .fragment | .busError => .busError
     t.writer = { s.writer with
       ending := some (s.writer.ending.getD st),
       flights := s.writer.flights.filter (fun f => decide (f.cond ≠ .assembling)) }) ∧
  (∀ (s : State),
     let w := s.writer
     let due := w.order ≠ none ∧ w.ended = false ∧ w.flights = [] ∧ (w.toBegin = 0 ∨ w.ending ≠ none ∨ w.stopped ≠ none) ∧
       w.openWait = false ∧ w.lostWaits = 0 ∧ w.go = false
     (due → s.writerEnd = some (State.endTransfer { s with
       writer := { w with ended := true }, sheets := { s.sheets with questionHeld := false } })) ∧
     (¬due → s.writerEnd = none) ∧
     (w.failing ≠ none → w.status = .programFail) ∧
     (w.failing = none → ∀ st, w.ending = some st → w.status = st) ∧
     (w.failing = none → w.ending = none → w.status = w.stopped.getD .ok) ∧
     (w.ended = true → w.flushed = true → s.lanesClear = true → ∃ t : State, s.writerFinish = some t ∧
       t.writer = Writer.reset ∧ t.coder = { Coder.reset with owner := s.coder.claim } ∧
       t.signals = s.signals ++ [.orderEnd
         { status := w.status, rowsDone := w.rowsDone, pagesRebuilt := 0, weakSeen := 0 }]))

/-- READ ROWS, row by row. A question is due with a row left to begin, no ending or STOP and at most one row in flight;
after GO a void row sets VOID_ROW, and any other begins: its present lanes are given PAGE READ, and the coder BEGIN READ
ROW when it is alone in flight (R113, R117). Taken by the coder, its unloads follow (R114). The report adds to the
counts, saturating, and sets attention for a WEAK, UNCORRECTABLE or TAG_MISMATCH page; UNRECOVERABLE ends the order
DATA_LOSS with no row left in flight (R115). At ROW DELIVERED the coder is given the next row in flight; ROW WRITTEN
counts; the mover's ending ends the order, the coder released (R116, R118), and a BEGIN READ ROW that it has not taken
withdrawn (the model's reading, log 37). A READ page left by a row not judged is discarded. END is given with no row in
flight and none to begin; with FLUSHED and all six lanes clear (log 18) the result is reported: the first ending set,
else the STOP's status, else OK_REBUILT or OK (R119; that an ending which no begun row gave stands before a STOP is the
model's choice, log 40). -/
def Obligations.ReadRowsByRule : Prop :=
  (∀ (s : State) (o : Order), s.reader.order = some o → o.kind = .readRows →
     let r := s.reader
     let n := r.nextRow
     let present := (s.band r.band).present n
     let begun (row : Nat) (lanes : List Lane) : RowBegin :=
       { band := r.band, row := row, level := r.level, purpose := .deliver, lanes := lanes }
     (s.readerAsks = true ↔ r.started = true ∧ r.toBegin ≠ 0 ∧ r.ending = none ∧ r.stopped = none ∧ r.go = false ∧
       s.sheets.questionHeld = false ∧ r.flights.length ≤ 1) ∧
     (r.go = true → r.ending ≠ none → s.readBegin = some { s with reader := { r with go := false } }) ∧
     (r.go = true → r.ending = none → n ∈ (s.band r.band).voids →
       s.readBegin = some { s with reader := { r with go := false, ending := some .voidRow } }) ∧
     (r.go = true → r.ending = none → n ∉ (s.band r.band).voids → ∃ t : State, s.readBegin = some t ∧
       t.reader = { r with
         go := false, toBegin := r.toBegin - 1, nextRow := n + 1,
         flights := r.flights ++ [{ row := n, judged := false, expected := present }] } ∧
       (∀ l, t.lane l = if l ∈ present then
           { s.lane l with waiting := (s.lane l).waiting ++ [.pageRead { band := r.band, row := n, level := r.level }] }
         else s.lane l) ∧
       t.coder = (if r.flights = [] then { s.coder with beginRead := some (begun n present) } else s.coder) ∧
       t.signals = s.signals) ∧
     (∀ rep : RowReport,
       let t := s.takeJudged rep
       let attends := ∃ x ∈ rep.outcomes, x.2.cls ∈ [PageClass.weak, .uncorrectable, .tagMismatch]
       let counted : Reader := { r with
         pagesRebuilt := min 65535 (r.pagesRebuilt + rep.rebuilt), weakSeen := min 255 (r.weakSeen + rep.weak) }
       (attends → t.signals = s.signals ++ [.update .reader (.setAttention r.band) false]) ∧
       (¬attends → t.signals = s.signals) ∧ t.lanes = s.lanes ∧ t.coder = s.coder ∧
       (rep.verdict = .recoverable → ∀ f rest, r.flights = f :: rest →
         t.reader = { counted with flights := { f with judged := true } :: rest }) ∧
       (rep.verdict = .unrecoverable →
         t.reader = { counted with ending := some (r.ending.getD .dataLoss), flights := [] })) ∧
     (∀ f rest, r.flights = f :: rest →
       (rest = [] → s.readDelivered = { s with reader := { r with flights := [] } }) ∧
       (∀ g more, rest = g :: more → s.readDelivered = { s with
         reader := { r with flights := rest }, coder := { s.coder with beginRead := some (begun g.row g.expected) } })) ∧
     s.takeUnit = { s with reader := { r with rowsDone := r.rowsDone + 1 } } ∧
     (∀ e, s.writer.order = none → s.takeEnding e = { s with
       reader := { r with
         flights := [],
         ending := some (r.ending.getD (match e with
           | .shortChain => .shortChain | .fragment => .fragment | .busError => .busError)) },
       coder := { s.coder with read := none, workspace := none, patch := none, verdict := none, beginRead := none } })) ∧
  (∀ (s : State) (b : RowBegin), b.purpose ≠ .copy → ∀ l, (s.readerBegun b).lane l =
     if l ∈ b.lanes then { s.lane l with waiting := (s.lane l).waiting ++ [.cacheUnload] } else s.lane l) ∧
  (∀ (s : State) (o : Order), s.reader.order = some o → o.kind = .readRows → s.reader.started = true →
     s.reader.usesMover = true →
     let r := s.reader
     let noMore := r.toBegin = 0 ∨ r.ending ≠ none ∨ r.stopped ≠ none
     let left (l : Lane) := (∃ p, (s.lane l).cache = some p ∧ p.cond = .read) ∧ (s.lane l).port = none ∧
       (s.lane l).waiting = []
     let due := r.ended = false ∧ r.go = false ∧ r.flights = [] ∧ r.copyRow = none ∧ noMore ∧ r.openWait = false ∧
       r.lostWaits = 0
     (r.flights = [] → noMore → ∀ l, left l → (∀ k, k.number < l.number → ¬left k) →
       s.readerCleanup = some (s.give l .cacheDiscard)) ∧
     (r.flights ≠ [] ∨ ¬noMore ∨ (∀ l, ¬left l) → s.readerCleanup = none) ∧
     (due → s.readerEnd = some (State.endTransfer { s with
       reader := { r with ended := true, flushed := false }, sheets := { s.sheets with questionHeld := false } })) ∧
     (¬due → s.readerEnd = none) ∧
     (r.failing = none →
       (∀ st, r.ending = some st → r.status = st) ∧
       (r.ending = none → ∀ st, r.stopped = some st → r.status = st) ∧
       (r.ending = none → r.stopped = none → 0 < r.pagesRebuilt → r.status = .okRebuilt) ∧
       (r.ending = none → r.stopped = none → r.pagesRebuilt = 0 → r.status = .ok)) ∧
     (r.ended = true → r.flushed = true → s.lanesClear = true → s.readerFinish = some { s with
       reader := Reader.reset, coder := { Coder.reset with owner := s.coder.claim },
       signals := s.signals ++ [.orderEnd { status := r.status, rowsDone := r.rowsDone, pagesRebuilt := r.pagesRebuilt,
                                            weakSeen := r.weakSeen }] }) ∧
     (r.ended = false ∨ r.flushed = false ∨ s.lanesClear = false → s.readerFinish = none) ∧
     (s.lanesClear = true ↔ ∀ l, (s.lane l).state = .idle ∧ (s.lane l).port = none ∧ (s.lane l).waiting = [] ∧
       (s.lane l).cache = none ∧ (s.lane l).prevFailed = false))

/-- COPY ROWS, the begin of a row. A question is due with a row left to begin, no ending or STOP and no row in flight
(R121). The lane plan: a lane present in source and target and not patch-named is MOVE; another present in the target
BUILD; one present in the source alone FEED; one absent in both IDLE; a lane failed in this order is absent in the
target, and the patch names its data lane, P and Q in its row alone (R122). After GO a LOST NOTICE is awaited; a locked
target sets PROTECTED; more absent source lanes than the level DATA_LOSS; else the row begins, a BLANK target is given
OPEN with notice, and with a BUILD lane the coder is given the row, each present source lane that is not MOVE a PAGE
READ, and the mover the bytes of the patch (R123, R128). Taken by the coder, the unloads follow, and the outcomes of
moves reported before are passed to it (R123, R124). The patch bytes fetched go to the coder (R128); a row judged
RECOVERABLE before they came is produced then (the model's reading, log 25). -/
def Obligations.CopyRowBegins : Prop :=
  (∀ (s : State) (o : Order), s.reader.order = some o → o.kind = .copyRows →
     let r := s.reader
     let n := r.nextRow
     let target := r.firstTarget + (n - o.startRow)
     let lacks (l : Lane) := (s.band r.band).absent l n = true
     let there (l : Lane) := (s.band r.targetBand).absent l target = false ∧ l ∉ r.lanesFailed
     let patched (p : Patch) := r.patch = some p ∧ o.startRow + p.rowOffset = n
     let named (l : Lane) := ∃ p, patched p ∧ (l = laneAt p.index ∨ pLane r.level = some l ∨ qLane r.level = some l)
     let plan (l : Lane) := s.planClass n target l
     let present := (s.band r.band).present n
     let ready := r.ending = none ∧ r.lostWaits = 0
     let begun : RowBegin := { band := r.band, row := n, level := r.level, purpose := .copy, lanes := present }
     (s.readerAsks = true ↔ r.started = true ∧ r.toBegin ≠ 0 ∧ r.ending = none ∧ r.stopped = none ∧ r.go = false ∧
       s.sheets.questionHeld = false ∧ r.copyRow = none) ∧
     (∀ l, (¬lacks l → there l → ¬named l → plan l = .move) ∧ (there l → lacks l ∨ named l → plan l = .build) ∧
       (¬lacks l → ¬there l → plan l = .feed) ∧ (lacks l → ¬there l → plan l = .idle)) ∧
     (r.go = true → r.ending = none → r.lostWaits ≠ 0 → s.copyBegin = none) ∧
     (r.go = true → r.ending ≠ none → s.copyBegin = some { s with reader := { r with go := false } }) ∧
     (r.go = true → ready → s.protect.locked r.targetBand = true →
       s.copyBegin = some { s with reader := { r with go := false, ending := some .protected_ } }) ∧
     (r.go = true → ready → s.protect.locked r.targetBand = false →
       (r.level.val < 6 - present.length →
         s.copyBegin = some { s with reader := { r with go := false, ending := some .dataLoss } }) ∧
       (6 - present.length ≤ r.level.val →
         let blank := (s.band r.targetBand).state = .blank
         ∃ (t : State) (c : CopyRow), s.copyBegin = some t ∧
           t.reader = { r with
             go := false, toBegin := r.toBegin - 1, nextRow := n + 1, copyRow := some c,
             openWait := r.openWait || decide blank } ∧
           c.source = n ∧ c.target = target ∧ (∀ l, c.plan.get l = plan l) ∧ c.phase = .prepare ∧ c.moves = [] ∧
           c.awaited = [] ∧ c.failed = [] ∧ c.touched = false ∧ c.committed = false ∧ c.closed = false ∧ c.judged = false ∧
           c.openFault = false ∧ (∀ l, c.outcomes.get l = none) ∧
           t.signals = s.signals ++ (if blank then [.update .reader (.openBand r.targetBand) true] else []) ∧
           ((∀ l, plan l ≠ .build) → c.given = false ∧ c.fetching = false ∧ t.coder = s.coder ∧ t.lanes = s.lanes ∧
             t.mover = s.mover) ∧
           ((∃ l, plan l = .build) → c.given = true ∧
             t.coder = { s.coder with beginRead := some begun } ∧
             (∀ l, l ∈ c.reads ↔ l ∈ present ∧ plan l ≠ .move) ∧
             (∀ l, t.lane l = if l ∈ present ∧ plan l ≠ .move then
                 { s.lane l with waiting := (s.lane l).waiting ++
                   [.pageRead { band := r.band, row := n, level := r.level }] }
               else s.lane l) ∧
             ((∀ p, ¬patched p) → c.fetching = false ∧ t.mover = s.mover) ∧
             (∀ p, patched p → c.fetching = true ∧ t.mover = { s.mover with
               permit := 4 * ((p.length + 3) / 4),
               fetch := some { address := p.source.toNat, forWhom := .patch, got := [] } }))))) ∧
  (∀ (s : State) (b : RowBegin) (c : CopyRow), b.purpose = .copy → s.reader.copyRow = some c →
     let t := s.readerBegun b
     (∀ l, t.lane l = if l ∈ c.reads then { s.lane l with waiting := (s.lane l).waiting ++ [.cacheUnload] }
       else s.lane l) ∧
     (∀ q : ReadAsm, s.coder.read = some q → q.purpose = .copy → ∃ p : ReadAsm, t.coder = { s.coder with read := some p } ∧
       p = { q with slots := p.slots } ∧
       ∀ l, (∀ out, q.slots.get l = .awaited → c.outcomes.get l = some out → p.slots.get l = .outcomeOnly out) ∧
         (q.slots.get l ≠ .awaited ∨ c.outcomes.get l = none → p.slots.get l = q.slots.get l))) ∧
  (∀ (s : State) (o : Order) (c : CopyRow) (p : Patch) (ws : List Word), s.reader.order = some o →
     s.reader.copyRow = some c → c.fetching = true → s.reader.patch = some p → o.startRow + p.rowOffset = c.source →
     let new : PatchBytes := { index := p.index, offset := p.offset, bytes := (ws.flatMap wordBytes).take p.length }
     let there (l : Lane) := !(s.band s.reader.targetBand).absent l c.target && !s.reader.lanesFailed.contains l
     let taken : State := { s with
       reader := { s.reader with copyRow := some { c with fetching := false } },
       coder := { s.coder with patch := some new } }
     (c.judged = false → s.patchBytes ws = taken) ∧
     (c.judged = true →
       (s.coder.read = none → s.patchBytes ws = taken) ∧
       ∀ q, s.coder.read = some q → s.patchBytes ws = taken.produceCopy q
         (Lane.all.filter (fun l => decide (c.plan.get l = .build) && there l)) (s.reader.targetBand, c.target)))

/-- COPY ROWS, the rest of a row. With the OPEN notice in and step 5 ended (its end the model's, log 25), a store permit
is asked for, or after FAULT the row closed STORE_FAULT; granted with the target unlocked, each MOVE lane is given PAGE
MOVE; refused or locked, the row is closed: its ending set, the coder released, a BEGIN READ ROW not yet taken withdrawn
(the model's reading, log 37), the pages loaded and not committed discarded (R123). A move's report: PASS counts;
SOURCE_BAD makes the lane BUILD and gives the coder the row, each FEED lane a PAGE READ; FAIL makes the lane FEED and is
a program failure, its source counted (R122, R124; log 34). The coder is told each outcome. NEED_PAGES reads and unloads
the lanes named; UNRECOVERABLE closes the row DATA_LOSS; RECOVERABLE, with the patch bytes in, hands the BUILD lanes
present in the target; after ROW LOADED and a permit each loaded lane is given CACHE COMMIT (R125). A program failure
joins lanes failed, gives PROGRAM FAIL unless a row is failing, and that lane CACHE DISCARD; the coder hands it no page.
Beyond the level, or not recorded, it sets PROGRAM_FAIL and closes the row (the model's: under STORE_FAULT log 21, the
notice's wait log 20); a FAULT notice for it sets STORE_FAULT (R126). With every report in and every failure applied the
row completes; closed, if touched and the target is not FAILED, else it leaves the flight (R127). A WEAK source no row
report counted is counted then (R124; of an unjudged row the model's choice, log 33). The mover's ending of a fetch
closes the row (R120, R128). The order ends with no row in flight or to begin and no wait, or refused at step 12: END
where a transfer was started, a READ page left by a closed row discarded, and with FLUSHED and, once started, lanes
clear and coder released, the result: PROGRAM_FAIL, else the first ending set, else the STOP's status, else OK_REBUILT
or OK (R120, R129; log 18; an ending no begun row gave before a STOP: the model's choice, log 40). -/
def Obligations.CopyMovesCommitsAndEnds : Prop :=
  (∀ (s : State) (c : CopyRow), s.reader.copyRow = some c →
     let r := s.reader
     let row (d : CopyRow) : Reader := { r with copyRow := some d }
     let prepared := c.fetching = false ∧ (c.given = false ∨ c.judged = true ∨
       ∃ q, s.coder.read = some q ∧ ∀ l ∈ c.reads, q.slots.get l ≠ .awaited)
     let ask := c.phase = .prepare ∧ c.closed = false ∧ r.openWait = false ∧ prepared
     let again := c.phase = .moving ∧ c.closed = false ∧ c.loaded ≠ none ∧ c.committed = false ∧ c.permitAsked = false
     let source : PageId := { band := r.band, row := c.source, level := r.level }
     let given (t : State) (ls : Lane → Prop) (q : LaneReq) := ∀ l,
       (ls l → t.lane l = { s.lane l with waiting := (s.lane l).waiting ++ [q] }) ∧ (¬ls l → t.lane l = s.lane l)
     (ask → c.openFault = false → s.copyPermit = some { s with
       reader := row { c with phase := .permit, permitAsked := true }, signals := s.signals ++ [.askPermit .reader] }) ∧
     (ask → c.openFault = true → s.copyPermit = some (s.endCopyRow .storeFault)) ∧
     (¬ask → s.copyPermit = none) ∧
     (again → s.copyCommit = some { s with
       reader := row { c with permitAsked := true }, signals := s.signals ++ [.askPermit .reader] }) ∧
     (¬again → s.copyCommit = none) ∧
     (c.permitAsked = true →
       s.readerPermit false = s.endCopyRow .storeFault ∧
       (s.protect.locked r.targetBand = true → s.readerPermit true = s.endCopyRow .protected_) ∧
       (s.protect.locked r.targetBand = false → c.phase = .permit →
         (∃ ls, (∀ l, l ∈ ls ↔ c.plan.get l = .move) ∧ (s.readerPermit true).reader =
           row { c with phase := .moving, permitAsked := false, moves := ls }) ∧
         given (s.readerPermit true) (fun l => c.plan.get l = .move) (.pageMove source r.targetBand c.target)) ∧
       (s.protect.locked r.targetBand = false → c.phase = .moving → ∀ ls, c.loaded = some ls →
         let sent := ls.filter (fun l => !r.lanesFailed.contains l)
         (s.readerPermit true).reader = row { c with
           permitAsked := false, committed := true, awaited := sent, touched := c.touched || !sent.isEmpty } ∧
         given (s.readerPermit true) (fun l => l ∈ sent) .cacheCommit)) ∧
     (∀ st, let t := s.endCopyRow st
       let ended : Reader := { r with ending := some (r.ending.getD st) }
       (c.closed = true → t = { s with reader := ended }) ∧
       (c.closed = false →
         t.reader = { ended with copyRow := some { c with closed := true, fetching := false, permitAsked := false } } ∧
         t.coder = (if c.given then
           { s.coder with read := none, workspace := none, patch := none, verdict := none, beginRead := none }
           else s.coder) ∧
         (∀ ls, c.loaded = some ls → given t (fun l => c.committed = false ∧ l ∈ ls) .cacheDiscard) ∧
         (c.loaded = none → c.given = false ∨ s.coder.read = none → t.lanes = s.lanes) ∧
         (∀ q, c.loaded = none → c.given = true → s.coder.read = some q →
           given t (fun l => l ∈ q.loaded) .cacheDiscard)))) ∧
  (∀ (s : State) (c : CopyRow) (l : Lane) (op : LastOp) (out : PageOutcome), s.reader.copyRow = some c →
     let r := s.reader
     let t := s.moveReport l op (some out)
     let told := s.signals ++ (if out.cls ∈ [PageClass.weak, .uncorrectable, .tagMismatch] then
       [.update .reader (.setAttention r.band) false] else [])
     let left := c.moves.filter (fun k => !(k == l))
     let passed (u : State) := ∀ q : ReadAsm, s.coder.read = some q → q.purpose = .copy → q.slots.get l = .awaited →
       u.coder = { s.coder with read := some { q with slots := q.slots.set l (.outcomeOnly out) } }
     (op.outcome = .pass → t.reader = { r with copyRow := some { c with
         moves := left, outcomes := c.outcomes.set l (some out), touched := true } } ∧ t.signals = told ∧
       t.lanes = s.lanes ∧ (c.given = false → t.coder = s.coder) ∧ (c.given = true → passed t)) ∧
     (op.outcome = .sourceBad →
       let plan (k : Lane) := if k = l then PlanClass.build else c.plan.get k
       ∃ d : CopyRow, t.reader = { r with copyRow := some d } ∧ (∀ k, d.plan.get k = plan k) ∧ d.moves = left ∧
         d.outcomes = c.outcomes.set l (some out) ∧ d.touched = c.touched ∧ t.signals = told ∧
         (c.given = true → d.given = true ∧ t.lanes = s.lanes ∧ passed t) ∧
         (c.given = false → c.closed = true → d.given = false ∧ t.lanes = s.lanes ∧ t.coder = s.coder) ∧
         (c.given = false → c.closed = false → d.given = true ∧ (∀ k, k ∈ d.reads ↔ plan k = .feed) ∧
           t.coder = { s.coder with beginRead := some { band := r.band, row := c.source, level := r.level, purpose := .copy,
                                                        lanes := (s.band r.band).present c.source } } ∧
           ∀ k, t.lane k = if plan k = .feed then
               { s.lane k with waiting := (s.lane k).waiting ++
                 [.pageRead { band := r.band, row := c.source, level := r.level }] }
             else s.lane k)) ∧
     (op.outcome = .fail → ∃ (u : State) (d : CopyRow), t = u.copyProgramReport l op ∧
       u.reader = { r with copyRow := some d } ∧ (∀ k, d.plan.get k = if k = l then .feed else c.plan.get k) ∧
       d.moves = left ∧ d.outcomes = c.outcomes.set l (some out) ∧ d.touched = true ∧ d.failed = c.failed ∧
       u.signals = told ∧ u.lanes = s.lanes ∧ u.table = s.table ∧
       (c.given = false → u.coder = s.coder) ∧ (c.given = true → passed u)) ∧
     (op.outcome = .fail → ∃ d : CopyRow, t.reader.copyRow = some d ∧
       (∀ k, d.plan.get k = if k = l then .feed else c.plan.get k) ∧ d.moves = left ∧ d.touched = true ∧
       (∀ k, k ∈ d.failed ↔ k ∈ c.failed ∨ k = l) ∧ (∀ k, k ∈ t.reader.lanesFailed ↔ k ∈ r.lanesFailed ∨ k = l) ∧
       (∀ k, t.lane k = if k = l then { s.lane k with waiting := (s.lane k).waiting ++ [.cacheDiscard] } else s.lane k) ∧
       (s.coder.read = none → t.coder = s.coder) ∧
       (r.failing = none → t.reader.lostWaits = r.lostWaits + 1 ∧
         .update .reader (.programFail r.targetBand l c.target) true ∈ t.signals) ∧
       (r.failing ≠ none → t.reader.lostWaits = r.lostWaits))) ∧
  (∀ (s : State) (c : CopyRow), s.reader.copyRow = some c →
     let r := s.reader
     let there (l : Lane) := !(s.band r.targetBand).absent l c.target && !r.lanesFailed.contains l
     (∀ l op, op.outcome = .pass → s.copyProgramReport l op = { s with
       reader := { r with copyRow := some { c with awaited := c.awaited.filter (fun k => !(k == l)) } } }) ∧
     (∀ l op, op.outcome = .fail →
       let t := s.copyProgramReport l op
       let told := s.signals ++
         (if r.failing = none then [.update .reader (.programFail r.targetBand l c.target) true] else [])
       let unnamed (q : ReadAsm) := q.toHand.filter (fun x => !(x.1 == l))
       let stays (q : ReadAsm) := ∃ h, q.handing = some h ∧ h.lane ≠ l
       let naming (q : ReadAsm) := q.purpose = .copy ∧ (q.handing ≠ none ∨ q.toHand ≠ [])
       (∃ ls gone, (∀ k, k ∈ ls ↔ k ∈ r.lanesFailed ∨ k = l) ∧ (∀ k, k ∈ gone ↔ k ∈ c.failed ∨ k = l) ∧
         t.reader = { r with
           lanesFailed := ls, lostWaits := if r.failing = none then r.lostWaits + 1 else r.lostWaits,
           copyRow := some { c with awaited := c.awaited.filter (fun k => !(k == l)), failed := gone } }) ∧
       (∀ k, t.lane k = if k = l then { s.lane k with waiting := (s.lane k).waiting ++ [.cacheDiscard] } else s.lane k) ∧
       ((∀ q, s.coder.read = some q → ¬naming q) → t.coder = s.coder ∧ t.signals = told) ∧
       (∀ q, s.coder.read = some q → naming q →
         (stays q → t.coder = { s.coder with read := some { q with toHand := unnamed q } } ∧ t.signals = told) ∧
         (¬stays q → unnamed q = [] →
           t.coder = { s.coder with read := none, workspace := none, patch := none, verdict := none } ∧
             t.signals = told ++ [.rowLoaded q.loaded]) ∧
         (¬stays q → ∀ k page rest, unnamed q = (k, page) :: rest → t.signals = told ∧
           ∃ h : Handing, h.lane = k ∧ h.data = page ∧
             t.coder = { s.coder with read := some { q with toHand := rest, handing := some h } }))) ∧
     (∀ (ls : List Lane) (l : Lane), (s.copyNeeds ls).lane l = if l ∈ ls then
         { s.lane l with waiting := (s.lane l).waiting ++
           [.pageRead { band := r.band, row := c.source, level := r.level }, .cacheUnload] }
       else s.lane l) ∧
     (∀ ls, s.copyLoaded ls = { s with reader := { r with copyRow := some { c with loaded := some ls } } }) ∧
     (∀ rep : RowReport,
       let attends := rep.outcomes.any (fun x => decide (x.2.cls ∈ [PageClass.weak, .uncorrectable, .tagMismatch]))
       let counted : State := { s with
         reader := { r with
           pagesRebuilt := min 65535 (r.pagesRebuilt + rep.rebuilt), weakSeen := min 255 (r.weakSeen + rep.weak),
           copyRow := some { c with judged := true } },
         signals := s.signals ++ (if attends then [.update .reader (.setAttention r.band) false] else []) }
       (rep.verdict = .unrecoverable → s.copyJudged rep = counted.endCopyRow .dataLoss) ∧
       (rep.verdict = .recoverable → c.fetching = true → s.copyJudged rep = counted) ∧
       (rep.verdict = .recoverable → c.fetching = false → ∀ q, s.coder.read = some q → s.copyJudged rep = counted.produceCopy q
         (Lane.all.filter (fun l => decide (c.plan.get l = .build) && there l)) (r.targetBand, c.target))) ∧
     (∀ n, (r.failing = none → (s.copyFailed n).reader.failing = some n ∧
         (s.copyFailed n).reader.ending = some .programFail ∧
         ∃ d : CopyRow, (s.copyFailed n).reader.copyRow = some d ∧ d.closed = true) ∧
       (r.failing ≠ none → s.copyFailed n = s)) ∧
     (∀ b l n,
       let told : State := { s with reader := { r with lostWaits := r.lostWaits - 1 } }
       ((s.band b).state = .failed → s.readerAnswer (.programFail b l n) true = s.copyFailed n) ∧
       ((s.band b).state ≠ .failed → s.readerAnswer (.programFail b l n) true = s) ∧
       (s.table.storeFault = true → s.readerAnswer (.programFail b l n) false = s.copyFailed n) ∧
       (s.table.storeFault = false → s.readerAnswer (.programFail b l n) false = told.copyFailed n)) ∧
     (let opened : State := { s with reader := { r with openWait := false } }
      s.readerNotice .opened true = opened ∧
      s.readerNotice .opened false = { s with
        reader := { r with openWait := false, copyRow := some { c with openFault := true } } } ∧
      s.readerNotice .lost true = { s with reader := { r with lostWaits := r.lostWaits - 1 } } ∧
      s.readerNotice .lost false = { s with reader := { r with
        lostWaits := r.lostWaits - 1, ending := some (r.ending.getD .storeFault) } }) ∧
     (let running := c.moves ≠ [] ∨ c.awaited ≠ []
      let applied := ∀ l ∈ c.failed, (s.band r.targetBand).absent l c.target = true
      let weak := if c.judged then 0
        else (Lane.all.filter (fun l => (c.outcomes.get l).elim false (fun x => decide (x.cls = .weak)))).length
      let gone : Reader := { r with copyRow := none, weakSeen := min 255 (r.weakSeen + weak) }
      let completed : State := { s with
        reader := { gone with rowsDone := r.rowsDone + 1 },
        signals := s.signals ++ [.update .reader (.rowComplete r.targetBand c.target) false] }
      let whole := c.phase = .moving ∧ (c.given = false ∨ c.committed = true) ∧ applied
      (running → s.copyRowEnd = none) ∧
      (¬running → c.closed = false → (whole → s.copyRowEnd = some completed) ∧ (¬whole → s.copyRowEnd = none)) ∧
      (¬running → c.closed = true →
        (c.touched = false ∨ r.failing ≠ none → s.copyRowEnd = some { s with reader := gone }) ∧
        (c.touched = true → r.failing = none →
          (applied → s.copyRowEnd = some completed) ∧ (¬applied → s.copyRowEnd = none))))) ∧
  (∀ (s : State) (o : Order), s.reader.order = some o → o.kind = .copyRows →
     let r := s.reader
     let noMore := r.toBegin = 0 ∨ r.ending ≠ none ∨ r.stopped ≠ none
     let rowGone := r.started = true ∧ ∀ c, r.copyRow = some c → c.closed = true
     let left (l : Lane) := (∃ p, (s.lane l).cache = some p ∧ p.cond = .read) ∧ (s.lane l).port = none ∧
       (s.lane l).waiting = []
     let due := r.ended = false ∧ r.go = false ∧
       ((r.started = true ∧ r.flights = [] ∧ r.copyRow = none ∧ noMore ∧ r.openWait = false ∧ r.lostWaits = 0) ∨
         (r.started = false ∧ r.ending ≠ none))
     let ends (flushed : Bool) : State := { s with
       reader := { r with ended := true, flushed := flushed }, sheets := { s.sheets with questionHeld := false } }
     let result : Signal := .orderEnd { status := r.status, rowsDone := r.rowsDone, pagesRebuilt := r.pagesRebuilt,
                                        weakSeen := r.weakSeen }
     (rowGone → ∀ l, left l → (∀ k, k.number < l.number → ¬left k) → s.readerCleanup = some (s.give l .cacheDiscard)) ∧
     (¬rowGone ∨ (∀ l, ¬left l) → s.readerCleanup = none) ∧
     (due → r.usesMover = true → s.readerEnd = some (State.endTransfer (ends false))) ∧
     (due → r.usesMover = false → s.readerEnd = some (ends true)) ∧ (¬due → s.readerEnd = none) ∧
     (r.failing ≠ none → r.status = .programFail) ∧
     (r.failing = none →
       (∀ st, r.ending = some st → r.status = st) ∧
       (r.ending = none → ∀ st, r.stopped = some st → r.status = st) ∧
       (r.ending = none → r.stopped = none → 0 < r.pagesRebuilt → r.status = .okRebuilt) ∧
       (r.ending = none → r.stopped = none → r.pagesRebuilt = 0 → r.status = .ok)) ∧
     (r.ended = true → r.flushed = true → r.started = true → s.lanesClear = true → s.readerFinish = some { s with
       reader := Reader.reset, coder := { Coder.reset with owner := s.coder.claim }, signals := s.signals ++ [result] }) ∧
     (r.ended = true → r.flushed = true → r.started = false → s.readerFinish = some { s with
       reader := Reader.reset, signals := s.signals ++ [result] }) ∧
     (r.ended = false ∨ r.flushed = false ∨ (r.started = true ∧ s.lanesClear = false) → s.readerFinish = none) ∧
     (∀ e : MoverEnding, s.writer.order = none → s.takeEnding e = s.endCopyRow (match e with
       | .shortChain => .shortChain | .fragment => .fragment | .busError => .busError)) ∧
     (r.copyRow = none →
       s.readerNotice .opened false = { s with
         reader := { r with openWait := false, ending := some (r.ending.getD .storeFault) } } ∧
       ∀ st, s.endCopyRow st = { s with reader := { r with ending := some (r.ending.getD st) } }))

/-! ## Locks and freezes -/

/-- A band is locked exactly when lock-enable is 1 and the inhibit level is ASSERTED with tight 0, or lock-all is 1, or
a range is held with invert 0 and the band outside it, or with invert 1 and the band inside it (R138). -/
def Obligations.LockedDecision : Prop :=
  ∀ (p : Protection) (b : Nat), p.locked b = true ↔ p.lockEnable = true ∧
    ((p.inhibit = true ∧ p.tight = false) ∨ p.lockAll = true ∨
      (∃ r, p.range = some r ∧ r.invert = false ∧ (b < r.low ∨ r.high < b)) ∨
      (∃ r, p.range = some r ∧ r.invert = true ∧ r.low ≤ b ∧ b ≤ r.high))

/-- A frozen band refuses WRITE ROWS, SEAL BAND, ERASE BAND and COPY ROWS as target with FROZEN, and a locked one with
PROTECTED, when the checks before pass (R90, R107, R120, R132, R144). A fuse write ends: the group's bit is set in the
fuse row and in the working copy, no other bit and no lock changes, every band of the group is frozen, and the FREEZE
GROUP order in progress ends OK (R148). The band services after an order's start. ERASE BAND: a lane that answers RESULT
QUERY idle with an empty port is no longer awaited, and at the last the lock and the freeze are taken again: FROZEN,
PROTECTED, or ERASE START with notice (R133); STORED asks for the store permit, the permit gives BLOCK ERASE to all six
lanes, a refused one and a FAULT end it STORE_FAULT; with the sixth report ERASE END is given with notice, PASS if all
passed, and its STORED ends the order OK or ERASE_FAIL, its FAULT STORE_FAULT (R134, R135). The notice of SEAL ends SEAL
BAND OK or STORE_FAULT (R107). The end of the commit begins the fuse write of FREEZE GROUP, or ends it STORE_FAULT
(R147). Each answer to CLEAR ATTENTION is counted off (R44). -/
def Obligations.LocksRefuseAndServicesRun : Prop :=
  (∀ (s : State) (o : Order), o.band < 1024 → s.table.storeFault = false →
     (s.protect.frozen o.band = true → s.checkWrite o = some .frozen ∧ s.checkSeal o = some .frozen ∧
       (o.eraseLevel ≠ none → s.checkErase o = some .frozen)) ∧
     (s.protect.frozen o.band = false → s.protect.locked o.band = true → s.checkWrite o = some .protected_ ∧
       s.checkSeal o = some .protected_ ∧ (o.eraseLevel ≠ none → s.checkErase o = some .protected_)) ∧
     (o.targetBand < 1024 → s.protect.frozen o.targetBand = true → s.checkCopy o = some .frozen) ∧
     (o.targetBand < 1024 → s.protect.frozen o.targetBand = false → s.protect.locked o.targetBand = true →
       s.checkCopy o = some .protected_)) ∧
  (∀ (s : State) (g : Nat), s.supply = true → s.protect.fuseWrite = some g → g < 64 →
     ∃ u : State, exec .fuseWriteEnd s = .next u.settle ∧
       (∀ i, u.protect.fuses.getLsbD i = (s.protect.fuses.getLsbD i || decide (i = g))) ∧
       (∀ i, u.protect.working.getLsbD i = (s.protect.working.getLsbD i || decide (i = g))) ∧
       (∀ b, b / 16 = g → u.protect.frozen b = true) ∧ u.protect.fuseWrite = none ∧
       u.protect.lockAll = s.protect.lockAll ∧ u.protect.range = s.protect.range ∧ u.protect.tight = s.protect.tight ∧
       (s.services.phase = .fuseWriting → u.signals = s.signals ++ [.orderEnd
         { status := .ok, rowsDone := 0, pagesRebuilt := 0, weakSeen := 0 }]) ∧
       u.lanes = s.lanes ∧ u.table = s.table ∧ u.mem = s.mem) ∧
  (∀ (s : State),
     let v := s.services
     let ended (st : OrderStatus) : State := { s with
       services := Services.reset,
       signals := s.signals ++ [.orderEnd { status := st, rowsDone := 0, pagesRebuilt := 0, weakSeen := 0 }] }
     let goes (w : Services) (more : List Signal) : State := { s with services := w, signals := s.signals ++ more }
     let without (l : Lane) := v.lanesAwaited.filter (fun k => !(k == l))
     let shows (l : Lane) := (s.lane l).state = .idle ∧ (s.lane l).port = none
     (∀ l, s.live = true → exec (.resultQuery l) s = .next (State.settle
       (State.eraseQuery { s with queryAnswer := some ((s.lane l).answer l) } l))) ∧
     (∀ l, (v.phase ≠ .queryLanes ∨ ¬shows l → s.eraseQuery l = s) ∧
       (v.phase = .queryLanes → shows l →
         (without l ≠ [] → s.eraseQuery l = goes { v with lanesAwaited := without l } []) ∧
         (without l = [] → s.eraseQuery l = State.eraseBegin (goes { v with lanesAwaited := [] } [])))) ∧
     (s.protect.frozen v.band = true → s.eraseBegin = ended .frozen) ∧
     (s.protect.frozen v.band = false → s.protect.locked v.band = true → s.eraseBegin = ended .protected_) ∧
     (s.protect.frozen v.band = false → s.protect.locked v.band = false → s.eraseBegin =
       goes { v with phase := .eraseNotice } [.update .services (.eraseStart v.band v.level) true]) ∧
     (v.phase = .eraseNotice → s.servicesNotice .eraseStart false = ended .storeFault ∧
       s.servicesNotice .eraseStart true = goes { v with phase := .erasePermit } [.askPermit .services]) ∧
     (v.phase = .erasePermit → s.erasePermit false = ended .storeFault ∧
       (s.erasePermit true).services = { v with phase := .erasing, lanesAwaited := Lane.all, failSeen := false } ∧
       (s.erasePermit true).signals = s.signals ∧ ∀ l, (s.erasePermit true).lane l = { s.lane l with
         waiting := (s.lane l).waiting ++ [.blockErase v.band] }) ∧
     (v.phase = .erasing → ∀ l op,
       let failed := v.failSeen || decide (op.outcome = .fail)
       (without l ≠ [] → s.eraseReport l op = goes { v with lanesAwaited := without l, failSeen := failed } []) ∧
       (without l = [] → s.eraseReport l op =
         goes { v with lanesAwaited := [], failSeen := failed, phase := .eraseEndNotice }
           [.update .services (.eraseEnd v.band (!failed)) true])) ∧
     (v.phase = .eraseEndNotice → s.servicesNotice .eraseEnd false = ended .storeFault ∧
       s.servicesNotice .eraseEnd true = ended (if v.failSeen then .eraseFail else .ok)) ∧
     (v.phase = .sealNotice → s.servicesNotice .sealed true = ended .ok ∧
       s.servicesNotice .sealed false = ended .storeFault) ∧
     (v.phase = .freezeCommit → s.servicesNotice .commitEnd false = ended .storeFault ∧
       ∀ o, v.order = some o → s.servicesNotice .commitEnd true = { s with
         services := { v with phase := .fuseWriting }, protect := { s.protect with fuseWrite := some o.group } }) ∧
     (∀ b applied, s.servicesAnswer (.clearAttention b) applied = goes { v with answers := v.answers - 1 } []))

/-! ## The memory mover and the port -/

/-- The walk: the mover needs a descriptor before the first fragment and after each that is used up, inbound while bytes
are permitted, outbound while a word waits to be written, and no access runs (that it waits for the burst that took the
fragment's last words is the model's choice, log 35). A next address of zero is the end of the chain; the 4097th
descriptor and an address that is no multiple of 16 give FRAGMENT; else the descriptor's read is raised (R151, R152). At
the end of the chain an inbound transfer takes fill words as the FIFO has room, or without FILL ends SHORT_CHAIN (R153);
an outbound one with a word to write ends SHORT_CHAIN (R155). An access of a descriptor read ends: at burst length 1 one
of its four words, else all four in one burst. Short of the fourth word the words are held and the next access is
raised. With it, a fragment that passes the checks is entered and one that fails gives FRAGMENT; a bus error gives
BUS_ERROR, and ERROR_ADDRESS names the first failed beat, if the flag was clear (R151, R152, R160, R161; that the four
single words are read in ascending address order is the model's choice, log 45). -/
def Obligations.DescriptorChecked : Prop :=
  (∀ (s : State) (a : Nat) (got : List Word) (c : Cursor) (reply : BusReply), s.live = true → s.port = some .mover →
     s.mover.access = some (.descriptor a got) → s.mover.cursor = some c → s.mover.ended = false → reply.stores = [] →
     let ws := got ++ Memory.readWords s.mem (a + 4 * got.length) (if s.mover.burstLength = 1 then 1 else 4)
     let addr := (ws.getD 0 0#32).toNat
     let len := (ws.getD 1 0#32).toNat
     let good := 4 ≤ len ∧ len ≤ 65532 ∧ len % 4 = 0 ∧ addr ≠ 0 ∧ addr % 4 = 0 ∧ addr + len ≤ 4294967296
     (reply.error = none → ws.length < 4 →
       exec (.descriptorReadEnd reply) s = .next (State.settle { s with port := none, mover := { s.mover with
         access := some (.descriptor a ws) } })) ∧
     (reply.error = none → 4 ≤ ws.length → good →
       exec (.descriptorReadEnd reply) s = .next (State.settle { s with port := none, mover := { s.mover with
         access := none, chain := .inFragment,
         cursor := some { descriptor := a, fragment := addr, left := len, next := (ws.getD 2 0#32).toNat,
                          walked := c.walked } } })) ∧
     (reply.error = none → 4 ≤ ws.length → ¬good →
       exec (.descriptorReadEnd reply) s = .next (State.settle { s with port := none, mover := { s.mover with
         access := none, pendingEnding := some .fragment } })) ∧
     (∀ b, reply.error = some b →
       ∃ u : State, exec (.descriptorReadEnd reply) s = .next u.settle ∧ u.window.flag .busError = true ∧
         u.window.errorAddress =
           (if s.window.flag .busError then s.window.errorAddress else errorWord (a + 4 * got.length + 4 * b) false) ∧
         u.mover = { s.mover with access := none, pendingEnding := some .busError } ∧ u.mem = s.mem)) ∧
  (∀ (s : State) (c : Cursor), s.mover.cursor = some c →
     let m := s.mover
     let running := m.phase = .moving ∨ m.phase = .flushing
     let due := m.pendingEnding = none ∧ m.access = none ∧ m.ended = false ∧
       (m.chain = .notStarted ∨ m.chain = .exhausted) ∧
       ((m.direction = some .inbound ∧ m.phase = .moving ∧ 0 < m.permit) ∨
         (m.direction = some .outbound ∧ running ∧ m.fifo ≠ []))
     let counted := some { c with walked := c.walked + 1 }
     (¬due → s.moverWalk = none) ∧
     (due → c.next = 0 → s.moverWalk = some { s with mover := { m with chain := .atEnd } }) ∧
     (due → c.next ≠ 0 → 4096 ≤ c.walked → s.moverWalk = some { s with mover := { m with
       pendingEnding := some .fragment } }) ∧
     (due → c.next ≠ 0 → c.walked < 4096 →
       (c.next % 16 ≠ 0 → s.moverWalk = some { s with mover := { m with
         cursor := counted, pendingEnding := some .fragment } }) ∧
       (c.next % 16 = 0 → s.moverWalk = some { s with mover := { m with
         cursor := counted, access := some (.descriptor c.next []) } }))) ∧
  (∀ (s : State), s.mover.chain = .atEnd → s.mover.pendingEnding = none → s.mover.ended = false →
     let m := s.mover
     let short : State := { s with mover := { m with pendingEnding := some .shortChain } }
     (m.direction = some .inbound → m.phase = .moving → 0 < m.permit →
       (m.fill = none → s.moverAtEnd = some short) ∧
       (∀ b, m.fill = some b →
         let n := min (16 - m.fifo.length) (m.permit / 4)
         (0 < n → s.moverAtEnd = some { s with mover := { m with
           fifo := m.fifo ++ List.replicate n (wordOf b b b b), permit := m.permit - 4 * n } }) ∧
         (n = 0 → s.moverAtEnd = none))) ∧
     (m.direction = some .inbound → m.permit = 0 → s.moverAtEnd = none) ∧
     (m.direction = some .outbound → m.phase = .moving ∨ m.phase = .flushing →
       (m.fifo ≠ [] → s.moverAtEnd = some short) ∧ (m.fifo = [] → s.moverAtEnd = none)))

/-- A burst may start, with no access running and no pending ending: inbound while MOVING in a fragment with bytes
permitted and, free in the FIFO, the lesser of the threshold and the words to the nearest of the fragment's end, the 1
KiB boundary and the permit's end (R153); outbound while MOVING or FLUSHING in a fragment when the FIFO holds at least
the lesser of the threshold and the words to the nearer boundary, or the last word of a unit (R155); a fetch while
MOVING when the lesser of the threshold and the words still to fetch is free (R158). A fetch's words are handed as they
stand in the FIFO (the model's reading, log 38), and with the last FETCH DONE is reported (R158). BURST START with the
port granted: that burst is in progress; an outbound burst's words leave the FIFO, an inbound one's and a fetch's the
permit; the cursor moves past them, the chain EXHAUSTED when the fragment is used up, and a fetch's address moves on
(R152 to R158; its wrap at 2^32 is the model's choice, log 32). A burst's length is the largest of 1, 4, 8 and 16 beats
within the burst length, the fragment, the permit and the FIFO that crosses no 1 KiB boundary; a fetch has no fragment
(R157, R158). BURST END without a bus error: an inbound or a fetch's burst's words join the FIFO in address order; an
outbound burst's words stand in host memory, every other byte as before, and a unit completed is told (R153, R155, R158,
R161; that a fetch's words join the FIFO and an outbound burst's words leave the permit at the burst's end is the
model's, logs 38 and 16). The access of a transfer that END found in progress runs to its end: its words are not used,
and FLUSHED follows (R157, R159). With a bus error ERROR_ADDRESS names the first failed beat, if BUS_ERROR was clear,
and the mover's pending ending is BUS_ERROR; a fetch ends with it at once. No word of a failed read joins the FIFO, and
of a failed write only words of the burst stand in host memory (R161, R162). -/
def Obligations.BurstsStartAndEnd : Prop :=
  (∀ (s : State), s.live = true → s.port = some .mover →
     let m := s.mover
     let starts (u : Mover) : Prop := exec .burstStart s = .next (State.settle { s with mover := u })
     let past (c : Cursor) (n : Nat) : Cursor := { c with fragment := c.fragment + 4 * n, left := c.left - 4 * n }
     let chain (c : Cursor) (n : Nat) : ChainState := if c.left ≤ 4 * n then .exhausted else .inFragment
     (∀ a n, m.burstNow = some (.readBurst a n) →
       (∀ f, m.direction = some .fetch → m.fetch = some f → starts { m with
         access := some (.readBurst a n), permit := m.permit - 4 * n,
         fetch := some { f with address := (f.address + 4 * n) % 4294967296 } }) ∧
       (∀ c, m.direction = some .inbound → m.cursor = some c → starts { m with
         access := some (.readBurst a n), permit := m.permit - 4 * n, cursor := some (past c n), chain := chain c n }) ∧
       ((m.direction = some .fetch ∧ m.fetch ≠ none) ∨ (m.direction = some .inbound ∧ m.cursor ≠ none))) ∧
     (∀ a ws, m.burstNow = some (.writeBurst a ws) →
       (∀ c, m.cursor = some c → starts { m with
         access := some (.writeBurst a ws), fifo := m.fifo.drop ws.length, cursor := some (past c ws.length),
         chain := chain c ws.length }) ∧
       m.direction = some .outbound ∧ m.cursor ≠ none)) ∧
  (∀ (m : Mover) (c : Cursor), m.burstLength ∈ [1, 4, 8, 16] → 4 ≤ m.threshold → m.cursor = some c → 4 ≤ c.left →
     c.fragment % 4 = 0 → m.permit % 4 = 0 → m.fifo.length ≤ 16 →
     (∀ a n, m.direction = some .inbound → m.burstNow = some (.readBurst a n) →
       let fits (k : Nat) := k ∈ [1, 4, 8, 16] ∧ k ≤ m.burstLength ∧ 4 * k ≤ c.left ∧ 4 * k ≤ m.permit ∧
         m.fifo.length + k ≤ 16 ∧ a % 1024 + 4 * k ≤ 1024
       a = c.fragment ∧ fits n ∧ ∀ k, fits k → k ≤ n) ∧
     (∀ a ws, m.direction = some .outbound → m.burstNow = some (.writeBurst a ws) →
       let fits (k : Nat) := k ∈ [1, 4, 8, 16] ∧ k ≤ m.burstLength ∧ 4 * k ≤ c.left ∧ k ≤ m.fifo.length ∧
         a % 1024 + 4 * k ≤ 1024
       a = c.fragment ∧ ws = m.fifo.take ws.length ∧ fits ws.length ∧ ∀ k, fits k → k ≤ ws.length)) ∧
  (∀ (m : Mover) (f : Fetch) (a n : Nat), m.burstLength ∈ [1, 4, 8, 16] → 4 ≤ m.threshold → m.fetch = some f →
     f.address % 4 = 0 → m.permit % 4 = 0 → m.fifo.length ≤ 16 → m.direction = some .fetch →
     m.burstNow = some (.readBurst a n) →
     let fits (k : Nat) := k ∈ [1, 4, 8, 16] ∧ k ≤ m.burstLength ∧ 4 * k ≤ m.permit ∧ m.fifo.length + k ≤ 16 ∧
       a % 1024 + 4 * k ≤ 1024
     a = f.address ∧ fits n ∧ ∀ k, fits k → k ≤ n) ∧
  (∀ (s : State) (reply : BusReply), s.live = true → s.port = some .mover → reply.stores = [] → reply.error = none →
    s.mover.ended = false →
    (∀ a n, s.mover.access = some (.readBurst a n) →
      exec (.burstEnd reply) s = .next (State.settle { s with port := none, mover := { s.mover with
        access := none, fifo := s.mover.fifo ++ Memory.readWords s.mem a n } })) ∧
    (∀ a ws, s.mover.access = some (.writeBurst a ws) → Memory.wf s.mem = true →
      ∃ u : State, exec (.burstEnd reply) s = .next u.settle ∧ Memory.readWords u.mem a ws.length = ws ∧
        (∀ x, x < a ∨ a + 4 * ws.length ≤ x → Memory.readByte u.mem x = Memory.readByte s.mem x) ∧
        u.mover.access = none ∧ u.mover.written = s.mover.written + ws.length ∧
        u.mover.permit = s.mover.permit - 4 * ws.length ∧
        (let unit := s.mover.unitSize / 4
         let done := (s.mover.written + ws.length) / unit - s.mover.written / unit
         u.signals = s.signals ++ List.replicate done .unitWritten))) ∧
  (∀ (s : State) (reply : BusReply) (b : Nat), s.live = true → s.port = some .mover → reply.stores = [] →
    reply.error = some b → s.mover.ended = false →
    let recorded (address : Nat) (write : Bool) :=
      if s.window.flag .busError then s.window.errorAddress else errorWord address write
    (∀ a n, s.mover.access = some (.readBurst a n) →
      ∃ u : State, exec (.burstEnd reply) s = .next u.settle ∧ u.window.flag .busError = true ∧
        u.window.errorAddress = recorded (a + 4 * b) false ∧ u.mem = s.mem ∧ u.port = none ∧
        (s.mover.fetch = none →
          u.mover = { s.mover with access := none, pendingEnding := some .busError } ∧ u.signals = s.signals) ∧
        (s.mover.fetch ≠ none →
          u.mover = { s.mover with access := none, fetch := none, phase := .stopped } ∧
            u.signals = s.signals ++ [.moverEnding .busError])) ∧
    (∀ a ws, s.mover.access = some (.writeBurst a ws) → b < ws.length → Memory.wf s.mem = true →
      ∃ u : State, exec (.burstEnd reply) s = .next u.settle ∧ u.window.flag .busError = true ∧
        u.window.errorAddress = recorded (a + 4 * b) true ∧ u.port = none ∧
        u.mover = { s.mover with access := none, pendingEnding := some .busError } ∧ u.signals = s.signals ∧
        (∀ x, x < a ∨ a + 4 * ws.length ≤ x → Memory.readByte u.mem x = Memory.readByte s.mem x))) ∧
  (∀ (s : State) (reply : BusReply), s.live = true → s.port = some .mover → reply.stores = [] → s.mover.ended = true →
    let flushed (c : Instr) := ∃ u : State, exec c s = .next u.settle ∧ u.mover = Mover.reset ∧ u.port = none ∧
      u.signals = s.signals ++ [.flushed] ∧ u.mem = s.mem ∧ (reply.error ≠ none → u.window.flag .busError = true)
    (∀ a n, s.mover.access = some (.readBurst a n) → flushed (.burstEnd reply)) ∧
    (∀ a got, s.mover.access = some (.descriptor a got) → flushed (.descriptorReadEnd reply))) ∧
  (∀ (m : Mover),
     let free := m.access = none ∧ m.pendingEnding = none
     let room (c : Cursor) := min (c.left / 4) ((1024 - c.fragment % 1024) / 4)
     let unit := m.unitSize / 4
     (∀ c, m.direction = some .inbound → m.cursor = some c →
       (m.burstNow ≠ none ↔ free ∧ m.phase = .moving ∧ m.chain = .inFragment ∧ 0 < m.permit ∧
         min m.threshold (min (room c) (m.permit / 4)) ≤ 16 - m.fifo.length)) ∧
     (∀ c, m.direction = some .outbound → m.cursor = some c →
       (m.burstNow ≠ none ↔ free ∧ (m.phase = .moving ∨ m.phase = .flushing) ∧ m.chain = .inFragment ∧ m.fifo ≠ [] ∧
         (min m.threshold (room c) ≤ m.fifo.length ∨
           ∃ j, m.handed - m.fifo.length < j * unit ∧ j * unit ≤ m.handed))) ∧
     (∀ f, m.direction = some .fetch → m.fetch = some f →
       (m.burstNow ≠ none ↔ free ∧ m.phase = .moving ∧ 0 < m.permit ∧
         min m.threshold (m.permit / 4) ≤ 16 - m.fifo.length))) ∧
  (∀ (s : State),
     let m := s.mover
     (∀ f w ws, m.direction = some .fetch → m.fetch = some f → m.fifo = w :: ws →
       let got := f.got ++ w :: ws
       (m.permit = 0 → s.moverHandsFetch = some { s with
         mover := { m with fifo := [], fetch := none }, signals := s.signals ++ [.fetchDone f.forWhom got] }) ∧
       (m.permit ≠ 0 → s.moverHandsFetch = some { s with mover := { m with
         fifo := [], fetch := some { f with got := got } } })) ∧
     (m.direction ≠ some .fetch ∨ m.fetch = none ∨ m.fifo = [] → s.moverHandsFetch = none))

/-- Endings and END of a transfer. A pending ending is reported with the phase STOPPED: inbound once the FIFO is empty
and the coder asks for a word or assembles no row (R154), outbound at once (R155); in a flush it is reported, the rest
of the FIFO is emptied and FLUSHED follows (R159, which says so of a bus error; for SHORT_CHAIN and FRAGMENT it is the
model's choice, log 15). END, by phase: IDLE no effect; STOPPED flushed at once; MOVING outbound FLUSHING; MOVING
inbound or fetch the FIFO is emptied, and FLUSHED follows the burst or descriptor read that has the port, or comes at
once when none has it (R159). A burst granted the port is not cut by END, also one that has not started yet: it still
starts, at the same address, and runs to its end (R157; that its length is taken with the FIFO as END left it is the
model's reading, log 41). A flush ends with the FIFO empty and no access left (R159). After FLUSHED the mover is at its
values after reset. An ended transfer walks no further, takes no fill and reports no ending. UNIT WRITTEN counts a
record of a QUERY BANDS order and gives CLEAR ATTENTION when the order asks for it; the mover's ending, or the last
record written, gives END, and after FLUSHED and every answer the result is reported (R44). -/
def Obligations.TransfersEnd : Prop :=
  (∀ (s : State) (e : MoverEnding), s.mover.pendingEnding = some e →
     let m := s.mover
     let stopped : State := { s with
       mover := { m with phase := .stopped }, signals := s.signals ++ [.moverEnding e] }
     let asks := s.coder.write = none ∨ ∃ a, s.coder.write = some a ∧ a.handing = none ∧ a.index < 6 - a.level.val
     (m.direction = some .inbound → m.phase = .moving → m.ended = false →
       (m.fifo = [] → asks → s.moverReport = some stopped) ∧ (m.fifo ≠ [] ∨ ¬asks → s.moverReport = none)) ∧
     (m.direction = some .outbound →
       (m.phase = .moving → s.moverReport = some stopped) ∧
       (m.phase = .flushing → s.moverReport = some { s with
         mover := Mover.reset, signals := s.signals ++ [.moverEnding e, .flushed] }))) ∧
  (∀ (s : State),
     let m := s.mover
     let flushed : State := { s with mover := Mover.reset, signals := s.signals ++ [.flushed] }
     let busy := s.port = some .mover ∧ (m.access ≠ none ∨ m.burstNow ≠ none)
     (m.phase = .idle ∨ m.phase = .flushing → s.endTransfer = s) ∧
     (m.phase = .stopped → s.endTransfer = flushed) ∧
     (m.phase = .moving → m.direction = some .outbound →
       s.endTransfer = { s with mover := { m with phase := .flushing } }) ∧
     (m.phase = .moving → m.direction ≠ some .outbound →
       (busy → s.endTransfer = { s with mover := { m with fifo := [], ended := true } }) ∧
       (¬busy → s.endTransfer = flushed) ∧
       (∀ a n, busy → m.access = none → m.burstNow = some (.readBurst a n) →
         ∃ k, s.endTransfer.mover.burstNow = some (.readBurst a k) ∧ n ≤ k ∧ s.endTransfer.port = some .mover ∧
           s.endTransfer.arbitrate = none)) ∧
     (m.ended = true → s.moverWalk = none ∧ s.moverAtEnd = none ∧
       (m.direction = some .inbound ∨ m.direction = some .fetch → s.moverReport = none)) ∧
     (m.phase = .flushing ∧ m.fifo = [] ∧ m.access = none ∧ m.pendingEnding = none → s.moverFlushEnd = some flushed) ∧
     (¬(m.phase = .flushing ∧ m.fifo = [] ∧ m.access = none ∧ m.pendingEnding = none) → s.moverFlushEnd = none)) ∧
  (∀ (s : State) (o : Order), s.writer.order = none → s.reader.order = none → s.services.order = some o →
     let v := s.services
     (o.clearAttention = false → s.takeUnit = { s with services := { v with written := v.written + 1 } }) ∧
     (o.clearAttention = true → s.takeUnit = { s with
       services := { v with written := v.written + 1, answers := v.answers + 1 },
       signals := s.signals ++ [.update .services (.clearAttention (v.band + v.written)) false] }) ∧
     (∀ e, s.takeEnding e = { s with services := { v with
       words := [],
       ending := some (v.ending.getD (match e with
         | .shortChain => .shortChain | .fragment => .fragment | .busError => .busError)) } }) ∧
     s.takeFlushed = { s with services := { v with flushed := true } } ∧
     (v.phase = .records → v.ended = false →
       (v.ending ≠ none ∨ o.count ≤ v.written →
         s.queryEnd = some (State.endTransfer { s with services := { v with ended := true } })) ∧
       (v.ending = none → v.written < o.count → s.queryEnd = none)) ∧
     (v.phase = .records → v.ended = true →
       (v.flushed = true → v.answers = 0 → s.queryFinish = some { s with
         services := Services.reset,
         signals := s.signals ++ [.orderEnd
           { status := v.ending.getD .ok, rowsDone := v.written, pagesRebuilt := 0, weakSeen := 0 }] }) ∧
       (v.flushed = false ∨ v.answers ≠ 0 → s.queryFinish = none)))

/-- The bus master port carries one access at a time. Idle, it is granted to the highest requester that has raised an
access: sheet access, then the mover, then the report writer; while the granted requester has its access, no other is
granted (R160). Sheet access carries the accesses of the sheet processor and of the mode controller in the order in
which the two gave them, and of two given together the sheet processor's first. Once nothing more comes about in a step,
no requester waits at an idle port. -/
def Obligations.PortGrantedInOrder : Prop :=
  (∀ (s : State),
     (s.wantsPort .sheet = true ↔ s.sheetLine ≠ []) ∧
     (s.wantsPort .mover = true ↔ s.mover.access ≠ none ∨ s.mover.burstNow ≠ none) ∧
     (s.wantsPort .report = true ↔ s.patrol.write ≠ none) ∧
     (s.port = none →
       (s.wantsPort .sheet = true → s.arbitrate = some { s with port := some .sheet }) ∧
       (s.wantsPort .sheet = false → s.wantsPort .mover = true → s.arbitrate = some { s with port := some .mover }) ∧
       (s.wantsPort .sheet = false → s.wantsPort .mover = false → s.wantsPort .report = true →
         s.arbitrate = some { s with port := some .report })) ∧
     (∀ r, s.port = some r → s.wantsPort r = true → s.arbitrate = none)) ∧
  (∀ (s : State),
     (s.sheetLine = [] → s.sheets.access ≠ none → s.modes.configRead ≠ none → s.raised = [.sheets, .config]) ∧
     (s.sheetLine = [.config] → s.sheets.access ≠ none → s.modes.configRead ≠ none → s.raised = [.config, .sheets]) ∧
     (s.sheetLine = [.sheets] → s.sheets.access ≠ none → s.modes.configRead ≠ none → s.raised = [.sheets, .config]) ∧
     (s.endBeat.port = none ∧ s.endBeat.sheetLine = s.sheetLine.drop 1)) ∧
  (∀ (s : State), s.advance = none →
     s.raised = s.sheetLine ∧
       ((∃ r, s.port = some r ∧ s.wantsPort r = true) ∨ (s.port = none ∧ ∀ r, s.wantsPort r = false)))

/-! ## Modes, configuration and patrol -/

/-- The end of the clean commit awaited, PASS or FAIL, leaves none awaited, and a pending wake goes on after it; with
none awaited it changes nothing (R173, R174). A wake goes on: once no commit is awaited POWER UP is given to every lane,
and once every lane stands idle with nothing in its port or waiting the mode is RUN (R174). DRAIN goes on: CLOSED once
the sheet processor holds no sheet, no order and no access (R84); then, with the patrol run ended, no APPLY in progress
and every lane idle or off with no request, POWER DOWN is given to each lane not off; then, once no commit is in flight,
the clean commit request is raised, unless the marker is 1 with no request pending, and its commit awaited; under
STORE_FAULT it is raised, stays pending and is not waited for (R38, R40); with that done and every lane off the mode is
PARKED (R177). The end of the commit awaited, PASS or FAIL, counts as done (R177; log 42 for a wait that began before it
started). In PARKED with the warning withdrawn POWER UP is given to every lane, and once every lane stands idle the mode
is RUN, stop state NONE (R178). -/
def Obligations.DrainWakeAndPark : Prop :=
  (∀ (s : State),
     let m := s.modes
     let t := s.modeNotice
     (m.commitAwaited = true → m.mode ≠ .patrol ∨ m.patrolStage ≠ .committing →
       m.drain = none ∨ (∃ d, m.drain = some d ∧ d.lanesQuiet = false) →
       t = { s with modes := { m with commitAwaited := false } }) ∧
     (m.commitAwaited = true → m.mode = .standby → m.drain = none → m.wake = true → m.powerGiven = false →
       ∃ u : State, t.wakeOn = some u ∧ u.modes.powerGiven = true ∧ u.modes.commitAwaited = false ∧
         ∀ l, u.lane l = { s.lane l with waiting := (s.lane l).waiting ++ [.powerUp] }) ∧
     (m.commitAwaited = false → t = s)) ∧
  (∀ (s : State),
     let m := s.modes
     let idle := ∀ l, (s.lane l).state = .idle ∧ (s.lane l).port = none ∧ (s.lane l).waiting = []
     let waking := m.mode = .standby ∧ m.wake = true ∧ m.commitAwaited = false
     let powered (t : State) := ∀ l, t.lane l = { s.lane l with waiting := (s.lane l).waiting ++ [.powerUp] }
     (waking → m.powerGiven = false → ∃ t : State, s.wakeOn = some t ∧
       t.modes = { m with powerGiven := true } ∧ powered t ∧ t.sheets = s.sheets) ∧
     (waking → m.powerGiven = true → idle → s.wakeOn = some { s with modes := { m with
       mode := .run, wake := false, powerGiven := false } }) ∧
     (¬waking ∨ (m.powerGiven = true ∧ ¬idle) → s.wakeOn = none) ∧
     (m.mode = .parked → m.warning = false → m.leaving = false → ∃ t : State, s.parkedOn = some t ∧
       t.modes = { m with leaving := true } ∧ powered t ∧ t.sheets = s.sheets) ∧
     (m.mode = .parked → m.warning = false → m.leaving = true → idle → s.parkedOn = some { s with
       modes := { m with mode := .run, leaving := false }, sheets := { s.sheets with stop := .none } }) ∧
     (m.mode ≠ .parked ∨ m.warning = true ∨ (m.leaving = true ∧ ¬idle) → s.parkedOn = none)) ∧
  (∀ (s : State) (d : Drain), s.modes.mode = .drain → s.modes.drain = some d →
     let m := s.modes
     let h := s.sheets
     let now (e : Drain) : State := { s with modes := { m with drain := some e } }
     let closed := h.order = none ∧ h.active = none ∧ h.closing = [] ∧ h.closer = none ∧ h.access = none
     let still := ∀ l, ((s.lane l).state = .idle ∨ (s.lane l).state = .off) ∧ (s.lane l).port = none ∧
       (s.lane l).waiting = []
     let off := ∀ l, (s.lane l).state = .off
     let rest := d.closed = true ∧ d.lanesQuiet = true ∧ (d.lanesOff = true ∨ ¬off)
     let clean := s.table.marker = true ∧ s.table.plainReq = false ∧ s.table.cleanReq = false
     (d.closed = false → (closed → s.drainOn = some (now { d with closed := true })) ∧ (¬closed → s.drainOn = none)) ∧
     (d.closed = true → d.lanesQuiet = false →
       (d.patrolEnded = true → m.configRead = none → still → ∃ t : State, s.drainOn = some t ∧
         t.modes = { m with drain := some { d with lanesQuiet := true } } ∧ (∀ l, t.lane l =
           if (s.lane l).state = .off then s.lane l
           else { s.lane l with waiting := (s.lane l).waiting ++ [.powerDown] }) ∧ t.signals = s.signals) ∧
       (d.patrolEnded = false ∨ m.configRead ≠ none ∨ ¬still → s.drainOn = none)) ∧
     (d.closed = true → d.lanesQuiet = true → d.lanesOff = false → off →
       s.drainOn = some (now { d with lanesOff := true })) ∧
     (rest → d.commitDone = false →
       (m.commitAwaited = true → s.drainOn = none) ∧
       (m.commitAwaited = false → s.table.commit ≠ none → s.drainOn = none) ∧
       (m.commitAwaited = false → s.table.commit = none →
         (clean → s.drainOn = some (now { d with commitDone := true })) ∧
         (¬clean → s.table.storeFault = false → s.drainOn = some { s with
           modes := { m with commitAwaited := true }, signals := s.signals ++ [.commitRequest .mode true true] }) ∧
         (¬clean → s.table.storeFault = true → s.drainOn = some { s with
           modes := { m with drain := some { d with commitDone := true } },
           signals := s.signals ++ [.commitRequest .mode true false] }))) ∧
     (rest → d.commitDone = true →
       (d.lanesOff = true → s.drainOn = some { s with modes := { m with
         mode := .parked, drain := none, leaving := false } }) ∧
       (d.lanesOff = false → s.drainOn = none)) ∧
     (m.commitAwaited = true → d.lanesQuiet = true → s.modeNotice =
       { s with modes := { m with commitAwaited := false, drain := some { d with commitDone := true } } }))

/-- APPLY, taken in AWAIT_CONFIG or an idle RUN with an aligned address, raises the read of the block and changes no
mode; otherwise it is refused with CONFIG_REFUSED and its reason, the configuration as it was (R170, R171 steps 1 to 3).
The four configuration reads, one single beat each: the words are held until the last; a bus error in any refuses the
APPLY with BUS. With the last, a block that fails a check is refused with the check's reason; one that passes is refused
STATE when the mode is not that of step 1, a sheet is active or the queue is not empty, and is applied otherwise, with
CONFIG_DONE and the report area of the patrol unit taken over; from AWAIT_CONFIG the mode is then RUN, or with the
warning level ASSERTED DRAIN, with POWER_WARN set (R171, R172, R176; that step 8 looks at the moment of taking effect
alone is the model's choice, log 36). The checks of a configuration block, in their order, and the fields taken from one
that passes (R171, 11.4). -/
def Obligations.ApplyChecksConfiguration : Prop :=
  (∀ (s : State), s.live = true →
     let allowed := s.modes.mode = .awaitConfig ∨ (s.modes.mode = .run ∧ s.sheets.stop = .none ∧
       s.sheets.active = none ∧ s.sheets.queue = [] ∧ s.sheets.closing = [])
     let skew := s.window.configAddress = 0#32 ∨ s.window.configAddress.toNat % 16 ≠ 0
     (allowed → s.modes.configRead = none → ¬skew →
       exec .apply s = .next (State.settle { s with modes := { s.modes with
         configRead := some { address := s.window.configAddress, got := [], startMode := s.modes.mode } } })) ∧
     (∀ r, ((¬allowed ∨ s.modes.configRead ≠ none) ∧ r = Reason.state) ∨
         (allowed ∧ s.modes.configRead = none ∧ skew ∧ r = .align) →
       ∃ t : State, exec .apply s = .next t ∧ t.window.flag .configRefused = true ∧ t.window.refusal = r ∧
         t.window.refusalApply = true ∧ t.modes.config = s.modes.config)) ∧
  (∀ (s : State) (rd : ConfigRead) (reply : BusReply), s.live = true → s.port = some .sheet →
     s.sheetLine.head? = some .config → s.modes.configRead = some rd → reply.stores = [] →
     let at_ := rd.address.toNat + 4 * rd.got.length
     let ws := rd.got ++ [Memory.readWord s.mem at_]
     let refused (t : State) (reason : Reason) := t.window.refusal = reason ∧ t.window.refusalApply = true ∧
       t.window.flag .configRefused = true ∧ t.modes.config = s.modes.config
     (reply.error = some 0 →
       ∃ u : State, exec (.configReadEnd reply) s = .next u.settle ∧ refused u .bus ∧ u.modes.configRead = none ∧
         u.window.flag .busError = true ∧
         u.window.errorAddress = (if s.window.flag .busError then s.window.errorAddress else errorWord at_ false)) ∧
     (reply.error = none → rd.got.length < 3 →
       exec (.configReadEnd reply) s = .next (State.settle { s with
         port := none, sheetLine := s.sheetLine.drop 1,
         modes := { s.modes with configRead := some { rd with got := ws } } })) ∧
     (reply.error = none → rd.got.length = 3 →
       (∀ reason, checkConfig ws = .inr reason →
         ∃ u : State, exec (.configReadEnd reply) s = .next u.settle ∧ refused u reason ∧ u.modes.configRead = none) ∧
       (∀ c, checkConfig ws = .inl c → s.modes.mode ≠ rd.startMode ∨ s.sheets.active ≠ none ∨ s.sheets.queue ≠ [] →
         ∃ u : State, exec (.configReadEnd reply) s = .next u.settle ∧ refused u .state ∧ u.modes.configRead = none) ∧
       (∀ c, checkConfig ws = .inl c → s.modes.mode = rd.startMode → s.sheets.active = none → s.sheets.queue = [] →
         ∃ u : State, exec (.configReadEnd reply) s = .next u.settle ∧ u.modes.config = some c ∧ u.modes.configRead = none ∧
           u.window.flag .configDone = true ∧ u.mem = s.mem ∧
           (let fresh := s.patrol.applied (newArea s.modes.config c) c
            let drains := s.modes.mode = .awaitConfig ∧ s.modes.warning = true
            (¬drains → u.patrol = fresh ∧ u.window = s.window.set .configDone) ∧
            (drains → u.patrol = { fresh with
                timer := none, run := s.patrol.run.map (fun r => { r with endRequested := true }) } ∧
              u.window = (s.window.set .configDone).set .powerWarn ∧ u.sheets.stop = .drain)) ∧
           (s.modes.mode = .awaitConfig → s.modes.warning = false → u.modes.mode = .run) ∧
           (s.modes.mode = .awaitConfig → s.modes.warning = true → u.modes.mode = .drain) ∧
           (s.modes.mode = .run → u.modes.mode = .run)))) ∧
  (∀ (w0 w1 w2 w3 : Word),
     let weak := bits w0 8 4
     let budget := bits w1 16 16
     let cap := bits w3 0 16
     (burstOfCode (bits w0 0 3) = none ∨ thresholdOfCode (bits w0 4 3) = none →
       checkConfig [w0, w1, w2, w3] = .inr .range) ∧
     (∀ b t, burstOfCode (bits w0 0 3) = some b → thresholdOfCode (bits w0 4 3) = some t →
       let inRange := 1 ≤ weak ∧ weak ≤ 8 ∧ 1 ≤ budget ∧ budget ≤ 4096 ∧ cap ≤ 1024 ∧
         (cap = 0 ∨ w2.toNat + 8 + 16 * cap ≤ 4294967296)
       let pair := b ≤ t ∧ t % b = 0
       let area := cap = 0 ∨ (w2 ≠ 0#32 ∧ w2.toNat % 16 = 0)
       (¬inRange → checkConfig [w0, w1, w2, w3] = .inr .range) ∧
       (inRange → ¬pair → checkConfig [w0, w1, w2, w3] = .inr .burstThreshold) ∧
       (inRange → pair → ¬area → checkConfig [w0, w1, w2, w3] = .inr .align) ∧
       (inRange → pair → area → checkConfig [w0, w1, w2, w3] = .inl
         { burstLength := b, threshold := t, weakThreshold := weak, patrolInterval := bits w1 0 16,
           patrolBudget := budget, reportAddress := w2, reportCapacity := cap })))

/-- PATROL VISIT: with budget left and no end requested, the next qualifying row is visited: the coder, free, is claimed
and given a CHECK of the row, and each present lane a PAGE READ of it alone, its CACHE UNLOAD following once the coder
has taken the row (the model's choice, log 26); the visit is recorded as not yet checked, the run, the cursor and the
counts as before (R183); with the budget used up, or an end requested, or no row found, the run
is at its end (R182, R183). The unit decides with no report write in progress and no report command waiting (log 26).
The search takes the first qualifying row, of an OPEN, SEALED or FAILED band, below next_row and not void: the starting
band from the cursor row on, the bands after it up to 1023 and from 0 on, then the starting band below the cursor row
(R182). -/
def Obligations.PatrolVisitsRow : Prop :=
  (∀ (s : State) (run : PatrolRun), s.live = true → s.patrol.run = some run → run.finishing = false →
     s.patrol.visit = none → s.patrol.findings = [] → s.patrol.write = none → s.patrol.due = [] →
     s.coder.owner = none →
     (∀ b n, run.endRequested = false → run.budget ≠ 0 → s.nextVisit = some (b, n) →
       ∃ u : State, exec .patrolVisit s = .next u.settle ∧ u.coder.owner = some .patrol ∧
         u.coder.beginRead = some { band := b, row := n, level := (s.band b).level, purpose := .check,
                                    lanes := (s.band b).present n } ∧
         (∀ l, u.lane l = if l ∈ (s.band b).present n then
             { s.lane l with waiting := (s.lane l).waiting ++ [.pageRead { band := b, row := n, level := (s.band b).level }] }
           else s.lane l) ∧
         u.patrol = { s.patrol with visit := some { band := b, row := n, level := (s.band b).level,
                                                    expected := (s.band b).present n, checked := false } } ∧
         u.table = s.table ∧ u.mem = s.mem ∧ u.array = s.array) ∧
     (run.endRequested = true ∨ run.budget = 0 ∨ s.nextVisit = none →
       exec .patrolVisit s = .next (State.settle { s with patrol := { s.patrol with
         run := some { run with finishing := true } } }))) ∧
  (∀ (s : State), Sparse.wf .factory s.table.working = true → s.patrol.cursorBand < 1024 →
     let start := s.patrol.cursorBand
     let qualifies (b n : Nat) := b < 1024 ∧ (s.band b).state ∈ [BandState.opened, .sealed, .failed] ∧
       n < (s.band b).nextRow ∧ n ∉ (s.band b).voids
     let turn (b n : Nat) : Nat :=
       if b = start then (if s.patrol.cursorRow ≤ n then 0 else 1024) else (b + 1024 - start) % 1024
     (∀ b n, s.nextVisit = some (b, n) → qualifies b n ∧
       ∀ c k, qualifies c k → turn b n < turn c k ∨ (turn b n = turn c k ∧ n ≤ k)) ∧
     (s.nextVisit = none → ∀ b n, ¬qualifies b n))

/-- A report write is made in bursts: each takes the largest of 1, 4, 8 and 16 words that is at most the burst length,
the words left of the write and the words to the 1 KiB boundary (R157, R160). A burst ends without a bus error: its
words stand in host memory and no other byte changes; with the last, the header write that counts it follows a finding,
and after that header the fill is one more (R185). The words are those of 11.4: a finding in slot fill, the header with
fill + 1 when it counts a finding (R185, R194). REPORT_CLEAR is taken in every mode and waits for a report write in
progress; when taken the fill, the dropped count and drop noted become 0 and, with a capacity above 0, the header is to
be written. An APPLY that changes the report area sets the counts and drop noted to 0 and, with a capacity above 0, has
its header written after the headers that wait and before every REPORT_CLEAR that still waits, since that takes effect
later (R186, R172). -/
def Obligations.ReportWrittenAndCleared : Prop :=
  (∀ (s : State) (w : ReportWrite) (reply : BusReply), s.live = true → s.port = some .report →
     s.patrol.write = some w → reply.stores = [] → reply.error = none → Memory.wf s.mem = true →
     let ws := s.patrol.burst s.burstLength w
     let done := s.patrol.writeDone + ws.length
     ∃ u : State, exec (.reportWriteEnd reply) s = .next u.settle ∧ u.port = none ∧
       (∀ y ∈ ws, Memory.readWord u.mem y.1 = y.2) ∧
       (∀ x, (∀ y ∈ ws, x < y.1 ∨ y.1 + 4 ≤ x) → Memory.readByte u.mem x = Memory.readByte s.mem x) ∧
       (done < (s.patrol.writes w).length → u.patrol = { s.patrol with writeDone := done }) ∧
       ((s.patrol.writes w).length ≤ done →
         (∀ area f, w = .finding area f →
           u.patrol = { s.patrol with write := some (.headerFor area), writeDone := 0 }) ∧
         (∀ area, w = .headerFor area →
           u.patrol = { s.patrol with write := none, writeDone := 0, fill := s.patrol.fill + 1 }) ∧
         (∀ area, w = .headerDrop area ∨ w = .headerOnly area →
           u.patrol = { s.patrol with write := none, writeDone := 0 }))) ∧
  (∀ (p : Patrol) (w : ReportWrite) (burstLength : Nat) (x : Nat × Word) (rest : List (Nat × Word)),
     burstLength ∈ [1, 4, 8, 16] → (p.writes w).drop p.writeDone = x :: rest → x.1 % 4 = 0 →
     let ws := p.burst burstLength w
     let fits (k : Nat) := k ∈ [1, 4, 8, 16] ∧ k ≤ burstLength ∧ k ≤ (x :: rest).length ∧ x.1 % 1024 + 4 * k ≤ 1024
     ws = (x :: rest).take ws.length ∧ fits ws.length ∧ ∀ k, fits k → k ≤ ws.length) ∧
  (∀ (p : Patrol) (area : Word) (f : Finding),
     let word (fill : Nat) := BitVec.ofNat 32 fill
     p.writes (.finding area f) = consecutive (area.toNat + 8 + 16 * p.fill) f.words ∧ f.words.length = 4 ∧
     p.writes (.headerFor area) = [(area.toNat, word (p.fill + 1)), (area.toNat + 4, word p.dropped)] ∧
     p.writes (.headerDrop area) = [(area.toNat, word p.fill), (area.toNat + 4, word p.dropped)] ∧
     p.writes (.headerOnly area) = [(area.toNat, word p.fill), (area.toNat + 4, word p.dropped)]) ∧
  ((∀ (s : State), s.live = true →
     exec .reportClear s = .next (State.settle { s with patrol := { s.patrol with due := s.patrol.due ++ [.clear] } })) ∧
   (∀ (s : State) (rest : List ReportDue), s.patrol.due = .clear :: rest →
     (∀ w, s.patrol.write = some w → s.takeDue = none) ∧
     (s.patrol.write = none →
       ∃ t : State, s.takeDue = some t ∧ t.patrol.fill = 0 ∧ t.patrol.dropped = 0 ∧ t.patrol.dropNoted = false ∧
         t.patrol.due = rest ∧ t.window = s.window ∧
         (∀ c, s.modes.config = some c → 0 < c.reportCapacity → t.patrol.write = some (.headerOnly c.reportAddress)) ∧
         (∀ c, s.modes.config = some c → c.reportCapacity = 0 → t.patrol.write = none) ∧
         (s.modes.config = none → t.patrol.write = none)))) ∧
  ((∀ (old : Option Applied) (c : Applied), newArea old c = true ↔
     ∀ o, old = some o → o.reportAddress ≠ c.reportAddress ∨ o.reportCapacity ≠ c.reportCapacity) ∧
   (∀ (p : Patrol) (c : Applied), p.applied false c = p ∧
     (let q := p.applied true c
      q.fill = 0 ∧ q.dropped = 0 ∧ q.dropNoted = false ∧ q.write = p.write ∧ q.run = p.run ∧
      (c.reportCapacity = 0 → q.due = p.due) ∧
      (0 < c.reportCapacity →
        q.due.filter (fun d => decide (d ≠ .clear)) =
          p.due.filter (fun d => decide (d ≠ .clear)) ++ [.header c.reportAddress] ∧
        q.due.count .clear = p.due.count .clear ∧
        (p.due.Pairwise (fun d e => d = .clear → e = .clear) → q.due.Pairwise (fun d e => d = .clear → e = .clear))))) ∧
   (∀ (s : State) (area : Word) (rest : List ReportDue), s.patrol.due = .header area :: rest →
     s.takeDue = if s.patrol.write = none then
       some { s with patrol := { s.patrol with due := rest, write := some (.headerOnly area) } } else none))

/-- The page finding of a lane comes from the check result: a missing page by its cause, none when it is absent, and a
WEAK page with its count; a parity page that mismatches gives a PARITY finding with its page's count. A row's findings
are its page findings in ascending lane order, then its PARITY findings in the order of the comparisons, which is that
of their lanes (R184). The next finding is given SET ATTENTION when its recording starts (the model's choice, log 26),
and adds one to the answers awaited, recorded or dropped (R184; that the count has no upper bound is the model's choice,
log 44); below the capacity it is to be written; otherwise it is dropped: the dropped count rises, saturating at 65535,
REPORT_FULL is set at the first drop, and with a capacity above 0 the header is to be written. After a failed report
write of the run it is dropped and nothing is written (R184, R185). A burst of a report write ends with a bus error: the
write is given up with BUS_ERROR set, ERROR_ADDRESS names the first failed beat, if the flag was clear, and of host
memory only words of the burst may have changed (R161, R162); a finding or the header that counts it leaves the finding
dropped, the fill stays, and the run ends after the row in hand (R161, R185); so does a header write that counts no
finding, the counts as they were (the model's choice, log 26). -/
def Obligations.FindingsRecordedOrDropped : Prop :=
  (∀ (v : Visit) (rep : RowReport) (l : Lane),
     let outcome := (rep.outcomes.find? (fun o => decide (o.1 = l))).map (·.2)
     let count := outcome.elim 0 (·.highest)
     let found (kind : FindingKind) (n : Nat) : Finding :=
       { band := v.band, row := v.row, lane := l, kind := kind, highest := n }
     (∀ m, rep.missing.find? (fun m => decide (m.lane = l)) = some m →
       (m.cause = .absent → pageFinding v rep l = none) ∧
       (m.cause = .uncorrectable → pageFinding v rep l = some (found .uncorrectable count)) ∧
       (m.cause = .tag → pageFinding v rep l = some (found .tag count)) ∧
       (m.cause = .erased → pageFinding v rep l = some (found .tag 0))) ∧
     (rep.missing.find? (fun m => decide (m.lane = l)) = none → ∀ o, outcome = some o →
       (o.cls = .weak → pageFinding v rep l = some (found .weak count)) ∧
       (o.cls = .good → pageFinding v rep l = none))) ∧
  (∀ (s : State) (v : Visit) (rep : RowReport) (cs : List ParityCompared), s.patrol.visit = some v →
     let parity (c : ParityCompared) : Option Finding :=
       if c.matched then none
       else some { band := v.band, row := v.row, lane := c.lane, kind := .parity,
                   highest := (rep.outcomes.find? (fun o => decide (o.1 = c.lane))).elim 0 (·.2.highest) }
     s.patrolChecked rep cs = { s with patrol := { s.patrol with
       visit := some { v with checked := true },
       findings := [Lane.l0, .l1, .l2, .l3, .l4, .l5].filterMap (pageFinding v rep) ++ cs.filterMap parity } }) ∧
  (∀ (s : State) (f : Finding) (rest : List Finding) (c : Applied), s.modes.config = some c → s.patrol.write = none →
     s.patrol.due = [] → s.patrol.findings = f :: rest →
     let p := s.patrol
     let dropped (t : State) := t.patrol.dropped = min 65535 (p.dropped + 1) ∧ t.patrol.dropNoted = true ∧
       t.window = if p.dropNoted then s.window else s.window.set .reportFull
     ∃ t : State, s.recordNext = some t ∧ t.patrol.findings = rest ∧ t.patrol.fill = p.fill ∧
       t.patrol.run = p.run.map (fun r => { r with answersAwaited := r.answersAwaited + 1 }) ∧
       t.signals = s.signals ++ [.update .patrol (.setAttention f.band) false] ∧
       (p.writeFailed = false → p.fill < c.reportCapacity →
         t.patrol.write = some (.finding c.reportAddress f) ∧ t.patrol.dropped = p.dropped ∧ t.window = s.window) ∧
       (p.writeFailed = false → c.reportCapacity ≤ p.fill → dropped t ∧
         t.patrol.write = if c.reportCapacity = 0 then none else some (.headerDrop c.reportAddress)) ∧
       (p.writeFailed = true → dropped t ∧ t.patrol.write = none)) ∧
  (∀ (s : State) (w : ReportWrite) (reply : BusReply) (b : Nat), s.live = true → s.port = some .report →
     s.patrol.write = some w → reply.stores = [] → reply.error = some b →
     let p := s.patrol
     ∃ u : State, exec (.reportWriteEnd reply) s = .next u.settle ∧ u.window.flag .busError = true ∧
       (∀ y, (p.burst s.burstLength w)[b]? = some y → u.window.errorAddress =
         if s.window.flag .busError then s.window.errorAddress else errorWord y.1 true) ∧
       (Memory.wf s.mem = true → ∀ x, (∀ y ∈ p.burst s.burstLength w, x < y.1 ∨ y.1 + 4 ≤ x) →
         Memory.readByte u.mem x = Memory.readByte s.mem x) ∧ u.port = none ∧
       u.patrol.write = none ∧ u.patrol.writeDone = 0 ∧ u.patrol.fill = p.fill ∧ u.patrol.writeFailed = true ∧
       (∀ area f, w = .finding area f ∨ w = .headerFor area →
         u.patrol.dropped = min 65535 (p.dropped + 1) ∧ u.patrol.dropNoted = true ∧
           (p.dropNoted = false → u.window.flag .reportFull = true)) ∧
       (∀ area, w = .headerDrop area ∨ w = .headerOnly area →
         u.patrol.dropped = p.dropped ∧ u.patrol.dropNoted = p.dropNoted) ∧
       (p.visit = none → u.patrol.run = p.run.map (fun r => { r with endRequested := true })) ∧
       (p.visit ≠ none → u.patrol.run = p.run) ∧
       ∀ r : PatrolRun, r.visited u.patrol.writeFailed = { r with budget := r.budget - 1, endRequested := true })

/-! ## Invariants -/

/-- At reset every invariant below holds, and no message is left. -/
def Obligations.InvariantsHoldAtReset : Prop :=
  State.reset.table.sound = true ∧ State.reset.table.gated = true ∧ State.reset.protect.sound = true ∧
    State.reset.canonical = true ∧ State.reset.queueFits = true ∧ State.reset.signals = []

/-- Every step keeps the band records sound: next_row at most 64, at most 4 void rows, ascending and below next_row, at
most 2 lost entries on distinct lanes, and a lost list longer than the level in FAILED, ERASING and RETIRED alone (R20,
R31). -/
def Obligations.RecordsStaySound : Prop :=
  ∀ (s t : State), s.table.sound = true → step s = .next t → t.table.sound = true

/-- Every step keeps the table's part of R39: from a load until the next reset, while the stored marker is 1, the stored
table is the working table. -/
def Obligations.MarkerOneMeansStoredIsWorking : Prop :=
  ∀ (s t : State), s.table.gated = true → step s = .next t → t.table.gated = true

/-- Every step keeps the lock picture as R137 bounds it: lock-all 1 exactly when lock-enable is 1 and no range is held;
a range within 0 to 1023; and the values after power-on while lock-enable is 0. No step clears a fuse bit (R144). -/
def Obligations.LocksStaySoundFusesStaySet : Prop :=
  (∀ (s t : State), s.protect.sound = true → step s = .next t → t.protect.sound = true) ∧
  (∀ (s t : State), step s = .next t → fusesStay s.protect t.protect)

/-- Every step keeps host memory and the page array in their canonical form (the model's form, log 3). Every step keeps
the sheet queue at two addresses or fewer (R68). -/
def Obligations.MemoryAndQueueKeepForm : Prop :=
  (∀ (s t : State), s.canonical = true → step s = .next t → t.canonical = true) ∧
  (∀ (s t : State), s.queueFits = true → step s = .next t → t.queueFits = true)
end

