-- ==== Sys2Proof/Laws/State.lean ====
section
/-! SUPPORT. For every field of State and every small update: the field after the update, so that no proof unfolds a
record update. -/

namespace Sys2Proof.Machine

/-! ### State.emit -/

@[simp] theorem State.emit_supply (s : State) (m : Signal) : (s.emit m).supply = s.supply := rfl
@[simp] theorem State.emit_resetHeld (s : State) (m : Signal) : (s.emit m).resetHeld = s.resetHeld := rfl
@[simp] theorem State.emit_warnLine (s : State) (m : Signal) : (s.emit m).warnLine = s.warnLine := rfl
@[simp] theorem State.emit_inhibitLine (s : State) (m : Signal) : (s.emit m).inhibitLine = s.inhibitLine := rfl
@[simp] theorem State.emit_lanes (s : State) (m : Signal) : (s.emit m).lanes = s.lanes := rfl
@[simp] theorem State.emit_queryAnswer (s : State) (m : Signal) : (s.emit m).queryAnswer = s.queryAnswer := rfl
@[simp] theorem State.emit_array (s : State) (m : Signal) : (s.emit m).array = s.array := rfl
@[simp] theorem State.emit_table (s : State) (m : Signal) : (s.emit m).table = s.table := rfl
@[simp] theorem State.emit_protect (s : State) (m : Signal) : (s.emit m).protect = s.protect := rfl
@[simp] theorem State.emit_coder (s : State) (m : Signal) : (s.emit m).coder = s.coder := rfl
@[simp] theorem State.emit_sheets (s : State) (m : Signal) : (s.emit m).sheets = s.sheets := rfl
@[simp] theorem State.emit_writer (s : State) (m : Signal) : (s.emit m).writer = s.writer := rfl
@[simp] theorem State.emit_reader (s : State) (m : Signal) : (s.emit m).reader = s.reader := rfl
@[simp] theorem State.emit_services (s : State) (m : Signal) : (s.emit m).services = s.services := rfl
@[simp] theorem State.emit_mover (s : State) (m : Signal) : (s.emit m).mover = s.mover := rfl
@[simp] theorem State.emit_port (s : State) (m : Signal) : (s.emit m).port = s.port := rfl
@[simp] theorem State.emit_sheetLine (s : State) (m : Signal) : (s.emit m).sheetLine = s.sheetLine := rfl
@[simp] theorem State.emit_modes (s : State) (m : Signal) : (s.emit m).modes = s.modes := rfl
@[simp] theorem State.emit_patrol (s : State) (m : Signal) : (s.emit m).patrol = s.patrol := rfl
@[simp] theorem State.emit_window (s : State) (m : Signal) : (s.emit m).window = s.window := rfl
@[simp] theorem State.emit_mem (s : State) (m : Signal) : (s.emit m).mem = s.mem := rfl
@[simp] theorem State.emit_pending (s : State) (m : Signal) : (s.emit m).pending = s.pending := rfl

/-! ### State.setEvent -/

@[simp] theorem State.setEvent_supply (s : State) (e : Event) : (s.setEvent e).supply = s.supply := rfl
@[simp] theorem State.setEvent_resetHeld (s : State) (e : Event) : (s.setEvent e).resetHeld = s.resetHeld := rfl
@[simp] theorem State.setEvent_warnLine (s : State) (e : Event) : (s.setEvent e).warnLine = s.warnLine := rfl
@[simp] theorem State.setEvent_inhibitLine (s : State) (e : Event) : (s.setEvent e).inhibitLine = s.inhibitLine := rfl
@[simp] theorem State.setEvent_lanes (s : State) (e : Event) : (s.setEvent e).lanes = s.lanes := rfl
@[simp] theorem State.setEvent_queryAnswer (s : State) (e : Event) : (s.setEvent e).queryAnswer = s.queryAnswer := rfl
@[simp] theorem State.setEvent_array (s : State) (e : Event) : (s.setEvent e).array = s.array := rfl
@[simp] theorem State.setEvent_table (s : State) (e : Event) : (s.setEvent e).table = s.table := rfl
@[simp] theorem State.setEvent_protect (s : State) (e : Event) : (s.setEvent e).protect = s.protect := rfl
@[simp] theorem State.setEvent_coder (s : State) (e : Event) : (s.setEvent e).coder = s.coder := rfl
@[simp] theorem State.setEvent_sheets (s : State) (e : Event) : (s.setEvent e).sheets = s.sheets := rfl
@[simp] theorem State.setEvent_writer (s : State) (e : Event) : (s.setEvent e).writer = s.writer := rfl
@[simp] theorem State.setEvent_reader (s : State) (e : Event) : (s.setEvent e).reader = s.reader := rfl
@[simp] theorem State.setEvent_services (s : State) (e : Event) : (s.setEvent e).services = s.services := rfl
@[simp] theorem State.setEvent_mover (s : State) (e : Event) : (s.setEvent e).mover = s.mover := rfl
@[simp] theorem State.setEvent_port (s : State) (e : Event) : (s.setEvent e).port = s.port := rfl
@[simp] theorem State.setEvent_sheetLine (s : State) (e : Event) : (s.setEvent e).sheetLine = s.sheetLine := rfl
@[simp] theorem State.setEvent_modes (s : State) (e : Event) : (s.setEvent e).modes = s.modes := rfl
@[simp] theorem State.setEvent_patrol (s : State) (e : Event) : (s.setEvent e).patrol = s.patrol := rfl
@[simp] theorem State.setEvent_mem (s : State) (e : Event) : (s.setEvent e).mem = s.mem := rfl
@[simp] theorem State.setEvent_signals (s : State) (e : Event) : (s.setEvent e).signals = s.signals := rfl
@[simp] theorem State.setEvent_pending (s : State) (e : Event) : (s.setEvent e).pending = s.pending := rfl

/-! ### State.setLane -/

@[simp] theorem State.setLane_supply (s : State) (l : Lane) (c : LaneCtl) : (s.setLane l c).supply = s.supply := rfl
@[simp] theorem State.setLane_resetHeld (s : State) (l : Lane) (c : LaneCtl) : (s.setLane l c).resetHeld = s.resetHeld := rfl
@[simp] theorem State.setLane_warnLine (s : State) (l : Lane) (c : LaneCtl) : (s.setLane l c).warnLine = s.warnLine := rfl
@[simp] theorem State.setLane_inhibitLine (s : State) (l : Lane) (c : LaneCtl) : (s.setLane l c).inhibitLine = s.inhibitLine := rfl
@[simp] theorem State.setLane_queryAnswer (s : State) (l : Lane) (c : LaneCtl) : (s.setLane l c).queryAnswer = s.queryAnswer := rfl
@[simp] theorem State.setLane_array (s : State) (l : Lane) (c : LaneCtl) : (s.setLane l c).array = s.array := rfl
@[simp] theorem State.setLane_table (s : State) (l : Lane) (c : LaneCtl) : (s.setLane l c).table = s.table := rfl
@[simp] theorem State.setLane_protect (s : State) (l : Lane) (c : LaneCtl) : (s.setLane l c).protect = s.protect := rfl
@[simp] theorem State.setLane_coder (s : State) (l : Lane) (c : LaneCtl) : (s.setLane l c).coder = s.coder := rfl
@[simp] theorem State.setLane_sheets (s : State) (l : Lane) (c : LaneCtl) : (s.setLane l c).sheets = s.sheets := rfl
@[simp] theorem State.setLane_writer (s : State) (l : Lane) (c : LaneCtl) : (s.setLane l c).writer = s.writer := rfl
@[simp] theorem State.setLane_reader (s : State) (l : Lane) (c : LaneCtl) : (s.setLane l c).reader = s.reader := rfl
@[simp] theorem State.setLane_services (s : State) (l : Lane) (c : LaneCtl) : (s.setLane l c).services = s.services := rfl
@[simp] theorem State.setLane_mover (s : State) (l : Lane) (c : LaneCtl) : (s.setLane l c).mover = s.mover := rfl
@[simp] theorem State.setLane_port (s : State) (l : Lane) (c : LaneCtl) : (s.setLane l c).port = s.port := rfl
@[simp] theorem State.setLane_sheetLine (s : State) (l : Lane) (c : LaneCtl) : (s.setLane l c).sheetLine = s.sheetLine := rfl
@[simp] theorem State.setLane_modes (s : State) (l : Lane) (c : LaneCtl) : (s.setLane l c).modes = s.modes := rfl
@[simp] theorem State.setLane_patrol (s : State) (l : Lane) (c : LaneCtl) : (s.setLane l c).patrol = s.patrol := rfl
@[simp] theorem State.setLane_window (s : State) (l : Lane) (c : LaneCtl) : (s.setLane l c).window = s.window := rfl
@[simp] theorem State.setLane_mem (s : State) (l : Lane) (c : LaneCtl) : (s.setLane l c).mem = s.mem := rfl
@[simp] theorem State.setLane_signals (s : State) (l : Lane) (c : LaneCtl) : (s.setLane l c).signals = s.signals := rfl
@[simp] theorem State.setLane_pending (s : State) (l : Lane) (c : LaneCtl) : (s.setLane l c).pending = s.pending := rfl

/-! ### State.setPage -/

@[simp] theorem State.setPage_supply (s : State) (l : Lane) (b r : Nat) (p : Page) : (s.setPage l b r p).supply = s.supply := rfl
@[simp] theorem State.setPage_resetHeld (s : State) (l : Lane) (b r : Nat) (p : Page) : (s.setPage l b r p).resetHeld = s.resetHeld := rfl
@[simp] theorem State.setPage_warnLine (s : State) (l : Lane) (b r : Nat) (p : Page) : (s.setPage l b r p).warnLine = s.warnLine := rfl
@[simp] theorem State.setPage_inhibitLine (s : State) (l : Lane) (b r : Nat) (p : Page) : (s.setPage l b r p).inhibitLine = s.inhibitLine := rfl
@[simp] theorem State.setPage_lanes (s : State) (l : Lane) (b r : Nat) (p : Page) : (s.setPage l b r p).lanes = s.lanes := rfl
@[simp] theorem State.setPage_queryAnswer (s : State) (l : Lane) (b r : Nat) (p : Page) : (s.setPage l b r p).queryAnswer = s.queryAnswer := rfl
@[simp] theorem State.setPage_table (s : State) (l : Lane) (b r : Nat) (p : Page) : (s.setPage l b r p).table = s.table := rfl
@[simp] theorem State.setPage_protect (s : State) (l : Lane) (b r : Nat) (p : Page) : (s.setPage l b r p).protect = s.protect := rfl
@[simp] theorem State.setPage_coder (s : State) (l : Lane) (b r : Nat) (p : Page) : (s.setPage l b r p).coder = s.coder := rfl
@[simp] theorem State.setPage_sheets (s : State) (l : Lane) (b r : Nat) (p : Page) : (s.setPage l b r p).sheets = s.sheets := rfl
@[simp] theorem State.setPage_writer (s : State) (l : Lane) (b r : Nat) (p : Page) : (s.setPage l b r p).writer = s.writer := rfl
@[simp] theorem State.setPage_reader (s : State) (l : Lane) (b r : Nat) (p : Page) : (s.setPage l b r p).reader = s.reader := rfl
@[simp] theorem State.setPage_services (s : State) (l : Lane) (b r : Nat) (p : Page) : (s.setPage l b r p).services = s.services := rfl
@[simp] theorem State.setPage_mover (s : State) (l : Lane) (b r : Nat) (p : Page) : (s.setPage l b r p).mover = s.mover := rfl
@[simp] theorem State.setPage_port (s : State) (l : Lane) (b r : Nat) (p : Page) : (s.setPage l b r p).port = s.port := rfl
@[simp] theorem State.setPage_sheetLine (s : State) (l : Lane) (b r : Nat) (p : Page) : (s.setPage l b r p).sheetLine = s.sheetLine := rfl
@[simp] theorem State.setPage_modes (s : State) (l : Lane) (b r : Nat) (p : Page) : (s.setPage l b r p).modes = s.modes := rfl
@[simp] theorem State.setPage_patrol (s : State) (l : Lane) (b r : Nat) (p : Page) : (s.setPage l b r p).patrol = s.patrol := rfl
@[simp] theorem State.setPage_window (s : State) (l : Lane) (b r : Nat) (p : Page) : (s.setPage l b r p).window = s.window := rfl
@[simp] theorem State.setPage_mem (s : State) (l : Lane) (b r : Nat) (p : Page) : (s.setPage l b r p).mem = s.mem := rfl
@[simp] theorem State.setPage_signals (s : State) (l : Lane) (b r : Nat) (p : Page) : (s.setPage l b r p).signals = s.signals := rfl
@[simp] theorem State.setPage_pending (s : State) (l : Lane) (b r : Nat) (p : Page) : (s.setPage l b r p).pending = s.pending := rfl

/-! ### State.setBlock -/

@[simp] theorem State.setBlock_supply (s : State) (l : Lane) (b : Nat) (p : Page) : (s.setBlock l b p).supply = s.supply := by simp only [State.setBlock]
@[simp] theorem State.setBlock_resetHeld (s : State) (l : Lane) (b : Nat) (p : Page) : (s.setBlock l b p).resetHeld = s.resetHeld := by simp only [State.setBlock]
@[simp] theorem State.setBlock_warnLine (s : State) (l : Lane) (b : Nat) (p : Page) : (s.setBlock l b p).warnLine = s.warnLine := by simp only [State.setBlock]
@[simp] theorem State.setBlock_inhibitLine (s : State) (l : Lane) (b : Nat) (p : Page) : (s.setBlock l b p).inhibitLine = s.inhibitLine := by simp only [State.setBlock]
@[simp] theorem State.setBlock_lanes (s : State) (l : Lane) (b : Nat) (p : Page) : (s.setBlock l b p).lanes = s.lanes := by simp only [State.setBlock]
@[simp] theorem State.setBlock_queryAnswer (s : State) (l : Lane) (b : Nat) (p : Page) : (s.setBlock l b p).queryAnswer = s.queryAnswer := by simp only [State.setBlock]
@[simp] theorem State.setBlock_table (s : State) (l : Lane) (b : Nat) (p : Page) : (s.setBlock l b p).table = s.table := by simp only [State.setBlock]
@[simp] theorem State.setBlock_protect (s : State) (l : Lane) (b : Nat) (p : Page) : (s.setBlock l b p).protect = s.protect := by simp only [State.setBlock]
@[simp] theorem State.setBlock_coder (s : State) (l : Lane) (b : Nat) (p : Page) : (s.setBlock l b p).coder = s.coder := by simp only [State.setBlock]
@[simp] theorem State.setBlock_sheets (s : State) (l : Lane) (b : Nat) (p : Page) : (s.setBlock l b p).sheets = s.sheets := by simp only [State.setBlock]
@[simp] theorem State.setBlock_writer (s : State) (l : Lane) (b : Nat) (p : Page) : (s.setBlock l b p).writer = s.writer := by simp only [State.setBlock]
@[simp] theorem State.setBlock_reader (s : State) (l : Lane) (b : Nat) (p : Page) : (s.setBlock l b p).reader = s.reader := by simp only [State.setBlock]
@[simp] theorem State.setBlock_services (s : State) (l : Lane) (b : Nat) (p : Page) : (s.setBlock l b p).services = s.services := by simp only [State.setBlock]
@[simp] theorem State.setBlock_mover (s : State) (l : Lane) (b : Nat) (p : Page) : (s.setBlock l b p).mover = s.mover := by simp only [State.setBlock]
@[simp] theorem State.setBlock_port (s : State) (l : Lane) (b : Nat) (p : Page) : (s.setBlock l b p).port = s.port := by simp only [State.setBlock]
@[simp] theorem State.setBlock_sheetLine (s : State) (l : Lane) (b : Nat) (p : Page) : (s.setBlock l b p).sheetLine = s.sheetLine := by simp only [State.setBlock]
@[simp] theorem State.setBlock_modes (s : State) (l : Lane) (b : Nat) (p : Page) : (s.setBlock l b p).modes = s.modes := by simp only [State.setBlock]
@[simp] theorem State.setBlock_patrol (s : State) (l : Lane) (b : Nat) (p : Page) : (s.setBlock l b p).patrol = s.patrol := by simp only [State.setBlock]
@[simp] theorem State.setBlock_window (s : State) (l : Lane) (b : Nat) (p : Page) : (s.setBlock l b p).window = s.window := by simp only [State.setBlock]
@[simp] theorem State.setBlock_mem (s : State) (l : Lane) (b : Nat) (p : Page) : (s.setBlock l b p).mem = s.mem := by simp only [State.setBlock]
@[simp] theorem State.setBlock_signals (s : State) (l : Lane) (b : Nat) (p : Page) : (s.setBlock l b p).signals = s.signals := by simp only [State.setBlock]
@[simp] theorem State.setBlock_pending (s : State) (l : Lane) (b : Nat) (p : Page) : (s.setBlock l b p).pending = s.pending := by simp only [State.setBlock]

/-! ### State.give -/

@[simp] theorem State.give_supply (s : State) (l : Lane) (r : LaneReq) : (s.give l r).supply = s.supply := rfl
@[simp] theorem State.give_resetHeld (s : State) (l : Lane) (r : LaneReq) : (s.give l r).resetHeld = s.resetHeld := rfl
@[simp] theorem State.give_warnLine (s : State) (l : Lane) (r : LaneReq) : (s.give l r).warnLine = s.warnLine := rfl
@[simp] theorem State.give_inhibitLine (s : State) (l : Lane) (r : LaneReq) : (s.give l r).inhibitLine = s.inhibitLine := rfl
@[simp] theorem State.give_queryAnswer (s : State) (l : Lane) (r : LaneReq) : (s.give l r).queryAnswer = s.queryAnswer := rfl
@[simp] theorem State.give_array (s : State) (l : Lane) (r : LaneReq) : (s.give l r).array = s.array := rfl
@[simp] theorem State.give_table (s : State) (l : Lane) (r : LaneReq) : (s.give l r).table = s.table := rfl
@[simp] theorem State.give_protect (s : State) (l : Lane) (r : LaneReq) : (s.give l r).protect = s.protect := rfl
@[simp] theorem State.give_coder (s : State) (l : Lane) (r : LaneReq) : (s.give l r).coder = s.coder := rfl
@[simp] theorem State.give_sheets (s : State) (l : Lane) (r : LaneReq) : (s.give l r).sheets = s.sheets := rfl
@[simp] theorem State.give_writer (s : State) (l : Lane) (r : LaneReq) : (s.give l r).writer = s.writer := rfl
@[simp] theorem State.give_reader (s : State) (l : Lane) (r : LaneReq) : (s.give l r).reader = s.reader := rfl
@[simp] theorem State.give_services (s : State) (l : Lane) (r : LaneReq) : (s.give l r).services = s.services := rfl
@[simp] theorem State.give_mover (s : State) (l : Lane) (r : LaneReq) : (s.give l r).mover = s.mover := rfl
@[simp] theorem State.give_port (s : State) (l : Lane) (r : LaneReq) : (s.give l r).port = s.port := rfl
@[simp] theorem State.give_sheetLine (s : State) (l : Lane) (r : LaneReq) : (s.give l r).sheetLine = s.sheetLine := rfl
@[simp] theorem State.give_modes (s : State) (l : Lane) (r : LaneReq) : (s.give l r).modes = s.modes := rfl
@[simp] theorem State.give_patrol (s : State) (l : Lane) (r : LaneReq) : (s.give l r).patrol = s.patrol := rfl
@[simp] theorem State.give_window (s : State) (l : Lane) (r : LaneReq) : (s.give l r).window = s.window := rfl
@[simp] theorem State.give_mem (s : State) (l : Lane) (r : LaneReq) : (s.give l r).mem = s.mem := rfl
@[simp] theorem State.give_signals (s : State) (l : Lane) (r : LaneReq) : (s.give l r).signals = s.signals := rfl
@[simp] theorem State.give_pending (s : State) (l : Lane) (r : LaneReq) : (s.give l r).pending = s.pending := rfl

/-! ### State.freePort -/

@[simp] theorem State.freePort_supply (s : State) : s.freePort.supply = s.supply := rfl
@[simp] theorem State.freePort_resetHeld (s : State) : s.freePort.resetHeld = s.resetHeld := rfl
@[simp] theorem State.freePort_warnLine (s : State) : s.freePort.warnLine = s.warnLine := rfl
@[simp] theorem State.freePort_inhibitLine (s : State) : s.freePort.inhibitLine = s.inhibitLine := rfl
@[simp] theorem State.freePort_lanes (s : State) : s.freePort.lanes = s.lanes := rfl
@[simp] theorem State.freePort_queryAnswer (s : State) : s.freePort.queryAnswer = s.queryAnswer := rfl
@[simp] theorem State.freePort_array (s : State) : s.freePort.array = s.array := rfl
@[simp] theorem State.freePort_table (s : State) : s.freePort.table = s.table := rfl
@[simp] theorem State.freePort_protect (s : State) : s.freePort.protect = s.protect := rfl
@[simp] theorem State.freePort_coder (s : State) : s.freePort.coder = s.coder := rfl
@[simp] theorem State.freePort_sheets (s : State) : s.freePort.sheets = s.sheets := rfl
@[simp] theorem State.freePort_writer (s : State) : s.freePort.writer = s.writer := rfl
@[simp] theorem State.freePort_reader (s : State) : s.freePort.reader = s.reader := rfl
@[simp] theorem State.freePort_services (s : State) : s.freePort.services = s.services := rfl
@[simp] theorem State.freePort_mover (s : State) : s.freePort.mover = s.mover := rfl
@[simp] theorem State.freePort_modes (s : State) : s.freePort.modes = s.modes := rfl
@[simp] theorem State.freePort_patrol (s : State) : s.freePort.patrol = s.patrol := rfl
@[simp] theorem State.freePort_window (s : State) : s.freePort.window = s.window := rfl
@[simp] theorem State.freePort_mem (s : State) : s.freePort.mem = s.mem := rfl
@[simp] theorem State.freePort_signals (s : State) : s.freePort.signals = s.signals := rfl
@[simp] theorem State.freePort_pending (s : State) : s.freePort.pending = s.pending := rfl

/-! ### State.handWord -/

@[simp] theorem State.handWord_supply (s : State) (w : Word) : (s.handWord w).supply = s.supply := rfl
@[simp] theorem State.handWord_resetHeld (s : State) (w : Word) : (s.handWord w).resetHeld = s.resetHeld := rfl
@[simp] theorem State.handWord_warnLine (s : State) (w : Word) : (s.handWord w).warnLine = s.warnLine := rfl
@[simp] theorem State.handWord_inhibitLine (s : State) (w : Word) : (s.handWord w).inhibitLine = s.inhibitLine := rfl
@[simp] theorem State.handWord_lanes (s : State) (w : Word) : (s.handWord w).lanes = s.lanes := rfl
@[simp] theorem State.handWord_queryAnswer (s : State) (w : Word) : (s.handWord w).queryAnswer = s.queryAnswer := rfl
@[simp] theorem State.handWord_array (s : State) (w : Word) : (s.handWord w).array = s.array := rfl
@[simp] theorem State.handWord_table (s : State) (w : Word) : (s.handWord w).table = s.table := rfl
@[simp] theorem State.handWord_protect (s : State) (w : Word) : (s.handWord w).protect = s.protect := rfl
@[simp] theorem State.handWord_coder (s : State) (w : Word) : (s.handWord w).coder = s.coder := rfl
@[simp] theorem State.handWord_sheets (s : State) (w : Word) : (s.handWord w).sheets = s.sheets := rfl
@[simp] theorem State.handWord_writer (s : State) (w : Word) : (s.handWord w).writer = s.writer := rfl
@[simp] theorem State.handWord_reader (s : State) (w : Word) : (s.handWord w).reader = s.reader := rfl
@[simp] theorem State.handWord_services (s : State) (w : Word) : (s.handWord w).services = s.services := rfl
@[simp] theorem State.handWord_port (s : State) (w : Word) : (s.handWord w).port = s.port := rfl
@[simp] theorem State.handWord_sheetLine (s : State) (w : Word) : (s.handWord w).sheetLine = s.sheetLine := rfl
@[simp] theorem State.handWord_modes (s : State) (w : Word) : (s.handWord w).modes = s.modes := rfl
@[simp] theorem State.handWord_patrol (s : State) (w : Word) : (s.handWord w).patrol = s.patrol := rfl
@[simp] theorem State.handWord_window (s : State) (w : Word) : (s.handWord w).window = s.window := rfl
@[simp] theorem State.handWord_mem (s : State) (w : Word) : (s.handWord w).mem = s.mem := rfl
@[simp] theorem State.handWord_signals (s : State) (w : Word) : (s.handWord w).signals = s.signals := rfl
@[simp] theorem State.handWord_pending (s : State) (w : Word) : (s.handWord w).pending = s.pending := rfl

/-! ### State.setMode -/

@[simp] theorem State.setMode_supply (s : State) (m : Mode) : (s.setMode m).supply = s.supply := rfl
@[simp] theorem State.setMode_resetHeld (s : State) (m : Mode) : (s.setMode m).resetHeld = s.resetHeld := rfl
@[simp] theorem State.setMode_warnLine (s : State) (m : Mode) : (s.setMode m).warnLine = s.warnLine := rfl
@[simp] theorem State.setMode_inhibitLine (s : State) (m : Mode) : (s.setMode m).inhibitLine = s.inhibitLine := rfl
@[simp] theorem State.setMode_lanes (s : State) (m : Mode) : (s.setMode m).lanes = s.lanes := rfl
@[simp] theorem State.setMode_queryAnswer (s : State) (m : Mode) : (s.setMode m).queryAnswer = s.queryAnswer := rfl
@[simp] theorem State.setMode_array (s : State) (m : Mode) : (s.setMode m).array = s.array := rfl
@[simp] theorem State.setMode_table (s : State) (m : Mode) : (s.setMode m).table = s.table := rfl
@[simp] theorem State.setMode_protect (s : State) (m : Mode) : (s.setMode m).protect = s.protect := rfl
@[simp] theorem State.setMode_coder (s : State) (m : Mode) : (s.setMode m).coder = s.coder := rfl
@[simp] theorem State.setMode_sheets (s : State) (m : Mode) : (s.setMode m).sheets = s.sheets := rfl
@[simp] theorem State.setMode_writer (s : State) (m : Mode) : (s.setMode m).writer = s.writer := rfl
@[simp] theorem State.setMode_reader (s : State) (m : Mode) : (s.setMode m).reader = s.reader := rfl
@[simp] theorem State.setMode_services (s : State) (m : Mode) : (s.setMode m).services = s.services := rfl
@[simp] theorem State.setMode_mover (s : State) (m : Mode) : (s.setMode m).mover = s.mover := rfl
@[simp] theorem State.setMode_port (s : State) (m : Mode) : (s.setMode m).port = s.port := rfl
@[simp] theorem State.setMode_sheetLine (s : State) (m : Mode) : (s.setMode m).sheetLine = s.sheetLine := rfl
@[simp] theorem State.setMode_patrol (s : State) (m : Mode) : (s.setMode m).patrol = s.patrol := rfl
@[simp] theorem State.setMode_window (s : State) (m : Mode) : (s.setMode m).window = s.window := rfl
@[simp] theorem State.setMode_mem (s : State) (m : Mode) : (s.setMode m).mem = s.mem := rfl
@[simp] theorem State.setMode_signals (s : State) (m : Mode) : (s.setMode m).signals = s.signals := rfl
@[simp] theorem State.setMode_pending (s : State) (m : Mode) : (s.setMode m).pending = s.pending := rfl

/-! ### State.setScan -/

@[simp] theorem State.setScan_supply (s : State) (c : Scan) : (s.setScan c).supply = s.supply := rfl
@[simp] theorem State.setScan_resetHeld (s : State) (c : Scan) : (s.setScan c).resetHeld = s.resetHeld := rfl
@[simp] theorem State.setScan_warnLine (s : State) (c : Scan) : (s.setScan c).warnLine = s.warnLine := rfl
@[simp] theorem State.setScan_inhibitLine (s : State) (c : Scan) : (s.setScan c).inhibitLine = s.inhibitLine := rfl
@[simp] theorem State.setScan_lanes (s : State) (c : Scan) : (s.setScan c).lanes = s.lanes := rfl
@[simp] theorem State.setScan_queryAnswer (s : State) (c : Scan) : (s.setScan c).queryAnswer = s.queryAnswer := rfl
@[simp] theorem State.setScan_array (s : State) (c : Scan) : (s.setScan c).array = s.array := rfl
@[simp] theorem State.setScan_table (s : State) (c : Scan) : (s.setScan c).table = s.table := rfl
@[simp] theorem State.setScan_protect (s : State) (c : Scan) : (s.setScan c).protect = s.protect := rfl
@[simp] theorem State.setScan_coder (s : State) (c : Scan) : (s.setScan c).coder = s.coder := rfl
@[simp] theorem State.setScan_sheets (s : State) (c : Scan) : (s.setScan c).sheets = s.sheets := rfl
@[simp] theorem State.setScan_writer (s : State) (c : Scan) : (s.setScan c).writer = s.writer := rfl
@[simp] theorem State.setScan_reader (s : State) (c : Scan) : (s.setScan c).reader = s.reader := rfl
@[simp] theorem State.setScan_services (s : State) (c : Scan) : (s.setScan c).services = s.services := rfl
@[simp] theorem State.setScan_mover (s : State) (c : Scan) : (s.setScan c).mover = s.mover := rfl
@[simp] theorem State.setScan_port (s : State) (c : Scan) : (s.setScan c).port = s.port := rfl
@[simp] theorem State.setScan_sheetLine (s : State) (c : Scan) : (s.setScan c).sheetLine = s.sheetLine := rfl
@[simp] theorem State.setScan_patrol (s : State) (c : Scan) : (s.setScan c).patrol = s.patrol := rfl
@[simp] theorem State.setScan_window (s : State) (c : Scan) : (s.setScan c).window = s.window := rfl
@[simp] theorem State.setScan_mem (s : State) (c : Scan) : (s.setScan c).mem = s.mem := rfl
@[simp] theorem State.setScan_signals (s : State) (c : Scan) : (s.setScan c).signals = s.signals := rfl
@[simp] theorem State.setScan_pending (s : State) (c : Scan) : (s.setScan c).pending = s.pending := rfl

/-! ### State.requestRefused -/

@[simp] theorem State.requestRefused_supply (s : State) : s.requestRefused.supply = s.supply := rfl
@[simp] theorem State.requestRefused_resetHeld (s : State) : s.requestRefused.resetHeld = s.resetHeld := rfl
@[simp] theorem State.requestRefused_warnLine (s : State) : s.requestRefused.warnLine = s.warnLine := rfl
@[simp] theorem State.requestRefused_inhibitLine (s : State) : s.requestRefused.inhibitLine = s.inhibitLine := rfl
@[simp] theorem State.requestRefused_lanes (s : State) : s.requestRefused.lanes = s.lanes := rfl
@[simp] theorem State.requestRefused_queryAnswer (s : State) : s.requestRefused.queryAnswer = s.queryAnswer := rfl
@[simp] theorem State.requestRefused_array (s : State) : s.requestRefused.array = s.array := rfl
@[simp] theorem State.requestRefused_table (s : State) : s.requestRefused.table = s.table := rfl
@[simp] theorem State.requestRefused_protect (s : State) : s.requestRefused.protect = s.protect := rfl
@[simp] theorem State.requestRefused_coder (s : State) : s.requestRefused.coder = s.coder := rfl
@[simp] theorem State.requestRefused_sheets (s : State) : s.requestRefused.sheets = s.sheets := rfl
@[simp] theorem State.requestRefused_writer (s : State) : s.requestRefused.writer = s.writer := rfl
@[simp] theorem State.requestRefused_reader (s : State) : s.requestRefused.reader = s.reader := rfl
@[simp] theorem State.requestRefused_services (s : State) : s.requestRefused.services = s.services := rfl
@[simp] theorem State.requestRefused_mover (s : State) : s.requestRefused.mover = s.mover := rfl
@[simp] theorem State.requestRefused_port (s : State) : s.requestRefused.port = s.port := rfl
@[simp] theorem State.requestRefused_sheetLine (s : State) : s.requestRefused.sheetLine = s.sheetLine := rfl
@[simp] theorem State.requestRefused_modes (s : State) : s.requestRefused.modes = s.modes := rfl
@[simp] theorem State.requestRefused_patrol (s : State) : s.requestRefused.patrol = s.patrol := rfl
@[simp] theorem State.requestRefused_mem (s : State) : s.requestRefused.mem = s.mem := rfl
@[simp] theorem State.requestRefused_signals (s : State) : s.requestRefused.signals = s.signals := rfl
@[simp] theorem State.requestRefused_pending (s : State) : s.requestRefused.pending = s.pending := rfl

/-! ### State.releaseRead -/

@[simp] theorem State.releaseRead_supply (s : State) : s.releaseRead.supply = s.supply := rfl
@[simp] theorem State.releaseRead_resetHeld (s : State) : s.releaseRead.resetHeld = s.resetHeld := rfl
@[simp] theorem State.releaseRead_warnLine (s : State) : s.releaseRead.warnLine = s.warnLine := rfl
@[simp] theorem State.releaseRead_inhibitLine (s : State) : s.releaseRead.inhibitLine = s.inhibitLine := rfl
@[simp] theorem State.releaseRead_lanes (s : State) : s.releaseRead.lanes = s.lanes := rfl
@[simp] theorem State.releaseRead_queryAnswer (s : State) : s.releaseRead.queryAnswer = s.queryAnswer := rfl
@[simp] theorem State.releaseRead_array (s : State) : s.releaseRead.array = s.array := rfl
@[simp] theorem State.releaseRead_table (s : State) : s.releaseRead.table = s.table := rfl
@[simp] theorem State.releaseRead_protect (s : State) : s.releaseRead.protect = s.protect := rfl
@[simp] theorem State.releaseRead_sheets (s : State) : s.releaseRead.sheets = s.sheets := rfl
@[simp] theorem State.releaseRead_writer (s : State) : s.releaseRead.writer = s.writer := rfl
@[simp] theorem State.releaseRead_reader (s : State) : s.releaseRead.reader = s.reader := rfl
@[simp] theorem State.releaseRead_services (s : State) : s.releaseRead.services = s.services := rfl
@[simp] theorem State.releaseRead_mover (s : State) : s.releaseRead.mover = s.mover := rfl
@[simp] theorem State.releaseRead_port (s : State) : s.releaseRead.port = s.port := rfl
@[simp] theorem State.releaseRead_sheetLine (s : State) : s.releaseRead.sheetLine = s.sheetLine := rfl
@[simp] theorem State.releaseRead_modes (s : State) : s.releaseRead.modes = s.modes := rfl
@[simp] theorem State.releaseRead_patrol (s : State) : s.releaseRead.patrol = s.patrol := rfl
@[simp] theorem State.releaseRead_window (s : State) : s.releaseRead.window = s.window := rfl
@[simp] theorem State.releaseRead_mem (s : State) : s.releaseRead.mem = s.mem := rfl
@[simp] theorem State.releaseRead_signals (s : State) : s.releaseRead.signals = s.signals := rfl
@[simp] theorem State.releaseRead_pending (s : State) : s.releaseRead.pending = s.pending := rfl

/-! ### State.releaseCoder -/

@[simp] theorem State.releaseCoder_supply (s : State) : s.releaseCoder.supply = s.supply := rfl
@[simp] theorem State.releaseCoder_resetHeld (s : State) : s.releaseCoder.resetHeld = s.resetHeld := rfl
@[simp] theorem State.releaseCoder_warnLine (s : State) : s.releaseCoder.warnLine = s.warnLine := rfl
@[simp] theorem State.releaseCoder_inhibitLine (s : State) : s.releaseCoder.inhibitLine = s.inhibitLine := rfl
@[simp] theorem State.releaseCoder_lanes (s : State) : s.releaseCoder.lanes = s.lanes := rfl
@[simp] theorem State.releaseCoder_queryAnswer (s : State) : s.releaseCoder.queryAnswer = s.queryAnswer := rfl
@[simp] theorem State.releaseCoder_array (s : State) : s.releaseCoder.array = s.array := rfl
@[simp] theorem State.releaseCoder_table (s : State) : s.releaseCoder.table = s.table := rfl
@[simp] theorem State.releaseCoder_protect (s : State) : s.releaseCoder.protect = s.protect := rfl
@[simp] theorem State.releaseCoder_sheets (s : State) : s.releaseCoder.sheets = s.sheets := rfl
@[simp] theorem State.releaseCoder_writer (s : State) : s.releaseCoder.writer = s.writer := rfl
@[simp] theorem State.releaseCoder_reader (s : State) : s.releaseCoder.reader = s.reader := rfl
@[simp] theorem State.releaseCoder_services (s : State) : s.releaseCoder.services = s.services := rfl
@[simp] theorem State.releaseCoder_mover (s : State) : s.releaseCoder.mover = s.mover := rfl
@[simp] theorem State.releaseCoder_port (s : State) : s.releaseCoder.port = s.port := rfl
@[simp] theorem State.releaseCoder_sheetLine (s : State) : s.releaseCoder.sheetLine = s.sheetLine := rfl
@[simp] theorem State.releaseCoder_modes (s : State) : s.releaseCoder.modes = s.modes := rfl
@[simp] theorem State.releaseCoder_patrol (s : State) : s.releaseCoder.patrol = s.patrol := rfl
@[simp] theorem State.releaseCoder_window (s : State) : s.releaseCoder.window = s.window := rfl
@[simp] theorem State.releaseCoder_mem (s : State) : s.releaseCoder.mem = s.mem := rfl
@[simp] theorem State.releaseCoder_signals (s : State) : s.releaseCoder.signals = s.signals := rfl
@[simp] theorem State.releaseCoder_pending (s : State) : s.releaseCoder.pending = s.pending := rfl

@[simp] theorem State.emit_signals (s : State) (m : Signal) : (s.emit m).signals = s.signals ++ [m] := rfl
@[simp] theorem State.setEvent_window (s : State) (e : Event) : (s.setEvent e).window = s.window.set e := rfl
@[simp] theorem State.setLane_lanes (s : State) (l : Lane) (c : LaneCtl) : (s.setLane l c).lanes = s.lanes.set l c := rfl
@[simp] theorem State.freePort_port (s : State) : s.freePort.port = none := rfl

/-! ### One thing per lane -/

@[simp] theorem Six.get_set_same {α : Type} (x : Six α) (l : Lane) (v : α) : (x.set l v).get l = v := by cases l <;> rfl

theorem Six.get_set_other {α : Type} (x : Six α) {l k : Lane} (v : α) (h : k ≠ l) : (x.set l v).get k = x.get k := by
  cases l <;> cases k <;> first | rfl | exact absurd rfl h

@[simp] theorem Six.get_build {α : Type} (f : Lane → α) (l : Lane) : (Six.build f).get l = f l := by cases l <;> rfl

@[simp] theorem State.lane_setLane_same (s : State) (l : Lane) (c : LaneCtl) : (s.setLane l c).lane l = c := by
  simp [State.lane]

theorem State.lane_setLane_other (s : State) {l k : Lane} (c : LaneCtl) (h : k ≠ l) :
    (s.setLane l c).lane k = s.lane k := by
  simp [State.lane, Six.get_set_other _ _ h]

@[simp] theorem State.lane_emit (s : State) (m : Signal) (l : Lane) : (s.emit m).lane l = s.lane l := rfl
@[simp] theorem State.lane_setEvent (s : State) (e : Event) (l : Lane) : (s.setEvent e).lane l = s.lane l := rfl
@[simp] theorem State.lane_setPage (s : State) (k : Lane) (b r : Nat) (p : Page) (l : Lane) :
    (s.setPage k b r p).lane l = s.lane l := rfl
@[simp] theorem State.lane_setBlock (s : State) (k : Lane) (b : Nat) (p : Page) (l : Lane) :
    (s.setBlock k b p).lane l = s.lane l := by simp only [State.lane, State.setBlock_lanes]

/-! ### The register window -/

@[simp] theorem Window.set_enable (w : Window) (e : Event) : (w.set e).enable = w.enable := rfl
@[simp] theorem Window.set_configAddress (w : Window) (e : Event) : (w.set e).configAddress = w.configAddress := rfl
@[simp] theorem Window.set_errorAddress (w : Window) (e : Event) : (w.set e).errorAddress = w.errorAddress := rfl
@[simp] theorem Window.set_refusal (w : Window) (e : Event) : (w.set e).refusal = w.refusal := rfl
@[simp] theorem Window.set_refusalApply (w : Window) (e : Event) : (w.set e).refusalApply = w.refusalApply := rfl

/-- Setting an event's flag sets that flag. -/
@[simp] theorem Window.flag_set_same (w : Window) (e : Event) : (w.set e).flag e = true := by
  cases e <;> simp [Window.flag, Window.set, Event.bit]

/-- Setting an event's flag clears none. -/
theorem Window.set_keeps (w : Window) (e : Event) (i : Nat) (h : w.events.getLsbD i = true) :
    (w.set e).events.getLsbD i = true := by
  simp [Window.set, h]

end Sys2Proof.Machine
end

