-- ==== Sys2Proof/Laws/Settle.lean ====
section
/-! SUPPORT. What the messages and reactions inside a step leave alone, and the induction over them. -/

namespace Sys2Proof.Machine

/-! ## The outcome of a command -/

/-- A command that a live part takes, and all that comes about at it. -/
theorem State.takes_live (s : State) (f : State → State) (h : s.live = true) : s.takes f = .next (f s).settle := by
  simp [State.takes, State.whenLive, h]

/-- A part without supply, or held in reset, stays as it is. -/
theorem State.takes_dead (s : State) (f : State → State) (h : s.live = false) : s.takes f = .next s := by
  simp [State.takes, State.whenLive, h]

/-! ## Fields after the reactions -/

@[simp] theorem State.settle_supply (s : State) : s.settle.supply = s.supply := rfl
@[simp] theorem State.settle_resetHeld (s : State) : s.settle.resetHeld = s.resetHeld := rfl
@[simp] theorem State.settle_warnLine (s : State) : s.settle.warnLine = s.warnLine := rfl
@[simp] theorem State.settle_inhibitLine (s : State) : s.settle.inhibitLine = s.inhibitLine := rfl
@[simp] theorem State.settle_queryAnswer (s : State) : s.settle.queryAnswer = s.queryAnswer := rfl
@[simp] theorem State.settle_array (s : State) : s.settle.array = s.array := rfl
@[simp] theorem State.settle_mem (s : State) : s.settle.mem = s.mem := rfl
@[simp] theorem State.settle_signals (s : State) : s.settle.signals = [] := rfl
@[simp] theorem State.settle_pending (s : State) : s.settle.pending = s.pending := rfl
@[simp] theorem State.settle_queue (s : State) : s.settle.sheets.queue = s.sheets.queue := rfl
@[simp] theorem State.settle_config (s : State) : s.settle.modes.config = s.modes.config := rfl
@[simp] theorem State.settle_warning (s : State) : s.settle.modes.warning = s.modes.warning := rfl
@[simp] theorem State.settle_stored (s : State) : s.settle.table.stored = s.table.stored := rfl
@[simp] theorem State.settle_marker (s : State) : s.settle.table.marker = s.table.marker := rfl
@[simp] theorem State.settle_checkDelta (s : State) : s.settle.table.checkDelta = s.table.checkDelta := rfl
@[simp] theorem State.settle_loaded (s : State) : s.settle.table.loaded = s.table.loaded := rfl
@[simp] theorem State.settle_commit (s : State) : s.settle.table.commit = s.table.commit := rfl
@[simp] theorem State.settle_storeFault (s : State) : s.settle.table.storeFault = s.table.storeFault := rfl
@[simp] theorem State.settle_lockEnable (s : State) : s.settle.protect.lockEnable = s.protect.lockEnable := rfl
@[simp] theorem State.settle_lockAll (s : State) : s.settle.protect.lockAll = s.protect.lockAll := rfl
@[simp] theorem State.settle_range (s : State) : s.settle.protect.range = s.protect.range := rfl
@[simp] theorem State.settle_tight (s : State) : s.settle.protect.tight = s.protect.tight := rfl
@[simp] theorem State.settle_inhibit (s : State) : s.settle.protect.inhibit = s.protect.inhibit := rfl
@[simp] theorem State.settle_fuses (s : State) : s.settle.protect.fuses = s.protect.fuses := rfl
@[simp] theorem State.settle_working (s : State) : s.settle.protect.working = s.protect.working := rfl
@[simp] theorem State.settle_enable (s : State) : s.settle.window.enable = s.window.enable := rfl
@[simp] theorem State.settle_configAddress (s : State) : s.settle.window.configAddress = s.window.configAddress := rfl
@[simp] theorem State.settle_errorAddress (s : State) : s.settle.window.errorAddress = s.window.errorAddress := rfl
@[simp] theorem State.settle_refusal (s : State) : s.settle.window.refusal = s.window.refusal := rfl
@[simp] theorem State.settle_refusalApply (s : State) : s.settle.window.refusalApply = s.window.refusalApply := rfl

/-- One lane after the reactions, whatever they lead to. -/
theorem State.settled_lane (s t : State) (l : Lane) : (s.settled t).lane l = (s.lane l).withRequests (t.lane l) := by
  cases l <;> rfl

/-- One lane after the reactions. -/
theorem State.settle_lane (s : State) (l : Lane) :
    s.settle.lane l = (s.lane l).withRequests ((State.settleLoop s.fuel s).lane l) := State.settled_lane s _ l

/-- Each lane keeps its cache register. -/
@[simp] theorem State.settle_cache (s : State) (l : Lane) : (s.settle.lane l).cache = (s.lane l).cache := by
  rw [State.settle_lane]; rfl

/-- Each lane keeps its operation. -/
@[simp] theorem State.settle_activity (s : State) (l : Lane) : (s.settle.lane l).activity = (s.lane l).activity := by
  rw [State.settle_lane]; rfl

/-- Each lane keeps its last operation. -/
@[simp] theorem State.settle_lastOp (s : State) (l : Lane) : (s.settle.lane l).lastOp = (s.lane l).lastOp := by
  rw [State.settle_lane]; rfl

/-- Each lane keeps PREVIOUS_FAILED. -/
@[simp] theorem State.settle_prevFailed (s : State) (l : Lane) : (s.settle.lane l).prevFailed = (s.lane l).prevFailed := by
  rw [State.settle_lane]; rfl

/-- An event flag that is set stays set. -/
theorem State.settle_events (s : State) (i : Nat) (h : s.window.events.getLsbD i = true) :
    s.settle.window.events.getLsbD i = true := by
  have : s.settle.window.events = s.window.events ||| (State.settleLoop s.fuel s).window.events := rfl
  rw [this, BitVec.getLsbD_or, h, Bool.true_or]

/-- A flag that is set stays set. -/
theorem State.settle_flag (s : State) (e : Event) (h : s.window.flag e = true) : s.settle.window.flag e = true := by
  simp only [Window.flag] at h ⊢
  exact State.settle_events s e.bit h

/-- Everything the reactions leave alone. -/
theorem State.settle_kept (s : State) : State.reactionsKept s s.settle := by
  refine ⟨?_, fun a => congrArg (Memory.readByte · a) s.settle_mem, fun _ _ _ => rfl,
    ⟨fun b => congrArg (Sparse.read _ · b) s.settle_stored, rfl, rfl, rfl, rfl, rfl⟩, ⟨rfl, rfl, rfl, rfl, rfl, rfl, rfl⟩,
    ⟨State.settle_events s, rfl, rfl, rfl, rfl, rfl⟩, ⟨rfl, rfl, rfl, rfl, rfl⟩, ⟨rfl, rfl, rfl⟩, rfl⟩
  intro l
  exact ⟨(s.settle_cache l).symm, (s.settle_activity l).symm, (s.settle_lastOp l).symm, (s.settle_prevFailed l).symm⟩

/-! ## Induction over the reactions -/

/-- What one reaction keeps, the loop keeps. -/
theorem State.settleLoop_keeps {P : State → Prop} (h : ∀ s t, P s → s.advance = some t → P t) (n : Nat) (s : State)
    (hs : P s) : P (State.settleLoop n s) := by
  induction n generalizing s with
  | zero => exact hs
  | succ n ih =>
      simp only [State.settleLoop]
      split
      · next t ht => exact ih t (h s t hs ht)
      · exact hs

/-- With no message and no reaction due, nothing comes about. -/
theorem State.settleLoop_rest (n : Nat) (s : State) (h : s.advance = none) : State.settleLoop n s = s := by
  cases n with
  | zero => rfl
  | succ n => simp [State.settleLoop, h]

/-- A message to a block leaves the table as it was. -/
@[simp] theorem keepTable_table (f : State → State) (s : State) : (keepTable f s).table = s.table := rfl

/-- A reaction of a block leaves the table as it was. -/
theorem keepTableOpt_table {f : State → Option State} {s t : State} (h : keepTableOpt f s = some t) :
    t.table = s.table := by
  simp only [keepTableOpt, Option.map_eq_some_iff] at h
  obtain ⟨u, _, rfl⟩ := h
  rfl

/-- What holds of the table, and is kept by the updates, permits, requests and releases of the band table, holds of it
after the reactions: no block changes it otherwise. -/
theorem State.settleLoop_table {Q : Table → Prop}
    (upd : ∀ s c u n, Q s.table → Q (State.giveUpdate s c u n).table)
    (permit : ∀ s c, Q s.table → Q (State.askPermit s c).table)
    (request : ∀ s c cl tl, Q s.table → Q (State.takeRequest s c cl tl).table)
    (forget : ∀ s c, Q s.table → Q (State.forgetCommit s c).table)
    (release : ∀ s : State, Q s.table → (s.table.gateOpen || s.table.storeFault) = true → Q s.releaseHeld.table)
    (n : Nat) (s : State) (hs : Q s.table) : Q (State.settleLoop n s).table := by
  refine State.settleLoop_keeps (P := fun s => Q s.table) ?_ n s hs
  intro s t hs ht
  unfold State.advance at ht
  split at ht
  · next m rest hm =>
      have ht : State.dispatch { s with signals := rest } m = t := by simpa using ht
      subst ht
      cases m with
      | update c u n => exact upd _ c u n hs
      | askPermit c => exact permit _ c hs
      | commitRequest c cl tl => exact request _ c cl tl hs
      | forgetCommit c => exact forget _ c hs
      | report | answer | notice | permit | rowLoaded | readBegun | judged | needPages | rowDelivered | checked
        | unitWritten | moverEnding | flushed | fetchDone | orderEnd => exact hs
  · unfold State.react at ht
    split at ht
    · next u hu =>
        obtain rfl : u = t := by simpa using ht
        simp only [State.gateReleases] at hu
        split at hu
        · next hc =>
            simp only [Bool.and_eq_true] at hc
            obtain rfl : s.releaseHeld = u := by simpa using hu
            exact release s hs hc.2
        · simp at hu
    · obtain ⟨f, _, hf⟩ := List.exists_of_findSome?_eq_some ht
      rw [keepTableOpt_table hf]
      exact hs

/-! ## What END finds at the port (R157, R159) -/

/-- The transfer is busy exactly when the port is granted to it for an access raised or for a burst that may start. -/
theorem State.moverBusy_iff (s : State) :
    s.moverBusy = true ↔ s.port = some .mover ∧ (s.mover.access ≠ none ∨ s.mover.burstNow ≠ none) := by
  cases h : s.mover.access <;> simp [State.moverBusy, State.wantsPort, h, Option.isSome_iff_ne_none, and_comm]

/-- END empties the FIFO of a busy inbound or fetch transfer and leaves it to run its granted access to the end. -/
theorem State.endTransfer_busy (s : State) (hp : s.mover.phase = .moving) (hd : s.mover.direction ≠ some .outbound)
    (hb : s.moverBusy = true) : s.endTransfer = { s with mover := { s.mover with fifo := [], ended := true } } := by
  simp [State.endTransfer, hp, hd, hb]

/-- END of an inbound or fetch transfer without the port is followed by FLUSHED at once. -/
theorem State.endTransfer_quiet (s : State) (hp : s.mover.phase = .moving) (hd : s.mover.direction ≠ some .outbound)
    (hb : s.moverBusy = false) : s.endTransfer = s.moverFlushed := by
  simp [State.endTransfer, hp, hd, hb]

/-! ## FAULT for OPEN in a copy (R123 step 6) -/

/-- The row in flight keeps the FAULT until its step 6; no ending is set before. -/
theorem Reader.openFailed_row {r : Reader} {c : CopyRow} (h : r.copyRow = some c) :
    r.openFailed = { r with copyRow := some { c with openFault := true } } := by simp [Reader.openFailed, h]

/-- With no row in flight the ending is set at once. -/
theorem Reader.openFailed_none {r : Reader} (h : r.copyRow = none) : r.openFailed = r.setEnding .storeFault := by
  simp [Reader.openFailed, h]

/-! ## The pages of a judged copy row (R58, R125) -/

/-- With a row in the read assembly its BUILD lanes present in the target are produced. -/
theorem State.produceRow_some {s : State} {c : CopyRow} {r : ReadAsm} (h : s.coder.read = some r) :
    s.produceRow c = s.produceCopy r ((c.lanesOf .build).filter (fun l => s.inTarget l c.target))
      (s.reader.targetBand, c.target) := by simp [State.produceRow, h]

/-- With the read assembly empty nothing is produced. -/
theorem State.produceRow_none {s : State} {c : CopyRow} (h : s.coder.read = none) : s.produceRow c = s := by
  simp [State.produceRow, h]

/-! ## The report writer's queue (R186) and the class of a moved lane (R122) -/

/-- The headers keep their order, and the new one is the last of them. -/
theorem dueWithHeader_headers (due : List ReportDue) (area : Word) :
    (dueWithHeader due area).filter (fun d => decide (d ≠ .clear)) =
      due.filter (fun d => decide (d ≠ .clear)) ++ [.header area] := by
  simp [dueWithHeader, List.filter_append, List.filter_filter]

/-- No REPORT_CLEAR is lost or added. -/
theorem dueWithHeader_clears (due : List ReportDue) (area : Word) :
    (dueWithHeader due area).filter (fun d => decide (d = .clear)) = due.filter (fun d => decide (d = .clear)) := by
  simp [dueWithHeader, List.filter_append, List.filter_filter]

@[simp] theorem OpOutcome.reclass_sourceBad (k : PlanClass) : OpOutcome.sourceBad.reclass k = .build := rfl
@[simp] theorem OpOutcome.reclass_fail (k : PlanClass) : OpOutcome.fail.reclass k = .feed := rfl
@[simp] theorem OpOutcome.reclass_pass (k : PlanClass) : OpOutcome.pass.reclass k = k := rfl

end Sys2Proof.Machine
end

