-- ==== Sys2Proof/Laws/Sparse.lean ====
section
/-! SUPPORT. Sparse maps and host memory: what is read after a write, and that every operation keeps the canonical
form. -/

namespace Sys2Proof.Machine

section
variable {α : Type} [DecidableEq α] (d : α)

/-- A map whose keys start above `k` reads `d` at `k`. -/
theorem Sparse.read_below (m : Sparse α) (lo k : Nat) (h : Sparse.wfFrom d lo m = true) (hk : k < lo) :
    Sparse.read d m k = d := by
  induction m generalizing lo with
  | nil => rfl
  | cons e rest ih =>
      obtain ⟨a, v⟩ := e
      simp only [Sparse.wfFrom, Bool.and_eq_true, decide_eq_true_eq] at h
      have ha : a ≠ k := by omega
      simp only [Sparse.read, if_neg ha]
      exact ih (a + 1) h.2 (by omega)

/-- The key written reads as the value written. -/
theorem Sparse.read_write_same (m : Sparse α) (lo k : Nat) (v : α) (h : Sparse.wfFrom d lo m = true) :
    Sparse.read d (Sparse.write d m k v) k = v := by
  induction m generalizing lo with
  | nil => by_cases hv : v = d <;> simp [Sparse.write, Sparse.read, hv]
  | cons e rest ih =>
      obtain ⟨a, w⟩ := e
      simp only [Sparse.wfFrom, Bool.and_eq_true, decide_eq_true_eq] at h
      by_cases hak : a = k
      · by_cases hv : v = d
        · subst hak; subst hv
          simp only [Sparse.write, if_true]
          exact Sparse.read_below v rest (a + 1) a h.2 (by omega)
        · simp [Sparse.write, Sparse.read, hak, hv]
      · by_cases hlt : k < a
        · by_cases hv : v = d
          · subst hv
            simp only [Sparse.write, if_neg hak, if_pos hlt, if_true, Sparse.read]
            exact Sparse.read_below v rest (a + 1) k h.2 (by omega)
          · simp [Sparse.write, Sparse.read, hak, hlt, hv]
        · simp only [Sparse.write, if_neg hak, if_neg hlt, Sparse.read]
          exact ih (a + 1) h.2

/-- Every other key reads as before. -/
theorem Sparse.read_write_other (m : Sparse α) (k j : Nat) (v : α) (hj : j ≠ k) :
    Sparse.read d (Sparse.write d m k v) j = Sparse.read d m j := by
  induction m with
  | nil => by_cases hv : v = d <;> simp [Sparse.write, Sparse.read, hv, Ne.symm hj]
  | cons e rest ih =>
      obtain ⟨a, w⟩ := e
      by_cases hak : a = k
      · subst hak
        by_cases hv : v = d <;> simp [Sparse.write, Sparse.read, hv, Ne.symm hj]
      · by_cases hlt : k < a
        · by_cases hv : v = d <;> simp [Sparse.write, Sparse.read, hak, hlt, hv, Ne.symm hj]
        · simp only [Sparse.write, if_neg hak, if_neg hlt, Sparse.read, ih]

/-- A write keeps the canonical form. -/
theorem Sparse.write_wfFrom (m : Sparse α) (lo k : Nat) (v : α) (h : Sparse.wfFrom d lo m = true) (hk : lo ≤ k) :
    Sparse.wfFrom d lo (Sparse.write d m k v) = true := by
  induction m generalizing lo with
  | nil => by_cases hv : v = d <;> simp [Sparse.write, Sparse.wfFrom, hv, hk]
  | cons e rest ih =>
      obtain ⟨a, w⟩ := e
      have h' := h
      simp only [Sparse.wfFrom, Bool.and_eq_true, decide_eq_true_eq, Bool.not_eq_true', decide_eq_false_iff_not] at h
      obtain ⟨⟨hla, hw⟩, hrest⟩ := h
      have up : ∀ (r : Sparse α) (x y : Nat), x ≤ y → Sparse.wfFrom d y r = true → Sparse.wfFrom d x r = true := by
        intro r x y hxy hr
        cases r with
        | nil => rfl
        | cons f t =>
            obtain ⟨b, u⟩ := f
            simp only [Sparse.wfFrom, Bool.and_eq_true, decide_eq_true_eq] at hr ⊢
            exact ⟨⟨by omega, hr.1.2⟩, hr.2⟩
      by_cases hak : a = k
      · subst hak
        by_cases hv : v = d
        · simp only [Sparse.write, if_true, hv]
          exact up rest lo (a + 1) (by omega) hrest
        · simp [Sparse.write, Sparse.wfFrom, hv, hla, hrest]
      · by_cases hlt : k < a
        · by_cases hv : v = d
          · simp only [Sparse.write, if_neg hak, if_pos hlt, hv, if_true]; exact h'
          · simp only [Sparse.write, if_neg hak, if_pos hlt, if_neg hv, Sparse.wfFrom, Bool.and_eq_true,
              decide_eq_true_eq, Bool.not_eq_true', decide_eq_false_iff_not]
            exact ⟨⟨hk, hv⟩, ⟨by omega, hw⟩, hrest⟩
        · simp only [Sparse.write, if_neg hak, if_neg hlt, Sparse.wfFrom, Bool.and_eq_true, decide_eq_true_eq,
            Bool.not_eq_true', decide_eq_false_iff_not]
          exact ⟨⟨hla, hw⟩, ih (a + 1) hrest (by omega)⟩

/-- A write keeps the canonical form. -/
theorem Sparse.write_wf (m : Sparse α) (k : Nat) (v : α) (h : Sparse.wf d m = true) :
    Sparse.wf d (Sparse.write d m k v) = true :=
  Sparse.write_wfFrom d m 0 k v h (Nat.zero_le k)

/-- In a canonical map the key written reads as the value written. -/
theorem Sparse.read_write (m : Sparse α) (k : Nat) (v : α) (h : Sparse.wf d m = true) :
    Sparse.read d (Sparse.write d m k v) k = v :=
  Sparse.read_write_same d m 0 k v h

/-- What is read after a write, in one equation. -/
theorem Sparse.read_write_eq (m : Sparse α) (k j : Nat) (v : α) (h : Sparse.wf d m = true) :
    Sparse.read d (Sparse.write d m k v) j = if j = k then v else Sparse.read d m j := by
  by_cases hj : j = k
  · subst hj; simp [Sparse.read_write d m j v h]
  · simp [hj, Sparse.read_write_other d m k j v hj]

/-- What holds of every entry, and of the value written, holds of every entry after the write. -/
theorem Sparse.all_write (p : α → Bool) (m : Sparse α) (k : Nat) (v : α) (hv : p v = true)
    (h : m.all (fun e => p e.2) = true) : (Sparse.write d m k v).all (fun e => p e.2) = true := by
  induction m with
  | nil => by_cases hd : v = d <;> simp [Sparse.write, hd]; exact hv
  | cons e rest ih =>
      obtain ⟨a, w⟩ := e
      simp only [List.all_cons, Bool.and_eq_true] at h
      have ih := ih h.2
      simp only [Sparse.write]
      split_ifs <;> (try simp only [List.all_cons, Bool.and_eq_true]) <;> tauto

end

/-- What holds of every entry and of the unlisted value holds of every value read. -/
theorem Sparse.read_all {α : Type} (d : α) (p : α → Bool) (m : Sparse α) (k : Nat) (hd : p d = true)
    (h : m.all (fun e => p e.2) = true) : p (Sparse.read d m k) = true := by
  induction m with
  | nil => exact hd
  | cons e rest ih =>
      obtain ⟨a, w⟩ := e
      simp only [List.all_cons, Bool.and_eq_true] at h
      simp only [Sparse.read]
      split_ifs
      · exact h.1
      · exact ih h.2

/-! ## Host memory -/

/-- A byte write keeps the canonical form. -/
theorem Memory.wf_writeByte (m : List Host.Cell) (a : Nat) (v : Byte) (h : Memory.wf m = true) :
    Memory.wf (Memory.writeByte m a v) = true :=
  Sparse.write_wf emptyByte m a v h

/-- A word write keeps the canonical form. -/
theorem Memory.wf_writeWord (m : List Host.Cell) (a : Nat) (w : Word) (h : Memory.wf m = true) :
    Memory.wf (Memory.writeWord m a w) = true :=
  Memory.wf_writeByte _ _ _ (Memory.wf_writeByte _ _ _ (Memory.wf_writeByte _ _ _ (Memory.wf_writeByte _ _ _ h)))

/-- A list of word writes keeps the canonical form. -/
theorem Memory.wf_writeWords (ws : List (Nat × Word)) (m : List Host.Cell) (h : Memory.wf m = true) :
    Memory.wf (Memory.writeWords m ws) = true := by
  induction ws generalizing m with
  | nil => exact h
  | cons w rest ih => exact ih _ (Memory.wf_writeWord m w.1 w.2 h)

/-- The host's stores keep the canonical form. -/
theorem Memory.wf_hostStores (m : List Host.Cell) (r : BusReply) (h : Memory.wf m = true) :
    Memory.wf (hostStores m r) = true :=
  Memory.wf_writeWords _ m h

/-- A byte outside the four written reads as before. -/
theorem Memory.readByte_writeWord_other (m : List Host.Cell) (a : Nat) (w : Word) (b : Nat)
    (h : b < a ∨ a + 4 ≤ b) : Memory.readByte (Memory.writeWord m a w) b = Memory.readByte m b := by
  have other : ∀ (m : List Host.Cell) (k : Nat) (v : Byte), b ≠ k →
      Memory.readByte (Memory.writeByte m k v) b = Memory.readByte m b :=
    fun m k v hk => Sparse.read_write_other emptyByte m k b v hk
  unfold Memory.writeWord
  rw [other _ _ _ (by omega), other _ _ _ (by omega), other _ _ _ (by omega), other _ _ _ (by omega)]

/-- A byte outside every word written reads as before. -/
theorem Memory.readByte_writeWords_other (ws : List (Nat × Word)) (m : List Host.Cell) (b : Nat)
    (h : ∀ w ∈ ws, b < w.1 ∨ w.1 + 4 ≤ b) : Memory.readByte (Memory.writeWords m ws) b = Memory.readByte m b := by
  induction ws generalizing m with
  | nil => rfl
  | cons w rest ih =>
      have h1 := ih (Memory.writeWord m w.1 w.2) (fun x hx => h x (List.mem_cons_of_mem _ hx))
      have h2 := Memory.readByte_writeWord_other m w.1 w.2 b (h w List.mem_cons_self)
      exact h1.trans h2

/-! ## Blocks of the array -/

/-- Filling a block keeps the canonical form. -/
theorem fillBlock_wf (a : Sparse Page) (l : Lane) (band : Nat) (p : Page) (n : Nat) (h : Sparse.wf .erased a = true) :
    Sparse.wf .erased (fillBlock a l band p n) = true := by
  induction n with
  | zero => exact h
  | succ n ih => exact Sparse.write_wf Page.erased _ _ _ ih

/-- Writing records into a store keeps its canonical form. -/
theorem writeRecords_wf (rs m : Sparse BandRecord) (h : Sparse.wf .factory m = true) :
    Sparse.wf .factory (writeRecords m rs) = true := by
  induction rs generalizing m with
  | nil => exact h
  | cons e rest ih => exact ih _ (Sparse.write_wf BandRecord.factory m e.1 e.2 h)

end Sys2Proof.Machine
end

