-- ==== Sys2Proof/Laws/Table.lean ====
section
/-! SUPPORT. The band table: every operation over it keeps the records sound (R20, R31), and keeps the table's part of
R39. -/

namespace Sys2Proof.Machine

/-! ## The dirty set and the path of an update (R35, R39) -/

/-- Adding a band to the dirty set adds that band and no other. -/
theorem mem_addDirty (ds : List Nat) (b x : Nat) : x ∈ addDirty ds b ↔ x ∈ ds ∨ x = b := by
  unfold addDirty
  split
  · next h => exact ⟨Or.inl, fun o => o.elim id (fun e => by simpa [e] using h)⟩
  · simp

/-- The dirty set holds a band at most once after an addition as before it. -/
theorem nodup_addDirty (ds : List Nat) (b : Nat) (h : ds.Nodup) : (addDirty ds b).Nodup := by
  unfold addDirty
  split
  · exact h
  · next hb =>
      exact List.nodup_append.mpr ⟨h, List.nodup_singleton b, fun a ha c hc e => by simp at hc hb; exact hb (hc ▸ e ▸ ha)⟩

/-- An update given while none is held, at an open gate or under STORE_FAULT, is taken at once. -/
theorem State.giveUpdate_taken (s : State) (c : Client) (u : Update) (n : Bool) (held : s.table.heldUpdates = [])
    (free : s.table.storeFault = true ∨ s.table.gateOpen = true) :
    s.giveUpdate c u n = s.takeUpdate { client := c, update := u, notice := n } := by
  unfold State.giveUpdate
  rcases free with h | h <;> simp [h, held]

/-! ## Records -/

theorem BandRecord.sound_factory : BandRecord.factory.sound = true := by decide

/-- Moving next_row past the row it stands at keeps a record sound when a void row appended, if any, is that row. -/
theorem pairwise_append_last (l : List Nat) (n : Nat) (h : l.Pairwise (· < ·)) (hn : ∀ v ∈ l, v < n) :
    (l ++ [n]).Pairwise (· < ·) := by
  rw [List.pairwise_append]
  exact ⟨h, List.pairwise_singleton _ _, fun a ha b hb => by simp at hb; subst hb; exact hn a ha⟩

/-- The sound record, clause by clause. -/
theorem BandRecord.sound_iff (r : BandRecord) : r.sound = true ↔
    r.nextRow ≤ 64 ∧ r.voids.length ≤ 4 ∧ r.voids.Pairwise (· < ·) ∧ (∀ x ∈ r.voids, x < r.nextRow) ∧
      r.lost.length ≤ 2 ∧ (r.lost.map (·.lane)).Nodup ∧
      (r.lost.length ≤ r.level.val ∨ r.state = .failed ∨ r.state = .erasing ∨ r.state = .retired) := by
  unfold BandRecord.sound BandRecord.wf BandRecord.lossFits Config.rows
  rw [Bool.and_eq_true, Bool.and_eq_true, Bool.and_eq_true, Bool.and_eq_true, Bool.and_eq_true, Bool.and_eq_true,
    Bool.or_eq_true, Bool.or_eq_true, Bool.or_eq_true, List.all_eq_true]
  repeat rw [decide_eq_true_iff]
  simp only [decide_eq_true_iff, and_assoc, or_assoc]

/-- next_row moved past the row it stands at, the void list kept. -/
theorem BandRecord.sound_next (r : BandRecord) (st : BandState) (h : r.sound = true) (hn : r.nextRow < 64)
    (hs : r.lost.length ≤ r.level.val ∨ st = .failed ∨ st = .erasing ∨ st = .retired) :
    ({ r with nextRow := r.nextRow + 1, state := st } : BandRecord).sound = true := by
  rw [BandRecord.sound_iff] at h ⊢
  obtain ⟨_, h2, h3, h4, h5, h6, _⟩ := h
  refine ⟨hn, h2, h3, fun x hx => ?_, h5, h6, hs⟩
  exact Nat.lt_succ_of_lt (h4 x hx)

/-- Only the state changes. -/
theorem BandRecord.sound_state (r : BandRecord) (st : BandState) (h : r.sound = true)
    (hs : r.lost.length ≤ r.level.val ∨ st = .failed ∨ st = .erasing ∨ st = .retired) :
    ({ r with state := st } : BandRecord).sound = true := by
  rw [BandRecord.sound_iff] at h ⊢
  obtain ⟨h1, h2, h3, h4, h5, h6, _⟩ := h
  exact ⟨h1, h2, h3, h4, h5, h6, hs⟩

/-- In a state that bears no loss beyond the level, the lost list fits the level. -/
theorem BandRecord.sound_fits (r : BandRecord) (h : r.sound = true) (h1 : r.state ≠ .failed) (h2 : r.state ≠ .erasing)
    (h3 : r.state ≠ .retired) : r.lost.length ≤ r.level.val := by
  rw [BandRecord.sound_iff] at h
  obtain ⟨_, _, _, _, _, _, h | h | h | h⟩ := h
  · exact h
  · exact absurd h h1
  · exact absurd h h2
  · exact absurd h h3

/-- A lane not yet on the lost list is appended. -/
theorem BandRecord.sound_lose (r : BandRecord) (l : Lane) (n : Nat) (st : BandState) (h : r.sound = true)
    (hl : r.isLost l = false) (hlen : r.lost.length < 2)
    (hs : r.lost.length + 1 ≤ r.level.val ∨ st = .failed) :
    ({ r with state := st, lost := r.lost ++ [⟨l, n⟩] } : BandRecord).sound = true := by
  rw [BandRecord.sound_iff] at h ⊢
  obtain ⟨h1, h2, h3, h4, h5, h6, _⟩ := h
  refine ⟨h1, h2, h3, h4, by simp; omega, ?_, ?_⟩
  · rw [List.map_append, List.nodup_append]
    refine ⟨h6, List.nodup_singleton _, ?_⟩
    intro x hx y hy
    rw [BandRecord.isLost, List.any_eq_false] at hl
    obtain ⟨e, he, rfl⟩ := List.mem_map.1 hx
    obtain rfl : y = l := by simpa using hy
    simpa using hl e he
  · rcases hs with hs | hs
    · left; simpa using hs
    · right; left; exact hs

/-- An update that is applied leaves a sound record sound. -/
theorem applyUpdate_sound (r r' : BandRecord) (u : Update) (h : r.sound = true) (hu : applyUpdate r u = some r') :
    r'.sound = true := by
  have fits := r.sound_fits h
  have adv : ∀ n, n = r.nextRow → n < 64 → r.state = .opened → (r.advance n).sound = true := by
    intro n e hn ho
    subst e
    have hf := fits (by simp [ho]) (by simp [ho]) (by simp [ho])
    unfold BandRecord.advance
    exact r.sound_next _ h hn (Or.inl hf)
  cases u with
  | eraseStart b lv =>
      have key : ({ r with state := .erasing, level := lv } : BandRecord).sound = true := by
        rw [BandRecord.sound_iff] at h ⊢
        obtain ⟨h1, h2, h3, h4, h5, h6, _⟩ := h
        exact ⟨h1, h2, h3, h4, h5, h6, Or.inr (Or.inr (Or.inl rfl))⟩
      unfold applyUpdate at hu
      dsimp only at hu
      split at hu <;> first
        | (rw [← Option.some.inj hu]; exact key)
        | exact absurd hu (by simp)
  | eraseEnd b pass =>
      unfold applyUpdate at hu
      dsimp only at hu
      split at hu
      · rw [← Option.some.inj hu]
        cases pass
        · exact r.sound_state .retired h (Or.inr (Or.inr (Or.inr rfl)))
        · simp [BandRecord.sound_iff]
      · exact absurd hu (by simp)
  | openBand b =>
      unfold applyUpdate at hu
      dsimp only at hu
      split at hu
      · next ho =>
          rw [← Option.some.inj hu]
          exact r.sound_state .opened h (Or.inl (fits (by simp [ho]) (by simp [ho]) (by simp [ho])))
      · exact absurd hu (by simp)
  | rowComplete b n =>
      unfold applyUpdate at hu
      dsimp only at hu
      split at hu
      · next hc =>
          split at hu
          · next ho => rw [← Option.some.inj hu]; exact adv n hc.1 hc.2 ho
          · next ho =>
              rw [← Option.some.inj hu, hc.1]
              have := r.sound_next .failed h (hc.1 ▸ hc.2) (Or.inr (Or.inl rfl))
              rw [← ho] at this
              exact this
          all_goals exact absurd hu (by simp)
      · exact absurd hu (by simp)
  | programFail b l n =>
      unfold applyUpdate at hu
      dsimp only at hu
      split at hu
      · next hc =>
          have hf := fits (by simp [hc.1]) (by simp [hc.1]) (by simp [hc.1])
          split at hu
          · next hle =>
              rw [← Option.some.inj hu]
              split
              · next hlt =>
                  have := r.sound_lose l n r.state h hc.2 hlt (Or.inl hle)
                  exact this
              · exact h
          · rw [← Option.some.inj hu]
            split
            · next hlt => exact r.sound_lose l n .failed h hc.2 hlt (Or.inr rfl)
            · exact r.sound_state .failed h (Or.inr (Or.inl rfl))
      · exact absurd hu (by simp)
  | sealBand b =>
      unfold applyUpdate at hu
      dsimp only at hu
      split at hu
      · next ho =>
          rw [← Option.some.inj hu]
          exact r.sound_state .sealed h (Or.inl (fits (by simp [ho]) (by simp [ho]) (by simp [ho])))
      · exact absurd hu (by simp)
  | rowFound b n =>
      unfold applyUpdate at hu
      dsimp only at hu
      split at hu
      · next hc => rw [← Option.some.inj hu]; exact adv n hc.2.1 hc.2.2 hc.1
      · exact absurd hu (by simp)
  | rowTorn b n =>
      unfold applyUpdate at hu
      dsimp only at hu
      split at hu
      · next hc =>
          have hadv := adv n hc.2.1 hc.2.2 hc.1
          split at hu
          · next hlt =>
              rw [← Option.some.inj hu]
              rw [BandRecord.sound_iff] at hadv h ⊢
              obtain ⟨h1, _, _, _, h5, h6, h7⟩ := hadv
              obtain ⟨_, _, g3, g4, _, _, _⟩ := h
              refine ⟨h1, by simp; omega, pairwise_append_last _ _ g3 (fun v hv => hc.2.1 ▸ g4 v hv), ?_, h5, h6, h7⟩
              intro x hx
              have hn1 : (r.advance n).nextRow = n + 1 := rfl
              rw [List.mem_append] at hx
              rcases hx with hx | hx
              · have := g4 x hx; have := hc.2.1; simp only [hn1]; omega
              · obtain rfl : x = n := by simpa using hx
                simp only [hn1]; omega
          · rw [← Option.some.inj hu, hc.2.1]
            have hf := fits (by simp [hc.1]) (by simp [hc.1]) (by simp [hc.1])
            exact r.sound_next .sealed h (hc.2.1 ▸ hc.2.2) (Or.inl hf)
      · exact absurd hu (by simp)
  | setAttention b =>
      unfold applyUpdate at hu
      rw [← Option.some.inj hu, BandRecord.sound_iff]
      exact (BandRecord.sound_iff r).1 h
  | clearAttention b =>
      unfold applyUpdate at hu
      rw [← Option.some.inj hu, BandRecord.sound_iff]
      exact (BandRecord.sound_iff r).1 h

/-- A record of a sound table is sound. -/
theorem soundAll_read (m : Sparse BandRecord) (b : Nat) (h : soundAll m = true) :
    (Sparse.read .factory m b).sound = true :=
  Sparse.read_all BandRecord.factory BandRecord.sound m b BandRecord.sound_factory h

theorem soundAll_write (m : Sparse BandRecord) (b : Nat) (r : BandRecord) (hr : r.sound = true)
    (h : soundAll m = true) : soundAll (Sparse.write .factory m b r) = true :=
  Sparse.all_write BandRecord.factory BandRecord.sound m b r hr h

theorem soundAll_writeRecords (rs m : Sparse BandRecord) (hr : soundAll rs = true) (h : soundAll m = true) :
    soundAll (writeRecords m rs) = true := by
  induction rs generalizing m with
  | nil => exact h
  | cons e rest ih =>
      simp only [soundAll, List.all_cons, Bool.and_eq_true] at hr
      exact ih _ hr.2 (soundAll_write m e.1 e.2 hr.1 h)

/-! ## Every operation keeps the table sound -/

/-- The sound table, clause by clause. -/
theorem Table.sound_iff (t : Table) : t.sound = true ↔
    soundAll t.working = true ∧ soundAll t.stored = true ∧ Sparse.wf .factory t.working = true ∧
      Sparse.wf .factory t.stored = true ∧
      ∀ c, t.commit = some c → soundAll c.records = true ∧ (c.clean = true → Sparse.wf .factory c.records = true) := by
  unfold Table.sound
  cases t.commit with
  | none => simp; tauto
  | some c => cases hc : c.clean <;> simp [hc] <;> tauto

/-- An update taken by the band table changes the working table, and nothing else that soundness looks at. -/
theorem State.takeUpdate_sound (s : State) (h : HeldUpdate) (hs : s.table.sound = true) :
    (s.takeUpdate h).table.sound = true := by
  rw [Table.sound_iff] at hs
  obtain ⟨h1, h2, h3, h4, h5⟩ := hs
  have change : ∀ new, applyUpdate (s.band h.update.band) h.update = some new →
      soundAll (Sparse.write .factory s.table.working h.update.band new) = true ∧
        Sparse.wf .factory (Sparse.write .factory s.table.working h.update.band new) = true :=
    fun new hn => ⟨soundAll_write _ _ _ (applyUpdate_sound _ _ _ (soundAll_read _ _ h1) hn) h1,
      Sparse.write_wf BandRecord.factory _ _ _ h3⟩
  unfold State.takeUpdate
  dsimp only
  split
  · split_ifs <;> exact (Table.sound_iff _).2 ⟨h1, h2, h3, h4, h5⟩
  · next new hr =>
      have hn : applyUpdate (s.band h.update.band) h.update = some new := by
        split_ifs at hr
        exact hr
      obtain ⟨c1, c3⟩ := change new hn
      split_ifs <;> first
        | exact (Table.sound_iff _).2 ⟨c1, h2, c3, h4, h5⟩
        | exact (Table.sound_iff _).2 ⟨h1, h2, h3, h4, h5⟩

theorem State.takeAll_sound (hs : List HeldUpdate) (s : State) (h : s.table.sound = true) :
    (s.takeAll hs).table.sound = true := by
  induction hs generalizing s with
  | nil => exact h
  | cons u rest ih => exact ih _ (State.takeUpdate_sound s u h)

/-- Answers to permits do not touch the table. -/
@[simp] theorem State.answerPermits_table (cs : List Client) (s : State) (g : Bool) :
    (s.answerPermits g cs).table = s.table := by
  induction cs generalizing s with
  | nil => rfl
  | cons c rest ih => simp [State.answerPermits, ih]

/-- Notices do not touch the table. -/
@[simp] theorem State.tellAll_table (ws : List Waiter) (s : State) (st : Bool) : (s.tellAll st ws).table = s.table := by
  induction ws generalizing s with
  | nil => rfl
  | cons c rest ih => simp [State.tellAll, ih]

/-- The unclean write's request touches nothing that soundness looks at. -/
@[simp] theorem Table.raiseUnclean_sound (t : Table) : t.raiseUnclean.sound = t.sound := by
  unfold Table.raiseUnclean
  split <;> rfl

/-- The unclean write's request touches nothing that the table's part of R39 looks at. -/
@[simp] theorem Table.raiseUnclean_gated (t : Table) : t.raiseUnclean.gated = t.gated := by
  unfold Table.raiseUnclean
  split <;> rfl

/-- The reactions inside a step keep the table sound. -/
theorem State.settle_sound (s : State) (h : s.table.sound = true) : s.settle.table.sound = true := by
  have loop : (State.settleLoop s.fuel s).table.sound = true := by
    refine State.settleLoop_table (Q := fun t => t.sound = true) ?_ ?_ ?_ ?_ ?_ _ s h
    · intro s c u n hs
      unfold State.giveUpdate
      dsimp only
      split_ifs
      · exact State.takeUpdate_sound s _ hs
      · exact (Table.raiseUnclean_sound _).trans hs
    · intro s c hs
      unfold State.askPermit
      split_ifs <;> first | exact hs | exact (Table.raiseUnclean_sound _).trans hs
    · intro s c cl tl hs
      unfold State.takeRequest
      cases cl <;> cases tl <;> exact hs
    · intro s c hs; exact hs
    · intro s hs _
      unfold State.releaseHeld
      dsimp only
      rw [State.answerPermits_table]
      exact State.takeAll_sound _ _ hs
  rw [Table.sound_iff] at h loop ⊢
  exact ⟨loop.1, h.2.1, loop.2.2.1, h.2.2.2.1, h.2.2.2.2⟩

/-! ## Every operation keeps the table's part of R39 -/

/-- The gated table, clause by clause. -/
theorem Table.gated_iff (t : Table) : t.gated = true ↔ (t.loaded = true →
    (t.marker = true → t.stored = t.working) ∧ (t.marker = true → t.storeFault = false → t.dirty = []) ∧
      ∀ c, t.commit = some c → t.storeFault = false ∧
        (c.clean = true → c.records = t.working ∧ t.dirty = []) ∧
        (c.clean = false → t.marker = true → c.records = [])) := by
  unfold Table.gated
  cases hl : t.loaded
  · simp
  · cases hc : t.commit with
    | none => cases hm : t.marker <;> cases hf : t.storeFault <;> simp
    | some c => cases hm : t.marker <;> cases hf : t.storeFault <;> cases hk : c.clean <;> simp [hk] <;> tauto

/-- With the gate open, or under STORE_FAULT, an update is taken without harm. -/
theorem State.takeUpdate_gated (s : State) (h : HeldUpdate) (hs : s.table.gated = true)
    (ho : (s.table.gateOpen || s.table.storeFault) = true) :
    (s.takeUpdate h).table.gated = true ∧
      ((s.takeUpdate h).table.gateOpen || (s.takeUpdate h).table.storeFault) = true := by
  unfold State.takeUpdate
  dsimp only
  split
  · split_ifs <;> exact ⟨hs, ho⟩
  · next new hr =>
      have hm : s.table.marker = false := by
        by_contra hm
        simp only [Bool.not_eq_false] at hm
        split_ifs at hr with hf
        simp only [Bool.and_eq_true, hm, and_true, Bool.not_eq_true] at hf
        simp [Table.gateOpen, hm, hf] at ho
      have hcl : ∀ c, s.table.commit = some c → s.table.loaded = true → c.clean = false ∧ s.table.storeFault = false := by
        intro c hc hl
        have hf := (((Table.gated_iff _).1 hs hl).2.2 c hc).1
        simp [Table.gateOpen, hf, Table.cleanInFlight, hc] at ho
        exact ⟨ho.1.2, hf⟩
      split_ifs with hch hno hsf <;> first
        | exact ⟨hs, ho⟩
        | (refine ⟨(Table.gated_iff _).2 (fun hl => ⟨fun hk => absurd hk (by simp [Table.change, hm]),
              fun hk => absurd hk (by simp [Table.change, hm]), fun c hc => ?_⟩), ho⟩
           have := hcl c hc hl
           exact ⟨this.2, fun hk => absurd hk (by simp [this.1]), fun _ hk => absurd hk (by simp [Table.change, hm])⟩)

/-- Every held update is taken without harm. -/
theorem State.takeAll_gated (hs : List HeldUpdate) (s : State) (h : s.table.gated = true)
    (ho : (s.table.gateOpen || s.table.storeFault) = true) : (s.takeAll hs).table.gated = true := by
  induction hs generalizing s with
  | nil => exact h
  | cons u rest ih =>
      have := State.takeUpdate_gated s u h ho
      exact ih _ this.1 this.2

/-- What an update leaves alone of the table: the store, the commit in flight and STORE_FAULT. -/
def Table.sameStore (t u : Table) : Prop :=
  u.stored = t.stored ∧ u.marker = t.marker ∧ u.loaded = t.loaded ∧ u.commit = t.commit ∧ u.storeFault = t.storeFault

/-- The unclean write's request leaves the store alone. -/
theorem Table.sameStore_unclean (t u : Table) (h : t.sameStore u) : t.sameStore u.raiseUnclean := by
  unfold Table.raiseUnclean
  split <;> exact h

/-- An update leaves the store alone. -/
theorem State.takeUpdate_store (s : State) (h : HeldUpdate) : s.table.sameStore (s.takeUpdate h).table := by
  unfold State.takeUpdate
  dsimp only
  split <;> split_ifs <;> exact ⟨rfl, rfl, rfl, rfl, rfl⟩

/-- Updates leave the store alone. -/
theorem State.takeAll_store (hs : List HeldUpdate) (s : State) : s.table.sameStore (s.takeAll hs).table := by
  induction hs generalizing s with
  | nil => exact ⟨rfl, rfl, rfl, rfl, rfl⟩
  | cons u rest ih =>
      obtain ⟨a1, a2, a3, a4, a5⟩ := State.takeUpdate_store s u
      obtain ⟨b1, b2, b3, b4, b5⟩ := ih (s.takeUpdate u)
      exact ⟨b1.trans a1, b2.trans a2, b3.trans a3, b4.trans a4, b5.trans a5⟩

/-- The reactions inside a step keep the table's part of R39. -/
theorem State.settle_gated (s : State) (h : s.table.gated = true) : s.settle.table.gated = true := by
  have loop : (State.settleLoop s.fuel s).table.gated = true ∧
      s.table.sameStore (State.settleLoop s.fuel s).table := by
    refine State.settleLoop_table (Q := fun t => t.gated = true ∧ s.table.sameStore t) ?_ ?_ ?_ ?_ ?_ _ s
      ⟨h, rfl, rfl, rfl, rfl, rfl⟩
    · intro u c w n ⟨hg, hs⟩
      unfold State.giveUpdate
      dsimp only
      split
      · next hc =>
          simp only [Bool.and_eq_true] at hc
          obtain ⟨a1, a2, a3, a4, a5⟩ := hs
          obtain ⟨b1, b2, b3, b4, b5⟩ := State.takeUpdate_store u ⟨c, w, n⟩
          have ho : (u.table.gateOpen || u.table.storeFault) = true := by rw [Bool.or_comm]; exact hc.1
          exact ⟨(State.takeUpdate_gated u _ hg ho).1, b1.trans a1, b2.trans a2, b3.trans a3, b4.trans a4, b5.trans a5⟩
      · exact ⟨(Table.raiseUnclean_gated _).trans hg, s.table.sameStore_unclean _ hs⟩
    · intro u c hq
      unfold State.askPermit
      split_ifs <;> first
        | exact hq
        | exact ⟨(Table.raiseUnclean_gated _).trans hq.1, s.table.sameStore_unclean _ hq.2⟩
    · intro u c cl tl hq
      unfold State.takeRequest
      cases cl <;> cases tl <;> exact hq
    · intro u c hq; exact hq
    · intro u ⟨hg, hs⟩ ho
      unfold State.releaseHeld
      dsimp only
      rw [State.answerPermits_table]
      obtain ⟨a1, a2, a3, a4, a5⟩ := hs
      obtain ⟨b1, b2, b3, b4, b5⟩ := State.takeAll_store u.table.heldUpdates
        { u with table := { u.table with heldUpdates := [], heldPermits := [] } }
      exact ⟨State.takeAll_gated _ _ hg ho, b1.trans a1, b2.trans a2, b3.trans a3, b4.trans a4, b5.trans a5⟩
  obtain ⟨hg, e1, e2, e3, e4, e5⟩ := loop
  have : s.settle.table = { (State.settleLoop s.fuel s).table with
      stored := s.table.stored, marker := s.table.marker, checkDelta := s.table.checkDelta, loaded := s.table.loaded,
      commit := s.table.commit, storeFault := s.table.storeFault } := rfl
  rw [this, Table.gated_iff]
  rw [Table.gated_iff, e1, e2, e3, e4, e5] at hg
  exact hg

end Sys2Proof.Machine
end

