-- ==== Sys2Proof/Tests/Slice0.lean ====
section
/-! SUPPORT. Small tests: ill-formed commands refused, the manual's worked examples, single steps, and for each statement
with hypotheses a concrete case that meets them. -/

namespace Sys2Proof.Tests

set_option Elab.async false

open Sys2Proof.Machine

/-! ## Helpers -/

/-- The state after a command. -/
def after (c : Instr) (s : State) : State :=
  match exec c s with
  | .next t => t
  | .fault _ => s
  | .refused _ => s

/-- The state after several commands. -/
def afterAll : List Instr → State → State
  | [], s => s
  | c :: cs, s => afterAll cs (after c s)

/-- A reply without stores and without error. -/
def fine : BusReply := { stores := [], error := none, landed := [] }

/-- A reply whose first beat failed. -/
def failed : BusReply := { stores := [], error := some 0, landed := [] }

/-- No word of a write in progress stands. -/
def noCut : Cut := { words := 0, fuseSet := false, moves := [] }

/-- A configuration. -/
def conf : Applied :=
  { burstLength := 4, threshold := 4, weakThreshold := 6, patrolInterval := 10, patrolBudget := 2,
    reportAddress := 0x4000#32, reportCapacity := 2 }

/-- The part in a mode, configured, with nothing to do. -/
def inMode (m : Mode) : State :=
  { State.reset with modes := { ModeCtl.reset false with mode := m, config := some conf, cold := .none } }

/-- The part in RUN. -/
def running : State := inMode .run

/-- One lane's controller changed. -/
def withLane (l : Lane) (c : LaneCtl) : State := running.setLane l c

/-- A lane with a request of its owner in the port. -/
def asks (r : LaneReq) : LaneCtl := { LaneCtl.reset with port := some (.owner, r) }

/-- A page identity. -/
def pid : PageId := { band := 3, row := 5, level := 2 }

/-- A read page outcome. -/
def good0 : PageOutcome := { cls := .good, highest := 0 }

/-- A page in the cache register. -/
def cached (k : CacheCond) (o : Option PageOutcome) : CachePage := { data := [], id := pid, cond := k, outcome := o }

/-- A clean read of a page as stored. -/
def cleanRead : ArrayRead := { allOnes := false, errors := [0, 0, 0, 0], asRead := [], tag := .intact }

/-- An OPEN band record of level 2. -/
def openBand (row : Nat) : BandRecord := { BandRecord.factory with state := .opened, level := 2, nextRow := row }

/-- A sheet with an accepted header. -/
def sheet : SheetRun := { SheetRun.fresh 0x1000#32 .normal with header := .accepted, count := 2 }

/-- RUN with that sheet active and an access in progress at the port. -/
def accessing (a : SheetAccess) : State :=
  { running with
    port := some .sheet, sheetLine := [.sheets], sheets := { Sheets.reset with active := some sheet, access := some a } }

/-- A mover in a transfer of a direction, in a fragment. -/
def moving (d : Direction) : Mover :=
  { Mover.reset with
    phase := .moving, direction := some d, burstLength := 4, threshold := 4, permit := 64, unitSize := 16,
    chain := .inFragment,
    cursor := some { descriptor := 0x100, fragment := 0x1000, left := 64, next := 0, walked := 1 } }

/-- A write assembly of an empty row at level 2. -/
def asm : WriteAsm :=
  { band := 3, row := 5, level := 2, loadSet := [.l0, .l1], index := 0, received := [], p := [], q := [],
    handing := none, loaded := [] }

/-- A patrol run. -/
def patrolling (budget : Nat) (endRequested : Bool) : State :=
  { inMode .patrol with patrol := { Patrol.reset with
      run := some { PatrolRun.start budget with endRequested := endRequested } } }

/-! ## Ill-formed commands -/

theorem test_wf_refuses_long_cut : Instr.wf (.softReset { words := 17, fuseSet := false, moves := [] }) = false := by decide
theorem test_wf_refuses_cut_at_powerOn : Instr.wf (.powerOn false false false { words := 17, fuseSet := true, moves := [] }) = false := by
  decide
theorem test_wf_refuses_cut_at_resetN : Instr.wf (.resetNAsserted { words := 17, fuseSet := true, moves := [] }) = false := by decide
theorem test_wf_refuses_cut_at_loss : Instr.wf (.lossOfSupply { words := 17, fuseSet := true, moves := [] }) = false := by decide
theorem test_wf_refuses_three_byte_write : Instr.wf (.registerWrite 0x18 3 0#32 noCut) = false := by decide
theorem test_wf_refuses_misaligned_register : Instr.wf (.registerWrite 0x19 4 0#32 noCut) = false := by decide
theorem test_wf_refuses_post_as_register_write : Instr.wf (.registerWrite 0x08 4 0x20#32 noCut) = false := by decide
theorem test_wf_refuses_one_control_bit : Instr.wf (.registerWrite 0x0C 4 2#32 noCut) = false := by decide
theorem test_wf_refuses_control_reset : Instr.wf (.registerWrite 0x0C 4 0x80000000#32 noCut) = false := by decide
theorem test_wf_takes_two_control_bits : Instr.wf (.registerWrite 0x0C 4 3#32 noCut) = true := by decide
theorem test_wf_refuses_three_sectors :
    Instr.wf (.readEnd .l0 { allOnes := false, errors := [0, 0, 0], asRead := zeroPage, tag := .intact }) = false := by
  decide +kernel
theorem test_wf_refuses_short_page : Instr.wf (.readEnd .l0 cleanRead) = false := by decide +kernel
theorem test_wf_refuses_tag_of_no_page :
    Instr.wf (.moveEnd .l0 { allOnes := false, errors := [0, 0, 0, 0], asRead := zeroPage, tag := .shows 1024 0 0 .p }
      true) = false := by
  decide +kernel
theorem test_wf_takes_a_read :
    Instr.wf (.readEnd .l0 { allOnes := false, errors := [0, 0, 0, 9], asRead := zeroPage, tag := .damaged }) = true := by
  decide +kernel
theorem test_wf_refuses_misaligned_store :
    Instr.wf (.headerReadEnd { stores := [(2#32, 0#32)], error := none, landed := [] }) = false := by decide
theorem test_wf_refuses_beat_past_the_access :
    Instr.wf (.headerReadEnd { stores := [], error := some 1, landed := [] }) = false := by decide
theorem test_wf_refuses_bad_move_read :
    Instr.wf (.softReset { words := 0, fuseSet := false, moves := [(.l0, cleanRead)] }) = false := by decide

/-! ## No word spells a command -/

theorem test_no_word_spells_a_command : decodeTableWord 32 0 = none := rfl

/-! ## The manual's examples of the arithmetic (3.9) -/

theorem test_powers_of_g : (gPow 1 0x34#8, gPow 2 0x56#8, gPow 3 0x78#8) = (0x68#8, 0x45#8, 0xE7#8) := by decide
theorem test_parity_of_a_row :
    (sumPages [0#8] [[0x12#8], [0x34#8], [0x56#8], [0x78#8]],
      sumPages [0#8] [timesG 0 [0x12#8], timesG 1 [0x34#8], timesG 2 [0x56#8], timesG 3 [0x78#8]])
      = ([0x08#8], [0xD8#8]) := by decide
theorem test_two_pages_rebuilt : rebuildTwo 0 2 [0x44#8] [0x57#8] = ([0x12#8], [0x56#8]) := by decide +kernel
theorem test_page_rebuilt_from_q : [0x68#8].map (gPowInv 1) = [0x34#8] := by decide
theorem test_patch_delta : (addAt [0x08#8] 0 [0x01#8], addAt [0xD8#8] 0 (timesG 1 [0x01#8])) = ([0x09#8], [0xDA#8]) := by
  decide

/-! ## The lock picture through an inhibit cycle (7.5) -/

/-- The picture after power-on with LOCK_EN high. -/
def lockOn : Protection := { Protection.reset with lockEnable := true, lockAll := true }

/-- The picture with range 100 to 199. -/
def ranged : Protection := (lockOn.setRange { low := 100, high := 199, invert := false }).1

theorem test_power_on_locks : (after (.powerOn true false false noCut) State.reset).protect = lockOn := by decide +kernel
theorem test_range_unlocks : (ranged.locked 150, ranged.locked 300, ranged.locked 100, ranged.locked 200)
    = (false, true, false, true) := by decide
theorem test_tight_outlives_assertion : (ranged.makeTight.1.inhibited).locked 150 = false := by decide
theorem test_tight_refuses_range : (ranged.makeTight.1.setRange { low := 0, high := 1023, invert := false }).2 = .lockTight := by
  decide
theorem test_withdrawal_locks_all : (ranged.makeTight.1.inhibited.released) = lockOn := by decide
theorem test_assertion_locks_without_tight : ranged.inhibited.locked 150 = true := by decide
theorem test_range_bounds :
    ((lockOn.setRange { low := 0, high := 1024, invert := false }).2, (lockOn.setRange { low := 5, high := 4, invert := false }).2,
      (lockOn.setRange { low := 1023, high := 1023, invert := true }).2) = (.badRange, .badRange, .ok) := by decide

/-! ## Layouts (11.4) -/

theorem test_completion_word : completionWord .doneErrors 3 1 2 = 0x02010302#32 := by decide
theorem test_result_words :
    ({ status := .okRebuilt, rowsDone := 4, pagesRebuilt := 7, weakSeen := 2 } : OrderResult).word1 = 0x00040001#32 ∧
      ({ status := .okRebuilt, rowsDone := 4, pagesRebuilt := 7, weakSeen := 2 } : OrderResult).word2 = 0x00020007#32 := by
  decide
theorem test_error_word : (errorWord 0x1237 true, errorWord 0x1234 false) = (0x1235#32, 0x1234#32) := by decide
theorem test_status_of_a_running_part : running.status = 0x2003#32 := by decide +kernel
theorem test_memory_word_order :
    Memory.readByte (Memory.writeWord [] 0x100 0x11223344#32) 0x100 = 0x44#8 ∧
      Memory.readWord (Memory.writeWord [] 0x100 0x11223344#32) 0x100 = 0x11223344#32 := by decide
theorem test_zero_write_leaves_memory : Memory.writeWord [] 0x100 0#32 = [] := by decide

/-! ## Commands, one step each -/

theorem test_cold_path_reaches_await_config :
    (afterAll [.fuseRowLoad, .tableLoad true] State.reset).modes.mode = .awaitConfig := by decide +kernel
theorem test_bad_check_is_faulted :
    (afterAll [.fuseRowLoad, .tableLoad false] State.reset).modes.mode = .faulted := by decide +kernel
theorem test_post_is_queued : (after (.post 0x20#32) running).sheets.queue = [0x20#32] := by decide +kernel
theorem test_post_misaligned_refused :
    ((after (.post 0x24#32) running).window.refusal, (after (.post 0x24#32) running).sheets.queue) = (.align, []) := by
  decide +kernel
theorem test_hold_then_held : (after .hold running).modes.mode = .held := by decide +kernel
theorem test_resume_runs : (afterAll [.hold, .resume] running).modes.mode = .run := by decide +kernel
theorem test_abort_ends_at_once : (after .abort running).sheets.stop = .none := by decide +kernel
theorem test_standby_raises_clean : (after .standby running).table.cleanReq = true := by decide +kernel
theorem test_wake_refused_in_parked :
    (after .wake { inMode .parked with modes := { (inMode .parked).modes with warning := true } }).window.flag
      .requestRefused = true := by decide +kernel
theorem test_report_clear_writes_header :
    (after .reportClear running).patrol.write = some (.headerOnly 0x4000#32) := by decide +kernel
theorem test_apply_misaligned : (after .apply { running with window := { Window.reset with configAddress := 8#32 } }).window.refusal
    = .align := by decide +kernel
theorem test_warning_drains : (after .pwrWarnAsserted running).modes.mode = .drain := by decide +kernel
theorem test_events_clear :
    (after (.eventsWrite 1#32) { running with window := { Window.reset with events := 3#32 } }).window.events = 2#32 := by
  decide +kernel
theorem test_enable_masked : (after (.eventEnableWrite 0xFFFFFFFF#32) running).window.enable = 0x1FFF#32 := by decide +kernel
theorem test_loss_of_supply : (after (.lossOfSupply noCut) running).supply = false := by decide +kernel
theorem test_reset_holds : (after (.resetNAsserted noCut) running).modes.mode = .cold := by decide +kernel
theorem test_power_down_taken : ((after (.powerDown .l3) (withLane .l3 (asks .powerDown))).lane .l3).activity = .off := by
  decide +kernel
theorem test_power_up_starts :
    ((after (.powerUp .l3) (withLane .l3 { asks .powerUp with activity := .off })).lane .l3).activity = .poweringUp := by
  decide +kernel
theorem test_erase_clears_block :
    (after (.blockEraseEnd .l2 true) { withLane .l2 { LaneCtl.reset with activity := .erase 7 } with
      array := [(pageKey .l2 7 63, .indeterminate)] }).array = [] := by decide +kernel
theorem test_failed_program_spoils_page :
    (after (.programEnd .l1 false) (withLane .l1 { LaneCtl.reset with activity := .program pid [] })).page .l1 3 5
      = .indeterminate := by decide +kernel
theorem test_activation :
    (after .sheetActivation { running with sheets := { Sheets.reset with queue := [0x20#32] } }).sheets.access
      = some (.header []) := by decide +kernel
theorem test_entry_word_held : (after (.entryReadEnd fine) (accessing (.entry []))).sheets.access = some (.entry [0#32]) ∧
    (after (.entryReadEnd fine) (accessing (.entry []))).port = some .sheet := by decide +kernel
theorem test_bad_kind : (after (.entryReadEnd fine) (accessing (.entry (List.replicate 5 0#32)))).sheets.access
    = some (.result (plainResult .badKind) 0) := by decide +kernel
theorem test_bus_error_drops_sheet : (after (.entryReadEnd failed) (accessing (.entry []))).window.errorAddress
    = 0x1020#32 := by decide +kernel
theorem test_burst_starts :
    (after .burstStart { running with port := some .mover, mover := moving .inbound }).mover.access
      = some (.readBurst 0x1000 4) := by decide +kernel
theorem test_commit_start_takes_marker :
    (after .commitStart { running with table := { Table.reset with cleanReq := true } }).table.commit
      = some { clean := true, records := [] } := by decide +kernel
theorem test_patrol_timer_second : running.second = running ∧
    ({ inMode .standby with patrol := { Patrol.reset with timer := some 0 } } : State).second.patrol.timer = some 1 ∧
    ({ inMode .standby with patrol := { Patrol.reset with timer := some 9 } } : State).second.modes.mode = .patrol := by
  decide +kernel
theorem test_cut_move_by_its_source :
    let s : State := { withLane .l0 { LaneCtl.reset with activity := .move pid 4 6 } with
      array := [(pageKey .l0 3 5, .programmed (tagFor .l0 pid) [])] }
    ((after (.softReset noCut) s).page .l0 4 6, (after (.softReset { noCut with moves := [(.l0, cleanRead)] }) s).page .l0 4 6)
      = (.erased, .indeterminate) := by decide +kernel
theorem test_header_write_is_two_bursts_at_length_one :
    let p : Patrol := { Patrol.reset with write := some (.headerFor 0x4000#32) }
    (p.burst 1 (.headerFor 0x4000#32)).length = 1 ∧ (p.burst 4 (.finding 0x4000#32
      { band := 3, row := 5, lane := .l0, kind := .weak, highest := 7 })).length = 4 := by decide
theorem test_waiting_row_survives_release :
    let b : RowBegin := { band := 3, row := 6, level := 2, purpose := .deliver, lanes := [.l0] }
    ({ running with coder := { Coder.reset with beginRead := some b } } : State).releaseRead.coder.beginRead = some b := by
  decide

/-! ## Hypotheses that are met -/

theorem met_second :
    (let s : State := { inMode .standby with patrol := { Patrol.reset with timer := some 8 } }
     s.pending = [] ∧ s.patrol.timer = some 8 ∧ s.modes.config = some conf ∧ 8 + 1 < conf.patrolInterval ∧ s.live = true ∧
       s.modes.mode = .standby ∧ s.modes.wake = false) ∧
    (let s : State := { running with patrol := { Patrol.reset with timer := some 9 } }
     s.live = true ∧ s.patrol.timer = some 9 ∧ s.modes.config = some conf ∧ conf.patrolInterval ≤ 9 + 1 ∧
       s.modes.mode ≠ .standby) ∧ running.patrol.timer = none ∧ ({ running with supply := false } : State).live = false := by
  decide
theorem met_frame : running.live = true ∧ exec .rowGo running = .next (after .rowGo running) := ⟨by decide, rfl⟩
theorem met_supply : State.reset.resetHeld = false ∧ running.supply = true ∧ running.protect.fuseWrite = none ∧
    ({ running with protect := { lockOn with fuseWrite := some 63 } } : State).protect.fuseWrite = some 63 := by decide
theorem met_resetN : running.supply = true ∧ running.resetHeld = false ∧
    ({ running with resetHeld := true } : State).resetHeld = true := by decide
theorem met_soft_reset :
    (withLane .l0 { LaneCtl.reset with activity := .program pid [] }).live = true ∧
      Sparse.wf .erased (withLane .l0 { LaneCtl.reset with activity := .erase 7 }).array = true ∧
      ((withLane .l0 { LaneCtl.reset with activity := .program pid [] }).lane .l0).activity = .program pid [] ∧
      ((withLane .l1 { LaneCtl.reset with activity := .move pid 4 6 }).lane .l1).activity = .move pid 4 6 ∧
      ((withLane .l2 { LaneCtl.reset with activity := .erase 7 }).lane .l2).activity = .erase 7 ∧ 63 < 64 ∧
      (let page := Page.programmed (tagFor .l1 pid) []
       ([((.l1 : Lane), cleanRead)].find? (fun m => decide (m.1 = .l1))) = some (.l1, cleanRead) ∧
         (classify 6 page cleanRead .l1 pid).cls ∈ [PageClass.good, .weak]) ∧
      ∀ l, (running.lane l).activity = .idle := by
  refine ⟨by decide, by decide, by decide, by decide, by decide, by decide, by decide, fun l => ?_⟩
  cases l <;> rfl
theorem met_warning :
    (inMode .run).live = true ∧ (inMode .patrol).modes.mode ∈ [Mode.run, .holding, .held, .standby, .patrol] ∧
      (inMode .drain).modes.mode ∈ [Mode.cold, .faulted, .awaitConfig, .drain] ∧ (inMode .parked).modes.mode = .parked := by
  decide
theorem met_inhibit :
    running.live = true ∧ lockOn.lockEnable = true ∧ lockOn.tight = false ∧ ranged.makeTight.1.tight = true ∧
      running.protect.lockEnable = false := by decide
theorem met_cold :
    State.reset.live = true ∧ State.reset.modes.cold = .fuseLoad ∧ State.reset.protect.fuseWrite = none ∧
      (after .fuseRowLoad State.reset).modes.cold = .tableLoad ∧ (after .fuseRowLoad State.reset).live = true ∧
      (after .fuseRowLoad State.reset).table.checkDelta = 0 ∧ (after .fuseRowLoad State.reset).table.marker = true ∧
      ({ State.reset with table := { Table.reset with marker := false } } : State).table.marker = false ∧
      ({ State.reset with table := { Table.reset with checkDelta := 1 } } : State).table.checkDelta ≠ 0 := by decide +kernel
theorem met_register_writes :
    running.live = true ∧ (2 : Nat) ≠ 4 ∧ (0x20 ≤ 0x20) ∧ (3#32).getLsbD 0 = true ∧ (3#32).getLsbD 1 = true ∧
      (3#32).getLsbD 31 = false ∧ (∀ i, i < 7 → (0x80#32).getLsbD i = false) ∧
      (∀ j, j < 7 → ((64#32).getLsbD j = true ↔ j = 6)) := by decide
theorem met_status : running.queueFits = true ∧
    ({ running with sheets := { Sheets.reset with queue := [0x20#32, 0x40#32] } } : State).queueFits = true ∧
      running.resetHeld = false ∧ ({ running with resetHeld := true } : State).resetHeld = true ∧ 3 % 4 + 1 ≤ 4 := by decide
theorem met_bus_error :
    running.window.flag .busError = false ∧ (running.busError 0x1000 true).window.flag .busError = true ∧
      4294967295 < 4294967296 := by decide
theorem met_post :
    running.live = true ∧ (inMode .standby).modes.mode ∈ [Mode.run, .holding, .held, .standby, .patrol] ∧
      (0xFFFFFFE0#32) ≠ 0#32 ∧ (0xFFFFFFE0#32).toNat % 32 = 0 ∧
      ({ running with sheets := { Sheets.reset with queue := [0x20#32] } } : State).sheets.queue.length < 2 ∧
      (inMode .standby).modes.wake = false ∧ (inMode .parked).modes.mode ∈ [Mode.cold, .faulted, .awaitConfig, .drain, .parked] ∧
      (0x21#32).toNat % 32 ≠ 0 ∧
      2 ≤ ({ running with sheets := { Sheets.reset with queue := [0x20#32, 0x40#32] } } : State).sheets.queue.length := by
  decide
theorem met_hold_resume :
    running.live = true ∧ running.modes.mode = .run ∧ running.sheets.stop = .none ∧
      (after .hold running).modes.mode ∈ [Mode.holding, .held] ∧ (after .hold running).sheets.stop = .hold ∧
      (inMode .standby).modes.mode ∉ [Mode.run, .holding, .held] := by decide +kernel
theorem met_abort :
    (after .hold running).modes.mode ∈ [Mode.run, .holding, .held] ∧ (after .hold running).sheets.stop = .hold ∧
      (∀ w, (after .hold running).sheets.access ≠ some (.completion w)) ∧
      (accessing (.completion 1#32)).sheets.access = some (.completion 1#32) ∧
      ({ running with sheets := { Sheets.reset with stop := .abort } } : State).sheets.stop = .abort ∧
      (inMode .patrol).modes.mode ∉ [Mode.run, .holding, .held] := by
  refine ⟨by decide +kernel, by decide +kernel, fun w => ?_, by decide, by decide, by decide⟩
  have h : (after .hold running).sheets.access = none := by decide +kernel
  rw [h]; simp
theorem met_standby :
    (running.modes.mode = .run ∧ running.sheets.stop = .none ∧ running.sheets.active = none ∧ running.sheets.queue = [] ∧
      running.sheets.closing = [] ∧ running.modes.configRead = none) ∧ running.modes.config = some conf ∧
      running.signals = [] := by decide
theorem met_wake :
    (inMode .standby).modes.wake = false ∧ (after .wake (inMode .standby)).modes.wake = true ∧
      ({ inMode .patrol with modes := { (inMode .patrol).modes with patrolStage := .running } } : State).modes.patrolStage
        = .running ∧ (inMode .parked).modes.mode ∈ [Mode.cold, .faulted, .awaitConfig, .drain, .parked] := by decide +kernel
theorem met_cache_load :
    (withLane .l0 (asks (.cacheLoad pid []))).live = true ∧
      ((withLane .l0 (asks (.cacheLoad pid []))).lane .l0).port = some (.owner, .cacheLoad pid []) ∧
      ((withLane .l0 (asks (.cacheLoad pid []))).lane .l0).cache = none ∧
      ((withLane .l0 (asks (.cacheLoad pid []))).lane .l0).state = .idle := by decide
theorem met_cache_commit :
    let c : LaneCtl := { asks .cacheCommit with cache := some (cached .loaded none) }
    c.port = some (.owner, .cacheCommit) ∧ c.cache = some (cached .loaded none) ∧ (cached .loaded none).cond = .loaded ∧
      c.state = .idle ∧ c.prevFailed = false ∧ ({ c with prevFailed := true } : LaneCtl).prevFailed = true ∧
      ({ c with activity := .program pid [] } : LaneCtl).activity = .program pid [] := by decide
theorem met_cache_discard :
    (asks .cacheDiscard).port = some (.owner, .cacheDiscard) ∧ (asks .cacheDiscard).activity = .idle ∧
      ({ asks .cacheDiscard with activity := .awaiting pid [] good0 } : LaneCtl).activity = .awaiting pid [] good0 := by decide
theorem met_cache_unload :
    let c : LaneCtl := { asks .cacheUnload with cache := some (cached .read (some good0)) }
    c.port = some (.owner, .cacheUnload) ∧ c.cache = some (cached .read (some good0)) ∧
      (cached .read (some good0)).outcome = some good0 ∧ c.state = .idle ∧ running.coder.read = none ∧
      (let r := ReadAsm.start { band := 3, row := 5, level := 2, purpose := .deliver, lanes := [.l0] }
       r.band = pid.band ∧ r.row = pid.row ∧ Lane.l0 ∈ r.expected) := by decide
theorem met_array_requests :
    (asks (.pageRead pid)).port = some (.owner, .pageRead pid) ∧ (asks (.pageRead pid)).state = .idle ∧
      (asks (.pageRead pid)).cache = none ∧ (asks (.pageMove pid 4 6)).port = some (.owner, .pageMove pid 4 6) ∧
      ({ asks (.pageMove pid 4 6) with prevFailed := true } : LaneCtl).prevFailed = true ∧
      (asks (.blockErase 1023)).port = some (.owner, .blockErase 1023) ∧ (asks .powerDown).state = .idle ∧
      ({ asks .powerUp with activity := .off } : LaneCtl).state = .off ∧ (asks .powerUp).state ≠ .off := by decide
theorem met_disallowed :
    ({ LaneCtl.reset with activity := .erase 0 } : LaneCtl).state = .arrayBusy ∧
      ({ LaneCtl.reset with activity := .off } : LaneCtl).state = .off ∧
      ({ LaneCtl.reset with activity := .reading pid } : LaneCtl).state = .cacheBusy ∧
      ({ LaneCtl.reset with cache := some (cached .held none) } : LaneCtl).cache ≠ none := by decide
theorem met_program_end :
    let c : LaneCtl := { LaneCtl.reset with activity := .program pid [], cache := some (cached .armed none) }
    (withLane .l0 c).live = true ∧ ((withLane .l0 c).lane .l0).activity = .program pid [] ∧
      Sparse.wf .erased (withLane .l0 c).array = true ∧ c.cache = some (cached .armed none) ∧
      (cached .armed none).cond = .armed ∧ (cached .loaded none).cond ≠ .armed ∧ pid.band < 1024 ∧ pid.row < 64 := by decide
theorem met_page_classes :
    let seen (n : Nat) : ArrayRead := { cleanRead with errors := [0, n, 0, 0] }
    let page := Page.programmed (tagFor .l0 pid) []
    ((classify 6 page { cleanRead with allOnes := true } .l0 pid).cls, (classify 6 page (seen 9) .l0 pid).cls,
      (classify 6 page { seen 8 with tag := .damaged } .l0 pid).cls, (classify 6 page (seen 6) .l0 pid).cls,
      (classify 6 page (seen 5) .l0 pid).cls) = (.erased, .uncorrectable, .tagMismatch, .weak, .good) ∧
      cleanRead.tag = .intact ∧ ({ cleanRead with tag := .shows 3 5 2 .p } : ArrayRead).tag = .shows 3 5 2 .p := by decide
theorem met_read_end :
    let c : LaneCtl := { LaneCtl.reset with activity := .reading pid }
    ((withLane .l0 c).lane .l0).activity = .reading pid ∧ ((withLane .l0 c).lane .l0).cache = none ∧
      ({ c with cache := some (cached .read (some good0)) } : LaneCtl).cache ≠ none ∧
      ({ c with activity := .transfer pid [] good0 } : LaneCtl).activity = .transfer pid [] good0 ∧
      ({ c with activity := .poweringUp } : LaneCtl).activity = .poweringUp := by decide
theorem met_move_and_erase_end :
    let s := withLane .l0 { LaneCtl.reset with activity := .move pid 1023 63 }
    s.live = true ∧ (s.lane .l0).activity = .move pid 1023 63 ∧ Sparse.wf .erased s.array = true ∧
      (classify 6 .erased { cleanRead with allOnes := true } .l0 pid).cls ∈ [PageClass.erased, .uncorrectable, .tagMismatch] ∧
      (classify 6 (.programmed (tagFor .l0 pid) []) cleanRead .l0 pid).cls ∈ [PageClass.good, .weak] ∧
      ((withLane .l5 { LaneCtl.reset with activity := .erase 1023 }).lane .l5).activity = .erase 1023 := by decide
theorem met_begin_rows :
    let b : RowBegin := { band := 3, row := 5, level := 2, purpose := .check, lanes := [.l0] }
    let s : State := { running with coder := { Coder.reset with beginWrite := some b, beginRead := some b } }
    s.live = true ∧ s.coder.beginWrite = some b ∧ s.coder.write = none ∧ s.coder.beginRead = some b ∧ s.coder.read = none := by
  decide
theorem met_staging_word :
    let m : Mover := { moving .inbound with fifo := [0x11223344#32] }
    let s : State := { running with mover := m, coder := { Coder.reset with write := some asm } }
    s.live = true ∧ s.coder.write = some asm ∧ asm.handing = none ∧ asm.index < dataPages asm.level ∧
      s.mover.direction = some .inbound ∧ s.mover.phase = .moving ∧ s.mover.fifo = [0x11223344#32] ∧
      asm.received.length + 4 < 2048 ∧ laneAt asm.index ∈ asm.loadSet := by decide
theorem met_last_staging_word :
    ({ asm with received := List.replicate 2044 0#8 } : WriteAsm).received.length + 4 = 2048 := by decide +kernel
theorem met_page_handed :
    let h : Handing := { lane := .l1, data := [], behind := false }
    let s : State := { running with coder := { Coder.reset with write := some { asm with handing := some h } } }
    let r : ReadAsm := { ReadAsm.start { band := 3, row := 5, level := 2, purpose := .copy, lanes := [.l0] } with
      handing := some h }
    s.live = true ∧ (s.lane .l1).port = none ∧ h.behind = false ∧ s.coder.write = some { asm with handing := some h } ∧
      (let t : State := { running with coder := { Coder.reset with read := some r } }
       t.coder.write = none ∧ t.coder.read = some r ∧ r.handing = some h) := by decide
theorem met_word_handed :
    let r : ReadAsm := { ReadAsm.start { band := 3, row := 5, level := 2, purpose := .deliver, lanes := [] } with
      handed := 2047 }
    let m : Mover := { moving .outbound with fifo := List.replicate 15 0#32 }
    let s : State := { running with mover := m, coder := { Coder.reset with read := some r, verdict := some (r.report .recoverable) } }
    s.live = true ∧ s.mover.phase = .moving ∧ s.mover.direction = some .outbound ∧ s.mover.pendingEnding = none ∧
      s.mover.fifo.length < 16 ∧ s.services.phase ≠ .records ∧ s.coder.read = some r ∧ r.purpose = .deliver ∧
      dataPages r.level * 512 ≤ r.handed + 1 ∧
      (let v : Services := { Services.reset with phase := .records, words := [1#32] }
       v.phase = .records ∧ v.ended = false ∧ v.ending = none ∧ v.words = [1#32]) ∧
      (let o : Order := { kind := .queryBands, atNext := false, fill := false, clearAttention := false, band := 1023,
                          startRow := 0, count := 1, chain := 0#32, aux1 := 0#32, aux2 := 0#32 }
       let v : Services := { Services.reset with order := some o, phase := .records, band := 1023, nextRecord := 1023 }
       v.words = [] ∧ v.order = some o ∧ v.nextRecord < v.band + o.count ∧ (openBand 64).wf = true ∧
         ∀ e ∈ (openBand 64).lost, e.fromRow < 64) := by decide
theorem met_rebuild :
    (1 < 4) ∧ [7#8].length = 1 ∧ (∀ o ∈ [((3 : Nat), [9#8])], o.2.length = 1) ∧ (0 < 3 ∧ 3 < 4) ∧
      [1#8].length = [2#8].length ∧ 3 + [1#8].length ≤ 4 := by decide
theorem met_word_of_row :
    let r : ReadAsm := { ReadAsm.start { band := 3, row := 5, level := 2, purpose := .deliver, lanes := [.l0] } with
      slots := Six.build (fun _ => .held zeroPage good0) }
    r.slots.get (laneAt (2047 / 512)) = .held zeroPage good0 ∧ zeroPage.length = 2048 := by decide +kernel
/-- A row of zero pages at level 2, the given lanes not expected. -/
def zeroRow (absent : List Lane) : ReadAsm :=
  { ReadAsm.start { band := 3, row := 5, level := 2, purpose := .copy, lanes := [] } with
    slots := Six.build (fun l => if absent.contains l then .notExpected else .held zeroPage good0) }
theorem met_rows_rebuilt :
    (zeroRow [.l1]).missingData = [.l1] ∧ (zeroRow [.l1]).parityPresent (pLane 2) = true ∧
      (zeroRow [.l1, .l3]).missingData = [.l1, .l3] ∧ (zeroRow [.l1, .l3]).parityPresent (qLane 2) = true ∧
      (zeroRow [.l1]).bytes .l0 = zeroPage ∧ (zeroRow [.l1]).bytes .l4 = parityP ((List.range 4).map (fun _ => zeroPage)) ∧
      (zeroRow [.l1]).bytes .l5 = parityQ 0 ((List.range 4).map (fun _ => zeroPage)) := by decide +kernel
theorem met_patched_row :
    let p : PatchBytes := { index := 3, offset := 2047, bytes := [1#8] }
    p.index < dataPages 2 ∧ p.offset + p.bytes.length ≤ 2048 ∧ (zeroRow []).bytes .l3 = zeroPage := by decide +kernel
theorem met_erase_updates :
    (openBand 0).state ∉ [BandState.erasing, .retired] ∧
      ({ openBand 0 with state := .retired } : BandRecord).state ∈ [BandState.erasing, .retired] ∧
      ({ openBand 0 with state := .erasing } : BandRecord).state = .erasing ∧ (openBand 0).state ≠ .erasing ∧
      (openBand 63).nextRow = 63 ∧ (openBand 63).voids.length < 4 ∧
      4 ≤ ({ openBand 63 with voids := [0, 1, 2, 3] } : BandRecord).voids.length := by decide
theorem met_band_updates :
    (openBand 62).nextRow + 1 < 64 ∧ (openBand 63).nextRow + 1 = 64 ∧ (openBand 62).state = .opened ∧
      ({ openBand 63 with state := .failed } : BandRecord).state = .failed ∧ (openBand 0).lost.length + 1 ≤ (openBand 0).level.val ∧
      (let r : BandRecord := { openBand 0 with lost := [⟨.l0, 0⟩, ⟨.l1, 0⟩] }
       r.lost.length ≤ 2 ∧ r.level.val < r.lost.length + 1 ∧ r.lost.length = 2 ∧ ¬∃ e ∈ r.lost, e.lane = .l2) ∧
      (let r : BandRecord := { openBand 0 with level := 0 }
       r.level.val < r.lost.length + 1 ∧ r.lost.length < 2) ∧
      applyUpdate (openBand 63) (.rowComplete 0 63) = some { openBand 63 with nextRow := 64, state := .sealed } := by decide
theorem met_commits :
    let s : State := { running with table := { Table.reset with plainReq := true, dirty := [3] } }
    s.live = true ∧ s.table.commit = none ∧ s.table.storeFault = false ∧ s.table.plainReq = true ∧
      (let u : State := { running with table := { Table.reset with commit := some { clean := false, records := [(3, openBand 1)] } } }
       u.table.commit = some { clean := false, records := [(3, openBand 1)] } ∧ Sparse.wf .factory u.table.stored = true ∧
         ([(3, openBand 1)].map (·.1)).Nodup) := by decide
theorem met_gate :
    running.table.storeFault = false ∧ running.table.marker = true ∧ running.table.heldUpdates = [] ∧
      running.table.commit = none ∧ ({ Table.reset with storeFault := true } : Table).storeFault = true ∧
      ({ Table.reset with marker := false } : Table).marker = false ∧
      (∃ run : CommitRun, some run = some { clean := true, records := [] } ∧ run.clean = true) ∧
      Sparse.wf .factory running.table.working = true ∧
      applyUpdate (running.band 3) (.setAttention 3) = some { BandRecord.factory with attention := true } ∧
      applyUpdate (running.band 3) (.sealBand 3) = none ∧
      ({ Table.reset with heldPermits := [.writer] } : Table).heldPermits ≠ [] := by
  refine ⟨by decide, by decide, by decide, by decide, by decide, by decide, ⟨⟨true, []⟩, by decide, by decide⟩, by decide,
    by decide, by decide, by decide⟩
theorem met_scan :
    let w : Sparse BandRecord := [(3, { openBand 2 with state := .erasing }), (1023, openBand 64)]
    let s : State := { State.reset with
      modes := { ModeCtl.reset false with cold := .tableLoad }, table := { Table.reset with stored := w, marker := false } }
    let t : State := { s with table := { s.table with stored := [(1023, openBand 63)] } }
    let c : Scan := { openPhase := false, band := 3, row := 0, stage := .permit, changed := false }
    s.live = true ∧ s.modes.cold = .tableLoad ∧ s.table.checkDelta = 0 ∧ s.table.marker = false ∧ s.modes.scan = none ∧
      Sparse.wf .factory s.table.stored = true ∧ (s.table.storedRecord 3).state = .erasing ∧
      (t.table.storedRecord 1023).state = .opened ∧ s.protect.frozen 1023 = false ∧
      ({ c with stage := .erasing [.l5] false } : Scan).stage = .erasing [.l5] false ∧ dropLane [.l5] .l5 = [] ∧
      dropLane [.l4, .l5] .l5 ≠ [] ∧ ({ c with stage := .reading [.l5] [.good] } : Scan).stage = .reading [.l5] [.good] ∧
      ({ c with stage := .notice } : Scan).stage = .notice ∧
      ({ c with stage := .discarding } : Scan).stage = .discarding ∧ running.lanesClear = true ∧ s.scanChanged = false ∧
      ({ running with modes := { running.modes with scan := some { c with changed := true } } } : State).scanChanged = true := by
  decide
theorem test_scan_begins :
    let s : State := { State.reset with
      modes := { ModeCtl.reset false with cold := .tableLoad },
      table := { Table.reset with stored := [(3, { openBand 2 with state := .erasing })], marker := false } }
    ((after (.tableLoad true) s).lane .l5).port = some (.owner, .blockErase 3) ∧
      (after (.tableLoad true) s).modes.mode = .cold := by decide +kernel
theorem met_sheet_start :
    let s : State := { running with sheets := { Sheets.reset with queue := [0x20#32] } }
    s.live = true ∧ s.sheets.queue = [0x20#32] ∧ s.modes.mode = .run ∧ s.sheets.active = none ∧ s.sheets.stop = .none ∧
      s.sheets.closing = [] ∧ (accessing (.header [])).port = some .sheet ∧ (accessing (.header [])).sheets.access = some (.header []) ∧
      (accessing (.header [])).sheets.active = some sheet ∧ fine.stores = [] ∧ fine.error = none ∧ failed.error = some 0 ∧
      sheet.header = .accepted ∧ sheet.index < sheet.count ∧ sheet.halted = false ∧ (inMode .held).modes.mode ≠ .run := by
  decide
theorem met_entry :
    (accessing (.entry [])).live = true ∧ (accessing (.entry [])).port = some .sheet ∧ (accessing (.entry [])).sheets.access = some (.entry []) ∧
      (accessing (.entry [])).sheets.active = some sheet ∧ (accessing (.entry [])).modes.mode = .run ∧
      (accessing (.entry [])).sheets.stop = .none ∧ orderOf 10#32 0#32 0#32 0#32 0#32 ≠ none ∧ orderOf 11#32 0#32 0#32 0#32 0#32 = none ∧
      (accessing (.entry (List.replicate 5 0#32))).sheets.access = some (.entry (List.replicate 5 0#32)) ∧
      (accessing (.entry [])).sheetLine.head? = some .sheets ∧ (List.replicate 5 0#32).length = 5 := by
  decide
theorem met_result_and_completion :
    let s := accessing (.result (plainResult .ok) 0)
    s.live = true ∧ s.port = some .sheet ∧ s.sheetLine.head? = some .sheets ∧
      s.sheets.access = some (.result (plainResult .ok) 0) ∧ s.sheets.active = some sheet ∧
      (accessing (.result (plainResult .ok) 1)).sheets.access = some (.result (plainResult .ok) 1) ∧ 1 < 2 ∧
      failed.landed.head? ≠ some true ∧
      Memory.wf s.mem = true ∧ (accessing (.completion 1#32)).sheets.access = some (.completion 1#32) ∧
      (accessing (.completion 1#32)).sheets.active = some sheet := by decide
theorem met_completion_states :
    ({ sheet with header := .refused } : SheetRun).header = .refused ∧ ({ sheet with ending := .aborted } : SheetRun).ending = .aborted ∧
      ({ sheet with ending := .interrupted } : SheetRun).ending = .interrupted ∧ sheet.failed = 0 ∧
      ({ sheet with failed := 1 } : SheetRun).failed ≠ 0 := by decide
theorem met_row_question :
    let o : Order := { kind := .writeRows, atNext := true, fill := false, clearAttention := false, band := 3, startRow := 0,
                       count := 1, chain := 0#32, aux1 := 0#32, aux2 := 0#32 }
    let s : State := { running with writer := Writer.start o (openBand 0) }
    let t : State := { running with reader := { Reader.reset with order := some { o with kind := .readRows }, started := true, toBegin := 1 } }
    s.live = true ∧ s.writerAsks = true ∧ t.writer.order = none ∧ t.readerAsks = true ∧ s.sheets.stop = .none := by decide
theorem met_lock_orders :
    Protection.reset.lockEnable = false ∧ lockOn.lockEnable = true ∧ lockOn.tight = false ∧ ranged.makeTight.1.tight = true ∧
      lockOn.inhibit = false ∧ lockOn.inhibited.inhibit = true ∧ 1023 < 1024 ∧ 1024 ≤ 1024 := by decide
theorem met_freeze :
    let o : Order := { kind := .writeRows, atNext := true, fill := false, clearAttention := false, band := 1023, startRow := 0,
                       count := 1, chain := 0#32, aux1 := 2#32, aux2 := 0#32 }
    let s : State := { running with protect := { lockOn with working := 0x8000000000000000#64 } }
    let t : State := { running with protect := lockOn }
    let u : State := { running with protect := { lockOn with fuseWrite := some 63 } }
    o.band < 1024 ∧ s.table.storeFault = false ∧ s.protect.frozen o.band = true ∧ o.eraseLevel ≠ none ∧
      t.protect.frozen o.band = false ∧ t.protect.locked o.band = true ∧ o.targetBand < 1024 ∧ u.supply = true ∧
      u.protect.fuseWrite = some 63 ∧ 63 < 64 := by decide
theorem met_descriptor :
    let m : Mover := { moving .inbound with access := some (.descriptor 0x100 []) }
    let s : State := { running with
      port := some .mover, mover := m, mem := Memory.writeWords [] (consecutive 0x100 [0xFFFFFFFC#32, 4#32, 0#32]) }
    s.live = true ∧ s.port = some .mover ∧ s.mover.access = some (.descriptor 0x100 []) ∧ s.mover.cursor ≠ none ∧
      s.mover.ended = false ∧
      (let ws := Memory.readWords s.mem 0x100 4
       (ws.getD 0 0#32).toNat % 4 = 0 ∧ (ws.getD 0 0#32).toNat + (ws.getD 1 0#32).toNat ≤ 4294967296 ∧
         4 ≤ (ws.getD 1 0#32).toNat) ∧
      ¬(4 ≤ ((Memory.readWords [] 0x100 4).getD 1 0#32).toNat) ∧ s.mover.burstLength ≠ 1 ∧
      ({ m with burstLength := 1 } : Mover).burstLength = 1 ∧ ([0#32, 0#32, 0#32] ++ Memory.readWords [] 0x10C 1).length = 4 ∧
      ([0#32, 0#32] ++ Memory.readWords [] 0x108 1).length < 4 := by decide
theorem met_burst :
    let s : State := { running with port := some .mover, mover := moving .inbound }
    let t : State := { running with port := some .mover, mover := { moving .outbound with fifo := List.replicate 4 7#32 } }
    s.live = true ∧ s.mover.burstNow = some (.readBurst 0x1000 4) ∧ s.mover.direction = some .inbound ∧
      t.mover.burstNow = some (.writeBurst 0x1000 (List.replicate 4 7#32)) ∧ (moving .inbound).burstLength ∈ [1, 4, 8, 16] ∧
      4 ≤ (moving .inbound).threshold ∧ (moving .inbound).permit % 4 = 0 ∧ (moving .inbound).fifo.length ≤ 16 ∧
      (let f : Fetch := { address := 0x13FC, forWhom := .patch, got := [] }
       let m : Mover := { moving .fetch with fetch := some f }
       m.fetch = some f ∧ f.address % 4 = 0 ∧ m.direction = some .fetch ∧ m.burstNow = some (.readBurst 0x13FC 1)) := by decide
theorem met_burst_end :
    let s : State := { running with port := some .mover, mover := { moving .inbound with access := some (.readBurst 0x1000 4) } }
    s.live = true ∧ s.port = some .mover ∧ s.mover.ended = false ∧ s.mover.access = some (.readBurst 0x1000 4) ∧
      s.mover.fetch = none ∧ Memory.wf s.mem = true ∧
      ({ moving .outbound with access := some (.writeBurst 0x1000 [1#32]) } : Mover).access = some (.writeBurst 0x1000 [1#32]) := by
  decide
theorem met_burst_error :
    failed.error = some 0 ∧ failed.stores = [] ∧
      (let f : Fetch := { address := 0x1010, forWhom := .patch, got := [] }
       ({ moving .fetch with fetch := some f } : Mover).fetch ≠ none) ∧ 0 < [1#32].length ∧ (moving .inbound).fetch = none := by
  decide
theorem met_port :
    running.port = none ∧ running.sheetLine = [] ∧ (accessing (.header [])).sheets.access ≠ none ∧
      (accessing (.header [])).wantsPort .sheet = true ∧
      ({ running with mover := moving .inbound } : State).wantsPort .mover = true ∧
      ({ running with patrol := { Patrol.reset with write := some (.headerFor 0x4000#32) } } : State).wantsPort .report = true ∧
      running.advance = none ∧
      ({ address := 0x10#32, got := [], startMode := .run } : ConfigRead) ≠ { address := 0x20#32, got := [], startMode := .run } := by
  decide +kernel
theorem met_apply :
    let s : State := { inMode .awaitConfig with window := { Window.reset with configAddress := 0x10#32 } }
    s.live = true ∧ s.modes.mode = .awaitConfig ∧ s.modes.configRead = none ∧
      ¬(s.window.configAddress = 0#32 ∨ s.window.configAddress.toNat % 16 ≠ 0) ∧ (inMode .held).modes.mode ≠ .run ∧
      running.window.configAddress = 0#32 ∧
      (let rd : ConfigRead := { address := 0x10#32, got := [0x600#32, 0x10000#32, 0#32], startMode := .awaitConfig }
       let t : State := { s with
         port := some .sheet, sheetLine := [.config], modes := { s.modes with configRead := some rd },
         mem := Memory.writeWords [] (consecutive 0x10 [0x600#32, 0x10000#32, 0#32, 0#32]) }
       t.port = some .sheet ∧ t.sheetLine.head? = some .config ∧ t.modes.configRead = some rd ∧ rd.got.length = 3 ∧
         checkConfig (rd.got ++ [Memory.readWord t.mem (0x10 + 4 * 3)]) = .inl
           { burstLength := 1, threshold := 4, weakThreshold := 6, patrolInterval := 0, patrolBudget := 1,
             reportAddress := 0#32, reportCapacity := 0 } ∧ t.sheets.active = none ∧ t.sheets.queue = []) := by
  decide
theorem met_config_checks :
    (checkConfig [0x604#32, 0x10000#32, 0#32, 0#32], checkConfig [0x900#32, 0x10000#32, 0#32, 0#32],
      checkConfig [0x603#32, 0x10000#32, 0#32, 0#32], checkConfig [0x600#32, 0x10000#32, 8#32, 1#32])
      = (.inr .range, .inr .range, .inr .burstThreshold, .inr .align) := by decide
theorem met_patrol_visit :
    let s : State := { patrolling 1 false with table := { Table.reset with working := [(1023, openBand 64)] } }
    s.live = true ∧ s.patrol.run = some (PatrolRun.start 1) ∧ s.patrol.visit = none ∧ s.patrol.findings = [] ∧
      s.patrol.write = none ∧ s.patrol.due = [] ∧ s.coder.owner = none ∧ s.nextVisit = some (1023, 0) ∧
      (patrolling 0 false).patrol.run = some (PatrolRun.start 0) ∧ (patrolling 1 false).nextVisit = none := by decide +kernel
theorem met_report_write :
    let f : Finding := { band := 3, row := 5, lane := .l0, kind := .weak, highest := 7 }
    let s : State := { running with port := some .report, patrol := { Patrol.reset with write := some (.finding 0x4000#32 f) } }
    s.live = true ∧ s.port = some .report ∧ Memory.wf s.mem = true ∧ s.patrol.write = some (.finding 0x4000#32 f) ∧
      ({ Patrol.reset with write := some (.headerFor 0x4000#32) } : Patrol).write = some (.headerFor 0x4000#32) ∧
      ({ running with patrol := { Patrol.reset with due := [.clear] } } : State).patrol.due = [.clear] ∧
      (0 < conf.reportCapacity) ∧ ({ conf with reportCapacity := 0 } : Applied).reportCapacity = 0 ∧
      (Patrol.reset.writes (.finding 0x4000#32 f)).drop 0 ≠ [] ∧ 0x4008 % 4 = 0 := by decide
theorem met_findings :
    let f : Finding := { band := 3, row := 5, lane := .l0, kind := .weak, highest := 7 }
    let s : State := { running with patrol := { Patrol.reset with findings := [f] } }
    let rep : RowReport := { verdict := .recoverable, missing := [⟨.l1, .data 1, .tag⟩], rebuilt := 0, weak := 1,
                             outcomes := [(.l0, { cls := .weak, highest := 7 })] }
    s.modes.config = some conf ∧ s.patrol.write = none ∧ s.patrol.due = [] ∧ s.patrol.findings = [f] ∧
      s.patrol.writeFailed = false ∧ s.patrol.fill < conf.reportCapacity ∧
      conf.reportCapacity ≤ ({ s.patrol with fill := 2 } : Patrol).fill ∧
      rep.missing.find? (fun m => decide (m.lane = .l1)) = some ⟨.l1, .data 1, .tag⟩ ∧
      rep.missing.find? (fun m => decide (m.lane = .l0)) = none ∧ (rep.outcomes.find? (fun o => decide (o.1 = .l0))) ≠ none ∧
      ({ s with port := some .report, patrol := { s.patrol with write := some (.headerFor 0x4000#32) } } : State).port
        = some .report := by decide
theorem met_invariants :
    running.table.sound = true ∧ running.table.gated = true ∧ running.protect.sound = true ∧ running.canonical = true ∧
      running.queueFits = true := by decide
theorem met_step : step { running with pending := [.hold] } = .next (after .hold running) := by rfl

/-! ## The orders, row by row -/

/-- An order of a kind on band 3, 64 rows. -/
def order (k : OrderKind) : Order :=
  { kind := k, atNext := true, fill := false, clearAttention := false, band := 3, startRow := 0, count := 64, chain := 0#32,
    aux1 := 4#32, aux2 := 0#32 }

/-- RUN with band 3 OPEN with all its rows written and band 4 BLANK, both of level 2. -/
def stocked : State :=
  { running with table := { Table.reset with
      marker := false, working := [(3, { openBand 64 with state := .sealed }), (4, { openBand 0 with state := .blank })] } }

/-- A row of WRITE ROWS in flight. -/
def flight (row : Nat) (c : FlightCond) : Flight :=
  { row := row, cond := c, loadSet := [.l0], loaded := [.l0], committed := [], awaited := [], failed := [], permitAsked := false }

/-- WRITE ROWS on band 4 with these rows in flight. -/
def writing (fs : List Flight) : State :=
  { stocked with writer := { Writer.reset with
      order := some { order .writeRows with band := 4 }, band := 4, level := 2, toBegin := 1, go := true, flights := fs } }

/-- READ ROWS on band 3 in progress. -/
def reading : State :=
  { stocked with reader := { Reader.reset with
      order := some (order .readRows), started := true, usesMover := true, band := 3, level := 2, toBegin := 1, go := true } }

/-- COPY ROWS of band 3 to band 4 in progress, with a patch of row 0 or none. -/
def copying (p : Option Patch) : State :=
  { stocked with reader := { Reader.reset with
      order := some (order .copyRows), started := true, band := 3, level := 2, targetBand := 4, toBegin := 64, patch := p,
      go := true } }

/-- A patch of data page 3 in row 0. -/
def patch0 : Patch := { rowOffset := 0, index := 3, offset := 2047, length := 1, source := 0x40#32 }

/-- A copy row with every lane MOVE, its moves running. -/
def moved : CopyRow :=
  { CopyRow.start 0 0 (Six.build (fun _ => .move)) with phase := .moving, moves := Lane.all }

/-- COPY ROWS with this row in flight. -/
def copyRow (c : CopyRow) : State :=
  { copying none with reader := { (copying none).reader with go := false, copyRow := some c } }

/-- The end of a move into row 0 of band 4. -/
def moveEnd (o : OpOutcome) : LastOp := { kind := .move, band := 4, row := 0, outcome := o }

theorem met_order_checks :
    (stocked.checkWrite { order .writeRows with band := 1024 }, stocked.checkWrite (order .writeRows),
      stocked.checkWrite { order .writeRows with band := 4 }, stocked.checkWrite { order .writeRows with band := 4, count := 65 })
      = (some .badBand, some .bandState, none, some .badCount) ∧
    (stocked.checkRead (order .readRows), stocked.checkRead { order .readRows with startRow := 64 },
      stocked.checkRead { order .readRows with startRow := 1 }, stocked.checkRead { order .readRows with band := 4 })
      = (none, some .badRow, some .badCount, some .bandState) ∧
    (stocked.checkCopy (order .copyRows), stocked.checkCopy { order .copyRows with aux1 := 1024#32 })
      = (none, some .badBand) ∧
    (stocked.checkErase { order .eraseBand with aux1 := 2#32 }, stocked.checkErase { order .eraseBand with aux1 := 3#32 },
      stocked.checkSeal (order .sealBand), checkQuery { order .queryBands with band := 1023, count := 1 },
      checkQuery { order .queryBands with band := 1023, count := 2 }, stocked.checkFreeze (order .freezeGroup))
      = (none, some .badRange, some .bandState, none, some .badCount, some .lockDisabled) := by decide +kernel
theorem met_orders_start :
    stocked.coder.owner = none ∧ stocked.checkWrite (order .writeRows) = some .bandState ∧
      (let o : Order := { order .copyRows with aux2 := 0x18#32 }
       stocked.checkCopy o = none ∧ o.aux2 ≠ 0#32 ∧ o.aux2.toNat % 16 ≠ 0 ∧ (0x10#32 : Word).toNat % 16 = 0) ∧
      patch0.good 64 2 = true ∧ ({ patch0 with offset := 2048 } : Patch).good 64 2 = false ∧
      ({ order .eraseBand with aux1 := 2#32 } : Order).eraseLevel = some 2 ∧
      (∀ l ∈ Lane.all, (stocked.lane l).state = .idle ∧ (stocked.lane l).port = none) ∧
      ((withLane .l0 (asks .powerDown)).lane .l0).port ≠ none ∧
      (let s : State := { stocked with protect := lockOn }
       s.checkFreeze { order .freezeGroup with aux1 := 63#32 } = none ∧
         s.checkFreeze { order .freezeGroup with aux1 := 64#32 } = some .badRange ∧ s.table.marker = false) ∧
      Sparse.wf .factory stocked.table.working = true := by decide +kernel
theorem met_layouts :
    orderOf 0x0003010A#32 0x00400000#32 0#32 0#32 0#32 =
        some { order .freezeGroup with aux1 := 0#32 } ∧
      orderOf 0x0B#32 0#32 0#32 0#32 0#32 = none ∧
      (let f : Finding := { band := 1023, row := 63, lane := .l5, kind := .parity, highest := 8 }
       f.band < 1024 ∧ f.row < 64 ∧ f.highest ≤ 8 ∧ f.words = [0x053F03FF#32, 0x00000804#32, 0#32, 0#32]) := by decide +kernel
theorem met_writer_rows :
    (writing []).writer.go = true ∧ ((writing []).writerBegin.map (fun t => t.writer.openWait)) = some true ∧
      (∃ l ∈ Lane.all, l ∉ (writing []).writer.lanesFailed) ∧
      (writing [flight 0 .loaded]).writerCommit ≠ none ∧
      (writing [flight 0 .committed, flight 1 .loaded]).writerCommit ≠ none ∧
      (writing [flight 0 .assembling, flight 1 .loaded]).writerCommit = none ∧
      (let f : Flight := { flight 0 .loaded with permitAsked := true }
       (writing [f]).writer.flights.find? (fun f => f.permitAsked && decide (f.cond = .loaded)) = some f ∧ f.loaded.Nodup ∧
         ((writing [f]).writerPermit false).writer.ending = some .storeFault) ∧
      (writing [flight 0 .committed]).writerComplete ≠ none := by decide +kernel
theorem met_writer_end :
    let s := writing [flight 0 .committed, flight 1 .loaded]
    let w : Writer := { s.writer with flights := [], toBegin := 0, go := false, ended := true, flushed := true }
    s.writer.failing = none ∧ s.writer.flights.length ≤ 2 ∧ (s.writer.flights.map (·.row)).Nodup ∧
      (s.writerFailed 0).writer.flights.map (fun f => (f.row, f.cond)) = [(0, .discarding)] ∧
      (s.writerNotice .opened false).writer.flights.map (·.row) = [0] ∧
      ((writing [flight 0 .committed, flight 1 .assembling]).writerMoverEnding .fragment).writer.flights.map (·.row) = [0] ∧
      w.ended = true ∧ w.flushed = true ∧ s.lanesClear = true ∧
      ({ w with stopped := some .aborted, ending := some .storeFault } : Writer).status = .storeFault := by decide +kernel
theorem met_read_rows :
    let s := reading
    let lone : ReadFlight := { row := 0, judged := false, expected := [.l0] }
    s.reader.order = some (order .readRows) ∧ s.reader.go = true ∧ 0 ∉ (s.band 3).voids ∧
      (s.readBegin.map (fun t => (t.reader.nextRow, t.coder.beginRead.isSome))) = some (1, true) ∧
      (let t : State := { s with table := { s.table with working := [(3, { openBand 64 with voids := [0] })] } }
       (t.readBegin.map (·.reader.ending)) = some (some .voidRow)) ∧
      (let t : State := { s with reader := { s.reader with flights := [lone, lone] } }
       t.readDelivered.coder.beginRead ≠ none ∧ t.readerAsks = false) ∧
      (let t : State := { withLane .l5 { LaneCtl.reset with cache := some (cached .read (some good0)) } with
         reader := { s.reader with toBegin := 0, go := false } }
       t.readerCleanup ≠ none ∧ t.readerEnd ≠ none ∧ t.reader.order = some (order .readRows)) ∧
      (let t : State := { s with reader := { s.reader with ended := true, flushed := true } }
       t.readerFinish ≠ none) ∧
      ({ s.reader with pagesRebuilt := 1 } : Reader).status = .okRebuilt := by decide +kernel
theorem met_copy_begin :
    let s := copying (some patch0)
    s.reader.order = some (order .copyRows) ∧ s.reader.go = true ∧ s.reader.ending = none ∧ s.reader.lostWaits = 0 ∧
      s.protect.locked 4 = false ∧ s.planClass 0 0 .l3 = .build ∧ s.planClass 0 0 .l4 = .build ∧ s.planClass 0 0 .l0 = .move ∧
      s.planClass 1 1 .l3 = .move ∧
      (let t : State := { s with reader := { s.reader with lanesFailed := [.l3] } }
       t.planClass 0 0 .l3 = .feed) ∧
      ((s.copyBegin.bind (·.reader.copyRow)).map (fun c => (c.given, c.fetching, c.reads)))
        = some (true, true, [.l3, .l4, .l5]) ∧
      (((copying none).copyBegin.bind (·.reader.copyRow)).map (fun c => (c.given, c.reads))) = some (false, []) ∧
      (let q := { ReadAsm.start { band := 3, row := 0, level := 2, purpose := .copy, lanes := Lane.all } with purpose := .copy }
       q.slots.get .l0 = .awaited) := by decide +kernel
theorem met_copy_moves :
    (let s := copyRow { moved with phase := .prepare, moves := [] }
     s.copyPermit ≠ none ∧ s.copyCommit = none) ∧
    (let s := copyRow { moved with phase := .permit, moves := [], permitAsked := true }
     ((s.readerPermit true).reader.copyRow.map (·.moves)) = some Lane.all ∧
       (s.readerPermit false).reader.ending = some .storeFault ∧ s.protect.locked s.reader.targetBand = false) ∧
    (let s := copyRow { moved with moves := [], given := true, loaded := some [.l0], permitAsked := true, judged := true }
     ((s.readerPermit true).reader.copyRow.map (fun c => (c.committed, c.awaited))) = some (true, [.l0]) ∧
       (s.endCopyRow .protected_).coder.read = none) ∧
    (let s := copyRow { moved with moves := [] }
     (s.copyRowEnd.map (·.reader.rowsDone)) = some 1) ∧
    (let s := copyRow { moved with moves := [], closed := true }
     (s.copyRowEnd.map (·.reader.rowsDone)) = some 0 ∧ s.reader.failing = none) ∧
    ((copyRow moved).copyJudged { verdict := .unrecoverable, missing := [], rebuilt := 0, weak := 0, outcomes := [] }).reader.ending
      = some .dataLoss := by decide +kernel
theorem test_failed_move_feeds_a_later_bad_source :
    let t := (copyRow moved).moveReport .l1 (moveEnd .fail) (some good0)
    let u := t.moveReport .l2 (moveEnd .sourceBad) (some { cls := .uncorrectable, highest := 0 })
    (t.reader.copyRow.map (fun c => (c.plan.get .l1, c.given, c.touched))) = some (.feed, false, true) ∧
      (u.reader.copyRow.map (fun c => (c.plan.get .l2, c.given, c.reads))) = some (.build, true, [.l1]) ∧
      (u.lane .l1).waiting = [.cacheDiscard, .pageRead { band := 3, row := 0, level := 2 }] := by decide +kernel
theorem met_coder_judges :
    let known (c : PageClass) : Slot := .outcomeOnly { cls := c, highest := 0 }
    let r : ReadAsm := { zeroRow [] with slots := (Six.build (fun _ => known .good)).set .l1 (known .uncorrectable) }
    let s : State := { running with coder := { Coder.reset with read := some r } }
    let check (absent : List Lane) : ReadAsm := { zeroRow absent with purpose := .check }
    s.coder.read = some r ∧ s.coder.verdict = none ∧ (∀ l ∈ Lane.all, r.slots.get l ≠ .awaited) ∧
      r.missing = [⟨.l1, .data 1, .uncorrectable⟩] ∧ r.lacking none = [.l0, .l2, .l3, .l4] ∧
      s.judge.signals = [.needPages [.l0, .l2, .l3, .l4]] ∧
      (check [.l1]).missing.map (·.lane) = [.l1] ∧ (check [.l1]).compared = [⟨.l5, .q, true⟩] ∧
      (check []).compared = [⟨.l4, .p, true⟩, ⟨.l5, .q, true⟩] ∧ (check [.l5]).compared = [⟨.l4, .p, true⟩] ∧
      (check [.l4]).compared = [⟨.l5, .q, true⟩] ∧ (check [.l0, .l1]).compared = [] ∧
      ((check [.l1]).report .recoverable).rebuilt = 1 ∧ ((check [.l5]).report .recoverable).rebuilt = 0 ∧
      (zeroRow [.l0, .l1, .l2]).missing.length = 3 := by decide +kernel
theorem met_coder_loads :
    let last : Handing := { lane := .l5, data := [], behind := false }
    let s (a : WriteAsm) : State := { running with coder := { Coder.reset with write := some a } }
    let done : WriteAsm := { asm with index := 5, handing := some last, loadSet := Lane.all }
    let data : WriteAsm := { asm with index := 3, handing := some { last with lane := .l3 }, loadSet := [.l3, .l5] }
    (s done).coder.write = some done ∧ ((s done).lane .l5).port = none ∧
      ((s done).handPage).signals = [.rowLoaded [.l5]] ∧ ((s done).handPage).coder.write = none ∧
      (((s data).handPage).coder.write.bind (·.handing)).map (·.lane) = some .l5 ∧
      (let t : State := { withLane .l5 (asks .powerDown) with coder := (s done).coder }
       (t.lane .l5).port ≠ none ∧ t.handPage.signals = []) ∧
      (let t := running.produceCopy (zeroRow []) [.l0, .l4] (4, 0)
       (t.coder.read.map (fun r => (r.handing.isSome, r.toHand.length, r.target))) = some (true, 1, (4, 0))) ∧
      (running.produceCopy (zeroRow []) [] (4, 0)).signals = [.rowLoaded []] ∧ (zeroRow []).handing = none := by
  decide +kernel
theorem met_page_bytes :
    ({ cleanRead with allOnes := true } : ArrayRead).allOnes = true ∧ zeroPage.length = 2048 ∧
      (let seen : ArrayRead := { cleanRead with errors := [9, 8, 0, 0], asRead := List.replicate 2048 1#8 }
       let bytes := bytesRead (.programmed { band := 3, row := 5, level := 2, role := .p, checkDelta := 0#16 } zeroPage) seen
       seen.asRead.length = 2048 ∧ bytes[511]? = some 1#8 ∧ bytes[512]? = some 0#8 ∧ bytes.length = 2048) := by decide +kernel

/-! ## The mover's walk and endings, sheets at rest, modes -/

theorem met_walk :
    let s (d : Direction) (c : Cursor) (ch : ChainState) : State :=
      { running with mover := { moving d with chain := ch, cursor := some c, fifo := if d = .outbound then [1#32] else [] } }
    let c : Cursor := { descriptor := 0, fragment := 0, left := 0, next := 0x10, walked := 4095 }
    ((s .inbound c .exhausted).moverWalk.bind (·.mover.access)) = some (.descriptor 0x10 []) ∧
      ((s .inbound { c with walked := 4096 } .exhausted).moverWalk.bind (·.mover.pendingEnding)) = some .fragment ∧
      ((s .outbound { c with next := 0x18 } .notStarted).moverWalk.bind (·.mover.pendingEnding)) = some .fragment ∧
      ((s .outbound { c with next := 0 } .notStarted).moverWalk.map (·.mover.chain)) = some .atEnd ∧
      ((s .outbound c .atEnd).moverAtEnd.bind (·.mover.pendingEnding)) = some .shortChain ∧
      ((s .inbound c .atEnd).moverAtEnd.bind (·.mover.pendingEnding)) = some .shortChain ∧
      (let t : State := { running with mover := { moving .inbound with chain := .atEnd, fill := some 0x5A#8, permit := 68 } }
       (t.moverAtEnd.map (fun u => (u.mover.fifo.length, u.mover.permit))) = some (16, 4)) := by decide +kernel
theorem met_transfers_end :
    let s (m : Mover) : State := { running with port := some .mover, mover := m }
    let bad (d : Direction) : Mover := { moving d with pendingEnding := some .busError }
    (s (bad .inbound)).moverReport ≠ none ∧ (s { bad .inbound with fifo := [1#32] }).moverReport = none ∧
      ((s (bad .outbound)).moverReport.map (·.mover.phase)) = some .stopped ∧
      ((s { bad .outbound with phase := .flushing }).moverReport.map (·.signals)) = some [.moverEnding .busError, .flushed] ∧
      (s { moving .outbound with phase := .flushing }).moverFlushEnd ≠ none ∧
      (s { moving .inbound with access := some (.readBurst 0x1000 4) }).endTransfer.mover.ended = true ∧
      ({ s (moving .inbound) with port := none } : State).endTransfer.signals = [.flushed] ∧
      (let t := (s { moving .inbound with fifo := List.replicate 12 0#32 }).endTransfer
       t.mover.ended = true ∧ t.signals = [] ∧ t.arbitrate = none ∧
         t.burstStarts.mover.access = some (.readBurst 0x1000 4) ∧ (t.burstStarts.burstEnds fine).mover = Mover.reset) ∧
      (s (moving .outbound)).endTransfer.mover.phase = .flushing ∧
      (let m : Mover := { moving .inbound with ended := true, access := some (.readBurst 0x1000 4) }
       (s m).live = true ∧ (s m).mover.ended = true ∧ ((s m).burstEnds fine).mover = Mover.reset) ∧
      (let o : Order := { order .queryBands with count := 1, clearAttention := true }
       let v : Services := { Services.reset with order := some o, phase := .records, band := 3, nextRecord := 4 }
       let t : State := { running with services := v }
       t.writer.order = none ∧ t.reader.order = none ∧ t.services.order = some o ∧
         (t.takeUnit.services.written, t.takeUnit.services.answers) = (1, 1) ∧ t.takeUnit.queryEnd ≠ none ∧ t.queryEnd = none ∧
         ({ t with services := { v with ended := true, flushed := true } } : State).queryFinish ≠ none) := by decide +kernel
theorem met_sheets_rest :
    let s (h : Sheets) : State := { running with sheets := h }
    let active (r : SheetRun) : State := s { Sheets.reset with active := some r }
    (active { sheet with halted := true }).sheetSkip ≠ none ∧ (active sheet).sheetSkip = none ∧
      (active { sheet with index := 2 }).sheetClose ≠ none ∧ (active { sheet with header := .refused }).sheetClose ≠ none ∧
      (active { sheet with header := .unread }).sheetClose = none ∧
      (let h : Sheets := { Sheets.reset with stop := .abort, closing := [(0x20#32, .aborted)] }
       ((s h).closeNext.bind (·.sheets.closer)) = some (SheetRun.fresh 0x20#32 .aborted) ∧ (s h).abortEnd = none ∧
         (s { h with closing := [] }).abortEnd ≠ none ∧
         (let t : State := { s { h with closer := some sheet, access := some (.completion 1#32) } with
            port := some .sheet, sheetLine := [.sheets] }
          t.live = true ∧ t.sheets.active = none ∧ (t.endBeat.endCompletionWrite fine).sheets.closing = [])) ∧
      (let t : State := { inMode .holding with sheets := { Sheets.reset with
         stop := .hold, questionHeld := true, order := some { kind := .readRows, index := 0 } } }
       t.enterHeld ≠ none ∧
         ({ t with sheets := { t.sheets with order := some { kind := .eraseBand, index := 0 } } } : State).enterHeld = none) := by
  decide +kernel
theorem met_drain :
    let d : Drain := { closed := false, patrolEnded := true, lanesQuiet := false, commitDone := false, lanesOff := false }
    let s (d : Drain) : State := { inMode .drain with modes := { (inMode .drain).modes with drain := some d } }
    let off : Six LaneCtl := Six.build (fun _ => { LaneCtl.reset with activity := .off })
    ((s d).drainOn.bind (·.modes.drain)) = some { d with closed := true } ∧
      ((s { d with closed := true }).drainOn.map (fun t => (t.lane .l5).waiting)) = some [.powerDown] ∧
      ((s { d with closed := true, lanesQuiet := true }).drainOn.bind (·.modes.drain))
        = some { d with closed := true, lanesQuiet := true, commitDone := true } ∧
      (let t : State := { s { d with closed := true, lanesQuiet := true } with table := { Table.reset with marker := false } }
       (t.drainOn.map (·.signals)) = some [.commitRequest .mode true true]) ∧
      (let t : State := { s { d with closed := true, lanesQuiet := true, commitDone := true } with lanes := off }
       (t.drainOn.bind (·.modes.drain.map (·.lanesOff))) = some true) ∧
      ((s { closed := true, patrolEnded := true, lanesQuiet := true, commitDone := true, lanesOff := true }).drainOn.map
        (·.modes.mode)) = some .parked ∧
      (let t : State := { s { d with closed := true, lanesQuiet := true } with
         modes := { (s { d with lanesQuiet := true }).modes with commitAwaited := true } }
       (t.modeNotice.modes.drain.map (·.commitDone)) = some true) := by decide +kernel
theorem met_wake_and_park :
    let s (m : Mode) (given leaving : Bool) : State := { inMode m with
      modes := { (inMode m).modes with wake := true, powerGiven := given, leaving := leaving } }
    ((s .standby false false).wakeOn.map (fun t => (t.lane .l5).waiting)) = some [.powerUp] ∧
      ((s .standby true false).wakeOn.map (·.modes.mode)) = some .run ∧
      ((s .parked false false).parkedOn.map (·.modes.leaving)) = some true ∧
      ((s .parked false true).parkedOn.map (·.modes.mode)) = some .run ∧ (s .run false false).wakeOn = none := by decide +kernel
theorem met_search :
    let s (b r : Nat) : State := { patrolling 1 false with
      table := { Table.reset with working := [(0, openBand 1), (3, { openBand 64 with voids := [63] }), (1023, openBand 2)] },
      patrol := { (patrolling 1 false).patrol with cursorBand := b, cursorRow := r } }
    ((s 3 62).nextVisit, (s 3 63).nextVisit, (s 1023 2).nextVisit, (s 3 0).nextVisit)
        = (some (3, 62), some (1023, 0), some (0, 0), some (3, 0)) ∧
      Sparse.wf .factory (s 3 62).table.working = true ∧ (s 1023 2).patrol.cursorBand < 1024 := by decide +kernel
theorem met_row_findings :
    let v : Visit := { band := 3, row := 5, level := 2, expected := Lane.all, checked := false }
    let rep : RowReport := { verdict := .recoverable, missing := [], rebuilt := 0, weak := 1,
                             outcomes := [(.l4, { cls := .weak, highest := 7 })] }
    let s : State := { running with patrol := { Patrol.reset with visit := some v } }
    s.patrol.visit = some v ∧ (s.patrolChecked rep [⟨.l4, .p, false⟩, ⟨.l5, .q, true⟩]).patrol.findings =
      [{ band := 3, row := 5, lane := .l4, kind := .weak, highest := 7 },
       { band := 3, row := 5, lane := .l4, kind := .parity, highest := 7 }] := by decide +kernel
theorem test_apply_header_goes_before_a_waiting_clear :
    dueWithHeader [.clear, .header 1#32, .clear] 2#32 = [.header 1#32, .header 2#32, .clear, .clear] := by decide
theorem met_apply_header :
    let s : State := { running with patrol := Patrol.reset.applied (newArea none conf) conf }
    (∀ o, (none : Option Applied) = some o → False) ∧ 0 < conf.reportCapacity ∧
      s.patrol.due = [.header conf.reportAddress] ∧
      s.takeDue.map (fun t => (t.patrol.due, t.patrol.write)) = some ([], some (.headerOnly conf.reportAddress)) ∧
      (Patrol.reset.due.Pairwise (fun d e => d = .clear → e = .clear)) := by decide +kernel

/-! ## Cases of the statements about runs, resets, notices and ends -/

/-- PATROL being woken, POWER UP given or not, a WAKE seen or not. -/
def wakingPatrol (given wake : Bool) : State :=
  { inMode .patrol with modes := { (inMode .patrol).modes with
      patrolStage := .waking, powerGiven := given, patrolWake := wake } }

/-- A patrol run at its end. -/
def ending (changed : Bool) (m : ModeCtl) : State :=
  { running with
    modes := m, patrol := { Patrol.reset with run := some { PatrolRun.start 1 with finishing := true, recordChanged := changed } } }

/-- A drain that waits for its patrol run. -/
def drain0 : Drain := { closed := true, patrolEnded := false, lanesQuiet := false, commitDone := false, lanesOff := false }

theorem met_patrol_run :
    ((wakingPatrol false false).patrolOn.map (fun t => (t.lane .l5).waiting)) = some [.powerUp] ∧
      ((wakingPatrol true false).patrolOn.bind (·.patrol.run)) = some (PatrolRun.start conf.patrolBudget) ∧
      ((wakingPatrol true true).patrolOn.map (·.modes.mode)) = some .run ∧ (inMode .standby).patrolOn = none ∧
      (let v : Visit := { band := 1023, row := 63, level := 2, expected := Lane.all, checked := true }
       let s : State := { patrolling 1 false with patrol := { (patrolling 1 false).patrol with visit := some v } }
       (s.endVisit.map (fun t => (t.patrol.cursorBand, t.patrol.cursorRow, t.patrol.run.map (·.budget)))) =
         some (1023, 64, some 0)) ∧
      ((ending true { (inMode .patrol).modes with patrolWake := true }).endRun.map (·.signals)) =
        some [.commitRequest .patrol true false] ∧
      ((ending true (inMode .patrol).modes).endRun.map (·.modes.patrolStage)) = some .committing ∧
      ((ending false (inMode .patrol).modes).endRun.map (·.modes.mode)) = some .standby ∧
      ((ending false { (inMode .drain).modes with drain := some drain0 }).endRun.bind (·.modes.drain.map (·.patrolEnded))) =
        some true ∧
      (let m : ModeCtl := { (inMode .patrol).modes with patrolStage := .committing, commitAwaited := true }
       ({ running with modes := m } : State).modeNotice.window.flag .patrolDone = true ∧ m.drain = none) := by decide +kernel
theorem met_cut_writes :
    (let s : State := { running with
       port := some .mover, mover := { moving .outbound with access := some (.writeBurst 0x3FC [1#32, 2#32]) } }
     s.live = true ∧ s.writesInProgress = [(0x3FC, 1#32), (0x400, 2#32)] ∧
       Memory.readWord (after (.softReset { noCut with words := 1 }) s).mem 0x3FC = 1#32 ∧
       Memory.readWord (after (.softReset { noCut with words := 1 }) s).mem 0x400 = 0#32) ∧
    ((accessing (.result (plainResult .ok) 0)).writesInProgress.length,
      (accessing (.result (plainResult .ok) 2)).writesInProgress.length,
      (accessing (.completion 1#32)).writesInProgress.length, (accessing (.header [])).writesInProgress.length) =
      (1, 0, 1, 0) ∧
    (let s : State := { running with
       port := some .report, patrol := { Patrol.reset with write := some (.headerOnly 0x4000#32) } }
     s.writesInProgress = s.patrol.burst 4 (.headerOnly 0x4000#32)) ∧
    (({ accessing (.completion 1#32) with sheetLine := [.config, .sheets] } : State).sheetLine.head? ≠ some .sheets) := by
  decide +kernel
theorem met_warning_ends :
    (let s : State := accessing (.entry [])
     (after .pwrWarnAsserted s).sheets.active.map (·.ending) = some .interrupted ∧ s.sheets.questionHeld = false) ∧
    (after .pwrWarnAsserted (accessing (.completion 1#32))).sheets.active.map (·.ending) = some .normal ∧
    (let s : State := { writing [] with sheets := { Sheets.reset with questionHeld := true } }
     s.writer.order ≠ none ∧ s.warnAsserted.writer.stopped = some .interrupted) ∧
    (let s : State := { inMode .parked with modes := { (inMode .parked).modes with leaving := true } }
     s.modes.leaving = true ∧ (s.warnAsserted.lane .l0).waiting = [.powerDown]) := by decide +kernel
theorem met_patrol_committing :
    let s : State := { inMode .patrol with modes := { (inMode .patrol).modes with patrolStage := .committing } }
    s.modes.mode = .patrol ∧ s.modes.patrolStage = .committing ∧ (after .wake s).modes.mode = .run ∧
      (after (.post 0x20#32) s).modes.mode = .run ∧ (patrolling 1 false).modes.patrolStage ≠ .committing := by decide +kernel
theorem met_port_order :
    let lane (coder : Bool) : State := { withLane .l5 { LaneCtl.reset with waiting := [.cacheDiscard, .cacheUnload] } with
      coder := { Coder.reset with write := some { asm with
        handing := if coder then some { lane := .l5, data := [], behind := false } else none } } }
    ((lane false).placeRequests.map (fun t => ((t.lane .l5).port, (t.lane .l5).waiting))) =
        some (some (.owner, .cacheDiscard), [.cacheUnload]) ∧
      (lane true).placeRequests = none ∧ (lane true).live = true := by decide +kernel
theorem met_notices_and_release :
    (let ws : List Waiter := [{ client := .writer, what := .opened, covered := true }, { client := .mode, what := .commitEnd, covered := false }]
     let s : State := { running with table := { Table.reset with commit := some { clean := false, records := [] }, waiters := ws } }
     (s.endCommit { clean := false, records := [] } true).signals = [.notice .writer .opened true] ∧
       (s.endCommit { clean := false, records := [] } false).signals.length = 2) ∧
    (let t : Table := { Table.reset with
       marker := false, heldUpdates := [{ client := .patrol, update := .setAttention 3, notice := false }],
       heldPermits := [.writer] }
     let s : State := { running with table := t }
     (s.gateReleases.map (fun u => (u.signals, u.table.heldPermits))) =
       some ([.answer .patrol (.setAttention 3) true true, .permit .writer true], []) ∧
       ({ s with table := { t with cleanReq := true } } : State).gateReleases = none ∧
       ({ s with table := { t with storeFault := true } } : State).gateReleases ≠ none) := by decide +kernel
theorem met_late_failures :
    let s : State := { writing [{ flight 3 .committed with awaited := [.l0, .l1] }] with
      writer := { (writing [{ flight 3 .committed with awaited := [.l0, .l1] }]).writer with failing := some 4 } }
    let t := s.writerReport .l0 { kind := .program, band := 4, row := 3, outcome := .fail }
    s.writer.failing = some 4 ∧ t.writer.flights.map (fun f => (f.cond, f.awaited)) = [(.discarding, [.l1])] ∧
      t.signals = [] ∧ (t.lane .l0).waiting = [.cacheDiscard] ∧ t.writerDiscarded = none ∧
      (writing [flight 0 .discarding]).writerDiscarded ≠ none ∧
      (let u := s.writerReport .l0 { kind := .program, band := 4, row := 5, outcome := .fail }
       u.writer.flights.map (·.cond) = [.committed]) := by decide +kernel
theorem met_copy_ends :
    let s (r : Reader) : State := { copying none with reader := r }
    let r : Reader := { (copying none).reader with go := false, toBegin := 0 }
    r.order = some (order .copyRows) ∧ ((s r).readerEnd.map (·.reader.flushed)) = some true ∧
      (s { r with toBegin := 1 }).readerEnd = none ∧
      (s { r with started := false, usesMover := true, ending := some .badRange }).readerEnd ≠ none ∧
      ((s { r with ended := true, flushed := true, failing := some 0 }).readerFinish.map (·.signals)) =
        some [.orderEnd { status := .programFail, rowsDone := 0, pagesRebuilt := 0, weakSeen := 0 }] ∧
      (s { r with started := false, ended := true, flushed := true }).readerFinish ≠ none ∧
      (s { r with ended := true, flushed := true }).lanesClear = true ∧
      ((copyRow { moved with closed := true }).setLane .l5 { LaneCtl.reset with cache := some (cached .read (some good0)) }).readerCleanup
        ≠ none ∧
      (s r).writer.order = none ∧ ((s { r with ending := none }).takeEnding .busError).reader.ending = some .busError := by
  decide +kernel
theorem met_services :
    let s (v : Services) : State := { running with services := v }
    let v (p : ServicePhase) : Services := { Services.reset with order := some (order .freezeGroup), phase := p, band := 3 }
    (((s { v .queryLanes with lanesAwaited := [.l0] }).eraseQuery .l0).services.phase = .eraseNotice ∧
      ((s { v .queryLanes with lanesAwaited := [.l0, .l1] }).eraseQuery .l0).services.lanesAwaited = [.l1]) ∧
    ((s (v .eraseNotice)).servicesNotice .eraseStart true).signals = [.askPermit .services] ∧
    (((s (v .erasePermit)).erasePermit true).lane .l5).waiting = [.blockErase 3] ∧
    (let u := (s { v .erasing with lanesAwaited := [.l0] }).eraseReport .l0 { kind := .erase, band := 3, row := 0, outcome := .fail }
     u.signals = [.update .services (.eraseEnd 3 false) true] ∧ (u.servicesNotice .eraseEnd true).services = Services.reset) ∧
    ((s (v .sealNotice)).servicesNotice .sealed false).signals = [.orderEnd (plainResult .storeFault)] ∧
    ((s (v .freezeCommit)).servicesNotice .commitEnd true).protect.fuseWrite = some 4 ∧
    (lockOn.frozen 3 = false ∧ lockOn.locked 3 = true ∧ running.protect.locked 3 = false) := by decide +kernel
theorem met_burst_conditions :
    let f : Fetch := { address := 0x40, forWhom := .descriptor, got := [1#32] }
    let m : Mover := { moving .fetch with fetch := some f, fifo := [2#32] }
    let s (m : Mover) : State := { running with mover := m }
    ({ moving .inbound with fifo := List.replicate 12 0#32 } : Mover).burstNow ≠ none ∧
      ({ moving .inbound with fifo := List.replicate 13 0#32 } : Mover).burstNow = none ∧
      ({ moving .outbound with fifo := [1#32], handed := 4 } : Mover).burstNow ≠ none ∧
      ({ moving .outbound with fifo := [1#32], handed := 5 } : Mover).burstNow = none ∧
      ({ m with permit := 0 } : Mover).burstNow = none ∧ m.burstNow ≠ none ∧
      ((s { m with permit := 0 }).moverHandsFetch.map (·.signals)) = some [.fetchDone .descriptor [1#32, 2#32]] ∧
      ((s m).moverHandsFetch.map (·.mover.fifo)) = some [] ∧ (s { m with fifo := [] }).moverHandsFetch = none := by
  decide +kernel
theorem met_apply_takes_effect :
    let s (warn : Bool) : State := { inMode .awaitConfig with
      modes := { (inMode .awaitConfig).modes with warning := warn }, patrol := { Patrol.reset with timer := some 3 } }
    let c : Applied := { conf with reportAddress := 0x8000#32 }
    ((s false).configure c).patrol.due = [.header 0x8000#32] ∧ ((s false).configure c).modes.mode = .run ∧
      ((s true).configure c).modes.mode = .drain ∧ ((s true).configure c).window.flag .powerWarn = true ∧
      ((s true).configure c).patrol.timer = none ∧ ((s true).configure c).sheets.stop = .drain := by decide +kernel
theorem met_drain_under_store_fault :
    let d : Drain := { drain0 with patrolEnded := true, lanesQuiet := true }
    let s (commit : Option CommitRun) : State := { inMode .drain with
      modes := { (inMode .drain).modes with drain := some d },
      table := { Table.reset with storeFault := true, marker := false, commit := commit } }
    ((s none).drainOn.map (fun t => (t.signals, t.modes.drain.map (·.commitDone)))) =
        some ([.commitRequest .mode true false], some true) ∧
      (s (some { clean := false, records := [] })).drainOn = none := by decide +kernel
theorem met_shown_tags :
    let seen : ArrayRead := { cleanRead with tag := .shows 3 5 2 .q }
    (tagMatches .erased cleanRead .l5 pid = false ∧ tagMatches .indeterminate seen .l5 pid = true ∧
      tagMatches (.programmed (tagFor .l5 pid) []) seen .l5 pid = false) := by decide

/-! ## Cases of the wiring, of the waits, of cut operations and of the closing list -/

theorem met_wiring :
    let e : EndReport := { op := { kind := .erase, band := 3, row := 0, outcome := .pass }, outcome := none }
    let scanning : State := { State.reset with modes := { State.reset.modes with
      scan := some { openPhase := false, band := 3, row := 0, stage := .notice, changed := false } } }
    running.signals = [] ∧ scanning.modes.scan ≠ none ∧ running.modes.scan = none ∧ (writing []).modes.scan = none ∧
      (writing []).writer.order ≠ none ∧ running.writer.order = none ∧ reading.reader.order ≠ none ∧
      (copying none).reader.isCopy = true ∧ reading.reader.isCopy = false ∧ e.op.kind = .erase ∧
      ([OpKind.program, .move, .erase, .read].map (fun k => decide (k = .erase))) = [false, false, true, false] := by
  decide +kernel
theorem met_reactions :
    (let t : Table := { Table.reset with marker := false, heldPermits := [.writer] }
     ({ running with table := t } : State).gateReleases ≠ none) ∧
    running.gateReleases = none ∧ running.advance = none ∧
    (let s : State := { running with sheets := { Sheets.reset with active := some { sheet with halted := true } } }
     s.signals = [] ∧ s.gateReleases = none ∧ s.placeRequests = none ∧ s.sheetSkip ≠ none ∧
       (s.advance.map (·.sheets)) = (s.sheetSkip.map (·.sheets))) := by decide +kernel
theorem met_power_on_held :
    ({ State.reset with resetHeld := true } : State).resetHeld = true ∧
      (after (.powerOn true false false noCut) { State.reset with resetHeld := true }).live = false := by decide +kernel
theorem met_cut_leaves_other_pages :
    let s : State := withLane .l0 { LaneCtl.reset with activity := .program { pid with row := 63 } [] }
    (s.lane .l0).activity = .program { pid with row := 63 } [] ∧ pid.band < 1024 ∧ (63 < 64) ∧
      (∀ l ∈ Lane.all, l ≠ .l0 → (s.lane l).activity = .idle) ∧
      ((after (.softReset noCut) s).page .l0 3 63, (after (.softReset noCut) s).page .l0 3 62) =
        (.indeterminate, .erased) := by decide +kernel
theorem met_waits :
    let read (a : Activity) (r : LaneReq) : LaneCtl := { asks r with activity := a }
    let page (k : CacheCond) (r : LaneReq) : LaneCtl := { asks r with cache := some (cached k none) }
    (read (.reading pid) .cacheCommit).state = .cacheBusy ∧
      (read (.awaiting pid [] good0) .cacheCommit).activity = .awaiting pid [] good0 ∧
      (asks .cacheCommit).cache = none ∧ (page .held .cacheCommit).cache = some (cached .held none) ∧
      (page .loaded .cacheUnload).state = .idle ∧
      ([CacheCond.loaded, .armed, .held].map (fun k =>
        ((after (.pageRead .l0) (withLane .l0 (page k (.pageRead pid)))).lane .l0).activity)) = [.idle, .idle, .idle] ∧
      ((withLane .l0 (page .held .cacheCommit)).settle.lane .l0).port = some (.owner, .cacheCommit) := by decide +kernel
theorem met_last_word_of_a_page :
    let last (i : Nat) (ls : List Lane) : State := { running with
      mover := { moving .inbound with fifo := [0x11223344#32] },
      coder := { Coder.reset with write := some { asm with
        index := i, loadSet := ls, received := List.replicate 2044 0#8, p := zeroPage, q := zeroPage } } }
    let t (i : Nat) (ls : List Lane) : State := (last i ls).takeStagingWord
    laneAt 2 ∉ [Lane.l0, .l1] ∧ ((t 2 [.l0, .l1]).coder.write.map (fun a => (a.index, a.handing.isSome))) = some (3, false) ∧
      ((t 3 []).coder.write = none ∧ (t 3 []).signals = [.rowLoaded []]) ∧
      ((t 3 [.l4, .l5]).coder.write.bind (·.handing.map (·.lane))) = some .l4 ∧
      ((t 3 [.l5]).coder.write.bind (·.handing.map (·.lane))) = some .l5 ∧
      ((t 3 [.l3]).coder.write.bind (·.handing.map (·.lane))) = some .l3 := by decide +kernel
theorem met_no_commit_starts :
    let s (t : Table) : State := { running with table := t }
    (s { Table.reset with commit := some { clean := false, records := [] }, plainReq := true }).table.commit ≠ none ∧
      (after .commitStart (s { Table.reset with storeFault := true, plainReq := true })).table.commit = none ∧
      (running.table.plainReq = false ∧ running.table.cleanReq = false) ∧ after .commitStart running = running := by
  decide +kernel
/-- The sheet of the closing list in hand, no sheet active, with an access in progress at the port. -/
def closing (a : SheetAccess) : State :=
  { running with
    port := some .sheet, sheetLine := [.sheets],
    sheets := { Sheets.reset with
      stop := .abort, closing := [(0x1000#32, .aborted)], closer := some { sheet with ending := .aborted }, access := some a } }
theorem met_closing_list :
    (closing (.header [])).live = true ∧ (closing (.header [])).sheets.active = none ∧
      (closing (.header [])).sheets.closer = some { sheet with ending := .aborted } ∧
      (closing (.header [])).sheetLine.head? = some .sheets ∧
      ((closing (.header [])).endBeat.endHeaderRead fine).sheets.access = some (.header [0#32]) ∧
      ((closing (.header [0x202#32])).endBeat.endHeaderRead fine).sheets.closer.map (·.header) = some .accepted ∧
      ((closing (.header [])).endBeat.endHeaderRead failed).sheets.closing = [] ∧
      (let r := closing (.result (plainResult .skipped) 1)
       (r.sheets.access = some (.result (plainResult .skipped) 1) ∧ Memory.wf r.mem = true) ∧
         (r.endBeat.endResultWrite fine).sheets.closer.map (fun q => (q.index, q.skipped, q.failed)) = some (1, 1, 0) ∧
         (r.endBeat.endResultWrite failed).sheets.closer = none) := by decide +kernel
theorem met_report_write_fails :
    let s (b : Bool) : State := { running with
      window := if b then Window.reset.set .busError else Window.reset,
      port := some .report, patrol := { Patrol.reset with write := some (.headerOnly 0x4000#32) } }
    ((s false).patrol.burst (s false).burstLength (.headerOnly 0x4000#32))[0]? ≠ none ∧ failed.error = some 0 ∧
      (after (.reportWriteEnd failed) (s false)).window.errorAddress = errorWord 0x4000 true ∧
      (after (.reportWriteEnd failed) (s true)).window.errorAddress = 0#32 ∧ Memory.wf (s true).mem = true := by
  decide +kernel
theorem met_discards :
    let s (a : WriteAsm) : State := { writing [flight 5 .assembling, flight 4 .loaded] with
      coder := { Coder.reset with write := some a } }
    let b : RowBegin := { band := 4, row := 5, level := 2, purpose := .deliver, lanes := [.l0] }
    let waits : State := { writing [flight 5 .assembling] with coder := { Coder.reset with beginWrite := some b } }
    let given (t : State) := Lane.all.map (fun k => (t.lane k).waiting.length)
    let asm5 : WriteAsm := { asm with loaded := [.l1] }
    (s asm5).writer.flights.length ≤ 2 ∧ ((s asm5).writer.flights.map (·.row)).Nodup ∧
      given ((s asm5).writerNotice .opened false) = [1, 1, 0, 0, 0, 0] ∧
      given ((s asm5).writerMoverEnding .fragment) = [0, 1, 0, 0, 0, 0] ∧
      ((s asm5).writerMoverEnding .fragment).coder.write = none ∧
      (waits.writerMoverEnding .fragment).coder.beginWrite = none ∧
      ((writing [flight 4 .committed]).writerMoverEnding .fragment).coder.write = none := by decide +kernel

/-! ## Cases of the OPEN notice, of failures in a copy, of late pages and of other register writes -/

theorem met_open_fault :
    let c : CopyRow := { moved with phase := .prepare, moves := [], given := true, fetching := true }
    let s : State := { copyRow c with reader := { (copyRow c).reader with openWait := true } }
    let t := s.readerNotice .opened false
    s.reader.copyRow = some c ∧ t.copyPermit = none ∧ t.reader.ending = none ∧ t.reader.openWait = false ∧
      (t.takeEnding .busError).reader.ending = some .busError ∧
      (let d : CopyRow := { c with fetching := false, judged := true, openFault := true }
       ((copyRow d).copyPermit.map (fun u => (u.reader.ending, u.reader.copyRow.map (·.closed)))) =
         some (some .storeFault, some true)) ∧
      ((copying none).readerNotice .opened false).reader.ending = some .storeFault := by decide +kernel
theorem met_copy_program_fails :
    let h : Handing := { lane := .l1, data := [1#8], behind := false }
    let q (hand : Option Handing) (left : List (Lane × List Byte)) : ReadAsm :=
      { zeroRow [] with handing := hand, toHand := left, loaded := [.l0] }
    let s (a : ReadAsm) : State := { copyRow { moved with moves := [], awaited := [.l1] } with
      coder := { Coder.reset with read := some a } }
    let t (a : ReadAsm) := (s a).copyProgramReport .l1 { kind := .program, band := 4, row := 0, outcome := .fail }
    let next (a : ReadAsm) := (t a).coder.read.map (fun r => (r.handing.map (·.lane), r.toHand.map (·.1)))
    (q none []).purpose = .copy ∧ ((t (q none [])).coder = (s (q none [])).coder ∧ (t (q none [])).signals.length = 1) ∧
      next (q (some { h with lane := .l2 }) [(.l1, []), (.l4, [])]) = some (some .l2, [.l4]) ∧
      next (q (some h) [(.l4, []), (.l5, [])]) = some (some .l4, [.l5]) ∧
      ((t (q (some h) [])).coder.read = none ∧ (t (q (some h) [])).signals.getLast? = some (.rowLoaded [.l0])) ∧
      (t (q none [])).reader.lanesFailed = [.l1] ∧
      (let u : State := { s (q none []) with reader := { (s (q none [])).reader with failing := some 0 } }
       (u.copyProgramReport .l1 { kind := .program, band := 4, row := 0, outcome := .fail }).signals = []) := by
  decide +kernel
theorem met_late_page :
    let s (c : LaneCtl) : State := { (writing [flight 5 .assembling]).setLane .l0 c with
      writer := { (writing [flight 5 .assembling]).writer with lanesFailed := [.l0] } }
    let given (c : LaneCtl) (ls : List Lane) := (((s c).writerLoaded ls).lane .l0).waiting
    given { LaneCtl.reset with cache := some (cached .loaded none) } [.l0] = [.cacheDiscard] ∧
      given { LaneCtl.reset with port := some (.coder, .cacheLoad pid []) } [.l0] = [.cacheDiscard] ∧
      given LaneCtl.reset [.l0] = [] ∧ given { LaneCtl.reset with cache := some (cached .loaded none) } [.l1] = [] := by
  decide +kernel
theorem met_other_register_writes :
    let s : State := { running with window := { Window.reset with events := 3#32 } }
    (after (.registerWrite 0x10 4 1#32 noCut) s).window.events = 2#32 ∧
      (after (.registerWrite 0x14 4 0xFFFFFFFF#32 noCut) s).window.enable = 0x1FFF#32 ∧
      (0x80000003#32).getLsbD 31 = true ∧
      (after (.registerWrite 0x0C 4 0x80000003#32 noCut) s).modes.mode = .cold := by decide +kernel

/-! ## Cases of a patched row judged before its bytes, of burst starts and of a failed completion write -/

theorem met_judged_before_patch :
    let plan : Six PlanClass := (Six.build (fun _ => PlanClass.feed)).set .l3 .build
    let c : CopyRow := { moved with phase := .prepare, moves := [], plan := plan, given := true, fetching := true }
    let s (r : ReadAsm) : State := { copyRow c with
      reader := { (copyRow c).reader with patch := some patch0 }, coder := { Coder.reset with read := some r } }
    let rep (r : ReadAsm) (v : Verdict) := r.report v
    let told := (s (zeroRow [])).copyJudged (rep (zeroRow []) .recoverable)
    (s (zeroRow [])).coderJudges = some (s (zeroRow [])).judge ∧ (s (zeroRow [])).judge.coder.verdict ≠ none ∧
      told.coder.read = (s (zeroRow [])).coder.read ∧ told.reader.copyRow = some { c with judged := true } ∧
      (told.patchBytes [1#32]).coder.read.bind (·.handing.map (fun h => (h.lane, h.data[2047]?))) =
        some (.l3, some 1#8) ∧
      ((s (zeroRow [])).patchBytes [1#32]).coder.read.bind (·.handing) = none ∧
      (let u := (s (zeroRow [.l0, .l1, .l2])).copyJudged (rep (zeroRow [.l0, .l1, .l2]) .unrecoverable)
       (u.takeEnding .busError).reader.ending = some .dataLoss) := by decide +kernel
theorem met_bursts_move_the_cursor :
    let s (d : Direction) (left : Nat) : State := { running with
      port := some .mover, mover := { moving d with
        fifo := if d = .outbound then List.replicate 4 7#32 else [],
        cursor := some { descriptor := 0x100, fragment := 0x1000, left := left, next := 0, walked := 1 } } }
    let t (d : Direction) (left : Nat) := (s d left).burstStarts.mover
    ((t .outbound 64).cursor.map (fun c => (c.fragment, c.left)), (t .outbound 64).chain) =
        (some (0x1010, 48), .inFragment) ∧
      (t .outbound 16).chain = .exhausted ∧ (t .inbound 16).chain = .exhausted ∧ (t .inbound 64).chain = .inFragment := by
  decide +kernel
theorem met_completion_write_fails :
    (accessing (.completion 1#32)).sheets.active = some sheet ∧ failed.error = some 0 ∧ failed.landed.head? ≠ some true ∧
      (let took : BusReply := { failed with landed := [true] }
       (Memory.readWord (after (.completionWriteEnd failed) (accessing (.completion 1#32))).mem 0x1004,
         Memory.readWord (after (.completionWriteEnd took) (accessing (.completion 1#32))).mem 0x1004) =
           (0#32, 1#32)) := by decide +kernel

/-! ## Cases of the plain request an update raises, of an order's end, of the scan's mark and of a commit awaited -/

theorem met_updates_raise_the_request :
    let s : State := { running with table := { Table.reset with marker := false, working := [(3, openBand 2)], dirty := [3] } }
    let t (u : Update) := (s.giveUpdate .writer u false).table
    ((t (.sealBand 3)).plainReq, (t (.sealBand 3)).dirty) = (true, [3]) ∧
      ((t (.rowComplete 3 2)).plainReq, (t (.setAttention 3)).plainReq, (t (.setAttention 3)).dirty) = (false, false, [3]) ∧
      ((t (.setAttention 9)).plainReq, (t (.setAttention 9)).dirty) = (false, [3, 9]) ∧
      (t (.clearAttention 9)).dirty = [3] ∧ (t (.clearAttention 9)).plainReq = false ∧
      applyUpdate (s.band 9) (.clearAttention 9) = some (s.band 9) := by decide +kernel
theorem met_order_ends :
    let h : Sheets := { Sheets.reset with order := some { kind := .sealBand, index := 0 }, questionHeld := true }
    let t (a : Option SheetRun) := (State.takeOrderEnd { running with sheets := { h with active := a } } (plainResult .ok)).sheets
    (t (some sheet)).active = some sheet ∧ (t none).active = none ∧
      ∀ a ∈ [some sheet, none], (t a).order = none ∧ (t a).questionHeld = false ∧
        (t a).access = some (.result (plainResult .ok) 0) := by decide +kernel
theorem met_scan_marks_a_change :
    let c : Scan := { openPhase := true, band := 3, row := 2, stage := .discarding, changed := false }
    let s : State := { running with modes := { running.modes with scan := some c } }
    (s.scanAnswer (.rowFound 3 2) true).scanChanged = true ∧ (s.scanAnswer (.rowTorn 3 2) true).scanChanged = true ∧
      (s.scanAnswer (.rowFound 3 2) false).scanChanged = false ∧
      (s.scanAnswer (.eraseEnd 3 true) true).scanChanged = false := by decide +kernel
theorem met_awaited_commit_ends :
    let s : State := { inMode .standby with modes := { (inMode .standby).modes with
      commitAwaited := true, drain := none, wake := true, powerGiven := false } }
    let d : Drain := { closed := false, patrolEnded := true, lanesQuiet := false, commitDone := false, lanesOff := false }
    let q : State := { inMode .drain with modes := { (inMode .drain).modes with commitAwaited := true, drain := some d } }
    s.wakeOn = none ∧ s.modeNotice.modes.commitAwaited = false ∧
      s.modeNotice.wakeOn.map (fun t => (t.modes.powerGiven, (t.lane .l5).waiting)) = some (true, [.powerUp]) ∧
      s.modeNotice.modeNotice = s.modeNotice ∧ q.modeNotice.modes.drain = some d ∧
      q.modeNotice.modes.commitAwaited = false := by decide +kernel

end Sys2Proof.Tests
end

