-- ==== Sys2Proof/Proofs/Lanes.lean ====
section
/-! The lanes' commands: what each request and each end changes, what it leaves alone, and the statements about them. -/

namespace Sys2Proof.Machine

open Sys2Proof

/-! ## What a command of one lane leaves alone -/

/-- A lane's own effect: the other lanes keep their registers and operations, and array, host memory, store, locks and
fuses, window, lines, queue and configuration stay. -/
structure State.LaneFrame (l : Lane) (s t : State) : Prop where
  others : State.othersKept l s t
  array : State.arrayKept s t
  memory : State.memoryKept s t
  store : State.storeKept s t
  protect : State.protectKept s t
  window : State.windowKept s t
  outside : State.outsideKept s t
  posts : State.postsKept s t

/-- A state whose kept units are the same, and whose other lanes are the same, lies in the frame. -/
theorem State.LaneFrame.of_eq {l : Lane} {s t : State} (hl : ∀ k, k ≠ l → t.lane k = s.lane k)
    (ha : t.array = s.array) (hm : t.mem = s.mem) (ht : t.table = s.table) (hp : t.protect = s.protect)
    (hw : t.window = s.window)
    (ho : State.outsideKept s t) (hq : State.postsKept s t) : State.LaneFrame l s t where
  others k hk := by rw [hl k hk]; exact ⟨rfl, rfl, rfl, rfl⟩
  array _ _ _ := by simp only [State.page, ha]
  memory _ := by rw [hm]
  store := by rw [State.storeKept, ht]; exact ⟨fun _ => rfl, rfl, rfl, rfl, rfl, rfl⟩
  protect := by rw [State.protectKept, hp]; exact ⟨rfl, rfl, rfl, rfl, rfl, rfl, rfl⟩
  window := by rw [State.windowKept, hw]; exact ⟨fun _ h => h, rfl, rfl, rfl, rfl, rfl⟩
  outside := ho
  posts := hq

theorem State.LaneFrame.refl (l : Lane) (s : State) : State.LaneFrame l s s :=
  .of_eq (fun _ _ => rfl) rfl rfl rfl rfl rfl ⟨rfl, rfl, rfl, rfl, rfl⟩ ⟨rfl, rfl, rfl⟩

/-- Two registers that carry the same work in turn carry the same work. -/
theorem LaneCtl.sameWork.trans {a b c : LaneCtl} (h : a.sameWork b) (k : b.sameWork c) : a.sameWork c := by
  obtain ⟨h1, h2, h3, h4⟩ := h
  obtain ⟨k1, k2, k3, k4⟩ := k
  exact ⟨h1.trans k1, h2.trans k2, h3.trans k3, h4.trans k4⟩

/-- What comes about in the same step stays in the frame. -/
theorem State.LaneFrame.settle {l : Lane} {s t : State} (h : State.LaneFrame l s t) :
    State.LaneFrame l s t.settle where
  others k hk := (h.others k hk).trans (t.settle_kept.1 k)
  array := h.array
  memory := h.memory
  store := h.store
  protect := h.protect
  window := ⟨fun i hi => t.settle_events i (h.window.1 i hi), h.window.2⟩
  outside := h.outside
  posts := h.posts

/-- One lane controller replaced. -/
theorem State.LaneFrame.setLane (l : Lane) (s : State) (c : LaneCtl) : State.LaneFrame l s (s.setLane l c) :=
  .of_eq (fun _ hk => s.lane_setLane_other c hk) rfl rfl rfl rfl rfl ⟨rfl, rfl, rfl, rfl, rfl⟩ ⟨rfl, rfl, rfl⟩

/-- The result record written and the end report sent (R7). -/
theorem State.LaneFrame.finish (l : Lane) (s : State) (c : LaneCtl) (op : LastOp) (o : Option PageOutcome) :
    State.LaneFrame l s (s.finish l c op o) :=
  .of_eq (fun _ hk => s.lane_setLane_other _ hk) rfl rfl rfl rfl rfl ⟨rfl, rfl, rfl, rfl, rfl⟩ ⟨rfl, rfl, rfl⟩

/-! ## The coder's and the band services' part of a lane command -/

/-- A page that arrives changes the coder's read assembly alone (R53). -/
theorem State.arrivePage_eq (s : State) (l : Lane) (id : PageId) (data : List Byte) (o : PageOutcome) :
    ∃ c : Coder, s.arrivePage l id data o = { s with coder := c } := by
  unfold State.arrivePage
  split
  · split
    · exact ⟨_, rfl⟩
    · exact ⟨s.coder, rfl⟩
  · exact ⟨s.coder, rfl⟩

/-- The re-check of R133 changes the band services and gives messages. -/
theorem State.eraseBegin_eq (s : State) :
    ∃ v ms, s.eraseBegin = { s with services := v, signals := ms } := by
  unfold State.eraseBegin
  dsimp only
  split_ifs <;> exact ⟨_, _, rfl⟩

/-- A query's answer changes the band services and gives messages (R133). -/
theorem State.eraseQuery_eq (s : State) (l : Lane) :
    ∃ v ms, s.eraseQuery l = { s with services := v, signals := ms } := by
  unfold State.eraseQuery
  dsimp only
  split
  · split
    · obtain ⟨v, ms, h⟩ := State.eraseBegin_eq
        { s with services := { s.services with lanesAwaited := dropLane s.services.lanesAwaited l } }
      exact ⟨v, ms, h⟩
    · exact ⟨_, s.signals, rfl⟩
  · exact ⟨s.services, s.signals, rfl⟩

/-- An answer to RESULT QUERY changes the answer register, the band services and the messages alone. -/
theorem State.query_eq (s : State) (l : Lane) :
    ∃ v ms, s.query l = { s with queryAnswer := some ((s.lane l).answer l), services := v, signals := ms } :=
  State.eraseQuery_eq _ l

/-! ## The frame of each effect -/

theorem State.LaneFrame.takeUnload (s : State) (l : Lane) : State.LaneFrame l s (s.takeUnload l) := by
  unfold State.takeUnload
  dsimp only
  split
  · split
    · next page _ _ _ =>
        obtain ⟨c, hc⟩ := State.arrivePage_eq (s.setLane l (s.lane l).taken.freeCache) l page.id page.data
          (page.outcome.getD { cls := .good, highest := 0 })
        rw [hc]
        exact .of_eq (fun _ hk => s.lane_setLane_other _ hk) rfl rfl rfl rfl rfl ⟨rfl, rfl, rfl, rfl, rfl⟩ ⟨rfl, rfl, rfl⟩
    · exact .refl l s
  · exact .refl l s

theorem State.LaneFrame.takeMove (s : State) (l : Lane) : State.LaneFrame l s (s.takeMove l) := by
  unfold State.takeMove
  dsimp only
  split
  · split_ifs
    · exact .finish ..
    · exact .setLane ..
    · exact .refl l s
  · exact .refl l s

theorem State.LaneFrame.endRead (s : State) (l : Lane) (seen : ArrayRead) : State.LaneFrame l s (s.endRead l seen) := by
  unfold State.endRead
  dsimp only
  split
  · exact .finish ..
  · exact .refl l s

theorem State.LaneFrame.query (s : State) (l : Lane) : State.LaneFrame l s (s.query l) := by
  obtain ⟨v, ms, h⟩ := s.query_eq l
  rw [h]
  exact .of_eq (fun _ _ => rfl) rfl rfl rfl rfl rfl ⟨rfl, rfl, rfl, rfl, rfl⟩ ⟨rfl, rfl, rfl⟩

/-- A command taken by a live part lies in the frame when its own effect does. -/
theorem State.LaneFrame.of_takes {l : Lane} {s t : State} {f : State → State} (hs : s.live = true)
    (h : s.takes f = .next t) (hf : State.LaneFrame l s (f s)) : State.LaneFrame l s t := by
  rw [s.takes_live f hs] at h
  obtain rfl : (f s).settle = t := by simpa using h
  exact hf.settle

/-- Settles O17: each command is its own effect on one lane, which lies in the frame, and what comes about in the step. -/
theorem laneCommandFrame : Obligations.LaneCommandFrame := by
  intro c l s t hc hs ht
  suffices h : State.LaneFrame l s t from
    ⟨h.others, h.array, h.memory, h.store, h.protect, h.window, h.outside, h.posts⟩
  simp only [List.mem_cons, List.not_mem_nil, or_false] at hc
  rcases hc with ⟨seen, rfl⟩ | rfl | rfl | rfl | rfl | rfl | rfl | rfl | rfl | rfl | rfl | rfl | rfl
  · exact .of_takes hs ht (.endRead s l seen)
  · exact .of_takes hs ht (.setLane l s _)
  · exact .of_takes hs ht (.setLane l s _)
  · exact .of_takes hs ht (.setLane l s _)
  · exact .of_takes hs ht (.takeUnload s l)
  · exact .of_takes hs ht (.setLane l s _)
  · exact .of_takes hs ht (.takeMove s l)
  · exact .of_takes hs ht (.setLane l s _)
  · exact .of_takes hs ht (.setLane l s _)
  · exact .of_takes hs ht (.setLane l s _)
  · exact .of_takes hs ht (.query s l)
  · exact .of_takes hs ht (.setLane l s _)
  · exact .of_takes hs ht (.setLane l s _)

/-! ## Requests taken, and requests that wait -/

/-- A lane controller put back as it is. -/
@[simp] theorem State.setLane_self (s : State) (l : Lane) : s.setLane l (s.lane l) = s := by
  cases l <;> rfl

/-- A request that changes its lane alone, taken by a live part. -/
theorem State.takes_laneStep {s : State} {l : Lane} {f : LaneCtl → LaneCtl} {c : LaneCtl} (hs : s.live = true)
    (hf : f (s.lane l) = c) : s.takes (fun s => s.laneStep l f) = .next (s.setLane l c).settle := by
  rw [s.takes_live _ hs, State.laneStep, hf]

/-- A request that the lane does not take leaves the lane to what comes about in the step. -/
theorem State.takes_laneStep_waits {s : State} {l : Lane} {f : LaneCtl → LaneCtl} (hs : s.live = true)
    (hf : f (s.lane l) = s.lane l) : s.takes (fun s => s.laneStep l f) = .next s.settle := by
  rw [State.takes_laneStep hs hf, State.setLane_self]

namespace LaneCtl

theorem programming_iff (c : LaneCtl) : c.programming = true ↔ ∃ i d, c.activity = .program i d := by
  unfold LaneCtl.programming
  cases c.activity <;> simp

theorem state_idle_iff (c : LaneCtl) : c.state = .idle ↔ c.activity = .idle := by
  unfold LaneCtl.state
  cases c.activity <;> simp

theorem cacheOpen_iff (c : LaneCtl) : c.cacheOpen = true ↔ c.state = .idle ∨ c.state = .cacheBusy := by
  simp [LaneCtl.cacheOpen]

/-- CACHE LOAD and CACHE COMMIT are taken in LANE_IDLE and behind a running program alone (R8, R9). -/
def takesPages (c : LaneCtl) : Prop := c.state = .idle ∨ ∃ i d, c.activity = .program i d

theorem takesPages_iff (c : LaneCtl) : c.takesPages ↔ c.state = .idle ∨ c.programming = true := by
  rw [takesPages, programming_iff]

/-- In LANE_OFF and LANE_ARRAY_BUSY no cache request is taken (R5). -/
theorem not_takesPages_of_state {c : LaneCtl} (h : c.state = .off ∨ c.state = .arrayBusy) : ¬c.takesPages := by
  unfold LaneCtl.state at h
  rw [takesPages, state_idle_iff]
  cases ha : c.activity <;> simp_all

/-- Behind a read that runs, or that awaits its transfer, no page is loaded or committed (R8, R9). -/
theorem not_takesPages_of_read {c : LaneCtl}
    (h : (∃ i, c.activity = .reading i) ∨ ∃ i d o, c.activity = .awaiting i d o) : ¬c.takesPages := by
  rw [takesPages, state_idle_iff]
  rcases h with ⟨i, h⟩ | ⟨i, d, o, h⟩ <;> simp [h]

theorem not_cacheOpen_of_state {c : LaneCtl} (h : c.state = .off ∨ c.state = .arrayBusy) : c.cacheOpen = false := by
  rcases h with h | h <;> simp [LaneCtl.cacheOpen, h]

/-! ### CACHE LOAD (R8) -/

theorem takeLoad_taken {c : LaneCtl} {g : PortGiver} {id : PageId} {data : List Byte}
    (hp : c.port = some (g, .cacheLoad id data)) (hc : c.cache = none) (h : c.takesPages) :
    c.takeLoad = { c with port := none, cache := some { data := data, id := id, cond := .loaded, outcome := none } } := by
  rw [takesPages_iff] at h
  simp [LaneCtl.takeLoad, LaneCtl.request, LaneCtl.taken, hp, hc, h]

theorem takeLoad_waits {c : LaneCtl} (h : c.cache ≠ none ∨ ¬c.takesPages) : c.takeLoad = c := by
  rw [takesPages_iff] at h
  unfold LaneCtl.takeLoad
  split
  · rw [if_neg]
    simpa [Option.isNone_iff_eq_none, imp_iff_not_or] using h
  · rfl

/-! ### CACHE COMMIT (R9) -/

theorem takeCommit_held {c : LaneCtl} {g : PortGiver} {page : CachePage} (hp : c.port = some (g, .cacheCommit))
    (hc : c.cache = some page) (hl : page.cond = .loaded) (hf : c.prevFailed = true) (h : c.takesPages) :
    c.takeCommit = { c with port := none, cache := some { page with cond := .held } } := by
  rw [takesPages_iff] at h
  simp [LaneCtl.takeCommit, LaneCtl.request, LaneCtl.taken, hp, hc, hl, hf, h]

theorem takeCommit_started {c : LaneCtl} {g : PortGiver} {page : CachePage} (hp : c.port = some (g, .cacheCommit))
    (hc : c.cache = some page) (hl : page.cond = .loaded) (hf : c.prevFailed = false) (h : c.state = .idle) :
    c.takeCommit = { c with port := none, cache := none, activity := .program page.id page.data } := by
  simp [LaneCtl.takeCommit, LaneCtl.request, LaneCtl.taken, hp, hc, hl, hf, h]

theorem takeCommit_armed {c : LaneCtl} {g : PortGiver} {page : CachePage} (hp : c.port = some (g, .cacheCommit))
    (hc : c.cache = some page) (hl : page.cond = .loaded) (hf : c.prevFailed = false)
    (h : ∃ i d, c.activity = .program i d) :
    c.takeCommit = { c with port := none, cache := some { page with cond := .armed } } := by
  have hrun := (programming_iff c).2 h
  have hbusy : c.state ≠ .idle := by
    obtain ⟨i, d, h⟩ := h
    simp [state_idle_iff, h]
  simp [LaneCtl.takeCommit, LaneCtl.request, LaneCtl.taken, hp, hc, hl, hf, hrun, hbusy]

theorem takeCommit_waits {c : LaneCtl} (h : (∀ p, c.cache = some p → p.cond ≠ .loaded) ∨ ¬c.takesPages) :
    c.takeCommit = c := by
  rw [takesPages_iff] at h
  unfold LaneCtl.takeCommit
  split
  · next page _ hc =>
      rw [if_neg]
      rintro ⟨hl, hrun⟩
      exact h.elim (fun h => h page hc hl) (fun h => h hrun)
  · rfl

/-! ### CACHE DISCARD and CACHE UNLOAD (R11, R13) -/

/-- The cache register emptied while a read page waits for it: the transfer begins (R12, R13). -/
theorem freeCache_awaiting {c : LaneCtl} {id : PageId} {data : List Byte} {o : PageOutcome}
    (h : c.activity = .awaiting id data o) :
    c.freeCache = { c with cache := none, activity := .transfer id data o } := by
  simp [LaneCtl.freeCache, h]

/-- The cache register emptied, with no page waiting for it. -/
theorem freeCache_else {c : LaneCtl} (h : ∀ id data o, c.activity ≠ .awaiting id data o) :
    c.freeCache = { c with cache := none } := by
  unfold LaneCtl.freeCache
  cases ha : c.activity with
  | awaiting id data o => exact absurd ha (h id data o)
  | idle | program | reading | transfer | move | erase | poweringUp | off => rfl

@[simp] theorem freeCache_cache (c : LaneCtl) : c.freeCache.cache = none := by
  unfold LaneCtl.freeCache
  cases c.activity <;> rfl

@[simp] theorem freeCache_port (c : LaneCtl) : c.freeCache.port = c.port := by
  unfold LaneCtl.freeCache
  cases c.activity <;> rfl

theorem takeDiscard_taken {c : LaneCtl} {g : PortGiver} (hp : c.port = some (g, .cacheDiscard))
    (h : c.cacheOpen = true) : c.takeDiscard = { c.taken.freeCache with prevFailed := false } := by
  simp [LaneCtl.takeDiscard, LaneCtl.request, hp, h]

theorem takeDiscard_waits {c : LaneCtl} (h : c.cacheOpen = false) : c.takeDiscard = c := by
  unfold LaneCtl.takeDiscard
  split
  · simp [h]
  · rfl

/-! ### PAGE READ (R12) -/

theorem cacheIs_iff (c : LaneCtl) (k : CacheCond) : c.cacheIs k = true ↔ ∃ p, c.cache = some p ∧ p.cond = k := by
  cases h : c.cache <;> simp [LaneCtl.cacheIs, h]

theorem takeRead_taken {c : LaneCtl} {g : PortGiver} {id : PageId} (hp : c.port = some (g, .pageRead id))
    (hi : c.state = .idle) (hc : c.cache = none ∨ ∃ p, c.cache = some p ∧ p.cond = .read) :
    c.takeRead = { c with port := none, activity := .reading id } := by
  rw [← cacheIs_iff] at hc
  simp [LaneCtl.takeRead, LaneCtl.request, LaneCtl.taken, hp, hi, hc]

theorem takeRead_waits {c : LaneCtl} (h : c.state ≠ .idle ∨ ∃ p, c.cache = some p ∧ p.cond ≠ .read) :
    c.takeRead = c := by
  unfold LaneCtl.takeRead
  split
  · rw [if_neg]
    rintro ⟨hi, hc⟩
    rw [cacheIs_iff] at hc
    rcases h with h | ⟨p, hp, hr⟩
    · exact h hi
    · simp_all
  · rfl

/-! ### BLOCK ERASE, POWER DOWN and POWER UP (R15, R16, R17) -/

theorem takeErase_taken {c : LaneCtl} {g : PortGiver} {band : Nat} (hp : c.port = some (g, .blockErase band))
    (hi : c.state = .idle) :
    c.takeErase = { c with port := none, cache := none, prevFailed := false, activity := .erase band } := by
  simp [LaneCtl.takeErase, LaneCtl.request, LaneCtl.taken, hp, hi]

theorem takeErase_waits {c : LaneCtl} (h : c.state ≠ .idle) : c.takeErase = c := by
  unfold LaneCtl.takeErase
  split
  · exact if_neg h
  · rfl

theorem takePowerDown_taken {c : LaneCtl} {g : PortGiver} (hp : c.port = some (g, .powerDown)) (hi : c.state = .idle) :
    c.takePowerDown = { c with port := none, cache := none, lastOp := none, prevFailed := false, activity := .off } := by
  simp [LaneCtl.takePowerDown, LaneCtl.request, LaneCtl.taken, hp, hi]

theorem takePowerDown_waits {c : LaneCtl} (h : c.state ≠ .idle) : c.takePowerDown = c := by
  unfold LaneCtl.takePowerDown
  split
  · exact if_neg h
  · rfl

theorem takePowerUp_off {c : LaneCtl} {g : PortGiver} (hp : c.port = some (g, .powerUp)) (ho : c.state = .off) :
    c.takePowerUp = { c with port := none, activity := .poweringUp } := by
  simp [LaneCtl.takePowerUp, LaneCtl.request, LaneCtl.taken, hp, ho]

theorem takePowerUp_else {c : LaneCtl} {g : PortGiver} (hp : c.port = some (g, .powerUp)) (ho : c.state ≠ .off) :
    c.takePowerUp = { c with port := none } := by
  simp [LaneCtl.takePowerUp, LaneCtl.request, LaneCtl.taken, hp, ho]

end LaneCtl

/-! ### PAGE MOVE and CACHE UNLOAD, which reach beyond the lane (R13, R14) -/

theorem State.takeMove_started {s : State} {l : Lane} {g : PortGiver} {src : PageId} {band row : Nat}
    (hp : (s.lane l).port = some (g, .pageMove src band row)) (hi : (s.lane l).state = .idle)
    (hf : (s.lane l).prevFailed = false) :
    s.takeMove l = s.setLane l { s.lane l with port := none, activity := .move src band row } := by
  simp [State.takeMove, LaneCtl.request, LaneCtl.taken, hp, hi, hf]

/-- After a failed program the move ends at once with FAIL (R14). -/
theorem State.takeMove_failed {s : State} {l : Lane} {g : PortGiver} {src : PageId} {band row : Nat}
    (hp : (s.lane l).port = some (g, .pageMove src band row)) (hi : (s.lane l).state = .idle)
    (hf : (s.lane l).prevFailed = true) :
    s.takeMove l = s.finish l (s.lane l).taken { kind := .move, band := band, row := row, outcome := .fail } none := by
  simp [State.takeMove, LaneCtl.request, hp, hi, hf]

theorem State.takeMove_waits {s : State} {l : Lane} (h : (s.lane l).state ≠ .idle) : s.takeMove l = s := by
  unfold State.takeMove
  dsimp only
  split
  · exact if_neg h
  · rfl

theorem State.takeUnload_taken {s : State} {l : Lane} {g : PortGiver} {page : CachePage} {o : PageOutcome}
    (hp : (s.lane l).port = some (g, .cacheUnload)) (hc : (s.lane l).cache = some page) (hr : page.cond = .read)
    (ho : page.outcome = some o) (h : (s.lane l).state = .idle ∨ (s.lane l).state = .cacheBusy) :
    s.takeUnload l = (s.setLane l (s.lane l).taken.freeCache).arrivePage l page.id page.data o := by
  rw [← LaneCtl.cacheOpen_iff] at h
  simp [State.takeUnload, LaneCtl.request, hp, hc, hr, ho, h]

theorem State.takeUnload_waits {s : State} {l : Lane}
    (h : (∀ p, (s.lane l).cache = some p → p.cond ≠ .read) ∨ (s.lane l).cacheOpen = false) : s.takeUnload l = s := by
  unfold State.takeUnload
  dsimp only
  split
  · next page _ hc =>
      rw [if_neg]
      rintro ⟨hr, ho⟩
      rcases h with h | h
      · exact h page hc hr
      · exact Bool.false_ne_true (h.symm.trans ho)
  · rfl

/-- A page that arrives leaves the lanes as they are. -/
@[simp] theorem State.lane_arrivePage (s : State) (k l : Lane) (id : PageId) (data : List Byte) (o : PageOutcome) :
    (s.arrivePage k id data o).lane l = s.lane l := by
  obtain ⟨c, hc⟩ := s.arrivePage_eq k id data o
  rw [hc]
  rfl

/-- A page of the row in the read assembly takes its lane's slot (R53). -/
theorem State.arrivePage_taken {s : State} {l : Lane} {id : PageId} {r : ReadAsm} (data : List Byte) (o : PageOutcome)
    (hr : s.coder.read = some r) (hb : r.band = id.band) (hw : r.row = id.row) (hl : l ∈ r.expected) :
    s.arrivePage l id data o =
      { s with coder := { s.coder with read := some { r with slots := r.slots.set l (.held data o) } } } := by
  simp [State.arrivePage, hr, hb, hw, hl]

/-- With the read assembly empty the page goes nowhere. -/
theorem State.arrivePage_none {s : State} (l : Lane) (id : PageId) (data : List Byte) (o : PageOutcome)
    (hr : s.coder.read = none) : s.arrivePage l id data o = s := by
  simp [State.arrivePage, hr]

/-- Settles O18, request by request. -/
theorem cacheRequestsTaken : Obligations.CacheRequestsTaken := by
  refine ⟨?load, ?commit, ?discard, ?unload⟩
  case load =>
    intro s l g id data hs hp hc h
    exact State.takes_laneStep hs (LaneCtl.takeLoad_taken hp hc h)
  case commit =>
    intro s l g page hs hp hc hl
    refine ⟨fun hf h => ?_, fun hf h => ?_, fun hf h => ?_⟩
    · exact State.takes_laneStep hs (LaneCtl.takeCommit_held hp hc hl hf h)
    · exact State.takes_laneStep hs (LaneCtl.takeCommit_started hp hc hl hf h)
    · exact State.takes_laneStep hs (LaneCtl.takeCommit_armed hp hc hl hf h)
  case discard =>
    intro s l g hs hp
    refine ⟨fun h => State.takes_laneStep hs ?_, fun id data o h => State.takes_laneStep hs ?_⟩
    · have hopen : (s.lane l).cacheOpen = true := by
        rcases h with h | ⟨i, d, h⟩ | ⟨i, h⟩ <;> simp [LaneCtl.cacheOpen, LaneCtl.state, h]
      rw [LaneCtl.takeDiscard_taken hp hopen, LaneCtl.freeCache_else]
      · rfl
      · intro i d o ha
        replace ha : (s.lane l).activity = .awaiting i d o := ha
        simp [ha] at h
    · have hopen : (s.lane l).cacheOpen = true := by simp [LaneCtl.cacheOpen, LaneCtl.state, h]
      rw [LaneCtl.takeDiscard_taken hp hopen, LaneCtl.freeCache_awaiting (c := (s.lane l).taken) h]
      rfl
  case unload =>
    intro s l g page o hs hp hc hr ho h
    refine ⟨(s.setLane l (s.lane l).taken.freeCache).arrivePage l page.id page.data o, ?_, ?_, ?_, ?_, ?_, ?_, ?_⟩
    · rw [← State.takeUnload_taken hp hc hr ho h]
      exact s.takes_live _ hs
    · rw [State.lane_arrivePage, State.lane_setLane_same]
      exact LaneCtl.freeCache_cache _
    · rw [State.lane_arrivePage, State.lane_setLane_same, LaneCtl.freeCache_port]
      rfl
    · intro id data oo ha
      rw [State.lane_arrivePage, State.lane_setLane_same, LaneCtl.freeCache_awaiting (c := (s.lane l).taken) ha]
    · intro ha
      rw [State.lane_arrivePage, State.lane_setLane_same, LaneCtl.freeCache_else (c := (s.lane l).taken) ha]
      rfl
    · intro r hr hb hw hl
      rw [State.arrivePage_taken page.data o (s := s.setLane l _) hr hb hw hl]
      rfl
    · intro hr
      rw [State.arrivePage_none (s := s.setLane l _) _ _ _ _ hr]
      rfl

/-- Settles O19, request by request. -/
theorem arrayAndPowerRequestsTaken : Obligations.ArrayAndPowerRequestsTaken := by
  refine ⟨?read, ?move, ?eraseAndPower⟩
  case read =>
    intro s l g id hs hp hi hc
    exact State.takes_laneStep hs (LaneCtl.takeRead_taken hp hi hc)
  case move =>
    intro s l g src band row hs hp hi
    refine ⟨fun hf => ?_, fun hf => ?_⟩
    · rw [← State.takeMove_started hp hi hf]
      exact s.takes_live _ hs
    · refine (s.takes_live _ hs).trans ?_
      rw [State.takeMove_failed hp hi hf]
      rfl
  case eraseAndPower =>
    intro s l g hs
    refine ⟨fun band hp hi => ?_, fun hp hi => ?_, fun hp ho => ?_, fun hp ho => ?_⟩
    · exact State.takes_laneStep hs (LaneCtl.takeErase_taken hp hi)
    · exact State.takes_laneStep hs (LaneCtl.takePowerDown_taken hp hi)
    · exact State.takes_laneStep hs (LaneCtl.takePowerUp_off hp ho)
    · exact State.takes_laneStep hs (LaneCtl.takePowerUp_else hp ho)

/-! ## The port (R6) -/

/-- A page of the coder for the lane is being handed, and no earlier request of the owner waits before it (R6). -/
def State.pageFirst (s : State) (l : Lane) : Prop :=
  ∃ h : Handing, h.lane = l ∧ h.behind = false ∧
    ((∃ a, s.coder.write = some a ∧ a.handing = some h) ∨ ∃ r, s.coder.read = some r ∧ r.handing = some h)

theorem State.coderFirst_iff (s : State) (l : Lane) : s.coderFirst l = true ↔ s.pageFirst l := by
  have handed : ∀ o : Option Handing,
      o.elim false (fun h => h.lane == l && !h.behind) = true ↔ ∃ h, h.lane = l ∧ h.behind = false ∧ o = some h := by
    intro o
    cases o <;> simp
  have written : s.coder.write.elim false (fun a => a.handing.elim false (fun h => h.lane == l && !h.behind)) = true ↔
      ∃ h, h.lane = l ∧ h.behind = false ∧ ∃ a, s.coder.write = some a ∧ a.handing = some h := by
    cases s.coder.write <;> simp [handed]
  have copied : s.coder.read.elim false (fun r => r.handing.elim false (fun h => h.lane == l && !h.behind)) = true ↔
      ∃ h, h.lane = l ∧ h.behind = false ∧ ∃ r, s.coder.read = some r ∧ r.handing = some h := by
    cases s.coder.read <;> simp [handed]
  unfold State.coderFirst State.pageFirst
  dsimp only
  rw [Bool.or_eq_true, written, copied, ← exists_or]
  simp only [and_or_left]

/-- A request of the owner is due at the port of a lane: the port is empty, a request waits, and no page of the coder
comes before it (R6). -/
def State.placeDue (s : State) (l : Lane) : Prop :=
  (s.lane l).port = none ∧ (s.lane l).waiting ≠ [] ∧ ¬s.pageFirst l

theorem State.placeOne_due {s : State} {l : Lane} {q : LaneReq} {rest : List LaneReq} (h : s.placeDue l)
    (hw : (s.lane l).waiting = q :: rest) :
    s.placeOne l = some { (s.setLane l { s.lane l with port := some (.owner, q), waiting := rest }) with
      coder := s.coder.nowFirst l } := by
  obtain ⟨hp, -, hf⟩ := h
  rw [← State.coderFirst_iff] at hf
  simp [State.placeOne, hp, hw, hf]

theorem State.placeOne_not_due {s : State} {l : Lane} (h : ¬s.placeDue l) : s.placeOne l = none := by
  unfold State.placeOne
  dsimp only
  split
  · next q rest hp hw =>
      refine if_pos ((s.coderFirst_iff l).2 ?_)
      by_contra hf
      exact h ⟨hp, by simp [hw], hf⟩
  · rfl

/-- Before a lane stand the lanes of smaller number. -/
theorem Lane.all_split (l : Lane) :
    ∃ before after, Lane.all = before ++ l :: after ∧ ∀ k ∈ before, k.number < l.number := by
  cases l
  · exact ⟨[], _, rfl, by simp⟩
  · exact ⟨[.l0], _, rfl, by decide⟩
  · exact ⟨[.l0, .l1], _, rfl, by decide⟩
  · exact ⟨[.l0, .l1, .l2], _, rfl, by decide⟩
  · exact ⟨[.l0, .l1, .l2, .l3], _, rfl, by decide⟩
  · exact ⟨[.l0, .l1, .l2, .l3, .l4], _, rfl, by decide⟩

/-- The first lane whose port a request is due at takes it (R6). -/
theorem State.placeRequests_first {s : State} {l : Lane} (h : s.placeDue l)
    (hk : ∀ k, k.number < l.number → ¬s.placeDue k) : s.placeRequests = s.placeOne l := by
  obtain ⟨before, after, hall, hbefore⟩ := Lane.all_split l
  have hnone : before.findSome? s.placeOne = none :=
    List.findSome?_eq_none_iff.2 fun k hk' => State.placeOne_not_due (hk k (hbefore k hk'))
  obtain ⟨q, rest, hw⟩ := List.exists_cons_of_ne_nil h.2.1
  rw [State.placeRequests, hall, List.findSome?_append, hnone, Option.none_or, List.findSome?_cons,
    State.placeOne_due h hw]

theorem State.placeRequests_none {s : State} (h : ∀ l, ¬s.placeDue l) : s.placeRequests = none :=
  List.findSome?_eq_none_iff.2 fun l _ => State.placeOne_not_due (h l)

/-- One lane after the owner's oldest request was placed in a port. -/
theorem State.placeOne_some {s t : State} {l : Lane} (h : s.placeOne l = some t) : s.placeDue l ∧
    ∃ q rest, (s.lane l).waiting = q :: rest ∧
      t = { (s.setLane l { s.lane l with port := some (.owner, q), waiting := rest }) with
        coder := s.coder.nowFirst l } := by
  by_cases hd : s.placeDue l
  · obtain ⟨q, rest, hw⟩ := List.exists_cons_of_ne_nil hd.2.1
    rw [State.placeOne_due hd hw] at h
    exact ⟨hd, q, rest, hw, (Option.some.inj h).symm⟩
  · simp [State.placeOne_not_due hd] at h

/-- Requests that the lane state or its registers do not allow wait: the command changes nothing of its own (R5, R8, R9,
R12, R13). -/
theorem disallowed_requests_wait (s : State) (l : Lane) (hs : s.live = true) :
    ((s.lane l).state = .off ∨ (s.lane l).state = .arrayBusy →
      exec (.cacheLoad l) s = .next s.settle ∧ exec (.cacheCommit l) s = .next s.settle ∧
      exec (.cacheDiscard l) s = .next s.settle ∧ exec (.cacheUnload l) s = .next s.settle) ∧
    ((s.lane l).state ≠ .idle →
      exec (.pageRead l) s = .next s.settle ∧ exec (.pageMove l) s = .next s.settle ∧
      exec (.blockErase l) s = .next s.settle ∧ exec (.powerDown l) s = .next s.settle) ∧
    ((s.lane l).cache ≠ none → exec (.cacheLoad l) s = .next s.settle) ∧
    ((∃ i, (s.lane l).activity = .reading i) ∨ (∃ i d o, (s.lane l).activity = .awaiting i d o) →
      exec (.cacheLoad l) s = .next s.settle ∧ exec (.cacheCommit l) s = .next s.settle) ∧
    ((∀ p, (s.lane l).cache = some p → p.cond ≠ .loaded) → exec (.cacheCommit l) s = .next s.settle) ∧
    ((∀ p, (s.lane l).cache = some p → p.cond ≠ .read) → exec (.cacheUnload l) s = .next s.settle) ∧
    (∀ p, (s.lane l).cache = some p → p.cond ∈ [CacheCond.loaded, .armed, .held] →
      exec (.pageRead l) s = .next s.settle) := by
  have load (h : (s.lane l).cache ≠ none ∨ ¬(s.lane l).takesPages) : exec (.cacheLoad l) s = .next s.settle :=
    State.takes_laneStep_waits hs (LaneCtl.takeLoad_waits h)
  have commit (h : (∀ p, (s.lane l).cache = some p → p.cond ≠ .loaded) ∨ ¬(s.lane l).takesPages) :
      exec (.cacheCommit l) s = .next s.settle := State.takes_laneStep_waits hs (LaneCtl.takeCommit_waits h)
  have unload (h : (∀ p, (s.lane l).cache = some p → p.cond ≠ .read) ∨ (s.lane l).cacheOpen = false) :
      exec (.cacheUnload l) s = .next s.settle := by
    refine (s.takes_live _ hs).trans ?_
    rw [State.takeUnload_waits h]
  have read (h : (s.lane l).state ≠ .idle ∨ ∃ p, (s.lane l).cache = some p ∧ p.cond ≠ .read) :
      exec (.pageRead l) s = .next s.settle := State.takes_laneStep_waits hs (LaneCtl.takeRead_waits h)
  refine ⟨fun h => ?_, fun h => ?_, fun h => load (.inl h), fun h => ?_, fun h => commit (.inl h),
    fun h => unload (.inl h), fun p hp hc => read (.inr ⟨p, hp, ?_⟩)⟩
  · have hpages := LaneCtl.not_takesPages_of_state h
    have hclosed := LaneCtl.not_cacheOpen_of_state h
    exact ⟨load (.inr hpages), commit (.inr hpages),
      State.takes_laneStep_waits hs (LaneCtl.takeDiscard_waits hclosed), unload (.inr hclosed)⟩
  · refine ⟨read (.inl h), ?_, State.takes_laneStep_waits hs (LaneCtl.takeErase_waits h),
      State.takes_laneStep_waits hs (LaneCtl.takePowerDown_waits h)⟩
    refine (s.takes_live _ hs).trans ?_
    rw [State.takeMove_waits h]
  · have hpages := LaneCtl.not_takesPages_of_read h
    exact ⟨load (.inr hpages), commit (.inr hpages)⟩
  · rintro hr
    simp [hr] at hc

/-- The answer to RESULT QUERY, with the lanes and the array as they were (R7). -/
theorem resultQuery_answers (s : State) (l : Lane) (hs : s.live = true) :
    ∃ t : State, exec (.resultQuery l) s = .next t ∧ t.queryAnswer = some ((s.lane l).answer l) ∧
      State.lanesKept s t ∧ State.arrayKept s t := by
  obtain ⟨v, ms, h⟩ := s.query_eq l
  refine ⟨(s.query l).settle, s.takes_live _ hs, ?_, ?_, (State.LaneFrame.query s l).settle.array⟩
  · rw [State.settle_queryAnswer, h]
  · intro k
    have hk : (s.query l).lane k = s.lane k := by rw [h]; rfl
    exact hk ▸ (s.query l).settle_kept.1 k

/-- A request an owner gives waits behind those it gave the lane before (R6). -/
theorem State.give_lane (s : State) (l : Lane) (q : LaneReq) :
    (s.give l q).lane l = { s.lane l with waiting := (s.lane l).waiting ++ [q] } := s.lane_setLane_same l _

/-- The owner's oldest request placed in the port of the first lane it is due at, and the coder's page of that lane, if
one waits behind it, first from then on (R6). -/
theorem State.placeRequests_due {s : State} {l : Lane} {q : LaneReq} {rest : List LaneReq} (h : s.placeDue l)
    (hk : ∀ k, k.number < l.number → ¬s.placeDue k) (hw : (s.lane l).waiting = q :: rest) :
    ∃ t : State, s.placeRequests = some t ∧ t.signals = s.signals ∧
      (∀ k, t.lane k = if k = l then { s.lane l with port := some (.owner, q), waiting := rest } else s.lane k) ∧
      (∀ a, s.coder.write = some a → t.coder.write = some { a with handing := a.handing.map (fun h =>
        if h.lane = l then { h with behind := false } else h) }) := by
  refine ⟨_, (State.placeRequests_first h hk).trans (State.placeOne_due h hw), rfl, fun k => ?_, fun a ha => ?_⟩
  · split
    · next hkl => subst hkl; exact s.lane_setLane_same k _
    · next hkl => exact s.lane_setLane_other _ hkl
  · simp [Coder.nowFirst, ha]

/-! ## Pages of the array (R1) -/

theorem Lane.number_inj {l k : Lane} (h : l.number = k.number) : l = k := by
  cases l <;> cases k <;> simp_all [Lane.number]

/-- No two pages of the geometry share a key. -/
theorem pageKey_inj {l k : Lane} {b c r q : Nat} (hb : b < 1024) (hc : c < 1024) (hr : r < 64) (hq : q < 64)
    (h : pageKey l b r = pageKey k c q) : l = k ∧ b = c ∧ r = q := by
  simp only [pageKey, Config.bands, Config.rows] at h
  have hn : l.number = k.number := by omega
  exact ⟨Lane.number_inj hn, by omega, by omega⟩

theorem State.page_setPage_same (s : State) (l : Lane) (b r : Nat) (p : Page) (h : Sparse.wf .erased s.array = true) :
    (s.setPage l b r p).page l b r = p := Sparse.read_write Page.erased _ _ _ h

theorem State.page_setPage_other (s : State) {l k : Lane} {b c r q : Nat} (p : Page) (hb : b < 1024) (hr : r < 64)
    (hc : c < 1024) (hq : q < 64) (h : (k, c, q) ≠ (l, b, r)) : (s.setPage l b r p).page k c q = s.page k c q := by
  refine Sparse.read_write_other Page.erased _ _ _ p fun hkey => h ?_
  obtain ⟨rfl, rfl, rfl⟩ := pageKey_inj hc hb hq hr hkey
  rfl

/-- A page outside the rows filled reads as before. -/
theorem read_fillBlock_other (a : Sparse Page) (l : Lane) (band : Nat) (p : Page) (n k : Nat)
    (h : ∀ row, row < n → k ≠ pageKey l band row) :
    Sparse.read .erased (fillBlock a l band p n) k = Sparse.read .erased a k := by
  induction n with
  | zero => rfl
  | succ n ih =>
      rw [fillBlock, Sparse.read_write_other Page.erased _ _ _ p (h n (Nat.lt_succ_self n))]
      exact ih fun row hrow => h row (Nat.lt_succ_of_lt hrow)

/-- A page of the rows filled reads as the content. -/
theorem read_fillBlock_same (a : Sparse Page) (l : Lane) (band : Nat) (p : Page) (n row : Nat) (hr : row < n)
    (h : Sparse.wf .erased a = true) : Sparse.read .erased (fillBlock a l band p n) (pageKey l band row) = p := by
  induction n with
  | zero => exact absurd hr (Nat.not_lt_zero row)
  | succ n ih =>
      rw [fillBlock, Sparse.read_write_eq Page.erased _ _ _ p (fillBlock_wf a l band p n h)]
      split
      · rfl
      · next hkey =>
          have hne : row ≠ n := fun e => hkey (e ▸ rfl)
          exact ih (by omega)

theorem State.setBlock_array (s : State) (l : Lane) (band : Nat) (p : Page) :
    (s.setBlock l band p).array = fillBlock s.array l band p Config.rows := by simp only [State.setBlock]

theorem State.page_setBlock_same (s : State) (l : Lane) (band row : Nat) (p : Page)
    (h : Sparse.wf .erased s.array = true) (hr : row < 64) : (s.setBlock l band p).page l band row = p := by
  rw [State.page, State.setBlock_array]
  exact read_fillBlock_same s.array l band p Config.rows row hr h

theorem State.page_setBlock_other (s : State) {l k : Lane} {band b r : Nat} (p : Page) (hband : band < 1024)
    (hb : b < 1024) (hr : r < 64) (h : (k, b) ≠ (l, band)) : (s.setBlock l band p).page k b r = s.page k b r := by
  rw [State.page, State.setBlock_array]
  refine read_fillBlock_other s.array l band p Config.rows _ fun row hrow hkey => h ?_
  obtain ⟨rfl, rfl, -⟩ := pageKey_inj hb hband hr hrow hkey
  rfl

/-! ## The ends of array operations (R10, R12, R14, R15) -/

/-- Beside the page or block that the operation left in the array, an end changes its own lane and gives its report
alone. -/
theorem State.finish_kept {s u : State} (l : Lane) (c : LaneCtl) (op : LastOp) (o : Option PageOutcome)
    (hl : u.lanes = s.lanes) (hm : u.mem = s.mem) (ht : u.table = s.table) (hp : u.protect = s.protect) :
    State.othersKept l s (u.finish l c op o).settle ∧ State.memoryKept s (u.finish l c op o).settle ∧
      State.storeKept s (u.finish l c op o).settle ∧ State.protectKept s (u.finish l c op o).settle := by
  have hkept := (State.LaneFrame.finish l u c op o).settle
  have hlane : ∀ k, u.lane k = s.lane k := fun k => congrArg (Six.get · k) hl
  refine ⟨fun k hk => hlane k ▸ hkept.others k hk, ?_, ?_, ?_⟩
  · rw [State.memoryKept, ← hm]
    exact hkept.memory
  · rw [State.storeKept, ← ht]
    exact hkept.store
  · rw [State.protectKept, ← hp]
    exact hkept.protect

theorem State.page_settle (t : State) (l : Lane) (band row : Nat) : t.settle.page l band row = t.page l band row := rfl

theorem State.page_finish (u : State) (l k : Lane) (c : LaneCtl) (op : LastOp) (o : Option PageOutcome)
    (band row : Nat) : (u.finish l c op o).page k band row = u.page k band row := rfl

theorem State.finish_signals (u : State) (l : Lane) (c : LaneCtl) (op : LastOp) (o : Option PageOutcome) :
    (u.finish l c op o).signals = u.signals ++ [.report l { op := op, outcome := o }] := rfl

/-- The lane after its end report, and after what comes about in the step. -/
theorem State.finish_lane (u : State) (l : Lane) (c : LaneCtl) (op : LastOp) (o : Option PageOutcome) :
    (u.finish l c op o).lane l = { c with lastOp := some op } := u.lane_setLane_same l _

section
variable {s : State} {l : Lane}

theorem State.endProgram_eq {id : PageId} {data : List Byte} (pass : Bool)
    (h : (s.lane l).activity = .program id data) :
    s.endProgram l pass =
      (s.setPage l id.band id.row (programmedPage l id data pass)).finish l ((s.lane l).afterProgram pass)
        { kind := .program, band := id.band, row := id.row, outcome := if pass then .pass else .fail } none := by
  simp [State.endProgram, h]

theorem State.endRead_eq {id : PageId} (seen : ArrayRead) (h : (s.lane l).activity = .reading id) :
    s.endRead l seen =
      s.finish l ((s.lane l).afterRead id (bytesRead (s.page l id.band id.row) seen)
          (classify s.weakThreshold (s.page l id.band id.row) seen l id))
        { kind := .read, band := id.band, row := id.row,
          outcome := .seen (classify s.weakThreshold (s.page l id.band id.row) seen l id).cls }
        (some (classify s.weakThreshold (s.page l id.band id.row) seen l id)) := by
  simp [State.endRead, h]

theorem State.endErase_eq {band : Nat} (pass : Bool) (h : (s.lane l).activity = .erase band) :
    s.endErase l pass =
      (s.setBlock l band (if pass then .erased else .indeterminate)).finish l { s.lane l with activity := .idle }
        { kind := .erase, band := band, row := 0, outcome := if pass then .pass else .fail } none := by
  simp [State.endErase, h]

/-- A source that is not GOOD or WEAK: nothing is programmed (R14). -/
theorem State.endMove_sourceBad {src : PageId} {band row : Nat} {seen : ArrayRead} (pass : Bool)
    (h : (s.lane l).activity = .move src band row)
    (hc : (classify s.weakThreshold (s.page l src.band src.row) seen l src).cls.movable = false) :
    s.endMove l seen pass =
      s.finish l { s.lane l with activity := .idle } { kind := .move, band := band, row := row, outcome := .sourceBad }
        (some (classify s.weakThreshold (s.page l src.band src.row) seen l src)) := by
  simp [State.endMove, h, hc]

/-- A GOOD or WEAK source: its corrected bytes are programmed under the target's tag (R14). -/
theorem State.endMove_programs {src : PageId} {band row : Nat} {seen : ArrayRead} (pass : Bool)
    (h : (s.lane l).activity = .move src band row)
    (hc : (classify s.weakThreshold (s.page l src.band src.row) seen l src).cls.movable = true) :
    s.endMove l seen pass =
      (s.setPage l band row (programmedPage l { band := band, row := row, level := src.level }
          (bytesRead (s.page l src.band src.row) seen) pass)).finish l
        { s.lane l with activity := .idle, prevFailed := (s.lane l).prevFailed || !pass }
        { kind := .move, band := band, row := row, outcome := if pass then .pass else .fail }
        (some (classify s.weakThreshold (s.page l src.band src.row) seen l src)) := by
  simp [State.endMove, h, hc]

end

theorem PageClass.movable_iff (c : PageClass) : c.movable = true ↔ c ∈ [PageClass.good, .weak] := by
  cases c <;> simp [PageClass.movable]

/-! ### The lane after a program (R10) -/

namespace LaneCtl

theorem afterProgram_prevFailed (c : LaneCtl) (pass : Bool) :
    (c.afterProgram pass).prevFailed = (c.prevFailed || !pass) := by
  unfold LaneCtl.afterProgram
  split
  · split_ifs with _ hpass <;> simp [*]
  · rfl

theorem afterProgram_starts {c : LaneCtl} {p : CachePage} (hc : c.cache = some p) (ha : p.cond = .armed) :
    c.afterProgram true = { c with cache := none, activity := .program p.id p.data } := by
  simp [LaneCtl.afterProgram, hc, ha]

theorem afterProgram_holds {c : LaneCtl} {p : CachePage} (hc : c.cache = some p) (ha : p.cond = .armed) :
    c.afterProgram false =
      { c with cache := some { p with cond := .held }, activity := .idle, prevFailed := true } := by
  simp [LaneCtl.afterProgram, hc, ha]

theorem afterProgram_else {c : LaneCtl} (pass : Bool) (h : ∀ p, c.cache = some p → p.cond ≠ .armed) :
    c.afterProgram pass = { c with activity := .idle, prevFailed := c.prevFailed || !pass } := by
  unfold LaneCtl.afterProgram
  split
  · next p hp => exact if_neg (h p hp)
  · rfl

theorem afterRead_activity (c : LaneCtl) (id : PageId) (data : List Byte) (o : PageOutcome) :
    (c.afterRead id data o).activity = if c.cache = none then .transfer id data o else .awaiting id data o := by
  simp [LaneCtl.afterRead]

theorem endTransfer_eq {c : LaneCtl} {id : PageId} {data : List Byte} {o : PageOutcome}
    (h : c.activity = .transfer id data o) :
    c.endTransfer =
      { c with activity := .idle, cache := some { data := data, id := id, cond := .read, outcome := some o } } := by
  simp [LaneCtl.endTransfer, h]

theorem endPowerUp_eq {c : LaneCtl} (h : c.activity = .poweringUp) :
    c.endPowerUp = { c with activity := .idle, cache := none, lastOp := none } := by
  simp [LaneCtl.endPowerUp, h]

end LaneCtl

/-- Settles O21: the end of a program, by whether a page stands ARMED behind it. -/
theorem programEnds : Obligations.ProgramEnds := by
  intro s l id data pass hs ha hwf op
  have hu := State.endProgram_eq pass ha
  have hlane : (s.endProgram l pass).lane l = { (s.lane l).afterProgram pass with lastOp := some op } := by
    rw [hu, State.finish_lane]
  have hkept : State.othersKept l s (s.endProgram l pass).settle ∧ State.memoryKept s (s.endProgram l pass).settle ∧
      State.storeKept s (s.endProgram l pass).settle ∧ State.protectKept s (s.endProgram l pass).settle := by
    rw [hu]
    exact State.finish_kept l _ _ _ rfl rfl rfl rfl
  obtain ⟨hothers, hmem, hstore, hprotect⟩ := hkept
  refine ⟨s.endProgram l pass, s.takes_live _ hs, by rw [hu]; rfl, ?_, ?_, ?_, fun p hc hp hpass => ?_,
    fun p hc hp hpass => ?_, fun h => ?_, hothers, hmem, hstore, hprotect, fun l' b r hb hr hb' hr' hne => ?_⟩
  · rw [State.settle_lastOp, hlane]
  · rw [hu]
    exact s.page_setPage_same l _ _ _ hwf
  · rw [State.settle_prevFailed, hlane]
    exact LaneCtl.afterProgram_prevFailed _ _
  · rw [State.settle_activity, State.settle_cache, hlane, hpass, LaneCtl.afterProgram_starts hc hp]
    exact ⟨rfl, rfl⟩
  · rw [State.settle_activity, State.settle_cache, hlane, hpass, LaneCtl.afterProgram_holds hc hp]
    exact ⟨rfl, rfl⟩
  · rw [State.settle_activity, State.settle_cache, hlane, LaneCtl.afterProgram_else pass h]
    exact ⟨rfl, rfl⟩
  · rw [hu]
    exact s.page_setPage_other _ hb hr hb' hr' hne

/-- The end of a read (O23, R12). -/
theorem read_ends (s : State) (l : Lane) (id : PageId) (seen : ArrayRead) (hs : s.live = true)
    (ha : (s.lane l).activity = .reading id) :
    let o := classify (s.modes.config.elim 8 (·.weakThreshold)) (s.page l id.band id.row) seen l id
    let op : LastOp := { kind := .read, band := id.band, row := id.row, outcome := .seen o.cls }
    ∃ u : State, exec (.readEnd l seen) s = .next u.settle ∧
      u.signals = s.signals ++ [.report l { op := op, outcome := some o }] ∧
      (u.settle.lane l).lastOp = some op ∧
      ((s.lane l).cache = none →
        (u.settle.lane l).activity = .transfer id (bytesRead (s.page l id.band id.row) seen) o ∧
        (u.settle.lane l).state = .arrayBusy) ∧
      ((s.lane l).cache ≠ none →
        (u.settle.lane l).activity = .awaiting id (bytesRead (s.page l id.band id.row) seen) o ∧
        (u.settle.lane l).state = .cacheBusy) ∧
      (u.settle.lane l).cache = (s.lane l).cache ∧ (u.settle.lane l).prevFailed = (s.lane l).prevFailed := by
  intro o op
  have hu := State.endRead_eq seen ha
  have hlane : (s.endRead l seen).lane l =
      { (s.lane l).afterRead id (bytesRead (s.page l id.band id.row) seen) o with lastOp := some op } := by
    rw [hu, State.finish_lane]
    rfl
  have hact : ((s.endRead l seen).settle.lane l).activity = if (s.lane l).cache = none
      then .transfer id (bytesRead (s.page l id.band id.row) seen) o
      else .awaiting id (bytesRead (s.page l id.band id.row) seen) o := by
    rw [State.settle_activity, hlane]
    exact LaneCtl.afterRead_activity _ _ _ _
  refine ⟨s.endRead l seen, s.takes_live _ hs, by rw [hu]; rfl, ?_, fun hc => ?_, fun hc => ?_, ?_, ?_⟩
  · rw [State.settle_lastOp, hlane]
  · rw [if_pos hc] at hact
    exact ⟨hact, by rw [LaneCtl.state, hact]⟩
  · rw [if_neg hc] at hact
    exact ⟨hact, by rw [LaneCtl.state, hact]⟩
  · rw [State.settle_cache, hlane]
    rfl
  · rw [State.settle_prevFailed, hlane]
    rfl

/-- Settles O23: a read, a transfer and a power-up, a move by its source's class, an erase. -/
theorem readMoveAndEraseEnd : Obligations.ReadMoveAndEraseEnd := by
  refine ⟨fun s l id seen hs ha => read_ends s l id seen hs ha, ?transfer, ?move, ?erase⟩
  case transfer =>
    intro s l hs
    exact ⟨fun id data o h => State.takes_laneStep hs (LaneCtl.endTransfer_eq h),
      fun h => State.takes_laneStep hs (LaneCtl.endPowerUp_eq h)⟩
  case move =>
    intro s l src band row seen pass hs ha hwf page o
    refine ⟨s.endMove l seen pass, s.takes_live _ hs, ?_⟩
    cases hm : o.cls.movable with
    | false =>
        have hu : s.endMove l seen pass = _ := State.endMove_sourceBad pass ha hm
        have hno : ¬ o.cls ∈ [PageClass.good, .weak] := by
          rw [← PageClass.movable_iff, hm]
          exact Bool.false_ne_true
        obtain ⟨hothers, hmem, hstore, -⟩ := State.finish_kept (u := s) l { s.lane l with activity := .idle }
          { kind := .move, band := band, row := row, outcome := .sourceBad } (some o) rfl rfl rfl rfl
        rw [if_neg hno, hu]
        refine ⟨rfl, ?_, ?_, hothers, hmem, hstore, fun _ => ⟨?_, ?_, fun _ _ _ => rfl⟩, fun h => absurd h hno⟩
        · rw [State.settle_activity, State.finish_lane]
        · rw [State.settle_cache, State.finish_lane]
        · rw [State.settle_lastOp, State.finish_lane]
        · rw [State.settle_prevFailed, State.finish_lane]
    | true =>
        have hu : s.endMove l seen pass = _ := State.endMove_programs pass ha hm
        have hyes := (PageClass.movable_iff o.cls).1 hm
        have hnot : ¬ o.cls ∈ [PageClass.erased, .uncorrectable, .tagMismatch] := by
          intro h
          cases hcls : o.cls <;> rw [hcls] at h hm <;> simp_all [PageClass.movable]
        obtain ⟨hothers, hmem, hstore, -⟩ := State.finish_kept (s := s)
          (u := s.setPage l band row (programmedPage l { band := band, row := row, level := src.level }
            (bytesRead page seen) pass)) l
          { s.lane l with activity := .idle, prevFailed := (s.lane l).prevFailed || !pass }
          { kind := .move, band := band, row := row, outcome := if pass then .pass else .fail } (some o) rfl rfl rfl rfl
        rw [if_pos hyes, hu]
        refine ⟨rfl, ?_, ?_, hothers, hmem, hstore, fun h => absurd h hnot, fun _ => ⟨?_, ?_, ?_, ?_⟩⟩
        · rw [State.settle_activity, State.finish_lane]
        · rw [State.settle_cache, State.finish_lane]
        · rw [State.settle_lastOp, State.finish_lane]
        · rw [State.settle_prevFailed, State.finish_lane]
        · exact s.page_setPage_same l band row _ hwf
        · intro l' b r hb hr hb' hr' hne
          exact s.page_setPage_other _ hb hr hb' hr' hne
  case erase =>
    intro s l band pass hs ha hwf op
    obtain ⟨hothers, hmem, hstore, hprotect⟩ := State.finish_kept l { s.lane l with activity := .idle } op none
      (s.setBlock_lanes l band (if pass then .erased else .indeterminate)) (State.setBlock_mem ..)
      (State.setBlock_table ..) (State.setBlock_protect ..)
    refine ⟨s.endErase l pass, s.takes_live _ hs, ?_⟩
    rw [State.endErase_eq pass ha]
    refine ⟨?_, ?_, ?_, ?_, ?_, fun row hr => ?_, fun l' b r hband hb hr hne => ?_, hothers, hmem, hstore, hprotect⟩
    · rw [State.finish_signals, State.setBlock_signals]
    · rw [State.settle_activity, State.finish_lane]
    · rw [State.settle_cache, State.finish_lane]
    · rw [State.settle_prevFailed, State.finish_lane]
    · rw [State.settle_lastOp, State.finish_lane]
    · rw [State.page_settle, State.page_finish]
      exact s.page_setBlock_same l band row _ hwf hr
    · rw [State.page_settle, State.page_finish]
      exact s.page_setBlock_other _ hband hb hr hne

/-! ## The class of a page, and the bytes a read shows (R2, R3, R4) -/

theorem sectorBad_iff (seen : ArrayRead) (i : Nat) : sectorBad seen i = true ↔ 8 < seen.errors.getD i 0 := by
  simp [sectorBad, sectorErrors, Config.correctable]

theorem anySectorBad_iff (seen : ArrayRead) :
    anySectorBad seen = true ↔ ∃ i, i < 4 ∧ 8 < seen.errors.getD i 0 := by
  simp only [anySectorBad, Bool.or_eq_true, sectorBad_iff]
  constructor
  · rintro (((h | h) | h) | h)
    exacts [⟨0, by omega, h⟩, ⟨1, by omega, h⟩, ⟨2, by omega, h⟩, ⟨3, by omega, h⟩]
  · rintro ⟨i, hi, h⟩
    obtain rfl | rfl | rfl | rfl : i = 0 ∨ i = 1 ∨ i = 2 ∨ i = 3 := by omega
    exacts [.inl (.inl (.inl h)), .inl (.inl (.inr h)), .inl (.inr h), .inr h]

/-- A sector of at most 8 bit errors adds its errors to the count, and one of more adds nothing (R3). -/
theorem sectorCount_eq (seen : ArrayRead) (i : Nat) :
    sectorCount seen i = if seen.errors.getD i 0 ≤ 8 then seen.errors.getD i 0 else 0 := by
  unfold sectorCount
  by_cases h : 8 < seen.errors.getD i 0
  · rw [if_pos ((sectorBad_iff seen i).2 h), if_neg (by omega)]
  · rw [if_neg (mt (sectorBad_iff seen i).1 h), if_pos (by omega)]
    rfl

theorem sectorCount_le_highest (seen : ArrayRead) {i : Nat} (hi : i < 4) :
    sectorCount seen i ≤ highestCorrected seen := by
  obtain rfl | rfl | rfl | rfl : i = 0 ∨ i = 1 ∨ i = 2 ∨ i = 3 := by omega
  all_goals simp only [highestCorrected]; omega

/-- The highest corrected count is that of some sector. -/
theorem highestCorrected_attained (seen : ArrayRead) : ∃ i, i < 4 ∧ highestCorrected seen = sectorCount seen i := by
  unfold highestCorrected
  rcases max_choice (max (sectorCount seen 0) (sectorCount seen 1)) (max (sectorCount seen 2) (sectorCount seen 3))
    with h | h <;> rw [h]
  · rcases max_choice (sectorCount seen 0) (sectorCount seen 1) with h | h
    exacts [⟨0, by omega, h⟩, ⟨1, by omega, h⟩]
  · rcases max_choice (sectorCount seen 2) (sectorCount seen 3) with h | h
    exacts [⟨2, by omega, h⟩, ⟨3, by omega, h⟩]

/-- A stored tag read without damage matches when it is the tag a program of the expected page writes (R2). -/
theorem tagMatches_intact {tag : PageTag} {data : List Byte} {seen : ArrayRead} (l : Lane) (id : PageId)
    (h : seen.tag = .intact) :
    tagMatches (.programmed tag data) seen l id = true ↔ tag.checkDelta = 0#16 ∧ tag.band = id.band ∧
      tag.row = id.row ∧ tag.level = id.level ∧ tag.role = roleOf id.level l := by
  obtain ⟨b, r, lv, ro, d⟩ := tag
  simp only [tagMatches, h, tagFor, decide_eq_true_eq, PageTag.mk.injEq]
  tauto

/-- On a page of no known content the tag it shows is compared (R4). -/
theorem tagMatches_shown {seen : ArrayRead} {band row : Nat} {level : Level} {role : Role} (l : Lane) (id : PageId)
    (h : seen.tag = .shows band row level role) :
    tagMatches .indeterminate seen l id = true ↔ band = id.band ∧ row = id.row ∧ level = id.level ∧
      role = roleOf id.level l := by
  simp [tagMatches, h, and_assoc]

theorem tagMatches_damaged (page : Page) {seen : ArrayRead} (l : Lane) (id : PageId) (h : seen.tag = .damaged) :
    tagMatches page seen l id = false := by
  cases page <;> simp [tagMatches, h]

theorem tagMatches_erased (seen : ArrayRead) (l : Lane) (id : PageId) : tagMatches .erased seen l id = false := by
  cases h : seen.tag <;> simp [tagMatches]

/-- Data pages below k, then P, then Q, which level 2 alone has, in L5 (R45). -/
theorem roleOf_eq (level : Level) (l : Lane) :
    roleOf level l = if l.number < 6 - level.val then .data l.number
      else if level.val = 2 ∧ l = .l5 then .q else .p := by
  fin_cases level <;> cases l <;> rfl

theorem sectorOf_length {page : List Byte} (i : Nat) (h : page.length = 2048) (hi : i < 4) :
    (sectorOf page i).length = 512 := by
  simp [sectorOf, Config.sectorBytes, h]
  omega

theorem sectorOf_getElem? (page : List Byte) (i j : Nat) (hj : j < 512) : (sectorOf page i)[j]? = page[512 * i + j]? := by
  rw [sectorOf, List.getElem?_take_of_lt (by simpa [Config.sectorBytes] using hj), List.getElem?_drop, Config.sectorBytes,
    Nat.mul_comm]

/-- Byte `j` of four sectors of 512 bytes is byte `j % 512` of sector `j / 512`. -/
theorem getElem?_four_sectors (f : Nat → List Byte) (hf : ∀ i, i < 4 → (f i).length = 512) (j : Nat) (hj : j < 2048) :
    (f 0 ++ f 1 ++ f 2 ++ f 3)[j]? = (f (j / 512))[j % 512]? := by
  have h0 := hf 0 (by omega)
  have h1 := hf 1 (by omega)
  have h2 := hf 2 (by omega)
  obtain h | h | h | h : j / 512 = 0 ∨ j / 512 = 1 ∨ j / 512 = 2 ∨ j / 512 = 3 := by omega
  all_goals rw [h, List.append_assoc, List.append_assoc]
  · rw [List.getElem?_append_left (by omega), show j % 512 = j by omega]
  · rw [List.getElem?_append_right (by omega), List.getElem?_append_left (by omega), h0,
      show j % 512 = j - 512 by omega]
  · rw [List.getElem?_append_right (by omega), List.getElem?_append_right (by omega),
      List.getElem?_append_left (by omega), h0, h1, show j % 512 = j - 512 - 512 by omega]
  · rw [List.getElem?_append_right (by omega), List.getElem?_append_right (by omega),
      List.getElem?_append_right (by omega), h0, h1, h2, show j % 512 = j - 512 - 512 - 512 by omega]

/-- Sector `i` of a programmed page as a read shows it (R3). -/
def sectorShown (data : List Byte) (seen : ArrayRead) (i : Nat) : List Byte :=
  sectorOf (if sectorBad seen i then seen.asRead else data) i

theorem bytesRead_programmed {tag : PageTag} {data : List Byte} {seen : ArrayRead} (h : seen.allOnes = false) :
    bytesRead (.programmed tag data) seen = sectorShown data seen 0 ++ sectorShown data seen 1 ++
      sectorShown data seen 2 ++ sectorShown data seen 3 := by
  simp [bytesRead, h, sectorShown]

theorem sectorShown_length {data : List Byte} {seen : ArrayRead} {i : Nat} (hd : data.length = 2048)
    (hr : seen.asRead.length = 2048) (hi : i < 4) : (sectorShown data seen i).length = 512 := by
  unfold sectorShown
  split
  · exact sectorOf_length i hr hi
  · exact sectorOf_length i hd hi

/-- The bytes of a programmed page, sector by sector (R3). -/
theorem bytesRead_programmed_getElem? {tag : PageTag} {data : List Byte} {seen : ArrayRead} (h : seen.allOnes = false)
    (hd : data.length = 2048) (hr : seen.asRead.length = 2048) (j : Nat) (hj : j < 2048) :
    (bytesRead (.programmed tag data) seen)[j]? =
      if 8 < seen.errors.getD (j / 512) 0 then seen.asRead[j]? else data[j]? := by
  rw [bytesRead_programmed h, getElem?_four_sectors _ (fun i hi => sectorShown_length hd hr hi) j hj, sectorShown,
    sectorOf_getElem? _ _ _ (Nat.mod_lt j (by omega)), Nat.div_add_mod, ← apply_ite (fun page : List Byte => page[j]?)]
  simp only [sectorBad_iff]

/-- Settles O22, row by row of the table of R4, and byte by byte. -/
theorem pageClassByTable : Obligations.PageClassByTable := by
  refine ⟨fun weak page seen l id => ?_, fun page seen => ?_⟩
  · dsimp only
    rw [← anySectorBad_iff]
    refine ⟨fun h => ?_, fun h hb => ?_, fun h hb ht => ?_, fun h hb ht hw => ?_, fun h hb ht hw => ?_,
      fun i hi hle => ?_, ?_, ?_, tagMatches_damaged page l id, ?_, ?_, ?_, roleOf_eq id.level l⟩
    · simp [classify, h]
    · simp [classify, h, hb]
    · simp [classify, h, hb, ht]
    · simp [classify, h, hb, ht, hw]
    · simp [classify, h, hb, ht, Nat.not_le.2 hw]
    · have hcount := sectorCount_le_highest seen hi
      rwa [sectorCount_eq, if_pos hle] at hcount
    · obtain ⟨i, hi, h⟩ := highestCorrected_attained seen
      rw [sectorCount_eq] at h
      split at h
      · next hle => exact .inr ⟨i, hi, hle, h⟩
      · exact .inl h
    · rintro tag data rfl ht
      exact tagMatches_intact l id ht
    · rintro rfl
      exact tagMatches_erased seen l id
    · rintro tag data band row level role rfl ht
      simp [tagMatches, ht]
    · rintro band row level role rfl ht
      exact tagMatches_shown l id ht
  · refine ⟨fun h => ?_, ?_, ?_⟩
    · unfold bytesRead
      rw [if_pos h, Config.pageBytes]
    · rintro tag data rfl h hd hr
      refine ⟨?_, bytesRead_programmed_getElem? h hd hr⟩
      have hlen := fun i (hi : i < 4) => sectorShown_length hd hr hi
      rw [bytesRead_programmed h]
      simp [hlen]
    · rintro (rfl | rfl) h <;> simp [bytesRead, h]

end Sys2Proof.Machine
end

