-- ==== Sys2Proof/Proofs/Work.lean ====
section
/-! The work left in a state: a number that every message taken and every reaction lowers. It counts, with weights, the
messages not yet taken, what the gate holds, and for each block the reactions that may still fall due in it. A message
weighs more than all that its block may do and give at it. -/

namespace Sys2Proof.Machine

open Sys2Proof

/-! ## The work of each block -/

/-- The weight of a message: above that of every message its block may give at it, with the reactions it may set free. -/
def Signal.weight : Signal → Nat
  | .commitRequest _ _ _ => 1
  | .forgetCommit _ => 1
  | .rowLoaded _ => 1
  | .needPages _ => 1
  | .rowDelivered => 1
  | .moverEnding _ => 1
  | .flushed => 1
  | .orderEnd _ => 1
  | .permit _ _ => 2
  | .answer _ _ _ _ => 2
  | .fetchDone _ _ => 2
  | .askPermit _ => 4
  | .notice _ _ _ => 5
  | .update _ _ _ => 13
  | .unitWritten => 14
  | .judged _ => 15
  | .checked _ cs => 85 + 14 * cs.length
  | .report _ _ => 142
  | .readBegun _ => 685

/-- The messages not yet taken. -/
def signalsWork (ms : List Signal) : Nat := (ms.map Signal.weight).sum

/-- What the gate holds: each update gives an answer and a notice, each permit its answer, and an update may list one
more band for the scan to look at. -/
def Table.gateWork (t : Table) : Nat := 12 * t.heldUpdates.length + 3 * t.heldPermits.length

/-- A lane with an empty port may be given a discard and have a request placed; with a filled port nothing. -/
def LaneCtl.portWork (c : LaneCtl) : Nat :=
  bif c.port.isSome then 0 else bif c.waiting.isEmpty then 2 else 1

/-- The ports of the six lanes. -/
def lanesWork (x : Six LaneCtl) : Nat :=
  x.l0.portWork + x.l1.portWork + x.l2.portWork + x.l3.portWork + x.l4.portWork + x.l5.portWork

/-- A judgement that is due. -/
def Coder.work (c : Coder) : Nat := bif c.judgeDue then 114 else 0

/-- A row in flight of a write: its permit, if not yet asked for, and its completion. -/
def Flight.work (f : Flight) : Nat :=
  bif (f.cond == .assembling || f.cond == .loaded) && !f.permitAsked then 19 else 14

/-- An order of a row path: its end, and its result. -/
def endWork (order ended : Bool) : Nat := bif ended then 2 else bif order then 4 else 0

/-- The row writer: the row answered GO, the rows in flight, the order's end. -/
def Writer.work (w : Writer) : Nat :=
  (bif w.go then 33 else 0) + (w.flights.map Flight.work).sum + endWork w.order.isSome w.ended

/-- The copy row in flight: its two permits, if not yet asked for, and its completion. -/
def CopyRow.work (c : CopyRow) : Nat :=
  bif c.closed then 14
  else match c.phase with
    | .prepare => 24
    | .permit => 19
    | .moving => bif c.committed || c.permitAsked then 14 else 19

/-- The copy row in flight, if there is one. -/
def copyWork (c : Option CopyRow) : Nat := c.elim 0 CopyRow.work

/-- The row reader: the row answered GO, the copy row in flight, the order's end. -/
def Reader.work (r : Reader) : Nat :=
  (bif r.go then 39 else 0) + copyWork r.copyRow + endWork r.order.isSome r.ended

/-- The band services: the end of a band query. -/
def Services.work (v : Services) : Nat := bif v.phase == .records then endWork true v.ended else 0

/-- The phases the mover may still pass, with the messages they give. -/
def Mover.phaseWork (m : Mover) : Nat :=
  match m.phase with
  | .idle => 0
  | .stopped => 2
  | .flushing => 4
  | .moving => 4

/-- A walk, or an ending, that may still come about. -/
def Mover.walkWork (m : Mover) : Nat :=
  bif m.pendingEnding.isSome then 0
  else bif m.cursor.isSome && m.access.isNone && (m.chain == .notStarted || m.chain == .exhausted) then 2
  else 1

/-- Fill words that have room and permit. -/
def Mover.fillWork (m : Mover) : Nat := bif Nat.ble 1 m.free && Nat.ble 4 m.permit then 1 else 0

/-- Words of a fetch that its requester takes. -/
def Mover.fetchWork (m : Mover) : Nat := bif m.direction == some .fetch && !m.fifo.isEmpty then 4 else 0

/-- The mover. -/
def Mover.work (m : Mover) : Nat := m.phaseWork + m.walkWork + m.fillWork + m.fetchWork

/-- The sheet processor: an access that may be raised, and the end of an abort. -/
def Sheets.work (h : Sheets) : Nat := (bif h.access.isNone then 1 else 0) + (bif h.stop == .abort then 1 else 0)

/-- The steps of a drain (R177). -/
def Drain.work (d : Drain) : Nat :=
  (bif d.closed then 0 else 1) + (bif d.lanesQuiet then 0 else 1) + (bif d.lanesOff then 0 else 1) +
    (bif d.commitDone then 0 else 2)

/-- The changes of mode that may follow each other: DRAIN to PARKED, PATROL to STANDBY, and each of these to RUN. -/
def ModeCtl.modeWork (m : ModeCtl) : Nat :=
  match m.mode with
  | .run => 0
  | .cold => 0
  | .faulted => 0
  | .awaitConfig => 0
  | .held => 0
  | .holding => 1
  | .standby => bif m.powerGiven then 1 else 2
  | .parked => bif m.leaving then 1 else 2
  | .patrol => 3 + (bif m.patrolStage == .waking then (bif m.powerGiven then 4 else 5) else 0)
  | .drain => 3 + m.drain.elim 0 Drain.work

/-- The mode controller: its changes of mode, and the clean request it may raise. -/
def ModeCtl.work (m : ModeCtl) : Nat := m.modeWork + (bif m.commitAwaited then 0 else 2)

/-- The recovery scan: in its first phase a permit for each listed band ahead, and the request at its end. -/
def scanWork (scan : Option Scan) (working : Sparse BandRecord) : Nat :=
  match scan with
  | none => 0
  | some c =>
      match c.stage with
      | .permit => 4 * working.countP (fun e => Nat.blt c.band e.1) + 1
      | .erasing _ _ => 4 * working.countP (fun e => Nat.blt c.band e.1) + 1
      | .notice => 4 * working.countP (fun e => Nat.blt c.band e.1) + 1
      | .reading _ _ => 0
      | .discarding => 2
      | .commitEnd => 0

/-- The patrol unit: the run's end, the findings and commands not yet taken, the visit's end. -/
def Patrol.work (p : Patrol) : Nat :=
  (bif p.run.isSome then 3 else 0) + 14 * p.findings.length + p.due.length + (bif p.visit.isSome then 1 else 0)

/-- The work left in a state, but for the bus master port. -/
def State.work (s : State) : Nat :=
  signalsWork s.signals + s.table.gateWork + lanesWork s.lanes + s.coder.work + s.writer.work + s.reader.work +
    s.services.work + s.mover.work + s.sheets.work + s.modes.work + scanWork s.modes.scan s.table.working +
    s.patrol.work

/-! ## What messages and reactions leave alone -/

/-- A state with everything blanked that a message or a reaction of a block may change. -/
def State.fixed (s : State) : State :=
  { s with
    lanes := Six.build (fun l => { s.lane l with port := none, waiting := [] }),
    table := .reset, protect := { s.protect with fuseWrite := none }, coder := .reset, writer := .reset,
    reader := .reset, services := .reset, mover := .reset, port := none, sheetLine := [],
    sheets := { Sheets.reset with queue := s.sheets.queue },
    modes := { ModeCtl.reset s.modes.warning with config := s.modes.config }, patrol := .reset,
    window := { s.window with events := 0#32 }, signals := [] }

/-- What a block does at a message or by a reaction: the table and all that is fixed stay, no port is emptied, no event
flag is cleared, and the work grows by at most `k` (or falls, for a negative `k`). -/
structure State.Runs (k : ℤ) (s t : State) : Prop where
  table : t.table = s.table
  fixed : t.fixed = s.fixed
  ports : ∀ l, (s.lane l).port ≠ none → (t.lane l).port = (s.lane l).port
  events : s.window.events ||| t.window.events = t.window.events
  work : (t.work : ℤ) ≤ s.work + k

/-- A reaction that lowers the work whenever it comes about. -/
def State.Reacts (s : State) (o : Option State) : Prop := ∀ t, o = some t → s.Runs (-1) t

theorem State.Reacts.idle (s : State) : s.Reacts none := fun _ h => by cases h

theorem State.Reacts.of {s t : State} (h : s.Runs (-1) t) : s.Reacts (some t) := by
  rintro _ ⟨⟩
  exact h

namespace State.Runs

theorem refl (s : State) : s.Runs 0 s := ⟨rfl, rfl, fun _ _ => rfl, BitVec.or_self, by omega⟩

/-- One thing after another; the work adds up. -/
theorem comp {i j k : ℤ} {s t u : State} (h : s.Runs i t) (g : t.Runs j u) (hk : i + j ≤ k) :
    s.Runs k u where
  table := g.table.trans h.table
  fixed := g.fixed.trans h.fixed
  ports l hl := by
    have ht := h.ports l hl
    exact (g.ports l (ht ▸ hl)).trans ht
  events := by
    rw [← g.events, ← BitVec.or_assoc, h.events]
  work := by
    have := h.work
    have := g.work
    omega

theorem mono {i k : ℤ} {s t : State} (h : s.Runs i t) (hk : i ≤ k) : s.Runs k t :=
  h.comp (refl t) (by omega)

/-- What comes after and leaves the work as it is. -/
theorem also {k : ℤ} {s t u : State} (h : s.Runs k t) (g : t.Runs 0 u) : s.Runs k u := h.comp g (by omega)

/-! ## One rule per field -/

section
variable (s : State) {k : ℤ}

theorem signals (ms : List Signal) (h : (signalsWork ms : ℤ) ≤ signalsWork s.signals + k) :
    s.Runs k { s with signals := ms } :=
  ⟨rfl, rfl, fun _ _ => rfl, BitVec.or_self, by simp only [State.work]; omega⟩

theorem coder (c : Coder) (h : (c.work : ℤ) ≤ s.coder.work + k) : s.Runs k { s with coder := c } :=
  ⟨rfl, rfl, fun _ _ => rfl, BitVec.or_self, by simp only [State.work]; omega⟩

theorem writer (w : Writer) (h : (w.work : ℤ) ≤ s.writer.work + k) : s.Runs k { s with writer := w } :=
  ⟨rfl, rfl, fun _ _ => rfl, BitVec.or_self, by simp only [State.work]; omega⟩

theorem reader (r : Reader) (h : (r.work : ℤ) ≤ s.reader.work + k) : s.Runs k { s with reader := r } :=
  ⟨rfl, rfl, fun _ _ => rfl, BitVec.or_self, by simp only [State.work]; omega⟩

theorem services (v : Services) (h : (v.work : ℤ) ≤ s.services.work + k) : s.Runs k { s with services := v } :=
  ⟨rfl, rfl, fun _ _ => rfl, BitVec.or_self, by simp only [State.work]; omega⟩

theorem mover (m : Mover) (h : (m.work : ℤ) ≤ s.mover.work + k) : s.Runs k { s with mover := m } :=
  ⟨rfl, rfl, fun _ _ => rfl, BitVec.or_self, by simp only [State.work]; omega⟩

theorem patrol (p : Patrol) (h : (p.work : ℤ) ≤ s.patrol.work + k) : s.Runs k { s with patrol := p } :=
  ⟨rfl, rfl, fun _ _ => rfl, BitVec.or_self, by simp only [State.work]; omega⟩

theorem sheets (h' : Sheets) (hq : h'.queue = s.sheets.queue) (h : (h'.work : ℤ) ≤ s.sheets.work + k) :
    s.Runs k { s with sheets := h' } :=
  ⟨rfl, by simp only [State.fixed, hq]; rfl, fun _ _ => rfl, BitVec.or_self, by simp only [State.work]; omega⟩

/-- The sheet processor changed beside its access and its stop state. -/
theorem sheetsBeside (h' : Sheets) (hq : h'.queue = s.sheets.queue) (ha : h'.access = s.sheets.access)
    (hs : h'.stop = s.sheets.stop) : s.Runs 0 { s with sheets := h' } :=
  sheets s h' hq (by rw [Sheets.work, Sheets.work, ha, hs]; omega)

/-- The mode controller without its scan. -/
theorem modes (m : ModeCtl) (hc : m.config = s.modes.config) (hw : m.warning = s.modes.warning)
    (hs : m.scan = s.modes.scan) (h : (m.work : ℤ) ≤ s.modes.work + k) : s.Runs k { s with modes := m } :=
  ⟨rfl, by simp only [State.fixed, hc, hw]; rfl, fun _ _ => rfl, BitVec.or_self, by
    simp only [State.work, hs]; omega⟩

/-- The scan alone. -/
theorem scan (c : Option Scan)
    (h : (scanWork c s.table.working : ℤ) ≤ scanWork s.modes.scan s.table.working + k) :
    s.Runs k { s with modes := { s.modes with scan := c } } :=
  ⟨rfl, rfl, fun _ _ => rfl, BitVec.or_self, by
    simp only [State.work, ModeCtl.work, ModeCtl.modeWork]; omega⟩

theorem fuseWrite (g : Option Nat) : s.Runs 0 { s with protect := { s.protect with fuseWrite := g } } :=
  ⟨rfl, rfl, fun _ _ => rfl, BitVec.or_self, by simp only [State.work]; omega⟩

theorem setEvent (e : Event) : s.Runs 0 (s.setEvent e) :=
  ⟨rfl, rfl, fun _ _ => rfl, by
    simp only [State.setEvent, Window.set]
    rw [← BitVec.or_assoc, BitVec.or_self], by simp only [State.work]; simp⟩

theorem emit (m : Signal) (h : (m.weight : ℤ) ≤ k) : s.Runs k (s.emit m) :=
  signals s _ (by simp [signalsWork]; omega)

/-- A message given at the end. -/
theorem emits {i k : ℤ} {s t : State} (h : s.Runs i t) (m : Signal)
    (hk : i + m.weight ≤ k) : s.Runs k (t.emit m) :=
  h.comp (emit t m le_rfl) hk

theorem lanes (x : Six LaneCtl) (hsame : ∀ l, { x.get l with port := none, waiting := [] } =
      { s.lane l with port := none, waiting := [] })
    (hport : ∀ l, (s.lane l).port ≠ none → (x.get l).port = (s.lane l).port)
    (h : (lanesWork x : ℤ) ≤ lanesWork s.lanes + k) : s.Runs k { s with lanes := x } :=
  ⟨rfl, by
    have hx : (fun l => ({ x.get l with port := none, waiting := [] } : LaneCtl)) =
      fun l => { s.lane l with port := none, waiting := [] } := funext hsame
    simp only [State.fixed, State.lane] at hx ⊢
    rw [hx], hport, BitVec.or_self, by simp only [State.work]; omega⟩

end

end State.Runs

/-- The work at the ports falls by what it falls at one of them, the others having no more. -/
theorem lanesWork_le {x y : Six LaneCtl} (h : ∀ l, (y.get l).portWork ≤ (x.get l).portWork) :
    lanesWork y ≤ lanesWork x := by
  have h0 := h .l0
  have h1 := h .l1
  have h2 := h .l2
  have h3 := h .l3
  have h4 := h .l4
  have h5 := h .l5
  simp only [Six.get] at h0 h1 h2 h3 h4 h5
  simp only [lanesWork]
  omega

theorem lanesWork_set (x : Six LaneCtl) (l : Lane) (c : LaneCtl) :
    lanesWork (x.set l c) + (x.get l).portWork = lanesWork x + c.portWork := by
  cases l <;> simp only [lanesWork, Six.set, Six.get] <;> omega

theorem LaneCtl.portWork_give (c : LaneCtl) (r : LaneReq) :
    ({ c with waiting := c.waiting ++ [r] } : LaneCtl).portWork ≤ c.portWork := by
  have hne : (c.waiting ++ [r]).isEmpty = false := by simp
  cases hp : c.port.isSome <;> cases hw : c.waiting.isEmpty <;> simp [LaneCtl.portWork, hp, hw, hne]

namespace State.Runs

variable (s : State) {k : ℤ}

/-- One lane's port or waiting list changed. -/
theorem setLane (l : Lane) (c : LaneCtl)
    (hsame : ({ c with port := none, waiting := [] } : LaneCtl) = { s.lane l with port := none, waiting := [] })
    (hport : (s.lane l).port ≠ none → c.port = (s.lane l).port)
    (h : (c.portWork : ℤ) ≤ (s.lane l).portWork + k) : s.Runs k (s.setLane l c) := by
  have hwork := lanesWork_set s.lanes l c
  refine lanes s _ (fun j => ?_) (fun j => ?_) (by simp only [State.lane] at h; omega)
  · by_cases hj : j = l
    · subst hj; rw [Six.get_set_same]; exact hsame
    · rw [Six.get_set_other _ _ hj]; rfl
  · by_cases hj : j = l
    · subst hj; rw [Six.get_set_same]; exact hport
    · rw [Six.get_set_other _ _ hj]; exact fun _ => rfl

/-- A request given waits behind the others: no port changes (R6). -/
theorem give (l : Lane) (r : LaneReq) : s.Runs 0 (s.give l r) :=
  setLane s l _ rfl (fun _ => rfl) (by
    have := (s.lane l).portWork_give r
    omega)

theorem giveAll (r : LaneReq) (ls : List Lane) : s.Runs 0 (s.giveAll r ls) := by
  have hcase : ∀ l, (Six.build fun l => if ls.contains l then { s.lane l with waiting := (s.lane l).waiting ++ [r] }
      else s.lane l).get l = if ls.contains l then { s.lane l with waiting := (s.lane l).waiting ++ [r] }
      else s.lane l := fun l => Six.get_build _ l
  refine lanes s _ (fun l => ?_) (fun l _ => ?_) ?_
  · rw [hcase]; split <;> rfl
  · rw [hcase]; split <;> rfl
  · rw [add_zero]
    refine Int.ofNat_le.2 (lanesWork_le fun l => ?_)
    rw [hcase]
    split
    · exact (s.lane l).portWork_give r
    · exact le_rfl

end State.Runs

end Sys2Proof.Machine
end

