-- ==== Sys2Proof/Proofs/WorkOfUnits.lean ====
section
/-! What the coder, the mover, the port, the sheet processor and the patrol unit do inside a step, and the work each of
these lowers or leaves. -/

namespace Sys2Proof.Machine

open Sys2Proof

/-! ## The stripe coder (chapter 3) -/

theorem Coder.work_le (c : Coder) : c.work ≤ 114 := by
  unfold Coder.work
  cases c.judgeDue <;> simp

/-- With no row in the read assembly nothing is to judge. -/
theorem Coder.work_of_read_none {c : Coder} (h : c.read = none) : c.work = 0 := by
  simp [Coder.work, Coder.judgeDue, h]

/-- A judged row is not judged again. -/
theorem Coder.work_of_verdict {c : Coder} (h : c.verdict.isSome = true) : c.work = 0 := by
  have hne : c.verdict.isNone = false := by simpa [Option.isNone_eq_false_iff] using h
  simp [Coder.work, Coder.judgeDue, hne]

/-- A row whose page is being handed is not judged. -/
theorem Coder.work_of_handing {c : Coder} {r : ReadAsm} (hr : c.read = some r) (h : r.handing.isNone = false) :
    c.work = 0 := by
  simp [Coder.work, Coder.judgeDue, hr, h]

/-- A row that awaits a lane is not judged. -/
theorem Coder.work_of_awaited {c : Coder} {r : ReadAsm} {l : Lane} (hr : c.read = some r)
    (h : (r.slots.get l).isAwaited = true) : c.work = 0 := by
  have hany : Lane.all.any (fun l => (r.slots.get l).isAwaited) = true :=
    List.any_eq_true.2 ⟨l, by cases l <;> decide, h⟩
  simp [Coder.work, Coder.judgeDue, hr, hany]

/-- Whether a judgement is due is read off the read assembly and the verdict. -/
theorem Coder.work_congr {c d : Coder} (hr : d.read = c.read) (hv : d.verdict = c.verdict) : d.work = c.work := by
  simp only [Coder.work, Coder.judgeDue, hr, hv]

/-- Handing reordered: the same pages are handed. -/
theorem Coder.work_nowFirst (c : Coder) (l : Lane) : (c.nowFirst l).work = c.work := by
  cases hr : c.read <;> simp [Coder.work, Coder.judgeDue, Coder.nowFirst, hr]

namespace State.Runs

variable (s : State)

/-- The coder changed, its read assembly and verdict kept. -/
theorem coderBeside (c : Coder) (hr : c.read = s.coder.read) (hv : c.verdict = s.coder.verdict) :
    s.Runs 0 { s with coder := c } :=
  coder s c (by rw [Coder.work_congr hr hv]; omega)

/-- The read assembly emptied. -/
theorem coderEmptied (c : Coder) (hr : c.read = none) : s.Runs 0 { s with coder := c } :=
  coder s c (by rw [Coder.work_of_read_none hr]; omega)

theorem claimCoder (o : CoderOwner) : s.Runs 0 (s.claimCoder o) := by
  unfold State.claimCoder
  split
  · exact coderBeside s _ rfl rfl
  · exact coderBeside s _ rfl rfl

theorem releaseCoder : s.Runs 0 s.releaseCoder := coderEmptied s _ rfl

theorem releaseRead : s.Runs 0 s.releaseRead := coderEmptied s _ rfl

theorem closeRead : s.Runs 0 s.closeRead := coderEmptied s _ rfl

theorem abandonRow : s.Runs 0 s.abandonRow := coderBeside s _ rfl rfl

theorem withdrawWrite (row : Nat) : s.Runs 0 (s.withdrawWrite row) := coderBeside s _ rfl rfl

theorem withdrawLane (l : Lane) : s.Runs 0 (s.withdrawLane l) := coderBeside s _ rfl rfl

/-- However the coder changes, one judgement more falls due at most. -/
theorem coderAny (c : Coder) : s.Runs 114 { s with coder := c } := coder s c (by have := c.work_le; omega)

/-- An outcome may be the last that the row awaited: its judgement falls due. -/
theorem arriveOutcome (l : Lane) (o : PageOutcome) : s.Runs 114 (s.arriveOutcome l o) := by
  unfold State.arriveOutcome
  split
  · split
    · exact coderAny s _
    · exact (refl s).mono (by omega)
  · exact (refl s).mono (by omega)

/-- The pages of a copy go on to the lanes, or ROW LOADED is told. -/
theorem putCopy (r : ReadAsm) : s.Runs 1 (s.putCopy r) := by
  unfold State.putCopy
  dsimp only
  split
  · exact (releaseRead s).emits _ (by simp [Signal.weight])
  · next h => exact (coder s _ (k := 0) (by
      rw [Coder.work_of_handing rfl (Bool.eq_false_iff.2 h)]; omega)).mono (by omega)

theorem produceCopy (r : ReadAsm) (named : List Lane) (target : Nat × Nat) :
    s.Runs 1 (s.produceCopy r named target) := by
  unfold State.produceCopy
  dsimp only
  refine comp (i := 0) (j := 1) ?_ (putCopy _ _) (by omega)
  exact coderBeside s _ rfl rfl

theorem unnameLane (l : Lane) : s.Runs 1 (s.unnameLane l) := by
  unfold State.unnameLane
  split
  · split
    · exact putCopy s _
    · exact (refl s).mono (by omega)
  · exact (refl s).mono (by omega)

end State.Runs

/-- A needed page whose bytes the coder does not hold is awaited again once it is asked for. -/
theorem ReadAsm.lacking_ne_nil {r : ReadAsm} {p : Option PatchBytes} (h : r.verdict p = .needPages) :
    ∃ l, l ∈ r.lacking p := by
  unfold ReadAsm.verdict at h
  split_ifs at h with _ hne
  exact List.exists_mem_of_ne_nil _ (by simpa using hne)

theorem ReadAsm.compared_length (r : ReadAsm) : r.compared.length ≤ 2 := by
  unfold ReadAsm.compared
  dsimp only
  split
  · simp
  · cases pLane r.level <;> cases qLane r.level <;> (repeat' split) <;> simp

/-- The judgement of a row lowers the work: it was due, and then it is not. -/
theorem State.Reacts.coderJudges (s : State) : s.Reacts s.coderJudges := by
  unfold State.coderJudges
  split
  case isFalse => exact .idle s
  case isTrue hdue =>
    refine .of ?_
    have hwork : s.coder.work = 114 := by simp [Coder.work, hdue]
    unfold State.judge
    split
    · next hr => simp [Coder.judgeDue, hr] at hdue
    · next r hr =>
        have emptied : s.Runs (-114) s.releaseRead :=
          .coder s _ (by rw [hwork, Coder.work_of_read_none rfl]; omega)
        have judged {c : Coder} (hv : c.verdict.isSome = true) : s.Runs (-114) { s with coder := c } :=
          .coder s c (by rw [hwork, Coder.work_of_verdict hv]; omega)
        split
        · have hlen := r.compared_length
          exact emptied.emits _ (by simp [Signal.weight]; omega)
        · split
          · exact emptied.emits _ (by simp [Signal.weight])
          · exact (judged rfl).emits _ (by simp [Signal.weight])
        · split
          · exact emptied.emits _ (by simp [Signal.weight])
          · next hv =>
              obtain ⟨l, hl⟩ := ReadAsm.lacking_ne_nil hv
              refine State.Runs.emits (i := -114) (.coder s _ ?_) _ (by simp [Signal.weight])
              rw [hwork, Coder.work_of_awaited (l := l) rfl (by simp [hl, Slot.isAwaited])]
              omega
          · exact (judged rfl).emits _ (by simp [Signal.weight])

/-! ## The ports of the lanes (R6) -/

/-- A request placed fills a port. -/
theorem State.Reacts.placeOne (s : State) (l : Lane) : s.Reacts (s.placeOne l) := by
  intro t ht
  obtain ⟨⟨hp, -, -⟩, q, rest, hw, rfl⟩ := State.placeOne_some ht
  have hwork : (s.lane l).portWork = 1 := by simp [LaneCtl.portWork, hp, hw]
  refine State.Runs.comp (i := -1) (.setLane s l { s.lane l with port := some (.owner, q), waiting := rest } rfl
    (fun h => absurd hp h) ?_) (.coder _ (s.coder.nowFirst l) (k := 0) ?_) (by omega)
  · simp [LaneCtl.portWork, hp, hw]
  · rw [Coder.work_nowFirst]; simp

theorem State.Reacts.placeRequests (s : State) : s.Reacts s.placeRequests := by
  intro t ht
  obtain ⟨l, -, hl⟩ := List.exists_of_findSome?_eq_some ht
  exact State.Reacts.placeOne s l t hl

/-! ## The memory mover (chapter 8) -/

/-- At the chain's end no walk is due. -/
theorem Mover.walkWork_atEnd (m : Mover) (h : m.chain = .atEnd) : m.walkWork ≤ 1 := by
  have hno : (m.chain == .notStarted || m.chain == .exhausted) = false := by rw [h]; rfl
  cases hp : m.pendingEnding <;> simp [Mover.walkWork, hno, hp]

theorem Mover.fillWork_le (m : Mover) : m.fillWork ≤ 1 := by
  unfold Mover.fillWork
  cases (Nat.ble 1 m.free && Nat.ble 4 m.permit) <;> simp

theorem Mover.fillWork_eq_one {m : Mover} (hf : 1 ≤ m.free) (hp : 4 ≤ m.permit) : m.fillWork = 1 := by
  simp [Mover.fillWork, Nat.ble_eq_true_of_le hf, Nat.ble_eq_true_of_le hp]

theorem Mover.fillWork_eq_zero {m : Mover} (h : m.free < 1 ∨ m.permit < 4) : m.fillWork = 0 := by
  have hno : (Nat.ble 1 m.free && Nat.ble 4 m.permit) = false := by
    rw [Bool.eq_false_iff, ne_eq, Bool.and_eq_true, Nat.ble_eq, Nat.ble_eq]
    omega
  simp [Mover.fillWork, hno]

theorem Mover.work_reset : Mover.reset.work = 1 := by decide

theorem Mover.walkDue_iff (m : Mover) (h : m.walkDue = true) : m.cursor.isSome = true ∧ m.pendingEnding = none ∧
    m.access = none ∧ (m.chain = .notStarted ∨ m.chain = .exhausted) := by
  simp only [Mover.walkDue, Bool.and_eq_true, Option.isNone_iff_eq_none, Bool.or_eq_true, beq_iff_eq] at h
  obtain ⟨⟨⟨⟨⟨hc, hp⟩, ha⟩, -⟩, hn⟩, -⟩ := h
  exact ⟨hc, hp, ha, hn⟩

/-- A walk ends at the chain's end, at an ending, or with a read raised: it is not due again. -/
theorem State.Reacts.moverWalk (s : State) : s.Reacts s.moverWalk := by
  unfold State.moverWalk
  split
  case isFalse => exact .idle s
  case isTrue hdue =>
    obtain ⟨hc, hp, ha, hn⟩ := s.mover.walkDue_iff hdue
    have hwalk : s.mover.walkWork = 2 := by
      rcases hn with hn | hn <;> simp [Mover.walkWork, hc, hp, ha, hn]
    have key : ∀ m : Mover, m.phase = s.mover.phase → m.permit = s.mover.permit → m.fifo = s.mover.fifo →
        m.direction = s.mover.direction → m.walkWork ≤ 1 → (m.work : ℤ) ≤ s.mover.work + -1 := by
      intro m h1 h2 h3 h4 h5
      simp only [Mover.work, Mover.phaseWork, Mover.fillWork, Mover.fetchWork, Mover.free, h1, h2, h3, h4]
      omega
    refine .of (.mover s _ ?_)
    unfold Mover.walk
    split
    · next h => simp [h] at hc
    · split_ifs
      · exact key _ rfl rfl rfl rfl (Mover.walkWork_atEnd _ rfl)
      · exact key _ rfl rfl rfl rfl (by simp [Mover.walkWork])
      · exact key _ rfl rfl rfl rfl (by simp [Mover.walkWork])
      · exact key _ rfl rfl rfl rfl (by simp [Mover.walkWork, hp])

/-- The words of a fetch are taken once. -/
theorem State.Reacts.moverHandsFetch (s : State) : s.Reacts s.moverHandsFetch := by
  unfold State.moverHandsFetch
  dsimp only
  split
  case h_2 => exact .idle s
  case h_1 f w ws hd hf hq =>
    have key : ∀ fetch, s.Runs (-3) { s with mover := { s.mover with fifo := [], fetch := fetch } } := by
      intro fetch
      refine .mover s _ ?_
      have hle := Mover.fillWork_le { s.mover with fifo := [], fetch := fetch }
      simp only [Mover.work, Mover.phaseWork, Mover.walkWork, Mover.fetchWork, hd, hq] at hle ⊢
      simp
      omega
    refine .of ?_
    split
    · exact (key none).emits _ (by simp [Signal.weight])
    · exact (key _).mono (by omega)

/-- Fill words use up the room or the permit. -/
theorem Mover.work_filled {m : Mover} (b : Byte) (hd : m.direction = some .inbound)
    (hn : 0 < min m.free (m.permit / 4)) :
    (({ m with fifo := m.fifo ++ List.replicate (min m.free (m.permit / 4)) (fillWord b),
               permit := m.permit - 4 * min m.free (m.permit / 4) } : Mover).work : ℤ) ≤ m.work + -1 := by
  have hbefore : m.fillWork = 1 := Mover.fillWork_eq_one (by omega) (by omega)
  have hafter : ({ m with fifo := m.fifo ++ List.replicate (min m.free (m.permit / 4)) (fillWord b),
                          permit := m.permit - 4 * min m.free (m.permit / 4) } : Mover).fillWork = 0 := by
    refine Mover.fillWork_eq_zero ?_
    simp only [Mover.free, List.length_append, List.length_replicate] at hn ⊢
    omega
  have hfetch : ∀ q : List Word, ({ m with fifo := q, permit := m.permit - 4 * min m.free (m.permit / 4) } :
      Mover).fetchWork = 0 := by
    intro q
    simp only [Mover.fetchWork, hd]
    rfl
  have hrest : ∀ q p, ({ m with fifo := q, permit := p } : Mover).phaseWork = m.phaseWork ∧
      ({ m with fifo := q, permit := p } : Mover).walkWork = m.walkWork := fun _ _ => ⟨rfl, rfl⟩
  rw [Mover.work, Mover.work, hbefore, hafter, hfetch, (hrest _ _).1, (hrest _ _).2]
  omega

/-- An ending stands once for all. -/
theorem Mover.work_pending {m : Mover} (e : MoverEnding) (hp : m.pendingEnding = none) :
    (({ m with pendingEnding := some e } : Mover).work : ℤ) ≤ m.work + -1 := by
  have hafter : ({ m with pendingEnding := some e } : Mover).walkWork = 0 := rfl
  have hbefore : 0 < m.walkWork := by
    simp only [Mover.walkWork, hp]
    cases (m.cursor.isSome && m.access.isNone && (m.chain == .notStarted || m.chain == .exhausted)) <;> simp
  simp only [Mover.work, hafter, Mover.phaseWork, Mover.fillWork, Mover.fetchWork, Mover.free]
  omega

theorem State.Reacts.moverAtEnd (s : State) : s.Reacts s.moverAtEnd := by
  unfold State.moverAtEnd
  dsimp only
  split
  case isFalse => exact .idle s
  case isTrue hend =>
    have short : s.Reacts (some { s with mover := { s.mover with pendingEnding := some .shortChain } }) :=
      .of (.mover s _ (Mover.work_pending .shortChain hend.2.1))
    split
    · next hd =>
        split
        · split
          · split
            · next b _ hn => exact .of (.mover s _ (Mover.work_filled b hd hn))
            · exact .idle s
          · exact short
        · exact .idle s
    · split
      · exact short
      · exact .idle s
    · exact .idle s
    · exact .idle s

/-- FLUSHED, from a phase that is not idle (R159). -/
theorem State.Runs.moverFlushed {k : ℤ} (s : State) (h : 2 ≤ (s.mover.work : ℤ) + k) : s.Runs k s.moverFlushed := by
  refine State.Runs.emits (i := k - 1) (.mover s Mover.reset ?_) _ (by simp [Signal.weight])
  rw [Mover.work_reset]
  omega

theorem State.Reacts.moverFlushEnd (s : State) : s.Reacts s.moverFlushEnd := by
  unfold State.moverFlushEnd
  dsimp only
  split
  case isFalse => exact .idle s
  case isTrue h =>
    obtain ⟨hphase, -, -, -⟩ := h
    refine .of (.moverFlushed s ?_)
    simp only [Mover.work, Mover.phaseWork, hphase]
    omega

/-- An ending reported stops the transfer, or ends the flush. -/
theorem State.Reacts.moverReport (s : State) : s.Reacts s.moverReport := by
  unfold State.moverReport
  dsimp only
  have stops (e : MoverEnding) (h : s.mover.phase = .moving) :
      s.Runs (-1) (State.emit { s with mover := { s.mover with phase := .stopped } } (.moverEnding e)) := by
    refine State.Runs.emits (i := -2) (.mover s _ ?_) _ (by simp [Signal.weight])
    simp only [Mover.work, Mover.phaseWork, Mover.walkWork, Mover.fillWork, Mover.fetchWork, Mover.free, h]
    omega
  split
  · split
    · next e _ _ h => exact .of (stops e h.1)
    · exact .idle s
  · next e hp _ =>
      split
      · next h => exact .of (stops e h)
      · split
        · next h =>
            refine .of (State.Runs.comp (i := 1) (.emit s _ (by simp [Signal.weight])) (.moverFlushed (k := -2) _ ?_)
              (by omega))
            simp only [State.emit_mover, Mover.work, Mover.phaseWork, h]
            omega
        · exact .idle s
  · exact .idle s

/-- END (R159): a transfer goes on to a later phase; room in the FIFO may let fill words in again. -/
theorem State.Runs.endTransfer (s : State) : s.Runs 1 s.endTransfer := by
  unfold State.endTransfer
  dsimp only
  split
  · exact (State.Runs.refl s).mono (by omega)
  · next h =>
      split_ifs
      · refine .mover s _ ?_
        simp only [Mover.work, Mover.phaseWork, Mover.walkWork, Mover.fillWork, Mover.fetchWork, Mover.free, h]
        omega
      · refine .mover s _ ?_
        have hle := Mover.fillWork_le { s.mover with fifo := [], ended := true }
        simp only [Mover.work, Mover.phaseWork, Mover.walkWork, Mover.fetchWork] at hle ⊢
        simp
        omega
      · refine .moverFlushed s ?_
        simp only [Mover.work, Mover.phaseWork, h]
        omega
  · next h =>
      refine .moverFlushed s ?_
      simp only [Mover.work, Mover.phaseWork, h]
      omega
  · exact (State.Runs.refl s).mono (by omega)

theorem State.Runs.startFetch (s : State) (address words : Nat) (who : FetchFor) :
    s.Runs 1 (s.startFetch address words who) := by
  refine .mover s _ ?_
  have hle := Mover.fillWork_le { s.mover with
    permit := 4 * words, fetch := some { address := address, forWhom := who, got := [] } }
  simp only [Mover.work, Mover.phaseWork, Mover.walkWork, Mover.fetchWork] at hle ⊢
  omega

end Sys2Proof.Machine
end

