-- ==== Sys2Proof/Proofs/WorkOfWriter.lean ====
section
/-! What the row writer does inside a step, and the work it lowers or leaves. -/

namespace Sys2Proof.Machine

open Sys2Proof

/-! ## The rows in flight of a write (R88) -/

theorem Flight.work_le (f : Flight) : 14 ≤ f.work ∧ f.work ≤ 19 := by
  unfold Flight.work
  cases ((f.cond == .assembling || f.cond == .loaded) && !f.permitAsked) <;> simp

theorem Flight.work_of_asked {f : Flight} (h : f.permitAsked = true) : f.work = 14 := by
  simp [Flight.work, h]

theorem Flight.work_of_cond {f : Flight} (h : f.cond = .committed ∨ f.cond = .discarding) : f.work = 14 := by
  have hno : (f.cond == .assembling || f.cond == .loaded) = false := by rcases h with h | h <;> rw [h] <;> rfl
  simp [Flight.work, hno]

theorem Flight.work_of_loaded {f : Flight} (h : f.cond = .loaded) (ha : f.permitAsked = false) : f.work = 19 := by
  simp [Flight.work, h, ha]

/-- The rows of a list of flights. -/
def flightsWork (fs : List Flight) : Nat := (fs.map Flight.work).sum

theorem Writer.work_eq (w : Writer) :
    w.work = (bif w.go then 33 else 0) + flightsWork w.flights + endWork w.order.isSome w.ended := rfl

theorem flightsWork_map_le {fs : List Flight} {u : Flight → Flight} (h : ∀ f ∈ fs, (u f).work ≤ f.work) :
    flightsWork (fs.map u) ≤ flightsWork fs := by
  rw [flightsWork, flightsWork, List.map_map]
  exact List.sum_le_sum h

theorem flightsWork_filter_le (fs : List Flight) (p : Flight → Bool) : flightsWork (fs.filter p) ≤ flightsWork fs :=
  ((List.filter_sublist (p := p) (l := fs)).map Flight.work).sum_le_sum fun _ _ => Nat.zero_le _

/-- A row that leaves the list takes its work along. -/
theorem flightsWork_filter_lt {fs : List Flight} {p : Flight → Bool} {f : Flight} (hf : f ∈ fs) (hp : p f = false) :
    flightsWork (fs.filter p) + 14 ≤ flightsWork fs := by
  induction fs with
  | nil => simp at hf
  | cons g gs ih =>
      have hg := g.work_le
      rcases List.mem_cons.1 hf with rfl | hmem
      · have hle := flightsWork_filter_le gs p
        rw [List.filter_cons_of_neg (by simp [hp])]
        simp only [flightsWork, List.map_cons, List.sum_cons] at hle ⊢
        omega
      · have hrest := ih hmem
        by_cases hpg : p g = true
        · rw [List.filter_cons_of_pos hpg]
          simp only [flightsWork, List.map_cons, List.sum_cons] at hrest ⊢
          omega
        · rw [List.filter_cons_of_neg hpg]
          simp only [flightsWork, List.map_cons, List.sum_cons] at hrest ⊢
          omega

/-- A row whose permit is asked for needs no other. -/
theorem flightsWork_asked {fs : List Flight} {f : Flight} (hf : f ∈ fs) (hl : f.cond = .loaded)
    (ha : f.permitAsked = false) :
    flightsWork (fs.map (fun g => if g.row = f.row then { g with permitAsked := true } else g)) + 5 ≤
      flightsWork fs := by
  have hle : ∀ g : Flight, (if g.row = f.row then { g with permitAsked := true } else g).work ≤ g.work := by
    intro g
    split
    · rw [Flight.work_of_asked rfl]; exact g.work_le.1
    · exact le_rfl
  induction fs with
  | nil => simp at hf
  | cons g gs ih =>
      have hg := hle g
      rcases List.mem_cons.1 hf with rfl | hmem
      · have hrest := flightsWork_map_le (fs := gs) fun g _ => hle g
        have hf19 := Flight.work_of_loaded hl ha
        have hf14 : ({ f with permitAsked := true } : Flight).work = 14 := Flight.work_of_asked rfl
        simp only [flightsWork, List.map_cons, List.sum_cons, if_true] at hrest ⊢
        omega
      · have hrest := ih hmem
        simp only [flightsWork, List.map_cons, List.sum_cons] at hrest ⊢
        omega

namespace State.Runs

variable (s : State) {k : ℤ}

/-- The row writer changed beside its GO, its rows, its order and END. -/
theorem writerBeside (w : Writer) (hg : w.go = s.writer.go) (hf : w.flights = s.writer.flights)
    (ho : w.order = s.writer.order) (he : w.ended = s.writer.ended) : s.Runs 0 { s with writer := w } :=
  writer s w (by rw [Writer.work_eq, Writer.work_eq, hg, hf, ho, he]; omega)

/-- The row writer with other rows in flight, which hold no more work. -/
theorem writerFlights (w : Writer) (hg : w.go = s.writer.go) (ho : w.order = s.writer.order)
    (he : w.ended = s.writer.ended) (h : (flightsWork w.flights : ℤ) ≤ flightsWork s.writer.flights + k) :
    s.Runs k { s with writer := w } :=
  writer s w (by rw [Writer.work_eq, Writer.work_eq, hg, ho, he]; omega)

theorem writerMap (u : Flight → Flight) (h : ∀ f, (u f).work ≤ f.work) :
    s.Runs 0 { s with writer := { s.writer with flights := s.writer.flights.map u } } :=
  writerFlights s _ rfl rfl rfl (by have := flightsWork_map_le (fs := s.writer.flights) fun f _ => h f; simpa using this)

theorem writerMapRow (row : Nat) (u : Flight → Flight) (h : ∀ f, (u f).work ≤ f.work) :
    s.Runs 0 { s with writer := s.writer.mapRow row u } :=
  writerMap s (fun g => if g.row = row then u g else g) fun g => by
    split
    · exact h g
    · exact le_rfl

theorem writerFilter (p : Flight → Bool) :
    s.Runs 0 { s with writer := { s.writer with flights := s.writer.flights.filter p } } :=
  writerFlights s _ rfl rfl rfl (by have := flightsWork_filter_le s.writer.flights p; simpa using this)

/-- An ending set, or another field beside the work. -/
theorem writerEnding (st : OrderStatus) : s.Runs 0 { s with writer := s.writer.setEnding st } := by
  unfold Writer.setEnding
  split
  · exact refl s
  · exact writerBeside s _ rfl rfl rfl rfl

/-! ## Discards (R101, R105) -/

theorem discardFlight (f : Flight) : s.Runs 0 (s.discardFlight f) := by
  unfold State.discardFlight
  dsimp only
  have hdrop := writerFilter s (fun g => g.row != f.row)
  split
  · split
    · exact (hdrop.also (abandonRow _)).also (giveAll _ _ _)
    · exact hdrop.also (withdrawWrite _ _)
  · exact hdrop.also (giveAll _ _ _)
  · exact hdrop
  · exact hdrop

theorem discardAll (fs : List Flight) : s.Runs 0 (s.discardAll fs) := by
  induction fs generalizing s with
  | nil => exact refl s
  | cons f fs ih => exact (discardFlight s f).comp (ih _) (by omega)

theorem failRow (n : Nat) (f : Flight) : s.Runs 0 (s.failRow n f) := by
  unfold State.failRow
  split
  · exact refl s
  · split
    · refine comp (i := 0) (j := 0) (writerMapRow s f.row _ fun g => ?_) (giveAll _ _ _) (by omega)
      rw [Flight.work_of_cond (.inr rfl)]
      exact g.work_le.1
    · exact discardFlight s f
    · exact discardFlight s f
    · exact refl s

theorem failRows (n : Nat) (fs : List Flight) : s.Runs 0 (s.failRows n fs) := by
  induction fs generalizing s with
  | nil => exact refl s
  | cons f fs ih => exact (failRow s n f).comp (ih _) (by omega)

theorem writerFailed (n : Nat) : s.Runs 0 (s.writerFailed n) := by
  unfold State.writerFailed
  dsimp only
  split
  · exact failRows s n _
  · refine comp (i := 0) (j := 0) ?_ (failRows _ n _) (by omega)
    exact writerBeside s _ rfl rfl rfl rfl

/-! ## What the row writer is told -/

theorem writerLoaded (ls : List Lane) : s.Runs 0 (s.writerLoaded ls) := by
  unfold State.writerLoaded
  refine comp (i := 0) (j := 0) (writerMap s _ fun f => ?_) (giveAll _ _ _) (by omega)
  split
  · next h =>
      simp only [Flight.work, h]
      exact le_rfl
  · exact le_rfl

theorem writerPermit (granted : Bool) : s.Runs 0 (s.writerPermit granted) := by
  unfold State.writerPermit
  dsimp only
  split
  · exact refl s
  · split_ifs
    · exact (writerEnding s _).also (discardFlight _ _)
    · exact (writerEnding s _).also (discardFlight _ _)
    · refine comp (i := 0) (j := 0) (writerMapRow s _ _ fun g => ?_) (giveAll _ _ _) (by omega)
      split
      · rw [Flight.work_of_cond (.inl rfl)]
        exact g.work_le.1
      · exact le_rfl

theorem writerFail (l : Lane) (n : Nat) : s.Runs 13 (s.writerFail l n) := by
  unfold State.writerFail
  dsimp only
  have marked : s.Runs 0 { s with writer := { s.writer with
      lanesFailed := addLane s.writer.lanesFailed l,
      flights := s.writer.flights.map (fun f => { f with
        awaited := if n ≤ f.row then dropLane f.awaited l else f.awaited,
        failed := if f.row = n then addLane f.failed l else f.failed }) } } := by
    refine writerFlights s _ rfl rfl rfl ?_
    rw [add_zero]
    exact Int.ofNat_le.2 (flightsWork_map_le fun _ _ => le_rfl)
  refine also ?_ (withdrawLane _ _)
  refine also ?_ (give _ _ _)
  split
  · refine emits (i := 0) ?_ _ (by simp [Signal.weight])
    refine marked.also ?_
    exact writerBeside _ _ rfl rfl rfl rfl
  · split
    · exact (marked.also (failRows _ _ _)).mono (by omega)
    · exact marked.mono (by omega)

theorem writerReport (l : Lane) (op : LastOp) : s.Runs 13 (s.writerReport l op) := by
  unfold State.writerReport
  split
  · exact writerFail s l op.row
  · refine mono (i := 0) ?_ (by omega)
    exact writerMapRow s _ _ fun _ => le_rfl

theorem writerAnswer (u : Update) (applied : Bool) : s.Runs 0 (s.writerAnswer u applied) := by
  unfold State.writerAnswer
  split
  · split
    · exact refl s
    · exact writerBeside s _ rfl rfl rfl rfl
  · have hwaits : s.Runs 0 (if applied || s.table.storeFault then s
        else { s with writer := { s.writer with lostWaits := s.writer.lostWaits - 1 } }) := by
      split
      · exact refl s
      · exact writerBeside s _ rfl rfl rfl rfl
    dsimp only
    generalize (if (applied || s.table.storeFault) = true then s else _) = t at hwaits ⊢
    split
    · exact hwaits.also (writerFailed _ _)
    · exact hwaits
  · exact refl s

theorem writerNotice (what : NoticeFor) (stored : Bool) : s.Runs 0 (s.writerNotice what stored) := by
  unfold State.writerNotice
  split
  · have hopened : s.Runs 0 { s with writer := { s.writer with openWait := false } } := writerBeside s _ rfl rfl rfl rfl
    dsimp only
    split
    · exact hopened
    · exact (hopened.also (writerEnding _ _)).also (discardAll _ _)
  · have hlost : s.Runs 0 { s with writer := { s.writer with lostWaits := s.writer.lostWaits - 1 } } :=
      writerBeside s _ rfl rfl rfl rfl
    cases stored
    · exact hlost.also (writerEnding _ _)
    · exact hlost
  · exact refl s

theorem writerMoverEnding (e : MoverEnding) : s.Runs 0 (s.writerMoverEnding e) :=
  (writerEnding s _).also (discardAll _ _)

theorem dropQuestion : s.Runs 0 s.dropQuestion := sheetsBeside s _ rfl rfl rfl

end State.Runs

/-! ## The row writer's reactions -/

namespace State.Reacts

variable (s : State)

/-- A row that begins is one in flight, and may open its band. -/
theorem beginRow_runs (hgo : s.writer.go = true) :
    State.Runs (-1) s (State.beginRow { s with writer := { s.writer with go := false } }) := by
  unfold State.beginRow
  dsimp only
  have hadded : ∀ (w : Writer) (c : Coder) (f : Flight), w.go = false → w.flights = s.writer.flights ++ [f] →
      w.order = s.writer.order → w.ended = s.writer.ended → c.read = s.coder.read → c.verdict = s.coder.verdict →
      s.Runs (-14) { s with writer := w, coder := c } := by
    intro w c f hg hfl ho he hr hv
    have hfw := f.work_le.2
    refine State.Runs.comp (i := -14) (j := 0) (.writer s w ?_) (.coderBeside _ c hr hv) (by omega)
    rw [Writer.work_eq, Writer.work_eq, hg, hfl, ho, he, hgo]
    simp only [flightsWork, List.map_append, List.sum_append, List.map_cons, List.map_nil, List.sum_cons, List.sum_nil,
      cond_true, cond_false]
    omega
  split
  · refine State.Runs.emits (i := -14) ?_ _ (by simp [Signal.weight])
    exact hadded _ _ _ rfl rfl rfl rfl rfl rfl
  · refine State.Runs.mono (i := -14) ?_ (by omega)
    exact hadded _ _ _ rfl rfl rfl rfl rfl rfl

theorem writerBegin : s.Reacts s.writerBegin := by
  unfold State.writerBegin
  dsimp only
  split
  case isFalse => exact .idle s
  case isTrue h =>
    have hgo : s.writer.go = true := h.1
    have hdone : s.Runs (-33) { s with writer := { s.writer with go := false } } := by
      refine .writer s _ ?_
      rw [Writer.work_eq, Writer.work_eq, hgo]
      simp only [cond_true, cond_false]
      omega
    split_ifs
    · exact .of (hdone.mono (by omega))
    · exact .of ((hdone.also (.writerEnding _ _)).mono (by omega))
    · exact .of (beginRow_runs s hgo)

theorem commitDue_spec {w : Writer} {f : Flight} (h : w.commitDue = some f) :
    f ∈ w.flights ∧ f.cond = .loaded ∧ f.permitAsked = false := by
  unfold Writer.commitDue at h
  grind

theorem writerCommit : s.Reacts s.writerCommit := by
  unfold State.writerCommit
  split
  case h_2 => exact .idle s
  case h_1 f hf =>
    obtain ⟨hmem, hl, ha⟩ := commitDue_spec hf
    refine .of ?_
    refine State.Runs.emits (i := -5) ?_ _ (by simp [Signal.weight])
    refine .writerFlights s _ rfl rfl rfl ?_
    have hasked := flightsWork_asked hmem hl ha
    simp only [Writer.mapRow]
    omega

theorem writerComplete : s.Reacts s.writerComplete := by
  unfold State.writerComplete
  dsimp only
  split
  case h_2 => exact .idle s
  case h_1 f rest hf =>
    split
    · refine .of ?_
      refine State.Runs.emits (i := -14) ?_ _ (by simp [Signal.weight])
      refine .writerFlights s _ rfl rfl rfl ?_
      have hw := f.work_le
      simp only [hf, flightsWork, List.map_cons, List.sum_cons]
      omega
    · exact .idle s

theorem writerDiscarded : s.Reacts s.writerDiscarded := by
  unfold State.writerDiscarded
  dsimp only
  split
  case isFalse => exact .idle s
  case isTrue h =>
    obtain ⟨f, hf, hgone⟩ := List.any_eq_true.1 h
    refine .of (.writerFlights s _ rfl rfl rfl ?_)
    have hlt := flightsWork_filter_lt (p := fun f => !(decide (f.cond = .discarding) && f.awaited.isEmpty)) hf
      (by rw [hgone]; rfl)
    dsimp only
    omega

theorem writerEnd : s.Reacts s.writerEnd := by
  unfold State.writerEnd
  dsimp only
  split
  case isFalse => exact .idle s
  case isTrue h =>
    obtain ⟨ho, he, -⟩ := h
    have hended : s.Runs (-2) { s with writer := { s.writer with ended := true } } := by
      refine .writer s _ ?_
      rw [Writer.work_eq, Writer.work_eq, ho, he]
      simp only [endWork, cond_true, cond_false]
      omega
    exact .of ((hended.also (.dropQuestion _)).comp (.endTransfer _) (by omega))

theorem writerFinish : s.Reacts s.writerFinish := by
  unfold State.writerFinish
  dsimp only
  split
  case isFalse => exact .idle s
  case isTrue h =>
    have hreset : s.Runs (-2) { s with writer := Writer.reset } := by
      refine .writer s _ ?_
      have h0 : Writer.reset.work = 0 := by decide
      rw [h0, Writer.work_eq, h.1]
      simp only [endWork, cond_true]
      omega
    exact .of ((hreset.also (.releaseCoder _)).emits _ (by simp [Signal.weight]))

end State.Reacts

end Sys2Proof.Machine
end

