-- ==== Sys2Proof/Proofs/WorkOfReader.lean ====
section
/-! What the row reader does inside a step, for READ ROWS and COPY ROWS, and the work it lowers or leaves. -/

namespace Sys2Proof.Machine

open Sys2Proof

/-! ## The row reader's context (R109) -/

@[simp] theorem Reader.setEnding_go (r : Reader) (st : OrderStatus) : (r.setEnding st).go = r.go := by
  unfold Reader.setEnding
  split <;> rfl

@[simp] theorem Reader.setEnding_copyRow (r : Reader) (st : OrderStatus) : (r.setEnding st).copyRow = r.copyRow := by
  unfold Reader.setEnding
  split <;> rfl

@[simp] theorem Reader.setEnding_order (r : Reader) (st : OrderStatus) : (r.setEnding st).order = r.order := by
  unfold Reader.setEnding
  split <;> rfl

@[simp] theorem Reader.setEnding_ended (r : Reader) (st : OrderStatus) : (r.setEnding st).ended = r.ended := by
  unfold Reader.setEnding
  split <;> rfl

/-! ## The copy row in flight (R122 to R127) -/

theorem CopyRow.work_le (c : CopyRow) : 14 ≤ c.work ∧ c.work ≤ 24 := by
  unfold CopyRow.work
  cases c.closed
  · cases c.phase
    · simp
    · simp
    · cases (c.committed || c.permitAsked) <;> simp
  · simp

theorem CopyRow.work_closed {c : CopyRow} (h : c.closed = true) : c.work = 14 := by simp [CopyRow.work, h]

theorem CopyRow.work_prepare {c : CopyRow} (hc : c.closed = false) (h : c.phase = .prepare) : c.work = 24 := by
  simp [CopyRow.work, hc, h]

theorem CopyRow.work_permit {c : CopyRow} (hc : c.closed = false) (h : c.phase = .permit) : c.work = 19 := by
  simp [CopyRow.work, hc, h]

theorem CopyRow.work_moving_le {c : CopyRow} (h : c.phase = .moving) : c.work ≤ 19 := by
  unfold CopyRow.work
  cases c.closed <;> cases (c.committed || c.permitAsked) <;> simp [h]

/-- A row that moves, its permit for the commit not yet asked for. -/
theorem CopyRow.work_uncommitted {c : CopyRow} (hc : c.closed = false) (h : c.phase = .moving)
    (hm : c.committed = false) (hp : c.permitAsked = false) : c.work = 19 := by
  simp [CopyRow.work, hc, h, hm, hp]

/-- A row that moves, its permit for the commit asked for or its pages committed. -/
theorem CopyRow.work_settled {c : CopyRow} (h : c.phase = .moving) (hm : c.committed = true ∨ c.permitAsked = true) :
    c.work = 14 := by
  cases hc : c.closed
  · rcases hm with hm | hm <;> simp [CopyRow.work, hc, h, hm]
  · exact CopyRow.work_closed hc

theorem Reader.work_eq (r : Reader) :
    r.work = (bif r.go then 39 else 0) + copyWork r.copyRow + endWork r.order.isSome r.ended := rfl

/-- Attention is asked for by a message alone. -/
theorem State.readerAttention_reader (s : State) (due : Bool) : (s.readerAttention due).reader = s.reader := by
  unfold State.readerAttention
  split <;> rfl

namespace State.Runs

variable (s : State) {k : ℤ}

/-- The row reader changed beside its GO, its copy row, its order and END. -/
theorem readerBeside (r : Reader) (hg : r.go = s.reader.go) (hc : r.copyRow = s.reader.copyRow)
    (ho : r.order = s.reader.order) (he : r.ended = s.reader.ended) : s.Runs 0 { s with reader := r } :=
  reader s r (by rw [Reader.work_eq, Reader.work_eq, hg, hc, ho, he]; omega)

/-- The row reader with a copy row that holds no more work. -/
theorem readerCopy (r : Reader) (hg : r.go = s.reader.go) (ho : r.order = s.reader.order)
    (he : r.ended = s.reader.ended)
    (h : (copyWork r.copyRow : ℤ) ≤ copyWork s.reader.copyRow + k) :
    s.Runs k { s with reader := r } :=
  reader s r (by rw [Reader.work_eq, Reader.work_eq, hg, ho, he]; omega)

/-- The row reader with its copy row changed. -/
theorem readerCopySome {c d : CopyRow} (r : Reader) (hc : s.reader.copyRow = some c) (hd : r.copyRow = some d)
    (hg : r.go = s.reader.go) (ho : r.order = s.reader.order) (he : r.ended = s.reader.ended)
    (h : (d.work : ℤ) ≤ c.work + k) : s.Runs k { s with reader := r } :=
  readerCopy s r hg ho he (by rw [hc, hd]; exact h)

theorem readerEnding (st : OrderStatus) : s.Runs 0 { s with reader := s.reader.setEnding st } :=
  readerBeside s _ (Reader.setEnding_go _ _) (Reader.setEnding_copyRow _ _) (Reader.setEnding_order _ _)
    (Reader.setEnding_ended _ _)

theorem readerAttention (due : Bool) : s.Runs 13 (s.readerAttention due) := by
  unfold State.readerAttention
  split
  · exact (refl s).emits _ (by simp [Signal.weight])
  · exact (refl s).mono (by omega)

theorem readerCount (rep : RowReport) : s.Runs 13 (s.readerCount rep) := by
  unfold State.readerCount
  refine comp (i := 0) (j := 13) ?_ (readerAttention _ _) (by omega)
  exact readerBeside s _ rfl rfl rfl rfl

/-! ## READ ROWS (6.2) -/

theorem giveReadRow (row : Nat) (lanes : List Lane) : s.Runs 0 (s.giveReadRow row lanes) := coderBeside s _ rfl rfl

theorem beginRead : s.Runs 0 s.beginRead := by
  unfold State.beginRead
  dsimp only
  have hread : ∀ r : Reader, r.go = s.reader.go → r.copyRow = s.reader.copyRow → r.order = s.reader.order →
      r.ended = s.reader.ended → ∀ q ls, s.Runs 0 (State.giveAll { s with reader := r } q ls) := fun r hg hc ho he q ls =>
    (readerBeside s r hg hc ho he).also (giveAll _ q ls)
  split
  · refine also ?_ (giveReadRow _ _ _)
    refine hread _ ?_ ?_ ?_ ?_ _ _ <;> rfl
  · refine hread _ ?_ ?_ ?_ ?_ _ _ <;> rfl

theorem readJudged (rep : RowReport) : s.Runs 13 (s.readJudged rep) := by
  unfold State.readJudged
  dsimp only
  have hcount := readerCount s rep
  generalize s.readerCount rep = t at hcount ⊢
  split
  · refine hcount.also (readerBeside t _ ?_ ?_ ?_ ?_) <;> simp
  · split
    · exact hcount.also (readerBeside t _ rfl rfl rfl rfl)
    · exact hcount

theorem readDelivered : s.Runs 0 s.readDelivered := by
  unfold State.readDelivered
  dsimp only
  have hdrop : s.Runs 0 { s with reader := { s.reader with flights := s.reader.flights.drop 1 } } :=
    readerBeside s _ rfl rfl rfl rfl
  split
  · exact hdrop.also (giveReadRow _ _ _)
  · exact hdrop

theorem readWritten : s.Runs 0 s.readWritten := readerBeside s _ rfl rfl rfl rfl

theorem readMoverEnding (e : MoverEnding) : s.Runs 0 (s.readMoverEnding e) := by
  unfold State.readMoverEnding
  refine also ?_ (closeRead _)
  refine readerBeside s _ ?_ ?_ ?_ ?_ <;> simp

/-! ## Closing a copy row (R123, R127) -/

/-- A copy row closed asks for no permit any more. -/
theorem closeCopyOf {c : CopyRow} (h : s.reader.copyRow = some c) (hc : c.closed = false) :
    s.Runs (14 - c.work) s.closeCopy := by
  unfold State.closeCopy
  simp only [h, hc, Bool.false_eq_true, if_false]
  have hclosed : s.Runs (14 - c.work) { s with reader := { s.reader with
      copyRow := some { c with closed := true, fetching := false, permitAsked := false } } } := by
    refine readerCopySome s _ h rfl rfl rfl rfl ?_
    rw [CopyRow.work_closed rfl]
    omega
  refine also ?_ (giveAll _ _ _)
  split
  · exact hclosed.also (closeRead _)
  · exact hclosed

theorem closeCopy : s.Runs 0 s.closeCopy := by
  cases h : s.reader.copyRow with
  | none => simpa [State.closeCopy, h] using refl s
  | some c =>
      cases hc : c.closed with
      | true => simpa [State.closeCopy, h, hc] using refl s
      | false =>
          have hle := c.work_le
          exact (closeCopyOf s h hc).mono (by omega)

theorem endCopyRow (st : OrderStatus) : s.Runs 0 (s.endCopyRow st) := (readerEnding s st).also (closeCopy _)

/-! ## The steps of a copy row (R123 to R125) -/

theorem giveCopyRow {c : CopyRow} (h : s.reader.copyRow = some c) (reads : List Lane) :
    s.Runs 0 (s.giveCopyRow c reads) := by
  unfold State.giveCopyRow
  refine also ?_ (giveAll _ _ _)
  refine also (t := { s with reader := { s.reader with copyRow := some { c with given := true, reads := reads } } }) ?_ ?_
  · exact readerCopySome s _ h rfl rfl rfl rfl (by rw [add_zero]; exact le_rfl)
  · exact coderBeside _ _ rfl rfl

theorem fetchPatch (c : CopyRow) : s.Runs 1 (s.fetchPatch c) := by
  unfold State.fetchPatch
  split
  · refine comp (i := 0) (j := 1) ?_ (startFetch _ _ _ _) (by omega)
    refine readerCopy s _ rfl rfl rfl ?_
    cases s.reader.copyRow <;> simp [copyWork, CopyRow.work]
  · exact (refl s).mono (by omega)

theorem passOutcomes (c : CopyRow) (ls : List Lane) : s.Runs (114 * ls.length) (s.passOutcomes c ls) := by
  induction ls generalizing s with
  | nil => exact refl s
  | cons l ls ih =>
      refine comp (i := 114) (j := 114 * ls.length) ?_ (ih _) (by simp; omega)
      split
      · exact arriveOutcome s l _
      · exact (refl s).mono (by omega)

theorem readerBegun (b : RowBegin) : s.Runs 684 (s.readerBegun b) := by
  unfold State.readerBegun
  split
  · exact (giveAll s _ _).mono (by omega)
  · split
    · exact (giveAll s _ _).comp (j := 684) (passOutcomes _ _ Lane.all) (by omega)
    · exact (refl s).mono (by omega)
  · exact (giveAll s _ _).mono (by omega)

theorem produceRow (c : CopyRow) : s.Runs 1 (s.produceRow c) := by
  unfold State.produceRow
  split
  · exact produceCopy s _ _ _
  · exact (refl s).mono (by omega)

theorem patchDescriptor (ws : List Word) : s.Runs 0 (s.patchDescriptor ws) := by
  unfold State.patchDescriptor
  dsimp only
  split
  · refine also ?_ (claimCoder _ _)
    exact readerBeside s _ rfl rfl rfl rfl
  · exact readerEnding s _

theorem patchBytes (ws : List Word) : s.Runs 1 (s.patchBytes ws) := by
  unfold State.patchBytes
  split
  · next c hc =>
      split
      · dsimp only
        split
        · have hfetched : ∀ d : Coder, d.read = s.coder.read → d.verdict = s.coder.verdict →
              s.Runs 0 { s with
                reader := { s.reader with copyRow := some { c with fetching := false } }, coder := d } := by
            intro d hr hv
            refine also (t := { s with reader := { s.reader with copyRow := some { c with fetching := false } } })
              (readerCopySome s _ hc rfl rfl rfl rfl (by rw [add_zero]; exact le_rfl)) (coderBeside _ d hr hv)
          split
          · refine comp (i := 0) (j := 1) ?_ (produceRow _ _) (by omega)
            exact hfetched _ rfl rfl
          · refine mono (i := 0) ?_ (by omega)
            exact hfetched _ rfl rfl
        · exact (refl s).mono (by omega)
      · exact (refl s).mono (by omega)
  · exact (refl s).mono (by omega)

theorem giveMoves {c : CopyRow} (h : s.reader.copyRow = some c) (hp : c.phase = .permit) :
    s.Runs 0 (s.giveMoves c) := by
  unfold State.giveMoves
  refine also ?_ (giveAll _ _ _)
  refine readerCopySome s _ h rfl rfl rfl rfl ?_
  rw [add_zero]
  have hle : ∀ d : CopyRow, d.closed = c.closed → d.phase = .moving → d.work ≤ c.work := by
    intro d hd hm
    by_cases hc : c.closed = true
    · rw [CopyRow.work_closed hc, CopyRow.work_closed (hd.trans hc)]
    · rw [CopyRow.work_permit (Bool.eq_false_iff.2 hc) hp]
      exact CopyRow.work_moving_le hm
  exact Int.ofNat_le.2 (hle _ rfl rfl)

theorem giveCommits {c : CopyRow} (h : s.reader.copyRow = some c) (hp : c.phase = .moving) :
    s.Runs 0 (s.giveCommits c) := by
  unfold State.giveCommits
  refine also ?_ (giveAll _ _ _)
  refine readerCopySome s _ h rfl rfl rfl rfl ?_
  rw [add_zero]
  have hle : ∀ d : CopyRow, d.phase = .moving → d.committed = true → d.work ≤ c.work := fun d hm hd =>
    (CopyRow.work_settled hm (.inl hd)).trans_le c.work_le.1
  exact Int.ofNat_le.2 (hle _ hp rfl)

theorem readerPermit (granted : Bool) : s.Runs 0 (s.readerPermit granted) := by
  unfold State.readerPermit
  split
  · next c hc =>
      split
      · split
        · exact endCopyRow s _
        · split
          · exact endCopyRow s _
          · split
            · next hp => exact giveMoves s hc hp
            · next hp => exact giveCommits s hc hp
            · exact refl s
      · exact refl s
  · exact refl s

/-! ## Reports (R124, R126) -/

theorem copyFail (l : Lane) : s.Runs 14 (s.copyFail l) := by
  unfold State.copyFail
  split
  · exact (give s _ _).mono (by omega)
  · next c hc =>
      dsimp only
      have hfailed : ∀ r : Reader, r.go = s.reader.go → r.order = s.reader.order → r.ended = s.reader.ended →
          r.copyRow = some { c with awaited := dropLane c.awaited l, failed := addLane c.failed l } →
          s.Runs 0 { s with reader := r } := fun r hg ho he hr =>
        readerCopySome s r hc hr hg ho he (by rw [add_zero]; exact le_rfl)
      refine comp (i := 13) (j := 1) ?_ (unnameLane _ _) (by omega)
      refine also ?_ (give _ _ _)
      split
      · refine emits (i := 0) ?_ _ (by simp [Signal.weight])
        exact hfailed _ rfl rfl rfl rfl
      · refine mono (i := 0) ?_ (by omega)
        exact hfailed _ rfl rfl rfl rfl

theorem copyProgramReport (l : Lane) (op : LastOp) : s.Runs 14 (s.copyProgramReport l op) := by
  unfold State.copyProgramReport
  split
  · exact copyFail s l
  · refine mono (i := 0) (readerCopy s _ rfl rfl rfl ?_) (by omega)
    cases s.reader.copyRow <;> simp [copyWork, CopyRow.work]

theorem moveReport (l : Lane) (op : LastOp) (outcome : Option PageOutcome) : s.Runs 141 (s.moveReport l op outcome) := by
  unfold State.moveReport
  split
  · exact (refl s).mono (by omega)
  · next c hc =>
      dsimp only
      have report : ∀ t, s.Runs 127 t → s.Runs 141 (if op.outcome = .fail then t.copyFail l else t) := by
        intro t ht
        split
        · exact ht.comp (copyFail t l) (by omega)
        · exact ht.mono (by omega)
      refine report _ ?_
      split
      · refine comp (i := 13) (j := 114) ?_ (arriveOutcome _ _ _) (by omega)
        refine comp (i := 0) (j := 13) ?_ (readerAttention _ _) (by omega)
        exact readerCopySome s _ hc rfl rfl rfl rfl (by rw [add_zero]; exact le_rfl)
      · split
        · refine comp (i := 13) (j := 0) ?_ (giveCopyRow _ (by rw [State.readerAttention_reader]) _) (by omega)
          refine comp (i := 0) (j := 13) ?_ (readerAttention _ _) (by omega)
          exact readerCopySome s _ hc rfl rfl rfl rfl (by rw [add_zero]; exact le_rfl)
        · refine comp (i := 0) (j := 13) ?_ (readerAttention _ _) (by omega)
          exact readerCopySome s _ hc rfl rfl rfl rfl (by rw [add_zero]; exact le_rfl)

theorem copyFailed (row : Nat) : s.Runs 0 (s.copyFailed row) := by
  unfold State.copyFailed
  split
  · exact refl s
  · refine also ?_ (closeCopy _)
    exact readerBeside s _ rfl rfl rfl rfl

theorem readerAnswer (u : Update) (applied : Bool) : s.Runs 0 (s.readerAnswer u applied) := by
  unfold State.readerAnswer
  split
  · split
    · exact refl s
    · exact readerBeside s _ rfl rfl rfl rfl
  · have hwaits : s.Runs 0 (if applied || s.table.storeFault then s
        else { s with reader := { s.reader with lostWaits := s.reader.lostWaits - 1 } }) := by
      split
      · exact refl s
      · exact readerBeside s _ rfl rfl rfl rfl
    dsimp only
    generalize (if (applied || s.table.storeFault) = true then s else _) = t at hwaits ⊢
    split
    · exact hwaits.also (copyFailed _ _)
    · exact hwaits
  · exact refl s

/-- A FAULT for OPEN is kept in the row in flight, or ends the order. -/
theorem openFailed_work (r : Reader) : r.openFailed.work = r.work := by
  cases h : r.copyRow with
  | some c =>
      rw [Reader.openFailed_row h, Reader.work_eq, Reader.work_eq, h]
      rfl
  | none => rw [Reader.openFailed_none h, Reader.work_eq, Reader.work_eq]; simp

theorem readerNotice (what : NoticeFor) (stored : Bool) : s.Runs 0 (s.readerNotice what stored) := by
  unfold State.readerNotice
  split
  · have hopened : s.Runs 0 { s with reader := { s.reader with openWait := false } } :=
      readerBeside s _ rfl rfl rfl rfl
    cases stored
    · refine hopened.also (reader _ _ ?_)
      rw [add_zero]
      exact Int.ofNat_le.2 (openFailed_work _).le
    · exact hopened
  · have hlost : s.Runs 0 { s with reader := { s.reader with lostWaits := s.reader.lostWaits - 1 } } :=
      readerBeside s _ rfl rfl rfl rfl
    cases stored
    · exact hlost.also (readerEnding _ _)
    · exact hlost
  · exact refl s

theorem copyJudged (rep : RowReport) : s.Runs 14 (s.copyJudged rep) := by
  unfold State.copyJudged
  split
  · exact (refl s).mono (by omega)
  · next c hc =>
      dsimp only
      have hjudged : s.Runs 13 { s.readerCount rep with reader := { (s.readerCount rep).reader with
          copyRow := some { c with judged := true } } } := by
        refine (readerCount s rep).also ?_
        refine readerCopySome _ _ (c := c) ?_ rfl rfl rfl rfl (by rw [add_zero]; exact le_rfl)
        rw [← hc, State.readerCount, State.readerAttention_reader]
      split
      · split
        · exact hjudged.mono (by omega)
        · exact hjudged.comp (produceRow _ _) (by omega)
      · exact (hjudged.also (endCopyRow _ _)).mono (by omega)
      · exact hjudged.mono (by omega)

theorem copyNeeds (ls : List Lane) : s.Runs 0 (s.copyNeeds ls) := by
  unfold State.copyNeeds
  split
  · exact (giveAll s _ _).also (giveAll _ _ _)
  · exact refl s

theorem copyLoaded (ls : List Lane) : s.Runs 0 (s.copyLoaded ls) := by
  refine readerCopy s _ rfl rfl rfl ?_
  cases s.reader.copyRow <;> simp [copyWork, CopyRow.work]

end State.Runs

/-! ## The row reader's reactions -/

namespace State.Reacts

variable (s : State)

/-- The row answered GO is taken up. -/
theorem go_runs (hgo : s.reader.go = true) : s.Runs (-39) { s with reader := { s.reader with go := false } } := by
  refine .reader s _ ?_
  rw [Reader.work_eq, Reader.work_eq, hgo]
  simp only [cond_true, cond_false]
  omega

theorem readBegin : s.Reacts s.readBegin := by
  unfold State.readBegin
  dsimp only
  split
  case isFalse => exact .idle s
  case isTrue h =>
    have hgo := go_runs s h.1
    split
    · exact .of (hgo.mono (by omega))
    · split
      · exact .of ((hgo.also (.readerEnding _ _)).mono (by omega))
      · exact .of ((hgo.also (.beginRead _)).mono (by omega))

/-- A copy row that begins is one in flight, may open its band and have its patch fetched. -/
theorem beginCopy_runs (hgo : s.reader.go = true) :
    State.Runs (-1) s (State.beginCopy { s with reader := { s.reader with go := false } }) := by
  unfold State.beginCopy
  dsimp only
  have hended := go_runs s hgo
  split
  · exact (hended.also (.readerEnding _ _)).mono (by omega)
  · have hbegun : ∀ (r : Reader) (c : CopyRow), r.go = false → r.order = s.reader.order → r.ended = s.reader.ended →
        r.copyRow = some c → s.Runs (-15) { s with reader := r } := by
      intro r c hg ho he hr
      refine .reader s r ?_
      have hc := c.work_le.2
      rw [Reader.work_eq, Reader.work_eq, hg, ho, he, hr, hgo]
      simp only [cond_true, cond_false, copyWork, Option.elim_some]
      omega
    have hopened : ∀ (r : Reader) (p : Prop) [Decidable p] (m : Signal), r.go = false → r.order = s.reader.order →
        r.ended = s.reader.ended → (∃ c, r.copyRow = some c) → m.weight = 13 →
        s.Runs (-2) (if p then State.emit { s with reader := r } m else { s with reader := r }) := by
      rintro r p _ m hg ho he ⟨c, hr⟩ hm
      split
      · exact (hbegun r c hg ho he hr).emits m (by rw [hm]; simp)
      · exact (hbegun r c hg ho he hr).mono (by omega)
    split
    · refine State.Runs.mono (i := -2) ?_ (by omega)
      exact hopened _ _ _ rfl rfl rfl ⟨_, rfl⟩ rfl
    · refine State.Runs.comp (i := -2) (j := 1) ?_ (.fetchPatch _ _) (by omega)
      refine State.Runs.also ?_ (.giveCopyRow _ ?_ _)
      · exact hopened _ _ _ rfl rfl rfl ⟨_, rfl⟩ rfl
      · split <;> rfl

theorem copyBegin : s.Reacts s.copyBegin := by
  unfold State.copyBegin
  dsimp only
  split
  case isFalse => exact .idle s
  case isTrue h =>
    have hgo := go_runs s h.1
    split
    · exact .of (hgo.mono (by omega))
    · split
      · exact .of ((hgo.also (.readerEnding _ _)).mono (by omega))
      · exact .of (beginCopy_runs s h.1)

theorem copyPermit : s.Reacts s.copyPermit := by
  unfold State.copyPermit
  split
  case h_2 => exact .idle s
  case h_1 c hc =>
    split
    case isFalse => exact .idle s
    case isTrue h =>
      obtain ⟨hp, hcl, -, -⟩ := h
      have hwork := CopyRow.work_prepare hcl hp
      split
      · refine .of (State.Runs.mono (i := 14 - c.work) ?_ (by omega))
        refine (State.Runs.readerEnding s .storeFault).comp (j := 14 - c.work) (.closeCopyOf _ ?_ hcl) (by omega)
        simpa using hc
      · refine .of ?_
        refine State.Runs.emits (i := -5) ?_ _ (by simp [Signal.weight])
        refine .readerCopySome s _ hc rfl rfl rfl rfl ?_
        rw [CopyRow.work_permit (c := { c with phase := .permit, permitAsked := true }) hcl rfl, hwork]
        simp

theorem copyCommit : s.Reacts s.copyCommit := by
  unfold State.copyCommit
  split
  case h_2 => exact .idle s
  case h_1 c hc =>
    split
    case isFalse => exact .idle s
    case isTrue h =>
      obtain ⟨hp, hcl, -, hm, ha⟩ := h
      have hwork := CopyRow.work_uncommitted hcl hp hm ha
      refine .of ?_
      refine State.Runs.emits (i := -5) ?_ _ (by simp [Signal.weight])
      refine .readerCopySome s _ hc rfl rfl rfl rfl ?_
      rw [CopyRow.work_settled (c := { c with permitAsked := true }) hp (.inr rfl), hwork]
      simp

/-- The row leaves the flight, and its completion with it. -/
theorem dropCopy_runs {c : CopyRow} (hc : s.reader.copyRow = some c) : s.Runs (-14) (s.dropCopy c) := by
  refine .readerCopy s _ rfl rfl rfl ?_
  have hle := c.work_le.1
  simp only [hc, copyWork, Option.elim_some, Option.elim_none]
  omega

theorem completeCopy_runs {c : CopyRow} (hc : s.reader.copyRow = some c) : s.Runs (-1) (s.completeCopy c) := by
  unfold State.completeCopy
  refine State.Runs.emits (i := -14) ?_ _ (by simp [Signal.weight])
  exact (dropCopy_runs s hc).also (.readerBeside _ _ rfl rfl rfl rfl)

theorem copyRowEnd : s.Reacts s.copyRowEnd := by
  unfold State.copyRowEnd
  split
  case h_1 => exact .idle s
  case h_2 c hc =>
    have hdrop := dropCopy_runs s hc
    have hcomplete := completeCopy_runs s hc
    split_ifs
    · exact .idle s
    · exact .of (hdrop.mono (by omega))
    · exact .of hcomplete
    · exact .idle s
    · exact .of hcomplete
    · exact .idle s

/-- A discard given to a lane whose port is empty and that nothing waits for. -/
theorem readerCleanup : s.Reacts s.readerCleanup := by
  unfold State.readerCleanup
  split
  case isFalse => exact .idle s
  case isTrue =>
    split
    case h_2 => exact .idle s
    case h_1 l hl =>
      have hread : (s.lane l).holdsRead = true := List.find?_some (p := fun l => (s.lane l).holdsRead) hl
      simp only [LaneCtl.holdsRead, Bool.and_eq_true, Option.isNone_iff_eq_none, List.isEmpty_iff] at hread
      obtain ⟨⟨-, hp⟩, hw⟩ := hread
      refine .of (.setLane s l _ rfl (fun _ => rfl) ?_)
      simp [LaneCtl.portWork, hp, hw]

theorem readerEnd : s.Reacts s.readerEnd := by
  unfold State.readerEnd
  dsimp only
  split
  case isFalse => exact .idle s
  case isTrue h =>
    simp only [Reader.endDue, Bool.and_eq_true, Bool.not_eq_true'] at h
    obtain ⟨⟨⟨ho, he⟩, -⟩, -⟩ := h
    have hended : ∀ r : Reader, r.go = s.reader.go → r.copyRow = s.reader.copyRow → r.order = s.reader.order →
        r.ended = true → s.Runs (-2) (State.dropQuestion { s with reader := r }) := by
      intro r hg hc hor hr
      refine State.Runs.also ?_ (.dropQuestion _)
      refine .reader s _ ?_
      rw [Reader.work_eq, Reader.work_eq, hg, hc, hor, hr, ho, he]
      simp only [endWork, cond_true, cond_false]
      omega
    split
    · refine .of (State.Runs.comp (i := -2) (j := 1) ?_ (.endTransfer _) (by omega))
      refine hended _ ?_ ?_ ?_ ?_ <;> rfl
    · refine .of (State.Runs.mono (i := -2) ?_ (by omega))
      refine hended _ ?_ ?_ ?_ ?_ <;> rfl

theorem readerFinish : s.Reacts s.readerFinish := by
  unfold State.readerFinish
  dsimp only
  split
  case isFalse => exact .idle s
  case isTrue h =>
    have hreset : s.Runs (-2) { s with reader := Reader.reset } := by
      refine .reader s _ ?_
      have h0 : Reader.reset.work = 0 := by decide
      rw [h0, Reader.work_eq, h.1]
      simp only [endWork, cond_true]
      omega
    refine .of (State.Runs.emits (i := -2) ?_ _ (by simp [Signal.weight]))
    split
    · exact hreset.also (.releaseCoder _)
    · exact hreset

end State.Reacts

end Sys2Proof.Machine
end

