-- ==== Sys2Proof/Proofs/WorkOfServices.lean ====
section
/-! What the band services, the sheet processor and the patrol unit do inside a step, and the work each of these lowers
or leaves. -/

namespace Sys2Proof.Machine

open Sys2Proof

/-! ## The band services (chapters 2, 5 and 7) -/

/-- Outside a band query nothing falls due in the band services. -/
theorem Services.work_of_phase {v : Services} (h : v.phase ≠ .records) : v.work = 0 := by
  have hno : (v.phase == .records) = false := by simpa using h
  simp [Services.work, hno]

theorem Services.work_of_records {v : Services} (h : v.phase = .records) : v.work = endWork true v.ended := by
  simp [Services.work, h]

theorem Services.work_congr {v w : Services} (hp : w.phase = v.phase) (he : w.ended = v.ended) : w.work = v.work := by
  rw [Services.work, Services.work, hp, he]

namespace State.Runs

variable (s : State) {k : ℤ}

/-- The band services changed beside their phase and END. -/
theorem servicesBeside (v : Services) (hp : v.phase = s.services.phase) (he : v.ended = s.services.ended) :
    s.Runs 0 { s with services := v } :=
  services s v (by rw [Services.work_congr hp he]; omega)

/-- The band services go on to a phase in which they wait for what they are told. -/
theorem servicesPhase (v : Services) (h : v.phase ≠ .records) : s.Runs 0 { s with services := v } :=
  services s v (by rw [Services.work_of_phase h]; omega)

theorem serviceEnd (st : OrderStatus) : s.Runs 1 (s.serviceEnd st) := by
  unfold State.serviceEnd
  refine emits (i := 0) ?_ _ (by simp [Signal.weight])
  exact servicesPhase s _ (by decide)

theorem erasePermit (granted : Bool) : s.Runs 1 (s.erasePermit granted) := by
  unfold State.erasePermit
  dsimp only
  split_ifs
  · refine mono (i := 0) (also ?_ (giveAll _ _ _)) (by omega)
    exact servicesPhase s _ (by simp)
  · exact serviceEnd s _
  · exact (refl s).mono (by omega)

theorem eraseReport (l : Lane) (op : LastOp) : s.Runs 13 (s.eraseReport l op) := by
  unfold State.eraseReport
  dsimp only
  split
  · split
    · refine emits (i := 0) ?_ _ (by simp [Signal.weight])
      exact servicesPhase s _ (by simp)
    · refine mono (i := 0) ?_ (by omega)
      exact servicesBeside s _ rfl rfl
  · exact (refl s).mono (by omega)

theorem recordWritten : s.Runs 13 s.recordWritten := by
  unfold State.recordWritten
  dsimp only
  split
  · refine emits (i := 0) ?_ _ (by simp [Signal.weight])
    exact servicesBeside s _ rfl rfl
  · refine mono (i := 0) ?_ (by omega)
    exact servicesBeside s _ rfl rfl

theorem queryMoverEnding (e : MoverEnding) : s.Runs 0 (s.queryMoverEnding e) := servicesBeside s _ rfl rfl

theorem beginFuse : s.Runs 0 s.beginFuse := by
  unfold State.beginFuse
  have hphase : s.Runs 0 { s with services := { s.services with phase := .fuseWriting } } :=
    servicesPhase s _ (by simp)
  exact hphase.also (fuseWrite _ _)

theorem servicesAnswer (u : Update) (applied : Bool) : s.Runs 1 (s.servicesAnswer u applied) := by
  have hends (p : Bool) : s.Runs 1 (if p then s else s.serviceEnd .bandState) := by
    split
    · exact (refl s).mono (by omega)
    · exact serviceEnd s _
  unfold State.servicesAnswer
  dsimp only
  split
  · refine mono (i := 0) ?_ (by omega)
    exact servicesBeside s _ rfl rfl
  · exact hends _
  · exact hends _
  · exact hends _
  · exact (refl s).mono (by omega)

theorem servicesNotice (what : NoticeFor) (stored : Bool) : s.Runs 4 (s.servicesNotice what stored) := by
  unfold State.servicesNotice
  dsimp only
  split
  · split
    · refine emits (i := 0) ?_ _ (by simp [Signal.weight])
      exact servicesPhase s _ (by simp)
    · exact (serviceEnd s _).mono (by omega)
  · exact (serviceEnd s _).mono (by omega)
  · exact (serviceEnd s _).mono (by omega)
  · split
    · exact (beginFuse s).mono (by omega)
    · exact (serviceEnd s _).mono (by omega)
  · exact (refl s).mono (by omega)

end State.Runs

namespace State.Reacts

variable (s : State)

/-- END is given once. -/
theorem queryEnd : s.Reacts s.queryEnd := by
  unfold State.queryEnd
  dsimp only
  split
  case isFalse => exact .idle s
  case isTrue h =>
    obtain ⟨hp, he, -⟩ := h
    refine .of (State.Runs.comp (i := -2) (j := 1) ?_ (.endTransfer _) (by omega))
    refine .services s _ ?_
    rw [Services.work_of_records (v := { s.services with ended := true }) hp, Services.work_of_records hp, he]
    simp [endWork]

theorem queryFinish : s.Reacts s.queryFinish := by
  unfold State.queryFinish
  dsimp only
  split
  case isFalse => exact .idle s
  case isTrue h =>
    obtain ⟨hp, he, -⟩ := h
    refine .of (State.Runs.emits (i := -2) ?_ _ (by simp [Signal.weight]))
    refine .services s _ ?_
    rw [Services.work_of_phase (v := Services.reset) (by decide), Services.work_of_records hp, he]
    simp [endWork]

end State.Reacts

/-! ## The sheet processor (chapter 4) -/

/-- A sheet access in progress is the only one. -/
theorem Sheets.work_of_access {h : Sheets} (a : h.access.isSome = true) :
    h.work = bif h.stop == .abort then 1 else 0 := by
  have hno : h.access.isNone = false := by simpa [Option.isNone_eq_false_iff] using a
  simp [Sheets.work, hno]

theorem Sheets.work_of_access_none {h : Sheets} (a : h.access = none) :
    h.work = 1 + bif h.stop == .abort then 1 else 0 := by
  simp [Sheets.work, a]

/-- An access raised lowers the work by one. -/
theorem State.Runs.raised (s : State) (h : Sheets) (hq : h.queue = s.sheets.queue) (hs : h.stop = s.sheets.stop)
    (hnone : s.sheets.access = none) (hsome : h.access.isSome = true) : s.Runs (-1) { s with sheets := h } :=
  .sheets s h hq (by rw [Sheets.work_of_access hsome, Sheets.work_of_access_none hnone, hs]; omega)

theorem Sheets.access_of_atRest {h : Sheets} {r : SheetRun} (ha : h.atRest = some r) : h.access = none := by
  unfold Sheets.atRest at ha
  split at ha
  · cases ha
  · next hno =>
      simp only [Bool.or_eq_true, not_or, Option.not_isSome_iff_eq_none] at hno
      exact hno.2

theorem State.Runs.takeOrderEnd (s : State) (r : OrderResult) : s.Runs 0 (s.takeOrderEnd r) := by
  refine .sheets s _ rfl ?_
  rw [Sheets.work_of_access rfl, Sheets.work]
  dsimp only
  omega

namespace State.Reacts

variable (s : State)

theorem sheetSkip : s.Reacts s.sheetSkip := by
  unfold State.sheetSkip
  split
  case h_2 => exact .idle s
  case h_1 r hr =>
    split
    case isFalse => exact .idle s
    case isTrue => exact .of (.raised s _ rfl rfl (Sheets.access_of_atRest hr) rfl)

theorem sheetClose : s.Reacts s.sheetClose := by
  unfold State.sheetClose
  split
  case h_2 => exact .idle s
  case h_1 r hr =>
    split
    case isFalse => exact .idle s
    case isTrue => exact .of (.raised s _ rfl rfl (Sheets.access_of_atRest hr) rfl)

theorem closeNext : s.Reacts s.closeNext := by
  unfold State.closeNext
  dsimp only
  split
  case isFalse => exact .idle s
  case isTrue h =>
    obtain ⟨-, -, -, ha⟩ := h
    split
    · exact .of (.raised s _ rfl rfl ha rfl)
    · exact .idle s

/-- From a mode in which a sheet may be active the mode controller goes back to RUN for nothing. -/
theorem modes_run_work_le :
    (if s.modes.mode.sheetMode then { s.modes with mode := .run } else s.modes : ModeCtl).work ≤ s.modes.work := by
  split
  · simp only [ModeCtl.work, ModeCtl.modeWork]
    omega
  · exact le_rfl

theorem abortEnd : s.Reacts s.abortEnd := by
  unfold State.abortEnd
  dsimp only
  split
  case isFalse => exact .idle s
  case isTrue h =>
    obtain ⟨hstop, -, -⟩ := h
    have hsheets : s.Runs (-1) { s with sheets := { s.sheets with stop := .none } } := by
      refine .sheets s _ rfl ?_
      have hother : (StopState.none == StopState.abort) = false := rfl
      simp [Sheets.work, hstop, hother]
    refine .of (hsheets.also (.modes _ _ ?_ ?_ ?_ ?_))
    · split <;> rfl
    · split <;> rfl
    · split <;> rfl
    · have hle := modes_run_work_le s
      simpa using hle

theorem enterHeld : s.Reacts s.enterHeld := by
  unfold State.enterHeld
  split
  case isFalse => exact .idle s
  case isTrue h =>
    obtain ⟨hmode, -, -⟩ := h
    refine .of (State.Runs.also ?_ (.setEvent _ _))
    refine .modes s _ rfl rfl rfl ?_
    simp only [ModeCtl.work, ModeCtl.modeWork, hmode]
    omega

end State.Reacts

/-! ## The patrol unit (chapter 10) -/

theorem Patrol.work_eq (p : Patrol) : p.work = (bif p.run.isSome then 3 else 0) + 14 * p.findings.length +
    p.due.length + (bif p.visit.isSome then 1 else 0) := rfl

/-- A row visited has a page finding for each lane at most, and a PARITY finding for each comparison (R184). -/
theorem rowFindings_length (v : Visit) (rep : RowReport) (cs : List ParityCompared) :
    (rowFindings v rep cs).length ≤ 6 + cs.length := by
  have hpages := List.length_filterMap_le (pageFinding v rep) Lane.all
  have hparity := List.length_filterMap_le (parityFinding v rep) cs
  have hsix : Lane.all.length = 6 := rfl
  rw [rowFindings, List.length_append]
  omega

namespace State.Runs

variable (s : State) {k : ℤ}

/-- The patrol unit changed beside its findings and commands; a run or a visit goes on if it did. -/
theorem patrolBeside (p : Patrol) (hr : p.run.isSome = s.patrol.run.isSome) (hf : p.findings = s.patrol.findings)
    (hd : p.due = s.patrol.due) (hv : p.visit.isSome = s.patrol.visit.isSome) : s.Runs 0 { s with patrol := p } :=
  patrol s p (by rw [Patrol.work_eq, Patrol.work_eq, hr, hf, hd, hv]; omega)

theorem patrolChecked (rep : RowReport) (cs : List ParityCompared) :
    s.Runs (84 + 14 * cs.length) (s.patrolChecked rep cs) := by
  unfold State.patrolChecked
  split
  · next v hv =>
      refine patrol s _ ?_
      have hlen := rowFindings_length v rep cs
      rw [Patrol.work_eq, Patrol.work_eq, hv]
      dsimp only
      simp only [Option.isSome_some, cond_true]
      omega
  · exact (refl s).mono (by omega)

theorem dropFinding : s.Runs 0 s.dropFinding := by
  unfold State.dropFinding
  have hdropped : s.Runs 0 { s with patrol := { s.patrol with
      dropped := satAdd 65535 s.patrol.dropped 1, dropNoted := true } } := patrolBeside s _ rfl rfl rfl rfl
  dsimp only
  split
  · exact hdropped
  · exact hdropped.also (setEvent _ _)

theorem findingAttention (b : Nat) : s.Runs 13 (s.findingAttention b) := by
  unfold State.findingAttention
  refine emits (i := 0) ?_ _ (by simp [Signal.weight])
  exact patrolBeside s _ (by simp) rfl rfl rfl

theorem patrolAnswer (changed : Bool) : s.Runs 0 (s.patrolAnswer changed) :=
  patrolBeside s _ (by simp) rfl rfl rfl

end State.Runs

namespace State.Reacts

variable (s : State)

theorem takeDue : s.Reacts s.takeDue := by
  have htaken : ∀ (p : Patrol) (d : ReportDue) (rest : List ReportDue), s.patrol.due = d :: rest →
      p.run = s.patrol.run → p.findings = s.patrol.findings → p.visit = s.patrol.visit → p.due = rest →
      s.Runs (-1) { s with patrol := p } := by
    intro p d rest hdue hr hf hv hd
    refine .patrol s p ?_
    rw [Patrol.work_eq, Patrol.work_eq, hr, hf, hv, hd, hdue, List.length_cons]
    omega
  unfold State.takeDue
  dsimp only
  split
  · next hdue =>
      refine .of ?_
      split
      · exact htaken _ _ _ hdue rfl rfl rfl rfl
      · exact htaken _ _ _ hdue rfl rfl rfl rfl
  · next hdue => exact .of (htaken _ _ _ hdue rfl rfl rfl rfl)
  · exact .idle s

/-- A finding recorded or dropped gives SET ATTENTION, and no other work. -/
theorem recordNext : s.Reacts s.recordNext := by
  unfold State.recordNext
  dsimp only
  split
  case h_2 => exact .idle s
  case h_1 f rest _ hdue hf =>
    have hgiven : s.Runs (-1) (State.findingAttention { s with patrol := { s.patrol with findings := rest } } f.band) := by
      refine State.Runs.comp (i := -14) (j := 13) ?_ (.findingAttention _ _) (by omega)
      refine .patrol s _ ?_
      rw [Patrol.work_eq, Patrol.work_eq, hf, List.length_cons]
      dsimp only
      omega
    generalize State.findingAttention _ _ = t at hgiven ⊢
    split
    · exact .of (hgiven.also (.dropFinding _))
    · split
      · exact .of (hgiven.also (.patrolBeside _ _ rfl rfl rfl rfl))
      · refine .of ?_
        have hdropped := hgiven.also (.dropFinding _)
        split
        · exact hdropped
        · exact hdropped.also (.patrolBeside _ _ rfl rfl rfl rfl)

theorem endVisit : s.Reacts s.endVisit := by
  unfold State.endVisit
  dsimp only
  split
  case h_2 => exact .idle s
  case h_1 v hv =>
    split
    case isFalse => exact .idle s
    case isTrue =>
      refine .of (State.Runs.also ?_ (.releaseCoder _))
      refine .patrol s _ ?_
      rw [Patrol.work_eq, Patrol.work_eq, hv]
      simp only [Option.isSome_map, Option.isSome_some, Option.isSome_none, cond_true, cond_false]
      omega

end State.Reacts

end Sys2Proof.Machine
end

