-- ==== Sys2Proof/Proofs/WorkOfModes.lean ====
section
/-! What the mode controller and the recovery scan do inside a step, and the work each of these lowers or leaves. -/

namespace Sys2Proof.Machine

open Sys2Proof

/-! ## The recovery scan (9.3) -/

/-- The listed bands at or above `b`. -/
def bandsFrom (working : Sparse BandRecord) (b : Nat) : Nat := working.countP (fun e => Nat.ble b e.1)

/-- The work of the scan in a state. -/
def State.scanLeft (s : State) : Nat := scanWork s.modes.scan s.table.working

/-- In its first phase, past the erase of a band, the scan still has the bands above it. -/
theorem scanWork_erasing {c : Scan} (w : Sparse BandRecord)
    (h : c.stage = .permit ∨ (∃ ls f, c.stage = .erasing ls f) ∨ c.stage = .notice) :
    scanWork (some c) w = 4 * bandsFrom w (c.band + 1) + 1 := by
  rcases h with h | ⟨ls, f, h⟩ | h <;> simp only [scanWork, h] <;> rfl

theorem scanWork_reading {c : Scan} {ls : List Lane} {ks : List PageClass} (w : Sparse BandRecord)
    (h : c.stage = .reading ls ks) : scanWork (some c) w = 0 := by simp only [scanWork, h]

theorem scanWork_discarding {c : Scan} (w : Sparse BandRecord) (h : c.stage = .discarding) :
    scanWork (some c) w = 2 := by simp only [scanWork, h]

theorem scanWork_commitEnd {c : Scan} (w : Sparse BandRecord) (h : c.stage = .commitEnd) :
    scanWork (some c) w = 0 := by simp only [scanWork, h]

/-- From a listed band on there is one band more than after it. -/
theorem bandsFrom_lt {w : Sparse BandRecord} {b : Nat} {e : Nat × BandRecord} (he : e ∈ w) (hb : b ≤ e.1) :
    bandsFrom w (e.1 + 1) + 1 ≤ bandsFrom w b := by
  have hsub : ∀ x ∈ w, Nat.ble (e.1 + 1) x.1 = true → Nat.ble b x.1 = true := by
    intro x _ hx
    have := Nat.le_of_ble_eq_true hx
    exact Nat.ble_eq_true_of_le (by omega)
  unfold bandsFrom
  obtain ⟨l, r, rfl⟩ := List.append_of_mem he
  have hl := List.countP_mono_left (l := l) fun x hx => hsub x (by simp [hx])
  have hr := List.countP_mono_left (l := r) fun x hx => hsub x (by simp [hx])
  have hin : Nat.ble b e.1 = true := Nat.ble_eq_true_of_le hb
  have hout : Nat.ble (e.1 + 1) e.1 = false := Bool.eq_false_iff.2 fun h => by
    have := Nat.le_of_ble_eq_true h
    omega
  simp only [List.countP_append, List.countP_cons, hin, hout]
  simp
  omega

namespace State.Runs

variable (s : State) {k : ℤ}

theorem setScan (c : Scan) (h : (scanWork (some c) s.table.working : ℤ) ≤ s.scanLeft + k) : s.Runs k (s.setScan c) :=
  scan s (some c) h

/-- The scan is over and the mode leaves nothing to come. -/
theorem scanDone : s.Runs (0 - s.scanLeft) s.scanDone := by
  unfold State.scanDone
  refine also ?_ (setEvent _ _)
  have hgone : s.Runs (0 - s.scanLeft) { s with modes := { s.modes with scan := none } } :=
    scan s none (by simp only [scanWork, State.scanLeft]; omega)
  refine hgone.also (modes _ _ rfl rfl rfl ?_)
  simp only [ModeCtl.work, ModeCtl.modeWork]
  omega

theorem scanEnd : s.Runs (1 - s.scanLeft) s.scanEnd := by
  unfold State.scanEnd
  split
  · split
    · have hdone := scanDone (s.emit (.commitRequest .scan false false))
      exact comp (i := 1) (j := 0 - s.scanLeft) (emit s _ (by simp [Signal.weight])) hdone (by omega)
    · refine emits (i := 0 - s.scanLeft) ?_ _ (by simp only [Signal.weight]; omega)
      refine setScan s _ ?_
      rw [scanWork_commitEnd _ rfl]
      omega
  · exact (scanDone s).mono (by omega)

theorem scanRow (b : Nat) : s.Runs (0 - s.scanLeft) (s.scanRow b) := by
  unfold State.scanRow
  dsimp only
  refine also ?_ (giveAll _ _ _)
  refine setScan s _ ?_
  rw [scanWork_reading _ rfl]
  omega

theorem scanOpen (b : Nat) : s.Runs (1 - s.scanLeft) (s.scanOpen b) := by
  unfold State.scanOpen
  split
  · exact (scanRow s _).mono (by omega)
  · exact scanEnd s

/-- The first phase goes on with a permit for the next ERASING band, or is over. -/
theorem scanErasing (b : Nat) :
    s.Runs (4 * bandsFrom s.table.working b + 1 - s.scanLeft) (s.scanErasing b) := by
  unfold State.scanErasing
  split
  · next b' hb' =>
      obtain ⟨e, he, rfl⟩ := Option.map_eq_some_iff.1 hb'
      have hmem := List.mem_of_find?_eq_some he
      have hle : b ≤ e.1 := by
        have := List.find?_some he
        simp only [Bool.and_eq_true, decide_eq_true_eq] at this
        exact this.1.1
      have hlt := bandsFrom_lt hmem hle
      refine emits (i := 4 * bandsFrom s.table.working (e.1 + 1) + 1 - s.scanLeft) ?_ _
        (by simp only [Signal.weight]; omega)
      refine setScan s _ ?_
      rw [scanWork_erasing _ (.inl rfl)]
      dsimp only
      omega
  · exact (scanOpen s 0).mono (by omega)

theorem scanPermit (granted : Bool) : s.Runs 0 (s.scanPermit granted) := by
  unfold State.scanPermit
  split
  · next c hc =>
      split
      · next hstage =>
          have hleft : s.scanLeft = 4 * bandsFrom s.table.working (c.band + 1) + 1 := by
            rw [State.scanLeft, hc, scanWork_erasing _ (.inl hstage)]
          split
          · refine also ?_ (giveAll _ _ _)
            refine setScan s _ ?_
            rw [scanWork_erasing _ (.inr (.inl ⟨_, _, rfl⟩)), hleft]
            dsimp only
            omega
          · exact (scanErasing s _).mono (by omega)
      · exact refl s
  · exact refl s

theorem scanJudge (c : Scan) (ks : List PageClass) : s.Runs 15 (s.scanJudge c ks) := by
  unfold State.scanJudge
  have hjudged : s.Runs 13 (match judgeClasses ks with
      | some true => s.emit (.update .scan (.rowFound c.band c.row) false)
      | some false => s.emit (.update .scan (.rowTorn c.band c.row) false)
      | none => s) := by
    split
    · exact emit s _ (by simp [Signal.weight])
    · exact emit s _ (by simp [Signal.weight])
    · exact (refl s).mono (by omega)
  dsimp only
  refine also ?_ (giveAll _ _ _)
  refine hjudged.comp (j := 2) (setScan _ _ ?_) (by omega)
  rw [scanWork_discarding _ rfl]
  omega

theorem scanReport (l : Lane) (op : LastOp) (outcome : Option PageOutcome) : s.Runs 15 (s.scanReport l op outcome) := by
  unfold State.scanReport
  split
  · next c hc =>
      split
      · next hstage =>
          have hleft : s.scanLeft = 4 * bandsFrom s.table.working (c.band + 1) + 1 := by
            rw [State.scanLeft, hc, scanWork_erasing _ (.inr (.inl ⟨_, _, hstage⟩))]
          dsimp only
          split
          · refine emits (i := 0) ?_ _ (by simp [Signal.weight])
            refine setScan s _ ?_
            rw [scanWork_erasing _ (.inr (.inr rfl)), hleft]
            dsimp only
            omega
          · refine mono (i := 0) (setScan s _ ?_) (by omega)
            rw [scanWork_erasing _ (.inr (.inl ⟨_, _, rfl⟩)), hleft]
            dsimp only
            omega
      · dsimp only
        split
        · exact scanJudge s _ _
        · refine mono (i := 0) (setScan s _ ?_) (by omega)
          rw [scanWork_reading _ rfl]
          omega
      · exact (refl s).mono (by omega)
  · exact (refl s).mono (by omega)

theorem scanAnswer (u : Update) (applied : Bool) : s.Runs 0 (s.scanAnswer u applied) := by
  have hchanged : ∀ c, s.modes.scan = some c → s.Runs 0 (if applied then s.setScan { c with changed := true } else s) := by
    intro c hc
    split
    · refine setScan s _ ?_
      rw [State.scanLeft, hc, add_zero]
      exact le_rfl
    · exact refl s
  unfold State.scanAnswer
  split
  · next hc => exact hchanged _ hc
  · next hc => exact hchanged _ hc
  · exact refl s

theorem scanNotice : s.Runs 0 s.scanNotice := by
  unfold State.scanNotice
  split
  · next c hc =>
      split
      · next hstage =>
          have hleft : s.scanLeft = 4 * bandsFrom s.table.working (c.band + 1) + 1 := by
            rw [State.scanLeft, hc, scanWork_erasing _ (.inr (.inr hstage))]
          exact (scanErasing s _).mono (by omega)
      · exact (scanDone s).mono (by omega)
      · exact refl s
  · exact refl s

end State.Runs

theorem State.Reacts.scanOn (s : State) : s.Reacts s.scanOn := by
  unfold State.scanOn
  split
  case h_2 => exact .idle s
  case h_1 c hc =>
    dsimp only
    split
    case isFalse => exact .idle s
    case isTrue h =>
      have hleft : s.scanLeft = 2 := by rw [State.scanLeft, hc, scanWork_discarding _ h.1]
      refine .of ?_
      split
      · exact (State.Runs.scanRow s _).mono (by omega)
      · exact (State.Runs.scanOpen s _).mono (by omega)

/-! ## The mode controller (chapter 9) -/

/-- The clean request not raised yet. -/
def requestWork (awaited : Bool) : Nat := bif awaited then 0 else 2

theorem ModeCtl.work_eq (m : ModeCtl) : m.work = m.modeWork + requestWork m.commitAwaited := rfl

theorem ModeCtl.modeWork_run {m : ModeCtl} (h : m.mode = .run) : m.modeWork = 0 := by simp only [modeWork, h]

theorem ModeCtl.modeWork_standby {m : ModeCtl} (h : m.mode = .standby) :
    m.modeWork = bif m.powerGiven then 1 else 2 := by simp only [modeWork, h]

theorem ModeCtl.modeWork_parked {m : ModeCtl} (h : m.mode = .parked) :
    m.modeWork = bif m.leaving then 1 else 2 := by simp only [modeWork, h]

theorem ModeCtl.modeWork_patrol {m : ModeCtl} (h : m.mode = .patrol) : 3 ≤ m.modeWork := by
  simp only [modeWork, h]
  omega

theorem ModeCtl.modeWork_waking {m : ModeCtl} (h : m.mode = .patrol) (hw : m.patrolStage = .waking) :
    m.modeWork = 3 + bif m.powerGiven then 4 else 5 := by
  have hyes : (m.patrolStage == .waking) = true := by rw [hw]; rfl
  simp only [modeWork, h, hyes, cond_true]

/-- In PATROL, the lanes awake. -/
theorem ModeCtl.modeWork_awake {m : ModeCtl} (h : m.mode = .patrol) (hw : m.patrolStage ≠ .waking) :
    m.modeWork = 3 := by
  have hno : (m.patrolStage == .waking) = false := by simpa using hw
  simp only [modeWork, h, hno, cond_false]

theorem ModeCtl.modeWork_drain {m : ModeCtl} {d : Drain} (h : m.mode = .drain) (hd : m.drain = some d) :
    m.modeWork = 3 + d.work := by simp only [modeWork, h, hd, Option.elim_some]

namespace State.Runs

variable (s : State) {k : ℤ}

theorem setDrain {d : Drain} (d' : Drain) (hm : s.modes.mode = .drain) (hd : s.modes.drain = some d)
    (h : (d'.work : ℤ) ≤ d.work + k) : s.Runs k (s.setDrain d') := by
  refine modes s _ rfl rfl rfl ?_
  rw [ModeCtl.work_eq, ModeCtl.work_eq, ModeCtl.modeWork_drain hm hd,
    ModeCtl.modeWork_drain (m := { s.modes with drain := some d' }) hm rfl]
  dsimp only
  omega

/-- The clean request is raised; its end is awaited, unless STORE_FAULT is set. -/
theorem awaitClean (h : s.modes.commitAwaited = false) :
    s.Runs (if s.table.storeFault then 1 else -1) s.awaitClean := by
  unfold State.awaitClean
  refine comp (i := 1) (j := if s.table.storeFault then 0 else -2) (emit s _ ?_) (modes _ _ rfl rfl rfl ?_) ?_
  · simp [Signal.weight]
  · simp only [State.emit_modes, State.emit_table, ModeCtl.work_eq, h, ModeCtl.modeWork]
    cases s.table.storeFault <;> simp [requestWork]
  · split <;> simp

/-- A run that ended by itself leaves PATROL for STANDBY. -/
theorem patrolDone (h : s.modes.mode = .patrol) : s.Runs (-1) s.patrolDone := by
  unfold State.patrolDone
  refine also ?_ (setEvent _ _)
  refine also ?_ (patrolBeside _ _ rfl rfl rfl rfl)
  refine also ?_ (giveAll _ _ _)
  refine modes s _ rfl rfl rfl ?_
  have h3 := ModeCtl.modeWork_patrol h
  rw [ModeCtl.work_eq, ModeCtl.work_eq, ModeCtl.modeWork_standby rfl]
  simp only [cond_false]
  omega

theorem patrolReported (changed : Bool) : s.Runs 1 (s.patrolReported changed) := by
  unfold State.patrolReported
  dsimp only
  split
  · next hm =>
      have h3 := ModeCtl.modeWork_patrol hm
      split
      · refine mono (i := 0) (modes s _ rfl rfl rfl ?_) (by omega)
        rw [ModeCtl.work_eq, ModeCtl.work_eq, ModeCtl.modeWork_run rfl]
        dsimp only
        omega
      · split
        · refine emits (i := 0) ?_ _ (by simp [Signal.weight])
          refine modes s _ rfl rfl rfl ?_
          rw [ModeCtl.work_eq, ModeCtl.work_eq,
            ModeCtl.modeWork_awake (m := { s.modes with patrolStage := .committing, commitAwaited := true }) hm (by simp)]
          simp only [requestWork, cond_true]
          omega
        · exact (patrolDone s hm).mono (by omega)
  · next hm =>
      refine mono (i := 0) (modes s _ rfl rfl rfl ?_) (by omega)
      simp only [ModeCtl.work, ModeCtl.modeWork, hm]
      cases s.modes.drain <;> simp [Drain.work]
  · exact (refl s).mono (by omega)

/-- A commit that has ended may be asked for again. -/
theorem modeNotice : s.Runs 2 s.modeNotice := by
  unfold State.modeNotice
  dsimp only
  split
  · have hended : s.Runs 2 { s with modes := { s.modes with
        commitAwaited := false,
        drain := s.modes.drain.map (fun d : Drain => { d with commitDone := d.commitDone || d.lanesQuiet }) } } := by
      refine modes s _ rfl rfl rfl ?_
      have hdrain : ((s.modes.drain.map (fun d : Drain => { d with commitDone := d.commitDone || d.lanesQuiet })).elim 0
          Drain.work) ≤ s.modes.drain.elim 0 Drain.work := by
        cases s.modes.drain with
        | none => exact le_rfl
        | some d =>
            simp only [Option.map_some, Option.elim_some, Drain.work]
            cases d.commitDone <;> cases d.lanesQuiet <;> simp
      rw [ModeCtl.work_eq, ModeCtl.work_eq]
      simp only [ModeCtl.modeWork, requestWork, cond_false]
      cases s.modes.mode <;> simp only <;> omega
    split
    · next h => exact hended.comp (patrolDone _ h.1) (by omega)
    · exact hended
  · exact (refl s).mono (by omega)

end State.Runs

namespace State.Reacts

variable (s : State)

theorem wakeOn : s.Reacts s.wakeOn := by
  unfold State.wakeOn
  dsimp only
  split
  case isFalse => exact .idle s
  case isTrue h =>
    obtain ⟨hm, -, -⟩ := h
    have hwork := ModeCtl.modeWork_standby hm
    split
    · next hp =>
        refine .of (State.Runs.also ?_ (.giveAll _ _ _))
        refine .modes s _ rfl rfl rfl ?_
        rw [ModeCtl.work_eq, ModeCtl.work_eq, hwork, hp,
          ModeCtl.modeWork_standby (m := { s.modes with powerGiven := true }) hm]
        simp only [cond_true, cond_false]
        omega
    · next hp =>
        split
        · refine .of (.modes s _ rfl rfl rfl ?_)
          rw [ModeCtl.work_eq, ModeCtl.work_eq, hwork, ModeCtl.modeWork_run rfl, Bool.eq_true_of_not_eq_false hp]
          simp only [cond_true]
          omega
        · exact .idle s

theorem patrolOn : s.Reacts s.patrolOn := by
  unfold State.patrolOn
  dsimp only
  split
  case isFalse => exact .idle s
  case isTrue h =>
    obtain ⟨hm, hw, -⟩ := h
    have hwork := ModeCtl.modeWork_waking hm hw
    split
    · next hp =>
        refine .of (State.Runs.also ?_ (.giveAll _ _ _))
        refine .modes s _ rfl rfl rfl ?_
        rw [ModeCtl.work_eq, ModeCtl.work_eq, hwork, hp,
          ModeCtl.modeWork_waking (m := { s.modes with powerGiven := true }) hm hw]
        simp only [cond_true, cond_false]
        omega
    · next hp =>
        rw [Bool.eq_true_of_not_eq_false hp] at hwork
        simp only [cond_true] at hwork
        split
        · split
          · refine .of (.modes s _ rfl rfl rfl ?_)
            rw [ModeCtl.work_eq, ModeCtl.work_eq, hwork, ModeCtl.modeWork_run rfl]
            dsimp only
            omega
          · have hrunning : s.Runs (-4)
                { s with modes := { s.modes with patrolStage := .running, powerGiven := false } } := by
              refine .modes s _ rfl rfl rfl ?_
              rw [ModeCtl.work_eq, ModeCtl.work_eq, hwork,
                ModeCtl.modeWork_awake (m := { s.modes with patrolStage := .running, powerGiven := false }) hm (by simp)]
              dsimp only
              omega
            refine .of (hrunning.comp (j := 3) (.patrol _ _ ?_) (by omega))
            simp only [Patrol.work_eq, Option.isSome_some, cond_true]
            omega
        · exact .idle s

theorem parkedOn : s.Reacts s.parkedOn := by
  unfold State.parkedOn
  dsimp only
  split
  case isFalse => exact .idle s
  case isTrue h =>
    obtain ⟨hm, -⟩ := h
    have hwork := ModeCtl.modeWork_parked hm
    split
    · next hl =>
        refine .of (State.Runs.also ?_ (.giveAll _ _ _))
        refine .modes s _ rfl rfl rfl ?_
        rw [ModeCtl.work_eq, ModeCtl.work_eq, hwork, hl,
          ModeCtl.modeWork_parked (m := { s.modes with leaving := true }) hm]
        simp only [cond_true, cond_false]
        omega
    · next hl =>
        split
        · have hleft : s.Runs (-1) { s with modes := { s.modes with mode := .run, leaving := false } } := by
            refine .modes s _ rfl rfl rfl ?_
            rw [ModeCtl.work_eq, ModeCtl.work_eq, hwork, ModeCtl.modeWork_run rfl, Bool.eq_true_of_not_eq_false hl]
            simp only [cond_true]
            omega
          refine .of (hleft.also (.sheets _ _ rfl ?_))
          have hno : (StopState.none == StopState.abort) = false := rfl
          simp only [Sheets.work, hno, cond_false]
          omega
        · exact .idle s

/-- Each step of the drain is taken once (R177). -/
theorem drainOn : s.Reacts s.drainOn := by
  unfold State.drainOn
  split
  case h_2 => exact .idle s
  case h_1 d hm hd =>
    have hset : ∀ d' : Drain, d'.work + 1 ≤ d.work → s.Runs (-1) (s.setDrain d') := fun d' h =>
      .setDrain s d' hm hd (by omega)
    split
    · next hc =>
        split
        · exact .of (hset _ (by simp [Drain.work, hc]))
        · exact .idle s
    · split
      · next hq =>
          split
          · refine .of ((hset _ ?_).also (.giveAll _ _ _))
            simp [Drain.work, hq]
          · exact .idle s
      · split
        · next ho => exact .of (hset _ (by simp [Drain.work, ho.1]))
        · split
          · next hdone =>
              have hdone' : ({ d with commitDone := true } : Drain).work + 2 = d.work := by simp [Drain.work, hdone]
              split
              · exact .idle s
              · next hawait =>
                  have hno : s.modes.commitAwaited = false := Bool.eq_false_iff.2 hawait
                  split
                  · exact .idle s
                  · split
                    · exact .of (hset _ (by omega))
                    · split
                      · next hfault =>
                          refine .of (State.Runs.comp (i := -2) (j := 1) (.setDrain s { d with commitDone := true } hm hd (by omega))
                            ?_ (by omega))
                          have hclean := State.Runs.awaitClean (s.setDrain { d with commitDone := true }) hno
                          rwa [show (s.setDrain { d with commitDone := true }).table = s.table from rfl,
                            if_pos hfault] at hclean
                      · next hfault =>
                          have hclean := State.Runs.awaitClean s hno
                          rw [if_neg hfault] at hclean
                          exact .of hclean
          · split
            · refine .of (.modes s _ rfl rfl rfl ?_)
              rw [ModeCtl.work_eq, ModeCtl.work_eq, ModeCtl.modeWork_drain hm hd, ModeCtl.modeWork_parked rfl]
              simp only [cond_false]
              omega
            · exact .idle s

/-- The end of a run may raise the clean request, in the patrol unit and in the mode controller. -/
theorem endRun : s.Reacts s.endRun := by
  unfold State.endRun
  split
  case h_2 => exact .idle s
  case h_1 r hr =>
    split
    case isFalse => exact .idle s
    case isTrue =>
      dsimp only
      have hgone : s.Runs (-3) { s with patrol := { s.patrol with run := none } } := by
        refine .patrol s _ ?_
        rw [Patrol.work_eq, Patrol.work_eq, hr]
        simp only [Option.isSome_some, Option.isSome_none, cond_true, cond_false]
        omega
      refine .of (State.Runs.comp (i := -2) (j := 1) ?_ (.patrolReported _ _) (by omega))
      split
      · exact hgone.emits _ (by simp [Signal.weight])
      · exact hgone.mono (by omega)

end State.Reacts

end Sys2Proof.Machine
end

