-- ==== Sys2Proof/Proofs/WorkOfSteps.lean ====
section
/-! Each message taken and each reaction lowers the work left in a state, and so what comes about inside a step comes to
an end. -/

namespace Sys2Proof.Machine

open Sys2Proof

/-! ## What one message or reaction leaves alone -/

/-- What one message or reaction does: all that is fixed stays, the table keeps all but its work, no port is emptied, no
event flag is cleared, and the work grows by at most `k`. -/
structure State.Comes (k : ℤ) (s t : State) : Prop where
  table : s.table.withWork t.table = t.table
  fixed : t.fixed = s.fixed
  ports : ∀ l, (s.lane l).port ≠ none → (t.lane l).port = (s.lane l).port
  events : s.window.events ||| t.window.events = t.window.events
  work : (t.work : ℤ) ≤ s.work + k

theorem Table.withWork_trans {a b c : Table} (h : a.withWork b = b) (g : b.withWork c = c) : a.withWork c = c := by
  rw [← g, ← h]
  rfl

/-- Most of a block's doings leave the whole table. -/
theorem State.Runs.comes {k : ℤ} {s t : State} (h : s.Runs k t) : s.Comes k t :=
  ⟨by rw [h.table]; rfl, h.fixed, h.ports, h.events, h.work⟩

namespace State.Comes

theorem refl (s : State) : s.Comes 0 s := (Runs.refl s).comes

/-- One thing after another; the work adds up. -/
theorem comp {i j k : ℤ} {s t u : State} (h : s.Comes i t) (g : t.Comes j u) (hk : i + j ≤ k) :
    s.Comes k u where
  table := Table.withWork_trans h.table g.table
  fixed := g.fixed.trans h.fixed
  ports l hl := by
    have ht := h.ports l hl
    exact (g.ports l (ht ▸ hl)).trans ht
  events := by
    rw [← g.events, ← BitVec.or_assoc, h.events]
  work := by
    have := h.work
    have := g.work
    omega

theorem mono {i k : ℤ} {s t : State} (h : s.Comes i t) (hk : i ≤ k) : s.Comes k t :=
  h.comp (refl t) (by omega)

/-- A message given at the end. -/
theorem emits {i k : ℤ} {s t : State} (h : s.Comes i t) (m : Signal)
    (hk : i + m.weight ≤ k) : s.Comes k (t.emit m) :=
  h.comp (Runs.emit t m le_rfl).comes hk

variable (s : State) {k : ℤ}

/-- The table with other work. -/
theorem withTable (t : Table) (hk : s.table.withWork t = t)
    (h : (t.gateWork + scanWork s.modes.scan t.working : ℤ) ≤
      s.table.gateWork + scanWork s.modes.scan s.table.working + k) : s.Comes k { s with table := t } :=
  ⟨hk, rfl, fun _ _ => rfl, BitVec.or_self, by simp only [State.work]; omega⟩

/-- The table's requests and waits, which no work is counted for. -/
theorem withRequests (t : Table) (hk : s.table.withWork t = t) (hu : t.heldUpdates = s.table.heldUpdates)
    (hp : t.heldPermits = s.table.heldPermits) (hw : t.working = s.table.working) :
    s.Comes 0 { s with table := t } :=
  withTable s t hk (by rw [Table.gateWork, Table.gateWork, hu, hp, hw]; omega)

end State.Comes

/-! ## The band table and its gate (2.3) -/

/-- A record written lists one band more at most. -/
theorem countP_write (d : BandRecord) (w : Sparse BandRecord) (b : Nat) (r : BandRecord) (p : Nat × BandRecord → Bool)
    (hp : ∀ k r r', p (k, r) = p (k, r')) : (Sparse.write d w b r).countP p ≤ w.countP p + 1 := by
  have hone : ∀ e : Nat × BandRecord, (if p e = true then 1 else 0) ≤ 1 := fun e => by split <;> omega
  induction w with
  | nil =>
      unfold Sparse.write
      have := hone (b, r)
      split
      · simp
      · simpa [List.countP_cons] using this
  | cons e rest ih =>
      obtain ⟨a, v⟩ := e
      unfold Sparse.write
      split
      · next h =>
          subst h
          split
          · rw [List.countP_cons]; omega
          · rw [List.countP_cons, List.countP_cons, hp a r v]; omega
      · split
        · split
          · omega
          · have := hone (b, r)
            rw [List.countP_cons]; omega
        · rw [List.countP_cons, List.countP_cons]; omega

/-- One band more for the scan to look at. -/
theorem scanWork_write (c : Option Scan) (d : BandRecord) (w : Sparse BandRecord) (b : Nat) (r : BandRecord) :
    scanWork c (Sparse.write d w b r) ≤ scanWork c w + 4 := by
  cases c with
  | none => simp [scanWork]
  | some c =>
      have hle := countP_write d w b r (fun e => Nat.blt c.band e.1) fun _ _ _ => rfl
      unfold scanWork
      dsimp only
      split <;> omega

/-- A plain request raised for what is held changes nothing else. -/
theorem Table.raiseUnclean_eq (t : Table) : ∃ p, t.raiseUnclean = { t with plainReq := p } := by
  unfold Table.raiseUnclean
  split
  · exact ⟨_, rfl⟩
  · exact ⟨t.plainReq, rfl⟩

namespace State.Comes

variable (s : State)

/-- An update taken gives an answer, at most one notice, and lists at most one band more. -/
theorem takeUpdate (h : HeldUpdate) : s.Comes 11 (s.takeUpdate h) := by
  unfold State.takeUpdate
  dsimp only
  split
  · split
    · exact ((refl s).emits (k := 2) _ (by simp [Signal.weight])).emits _ (by simp [Signal.weight])
    · exact ((refl s).emits (k := 2) _ (by simp [Signal.weight])).mono (by omega)
  · next new _ =>
      have hchange : ∀ p : Prop, [Decidable p] → ∀ request : Bool, s.Comes 4 { s with
          table := if p then s.table.change h.update.band new request else s.table } := by
        intro p _ request
        split
        · refine withTable s _ rfl ?_
          have hle := scanWork_write s.modes.scan .factory s.table.working h.update.band new
          simp only [Table.gateWork, Table.change]
          omega
        · exact (refl s).mono (by omega)
      have hanswer := (hchange (decide (new ≠ s.band h.update.band) = true)
        (h.update.requesting (s.band h.update.band) new)).emits (k := 6)
        (.answer h.client h.update true (decide (new ≠ s.band h.update.band))) (by simp [Signal.weight])
      generalize State.emit _ _ = t at hanswer ⊢
      split
      · split
        · exact hanswer.emits _ (by simp [Signal.weight])
        · exact hanswer.comp (withRequests t _ rfl rfl rfl rfl) (by omega)
      · exact hanswer.mono (by omega)

theorem giveUpdate (c : Client) (u : Update) (notice : Bool) : s.Comes 12 (s.giveUpdate c u notice) := by
  unfold State.giveUpdate
  dsimp only
  split
  · exact (takeUpdate s _).mono (by omega)
  · obtain ⟨p, hp⟩ := Table.raiseUnclean_eq { s.table with
      heldUpdates := s.table.heldUpdates ++ [{ client := c, update := u, notice := notice }] }
    rw [hp]
    refine withTable s _ rfl ?_
    simp only [Table.gateWork, List.length_append, List.length_cons, List.length_nil]
    omega

theorem askPermit (c : Client) : s.Comes 3 (s.askPermit c) := by
  unfold State.askPermit
  split
  · exact (refl s).emits _ (by simp [Signal.weight])
  · split
    · exact (refl s).emits _ (by simp [Signal.weight])
    · obtain ⟨p, hp⟩ := Table.raiseUnclean_eq { s.table with heldPermits := s.table.heldPermits ++ [c] }
      rw [hp]
      refine withTable s _ rfl ?_
      simp only [Table.gateWork, List.length_append, List.length_cons, List.length_nil]
      omega

theorem takeRequest (c : Client) (clean tell : Bool) : s.Comes 0 (s.takeRequest c clean tell) := by
  unfold State.takeRequest
  have hraised : s.Comes 0 (if clean then s.raiseClean else s.raisePlain) := by
    split
    · exact withRequests s _ rfl rfl rfl rfl
    · exact withRequests s _ rfl rfl rfl rfl
  dsimp only
  generalize (if clean = true then s.raiseClean else s.raisePlain) = t at hraised ⊢
  split
  · exact hraised.comp (withRequests t _ rfl rfl rfl rfl) (by omega)
  · exact hraised

theorem forgetCommit (c : Client) : s.Comes 0 (s.forgetCommit c) := withRequests s _ rfl rfl rfl rfl

theorem takeAll (hs : List HeldUpdate) : s.Comes (11 * hs.length) (s.takeAll hs) := by
  induction hs generalizing s with
  | nil => exact refl s
  | cons h hs ih => exact (takeUpdate s h).comp (ih _) (by simp; omega)

theorem answerPermits (granted : Bool) (cs : List Client) : s.Comes (2 * cs.length) (s.answerPermits granted cs) := by
  induction cs generalizing s with
  | nil => exact refl s
  | cons c cs ih => exact ((refl s).emits (k := 2) _ (by simp [Signal.weight])).comp (ih _) (by simp; omega)

/-- What the gate held is worth more than the answers and notices it gives. -/
theorem gateReleases {t : State} (h : s.gateReleases = some t) : s.Comes (-1) t := by
  unfold State.gateReleases at h
  split at h
  case isFalse => cases h
  case isTrue hc =>
    cases h
    have hheld : 1 ≤ s.table.heldUpdates.length + s.table.heldPermits.length := by
      simp only [Bool.and_eq_true, Table.holds, Bool.or_eq_true, Bool.not_eq_true', List.isEmpty_eq_false_iff] at hc
      rcases hc.1 with hne | hne
      · have := List.length_pos_iff.2 hne
        omega
      · have := List.length_pos_iff.2 hne
        omega
    unfold State.releaseHeld
    dsimp only
    have hempty : s.Comes (-(s.table.gateWork : ℤ)) { s with table := { s.table with
        heldUpdates := [], heldPermits := [] } } := by
      refine withTable s _ rfl ?_
      simp [Table.gateWork]
      omega
    refine (hempty.comp (takeAll _ s.table.heldUpdates) le_rfl).comp (answerPermits _ _ _) ?_
    simp only [Table.gateWork]
    omega

end State.Comes

/-! ## The messages -/

namespace State.Runs

variable (s : State)

theorem takeReport (l : Lane) (e : EndReport) : s.Runs 141 (s.takeReport l e) := by
  unfold State.takeReport
  split
  · exact (scanReport s _ _ _).mono (by omega)
  · split
    · split
      · exact (writerReport s _ _).mono (by omega)
      · exact (copyProgramReport s _ _).mono (by omega)
    · exact moveReport s _ _ _
    · exact (eraseReport s _ _).mono (by omega)
    · exact (refl s).mono (by omega)

theorem takeAnswer (c : Client) (u : Update) (applied changed : Bool) :
    s.Runs 1 (s.takeAnswer c u applied changed) := by
  cases c with
  | writer => exact (writerAnswer s _ _).mono (by omega)
  | reader => exact (readerAnswer s _ _).mono (by omega)
  | services => exact servicesAnswer s _ _
  | patrol => exact (patrolAnswer s _).mono (by omega)
  | scan => exact (scanAnswer s _ _).mono (by omega)
  | mode => exact (refl s).mono (by omega)

theorem takeNotice (c : Client) (what : NoticeFor) (stored : Bool) : s.Runs 4 (s.takeNotice c what stored) := by
  cases c with
  | writer => exact (writerNotice s _ _).mono (by omega)
  | reader => exact (readerNotice s _ _).mono (by omega)
  | services => exact servicesNotice s _ _
  | scan => exact (scanNotice s).mono (by omega)
  | mode => exact (modeNotice s).mono (by omega)
  | patrol => exact (refl s).mono (by omega)

theorem takePermit (c : Client) (granted : Bool) : s.Runs 1 (s.takePermit c granted) := by
  cases c with
  | writer => exact (writerPermit s _).mono (by omega)
  | reader => exact (readerPermit s _).mono (by omega)
  | services => exact erasePermit s _
  | scan => exact (scanPermit s _).mono (by omega)
  | mode => exact (refl s).mono (by omega)
  | patrol => exact (refl s).mono (by omega)

theorem takeLoaded (ls : List Lane) : s.Runs 0 (s.takeLoaded ls) := by
  unfold State.takeLoaded
  split
  · exact writerLoaded s _
  · exact copyLoaded s _

theorem takeJudged (r : RowReport) : s.Runs 14 (s.takeJudged r) := by
  unfold State.takeJudged
  split
  · exact copyJudged s _
  · exact (readJudged s _).mono (by omega)

theorem takeUnit : s.Runs 13 s.takeUnit := by
  unfold State.takeUnit
  split
  · exact (readWritten s).mono (by omega)
  · exact recordWritten s

theorem takeEnding (e : MoverEnding) : s.Runs 0 (s.takeEnding e) := by
  unfold State.takeEnding
  split
  · exact writerMoverEnding s _
  · split
    · split
      · exact endCopyRow s _
      · exact readMoverEnding s _
    · exact queryMoverEnding s _

theorem takeFlushed : s.Runs 0 s.takeFlushed := by
  unfold State.takeFlushed
  split
  · exact writerBeside s _ rfl rfl rfl rfl
  · split
    · exact readerBeside s _ rfl rfl rfl rfl
    · exact servicesBeside s _ rfl rfl

theorem takeFetched (who : FetchFor) (ws : List Word) : s.Runs 1 (s.takeFetched who ws) := by
  cases who with
  | descriptor =>
      unfold State.takeFetched
      dsimp only
      split
      · exact (patchDescriptor s _).mono (by omega)
      · exact (refl s).mono (by omega)
  | patch => exact patchBytes s _

/-- A block's part that leaves the table is what a message to the block does. -/
theorem keepTable {k : ℤ} {s : State} (f : State → State) (h : s.Runs k (f s)) : s.Comes k (keepTable f s) := by
  have hsame : Machine.keepTable f s = f s := by
    rw [Machine.keepTable, ← h.table]
  rw [hsame]
  exact h.comes

end State.Runs

/-- A message taken sets less work free than it weighed. -/
theorem State.Comes.dispatch (s : State) (m : Signal) : s.Comes (m.weight - 1) (s.dispatch m) := by
  cases m with
  | update c u n => exact giveUpdate s c u n
  | askPermit c => exact askPermit s c
  | commitRequest c clean tell => exact takeRequest s c clean tell
  | forgetCommit c => exact forgetCommit s c
  | report l e => exact State.Runs.keepTable (fun s => s.takeReport l e) (.takeReport s l e)
  | answer c u a ch => exact State.Runs.keepTable (fun s => s.takeAnswer c u a ch) (.takeAnswer s c u a ch)
  | notice c w st => exact State.Runs.keepTable (fun s => s.takeNotice c w st) (.takeNotice s c w st)
  | permit c g => exact State.Runs.keepTable (fun s => s.takePermit c g) (.takePermit s c g)
  | rowLoaded ls => exact State.Runs.keepTable (fun s => s.takeLoaded ls) (.takeLoaded s ls)
  | readBegun b => exact State.Runs.keepTable (fun s => s.readerBegun b) (.readerBegun s b)
  | judged r => exact State.Runs.keepTable (fun s => s.takeJudged r) (.takeJudged s r)
  | needPages ls => exact State.Runs.keepTable (fun s => s.copyNeeds ls) (.copyNeeds s ls)
  | rowDelivered => exact State.Runs.keepTable (fun s => s.readDelivered) (.readDelivered s)
  | checked r cs =>
      refine (State.Runs.keepTable (fun s => s.patrolChecked r cs) (.patrolChecked s r cs)).mono ?_
      simp only [Signal.weight]
      omega
  | unitWritten => exact State.Runs.keepTable (fun s => s.takeUnit) (.takeUnit s)
  | moverEnding e => exact State.Runs.keepTable (fun s => s.takeEnding e) (.takeEnding s e)
  | flushed => exact State.Runs.keepTable (fun s => s.takeFlushed) (.takeFlushed s)
  | fetchDone w ws => exact State.Runs.keepTable (fun s => s.takeFetched w ws) (.takeFetched s w ws)
  | orderEnd r => exact State.Runs.keepTable (fun s => s.takeOrderEnd r) (.takeOrderEnd s r)

/-! ## The reactions -/

/-- The accesses stand raised as they are given. -/
def State.lineWork (s : State) : Nat := if s.raised = s.sheetLine then 0 else 3

/-- A grant to be given, or to be given up. -/
def State.grantWork (s : State) : Nat :=
  match s.port with
  | some r => bif s.wantsPort r then 0 else 2
  | none => bif s.wantsPort .sheet || s.wantsPort .mover || s.wantsPort .report then 1 else 0

/-- Every message or reaction lowers this: one that leaves the work leaves less to do at the bus master port. -/
def State.left (s : State) : Nat := 8 * s.work + s.lineWork + s.grantWork

theorem State.grantWork_le (s : State) : s.grantWork ≤ 2 := by
  unfold State.grantWork
  split
  · cases s.wantsPort _ <;> simp
  · cases (s.wantsPort .sheet || s.wantsPort .mover || s.wantsPort .report) <;> simp

theorem State.lineWork_le (s : State) : s.lineWork ≤ 3 := by
  unfold State.lineWork
  split <;> omega

/-- What one message or reaction does in a step: less is left, and what the reactions leave alone stays. -/
def State.Goes (s t : State) : Prop := s.Comes 0 t ∧ t.left < s.left

theorem State.Goes.of {s t : State} (h : s.Comes (-1) t) : s.Goes t := by
  have hw := h.work
  have hg := t.grantWork_le
  have hl := t.lineWork_le
  exact ⟨h.mono (by omega), by simp only [State.left]; omega⟩

/-- Raised accesses stay as they stand. -/
theorem State.raised_raised (s : State) : State.raised { s with sheetLine := s.raised } = s.raised := by
  have hkept : s.raised.filter s.hasAccess = s.raised := by
    refine List.filter_eq_self.2 fun u hu => ?_
    simp only [State.raised, List.mem_append, List.mem_filter, Bool.and_eq_true] at hu
    rcases hu with hu | hu
    · exact hu.2
    · exact hu.2.1
  have hall : ∀ u, s.hasAccess u = true → s.raised.contains u = true := by
    intro u hu
    rw [List.contains_iff_mem]
    simp only [State.raised, List.mem_append, List.mem_filter]
    by_cases hk : u ∈ s.sheetLine
    · exact .inl ⟨hk, hu⟩
    · refine .inr ⟨by cases u <;> simp, ?_⟩
      simp [hu, hk]
  have hsame : State.hasAccess { s with sheetLine := s.raised } = s.hasAccess := by
    funext u
    cases u <;> rfl
  have hnone : [SheetUser.sheets, .config].filter (fun u => s.hasAccess u && !s.raised.contains u) = [] := by
    refine List.filter_eq_nil_iff.2 fun u _ hu => ?_
    simp only [Bool.and_eq_true, Bool.not_eq_true'] at hu
    rw [hall u hu.1] at hu
    cases hu.2
  have heq : State.raised { s with sheetLine := s.raised } = s.raised.filter s.hasAccess ++
      [SheetUser.sheets, .config].filter (fun u => s.hasAccess u && !(s.raised.filter s.hasAccess).contains u) := by
    rw [← hsame]
    rfl
  rw [heq, hkept, hnone, List.append_nil]

/-- A change at the bus master port alone. -/
theorem State.Comes.atPort (s : State) (p : Option Requester) (us : List SheetUser) :
    s.Comes 0 { s with port := p, sheetLine := us } :=
  ⟨rfl, rfl, fun _ _ => rfl, BitVec.or_self, by simp only [State.work]; omega⟩

theorem State.Goes.raiseAccess {s t : State} (h : s.raiseAccess = some t) : s.Goes t := by
  unfold State.raiseAccess at h
  split at h
  case isTrue => cases h
  case isFalse hne =>
    cases h
    refine ⟨.atPort s s.port s.raised, ?_⟩
    have hg := State.grantWork_le { s with sheetLine := s.raised }
    have hafter : State.lineWork { s with sheetLine := s.raised } = 0 := by
      rw [State.lineWork, if_pos s.raised_raised]
    have hbefore : s.lineWork = 3 := by rw [State.lineWork, if_neg hne]
    have hwork : State.work { s with sheetLine := s.raised } = s.work := rfl
    simp only [State.left]
    omega

/-- A new grant leaves less to do than the one before. -/
theorem State.Goes.granted {s : State} {p : Option Requester}
    (h : State.grantWork { s with port := p } < s.grantWork) : s.Goes { s with port := p } := by
  refine ⟨.atPort s p s.sheetLine, ?_⟩
  have hwork : State.work { s with port := p } = s.work := rfl
  have hline : State.lineWork { s with port := p } = s.lineWork := rfl
  simp only [State.left]
  omega

theorem State.Goes.arbitrate {s t : State} (h : s.arbitrate = some t) : s.Goes t := by
  unfold State.arbitrate at h
  split at h
  · next r hr =>
      split at h
      case isTrue => cases h
      case isFalse hno =>
        cases h
        refine .granted ?_
        have hbefore : s.grantWork = 2 := by simp [State.grantWork, hr, hno]
        have hafter : State.grantWork { s with port := none } ≤ 1 := by
          simp only [State.grantWork]
          cases (State.wantsPort { s with port := none } .sheet || State.wantsPort { s with port := none } .mover ||
            State.wantsPort { s with port := none } .report) <;> simp
        omega
  · next hnone =>
      have hgrant : ∀ r, s.wantsPort r = true → s.Goes { s with port := some r } := by
        intro r hr
        refine .granted ?_
        have hafter : State.grantWork { s with port := some r } = 0 := by
          have hstill : State.wantsPort { s with port := some r } r = true := by rw [← hr]; cases r <;> rfl
          simp only [State.grantWork, hstill, cond_true]
        have hbefore : s.grantWork = 1 := by
          cases r <;> simp [State.grantWork, hnone, hr]
        omega
      split_ifs at h with hs hm hr
      · cases h; exact hgrant _ hs
      · cases h; exact hgrant _ hm
      · cases h; exact hgrant _ hr

/-- A reaction of a block that lowers the work. -/
theorem State.Goes.keepTableOpt {s t : State} {f : State → Option State} (h : s.Reacts (f s))
    (ht : keepTableOpt f s = some t) : s.Goes t := by
  obtain ⟨u, hu, rfl⟩ := Option.map_eq_some_iff.1 ht
  have hruns := h u hu
  rw [← hruns.table]
  exact .of hruns.comes

/-- The reactions of the blocks that the work counts. -/
theorem blockReactions_reacts (s : State) : ∀ f ∈ blockReactions,
    s.Reacts (f s) ∨ f = State.raiseAccess ∨ f = State.arbitrate := by
  simp only [blockReactions, List.forall_mem_cons, List.not_mem_nil, false_implies, implies_true, and_true]
  refine ⟨.inl (.placeRequests s), .inl (.coderJudges s), .inl (.moverWalk s), .inl (.moverHandsFetch s),
    .inl (.moverAtEnd s), .inl (.moverReport s), .inl (.moverFlushEnd s), .inl (.writerBegin s), .inl (.writerCommit s),
    .inl (.writerComplete s), .inl (.writerDiscarded s), .inl (.writerEnd s), .inl (.writerFinish s),
    .inl (.readBegin s), .inl (.copyBegin s), .inl (.copyPermit s), .inl (.copyCommit s), .inl (.copyRowEnd s),
    .inl (.readerCleanup s), .inl (.readerEnd s), .inl (.readerFinish s), .inl (.queryEnd s), .inl (.queryFinish s),
    .inl (.sheetSkip s), .inl (.sheetClose s), .inl (.closeNext s), .inl (.abortEnd s), .inl (.enterHeld s),
    .inl (.scanOn s), .inl (.wakeOn s), .inl (.patrolOn s), .inl (.drainOn s), .inl (.parkedOn s), .inl (.takeDue s),
    .inl (.recordNext s), .inl (.endVisit s), .inl (.endRun s), .inr (.inl trivial), .inr (.inr trivial)⟩

theorem State.Goes.react {s t : State} (h : s.react = some t) : s.Goes t := by
  unfold State.react at h
  split at h
  · next u hu =>
      cases h
      exact .of (.gateReleases s hu)
  · obtain ⟨f, hf, hft⟩ := List.exists_of_findSome?_eq_some h
    rcases blockReactions_reacts s f hf with hr | rfl | rfl
    · exact .keepTableOpt hr hft
    · obtain ⟨u, hu, rfl⟩ := Option.map_eq_some_iff.1 hft
      have hgoes := State.Goes.raiseAccess hu
      have htable : u.table = s.table := by
        unfold State.raiseAccess at hu
        split at hu <;> cases hu
        rfl
      rw [← htable]
      exact hgoes
    · obtain ⟨u, hu, rfl⟩ := Option.map_eq_some_iff.1 hft
      have hgoes := State.Goes.arbitrate hu
      have htable : u.table = s.table := by
        unfold State.arbitrate at hu
        (repeat' split at hu) <;> cases hu <;> rfl
      rw [← htable]
      exact hgoes

/-- The oldest message leaves the list. -/
theorem State.Runs.taken (s : State) (m : Signal) (rest : List Signal) (h : s.signals = m :: rest) :
    s.Runs (-m.weight) { s with signals := rest } :=
  .signals s rest (by simp [signalsWork, h])

/-- Each thing that comes about inside a step leaves less to come. -/
theorem State.Goes.advance {s t : State} (h : s.advance = some t) : s.Goes t := by
  unfold State.advance at h
  split at h
  · next m rest hm =>
      cases h
      exact .of ((State.Runs.taken s m rest hm).comes.comp (.dispatch _ m) (by omega))
  · exact .react h

end Sys2Proof.Machine
end

