-- ==== Sys2Proof/Proofs/Rest.lean ====
section
/-! The fuel of a step is above the work left in its state: its messages and reactions come to rest, and what they lead
to is the state of the step. -/

namespace Sys2Proof.Machine

open Sys2Proof

/-! ## The work against the fuel -/

theorem Signal.weight_le (m : Signal) : m.weight ≤ 685 * m.size := by
  cases m <;> simp only [Signal.weight, Signal.size] <;> omega

theorem signalsWork_le (ms : List Signal) : signalsWork ms ≤ 685 * (ms.map Signal.size).sum := by
  induction ms with
  | nil => simp [signalsWork]
  | cons m ms ih =>
      have hm := m.weight_le
      simp only [signalsWork, List.map_cons, List.sum_cons] at ih ⊢
      omega

theorem LaneCtl.portWork_le (c : LaneCtl) : c.portWork ≤ 2 := by
  unfold LaneCtl.portWork
  cases c.port.isSome <;> cases c.waiting.isEmpty <;> simp

theorem lanesWork_le_twelve (x : Six LaneCtl) : lanesWork x ≤ 12 := by
  have h0 := x.l0.portWork_le
  have h1 := x.l1.portWork_le
  have h2 := x.l2.portWork_le
  have h3 := x.l3.portWork_le
  have h4 := x.l4.portWork_le
  have h5 := x.l5.portWork_le
  unfold lanesWork
  omega

theorem endWork_le (order ended : Bool) : endWork order ended ≤ 4 := by
  cases order <;> cases ended <;> decide

theorem flightsWork_le (fs : List Flight) : flightsWork fs ≤ 19 * fs.length := by
  induction fs with
  | nil => simp [flightsWork]
  | cons f fs ih =>
      have hf := f.work_le.2
      simp only [flightsWork, List.map_cons, List.sum_cons, List.length_cons] at ih ⊢
      omega

theorem Writer.work_le (w : Writer) : w.work ≤ 37 + 19 * w.flights.length := by
  have hf := flightsWork_le w.flights
  have he := endWork_le w.order.isSome w.ended
  rw [Writer.work_eq]
  cases w.go <;> simp only [cond_true, cond_false] <;> omega

theorem copyWork_le (c : Option CopyRow) : copyWork c ≤ 24 := by
  cases c with
  | none => simp [copyWork]
  | some c => exact c.work_le.2

theorem Reader.work_le (r : Reader) : r.work ≤ 67 := by
  have hc := copyWork_le r.copyRow
  have he := endWork_le r.order.isSome r.ended
  rw [Reader.work_eq]
  cases r.go <;> simp only [cond_true, cond_false] <;> omega

theorem Services.work_le (v : Services) : v.work ≤ 4 := by
  have he := endWork_le true v.ended
  unfold Services.work
  cases (v.phase == .records) <;> simp only [cond_true, cond_false] <;> omega

theorem Mover.work_le (m : Mover) : m.work ≤ 11 := by
  have hphase : m.phaseWork ≤ 4 := by
    unfold Mover.phaseWork
    split <;> omega
  have hwalk : m.walkWork ≤ 2 := by
    unfold Mover.walkWork
    cases m.pendingEnding.isSome <;>
      cases (m.cursor.isSome && m.access.isNone && (m.chain == .notStarted || m.chain == .exhausted)) <;> simp
  have hfill := m.fillWork_le
  have hfetch : m.fetchWork ≤ 4 := by
    unfold Mover.fetchWork
    cases (m.direction == some .fetch && !m.fifo.isEmpty) <;> simp
  unfold Mover.work
  omega

theorem Sheets.work_le (h : Sheets) : h.work ≤ 2 := by
  unfold Sheets.work
  cases h.access.isNone <;> cases (h.stop == .abort) <;> simp

theorem Drain.work_le (d : Drain) : d.work ≤ 5 := by
  unfold Drain.work
  cases d.closed <;> cases d.lanesQuiet <;> cases d.lanesOff <;> cases d.commitDone <;> simp

theorem ModeCtl.modeWork_le (m : ModeCtl) : m.modeWork ≤ 8 := by
  unfold ModeCtl.modeWork
  split
  all_goals try omega
  · cases m.powerGiven <;> simp
  · cases m.leaving <;> simp
  · cases (m.patrolStage == .waking) <;> cases m.powerGiven <;> simp
  · cases m.drain with
    | none => simp
    | some d =>
        have hd := d.work_le
        simp only [Option.elim_some]
        omega

theorem ModeCtl.work_le (m : ModeCtl) : m.work ≤ 10 := by
  have hmode := m.modeWork_le
  rw [ModeCtl.work_eq]
  cases m.commitAwaited <;> simp only [requestWork, cond_true, cond_false] <;> omega

theorem scanWork_le (c : Option Scan) (w : Sparse BandRecord) : scanWork c w ≤ 2 + 4 * w.length := by
  cases c with
  | none => simp [scanWork]
  | some c =>
      have hlen := List.countP_le_length (p := fun e : Nat × BandRecord => Nat.blt c.band e.1) (l := w)
      unfold scanWork
      dsimp only
      split <;> omega

theorem Patrol.work_le (p : Patrol) : p.work ≤ 4 + 14 * p.findings.length + p.due.length := by
  rw [Patrol.work_eq]
  cases p.run.isSome <;> cases p.visit.isSome <;> simp only [cond_true, cond_false] <;> omega

/-- The work grows with the backlog. -/
theorem State.work_le (s : State) : s.work ≤ 263 + 685 * s.backlog := by
  have h1 := signalsWork_le s.signals
  have h2 := lanesWork_le_twelve s.lanes
  have h3 := s.coder.work_le
  have h4 := s.writer.work_le
  have h5 := s.reader.work_le
  have h6 := s.services.work_le
  have h7 := s.mover.work_le
  have h8 := s.sheets.work_le
  have h9 := s.modes.work_le
  have h10 := scanWork_le s.modes.scan s.table.working
  have h11 := s.patrol.work_le
  simp only [State.work, State.backlog, Table.gateWork]
  omega

/-- What is left is within the fuel (95). -/
theorem State.left_le_fuel (s : State) : s.left ≤ s.fuel := by
  have hw := s.work_le
  have hl := s.lineWork_le
  have hg := s.grantWork_le
  rw [State.fuel]
  simp only [State.left, Config.reactionFuel, Config.reactionsPerWork]
  omega

/-! ## Coming to rest -/

theorem State.settleLoop_rests {n : Nat} {s : State} (h : s.left ≤ n) : (State.settleLoop n s).advance = none := by
  induction n generalizing s with
  | zero =>
      cases ha : s.advance with
      | none => exact ha
      | some t =>
          have := (State.Goes.advance ha).2
          omega
  | succ n ih =>
      cases ha : s.advance with
      | none => rw [State.settleLoop_rest _ _ ha]; exact ha
      | some t =>
          have hless := (State.Goes.advance ha).2
          have hrest := ih (s := t) (by omega)
          simpa only [State.settleLoop, ha] using hrest

/-- The messages and reactions of a step leave alone what each of them does. -/
theorem State.Comes.settleLoop (n : Nat) (s : State) : s.Comes 0 (State.settleLoop n s) :=
  State.settleLoop_keeps (P := fun t => s.Comes 0 t)
    (fun _ _ h ha => h.comp (State.Goes.advance ha).1 (by omega)) n s (.refl s)

/-- A state at rest has no message left. -/
theorem State.signals_of_rest {s : State} (h : s.advance = none) : s.signals = [] := by
  unfold State.advance at h
  split at h
  · cases h
  · next hs => exact hs

/-- What a step keeps of its state, with what its messages and reactions lead to, is what they lead to. -/
theorem State.Comes.settled {k : ℤ} {s t : State} (h : s.Comes k t) (hs : t.signals = []) : s.settled t = t := by
  have hold : s.settled t = { s.fixed.settled t with
      table := s.table.withWork t.table,
      window := { s.fixed.window with events := s.window.events ||| t.window.events } } := rfl
  have hnew : { t with signals := [] } = { t.fixed.settled t with
      table := t.table, window := { t.fixed.window with events := t.window.events } } := rfl
  rw [hold, h.table, h.events, ← h.fixed, ← hnew, ← hs]

theorem State.settleLoop_fuel (s : State) : (State.settleLoop s.fuel s).advance = none :=
  State.settleLoop_rests s.left_le_fuel

/-- The state of a step is what its messages and reactions lead to. -/
theorem State.settle_eq (s : State) : s.settle = State.settleLoop s.fuel s :=
  (State.Comes.settleLoop s.fuel s).settled (State.signals_of_rest s.settleLoop_fuel)

/-! ## The block each message goes to -/

/-- The oldest message is taken. -/
theorem State.advance_taken {q : State} {rest : List Signal} (h : q.signals = rest) (m : Signal) :
    State.advance { q with signals := m :: rest } = some (q.dispatch m) := by
  subst h
  rfl

theorem State.takeRequest_eq (q : State) (c : Client) (clean tell : Bool) :
    q.takeRequest c clean tell = { q with table := { q.table with
      plainReq := q.table.plainReq || !clean, cleanReq := q.table.cleanReq || clean,
      waiters := q.table.waiters ++ if tell then [{ client := c, what := .commitEnd, covered := false }] else [] } } := by
  cases clean <;> cases tell <;> simp [State.takeRequest, State.raiseClean, State.raisePlain, State.awaitCommit]

theorem State.takeReport_scan {q : State} (l : Lane) (e : EndReport) (h : q.modes.scan ≠ none) :
    q.takeReport l e = q.scanReport l e.op e.outcome := by
  rw [State.takeReport, if_pos (Option.isSome_iff_ne_none.2 h)]

theorem State.takeLoaded_eq (q : State) (ls : List Lane) :
    q.takeLoaded ls = if q.writer.order ≠ none then q.writerLoaded ls else q.copyLoaded ls := by
  simp only [State.takeLoaded, Option.isSome_iff_ne_none]

theorem State.takeUnit_eq (q : State) :
    q.takeUnit = if q.reader.order ≠ none then q.readWritten else q.recordWritten := by
  simp only [State.takeUnit, Option.isSome_iff_ne_none]

theorem State.takeEnding_eq (q : State) (e : MoverEnding) :
    q.takeEnding e = if q.writer.order ≠ none then q.writerMoverEnding e
      else if q.reader.order ≠ none then (if q.reader.isCopy = true then q.copyMoverEnding e else q.readMoverEnding e)
      else q.queryMoverEnding e := by
  simp only [State.takeEnding, Option.isSome_iff_ne_none]

theorem State.takeFlushed_eq (q : State) :
    q.takeFlushed = if q.writer.order ≠ none then { q with writer := { q.writer with flushed := true } }
      else if q.reader.order ≠ none then { q with reader := { q.reader with flushed := true } }
      else { q with services := { q.services with flushed := true } } := by
  simp only [State.takeFlushed, Option.isSome_iff_ne_none]

theorem State.takeFetched_descriptor (q : State) (ws : List Word) :
    q.takeFetched .descriptor ws = if q.reader.order ≠ none then q.patchDescriptor ws else q := by
  simp only [State.takeFetched, Option.isSome_iff_ne_none]

/-! ## The order of the reactions -/

/-- The first block reaction that is due comes about. -/
theorem findSome?_keepTableOpt {s t : State} {before after : List (State → Option State)} {f : State → Option State}
    (hbefore : ∀ g ∈ before, g s = none) (hf : f s = some t) :
    (before ++ f :: after).findSome? (fun f => keepTableOpt f s) = some { t with table := s.table } := by
  have hnone : before.findSome? (fun f => keepTableOpt f s) = none :=
    List.findSome?_eq_none_iff.2 fun g hg => by simp [keepTableOpt, hbefore g hg]
  rw [List.findSome?_append, hnone, Option.none_or, List.findSome?_cons]
  simp [keepTableOpt, hf]

/-- Settles O4. -/
theorem reactionsComeToRest : Obligations.ReactionsComeToRest := by
  unfold Obligations.ReactionsComeToRest
  refine ⟨fun s => ⟨s.settleLoop_fuel, s.settle_eq⟩, fun s n => ⟨rfl, State.settleLoop_rest n s, ?_⟩, ?_, ?_⟩
  · intro t ht
    simp only [State.settleLoop, ht]
  · intro q rest hq took block
    have htook : ∀ {m : Signal} {t : State}, q.dispatch m = t → took m t := fun h => h ▸ State.advance_taken hq _
    have hblock : ∀ {m : Signal} {t : State} (f : State → State), q.dispatch m = keepTable f q → f q = t →
        block m t := fun f hm ht => htook (hm.trans (by rw [keepTable, ht]))
    refine ⟨fun _ _ _ => htook rfl, fun _ => htook rfl, fun c clean tell => htook (q.takeRequest_eq c clean tell),
      fun _ => htook rfl, fun l e => ⟨?_, ?_⟩, ?_, ?_, ?_, ?_, ?_, ?_, ?_, ?_, ?_, ?_, ?_, ?_, ?_, ?_⟩
    · exact fun h => hblock (fun s => s.takeReport l e) rfl (q.takeReport_scan l e h)
    · intro h
      refine ⟨fun hk hw => ?_, fun hk hw => ?_, fun hk => ?_, fun hk => ?_, fun hk => ?_⟩ <;>
        exact hblock (fun s => s.takeReport l e) rfl (by simp [State.takeReport, *])
    · intro u applied changed
      refine ⟨?_, ?_, ?_, ?_, ?_, ?_⟩ <;> exact hblock (fun s => s.takeAnswer _ u applied changed) rfl rfl
    · intro what stored
      refine ⟨?_, ?_, ?_, ?_, ?_, ?_⟩ <;> exact hblock (fun s => s.takeNotice _ what stored) rfl rfl
    · intro granted
      refine ⟨?_, ?_, ?_, ?_, ?_, ?_⟩ <;> exact hblock (fun s => s.takePermit _ granted) rfl rfl
    · exact fun ls => hblock (fun s => s.takeLoaded ls) rfl (q.takeLoaded_eq ls)
    · exact fun b => hblock (fun s => s.readerBegun b) rfl rfl
    · exact fun r => hblock (fun s => s.takeJudged r) rfl rfl
    · exact fun ls => hblock (fun s => s.copyNeeds ls) rfl rfl
    · exact hblock (fun s => s.readDelivered) rfl rfl
    · exact fun r cs => hblock (fun s => s.patrolChecked r cs) rfl rfl
    · exact hblock (fun s => s.takeUnit) rfl q.takeUnit_eq
    · exact fun e => hblock (fun s => s.takeEnding e) rfl (q.takeEnding_eq e)
    · exact hblock (fun s => s.takeFlushed) rfl q.takeFlushed_eq
    · exact fun ws => ⟨hblock (fun s => s.takeFetched .patch ws) rfl rfl,
        hblock (fun s => s.takeFetched .descriptor ws) rfl (q.takeFetched_descriptor ws)⟩
    · exact fun r => hblock (fun s => s.takeOrderEnd r) rfl rfl
  · intro s hs blocks
    have hreact : s.advance = s.react := by simp only [State.advance, hs]
    refine ⟨fun t ht => by rw [hreact, State.react, ht], fun hgate => ?_⟩
    have hfirst : s.advance = blocks.findSome? (fun f => keepTableOpt f s) := by
      rw [hreact, State.react, hgate]
      rfl
    refine ⟨fun hnone => ?_, fun before f after t hsplit hbefore hf => ?_⟩
    · rw [hfirst]
      exact List.findSome?_eq_none_iff.2 fun f hf => by simp [keepTableOpt, hnone f hf]
    · rw [hfirst, hsplit]
      exact findSome?_keepTableOpt hbefore hf

end Sys2Proof.Machine
end

