-- ==== Sys2Proof/Proofs/Ports.lean ====
section
/-! What comes about in a step leaves a filled port as it is, and the orders of requests at a lane (R5, R6). -/

namespace Sys2Proof.Machine

open Sys2Proof

/-- What comes about in a step takes no request out of a port. -/
theorem State.settle_port {s : State} {l : Lane} (h : (s.lane l).port ≠ none) :
    (s.settle.lane l).port = (s.lane l).port := by
  rw [State.settle_eq]
  exact (State.Comes.settleLoop s.fuel s).ports l h

/-- Settles O20. -/
theorem resultQueryAnswersOthersWait : Obligations.ResultQueryAnswersOthersWait := by
  refine ⟨resultQuery_answers, disallowed_requests_wait, fun s l q hq => ?_, fun s => ⟨?_, ?_, ?_⟩⟩
  · rw [← hq]
    exact State.settle_port (by simp [hq])
  · exact fun l q rest hdue hbefore hw => State.placeRequests_due hdue hbefore hw
  · exact State.placeRequests_none
  · exact fun l q => s.give_lane l q

end Sys2Proof.Machine
end

