-- ==== Sys2Proof/Proofs/TableKept.lean ====
section
/-! What each command does to the band table before the reactions: most leave it alone, and the others are a load, a
reset, the start or the end of a commit. -/

namespace Sys2Proof.Machine

open Sys2Proof

namespace State

variable (s : State)

/-! ## The lanes and the coder (chapters 1 and 3) -/

@[simp] theorem giveAll_table (r : LaneReq) (ls : List Lane) : (s.giveAll r ls).table = s.table := rfl

@[simp] theorem finish_table (l : Lane) (c : LaneCtl) (op : LastOp) (o : Option PageOutcome) :
    (s.finish l c op o).table = s.table := rfl

@[simp] theorem claimCoder_table (o : CoderOwner) : (s.claimCoder o).table = s.table := (Runs.claimCoder s o).table

@[simp] theorem arrivePage_table (l : Lane) (id : PageId) (data : List Byte) (o : PageOutcome) :
    (s.arrivePage l id data o).table = s.table := by
  obtain ⟨c, hc⟩ := s.arrivePage_eq l id data o
  rw [hc]

theorem takeUnload_table (l : Lane) : (s.takeUnload l).table = s.table := by
  unfold takeUnload
  dsimp only
  split
  · split <;> simp
  · rfl

theorem takeMove_table (l : Lane) : (s.takeMove l).table = s.table := by
  unfold takeMove
  dsimp only
  split
  · split_ifs <;> rfl
  · rfl

theorem query_table (l : Lane) : (s.query l).table = s.table := by
  obtain ⟨v, ms, h⟩ := s.query_eq l
  rw [h]

theorem endProgram_table (l : Lane) (pass : Bool) : (s.endProgram l pass).table = s.table := by
  unfold endProgram
  dsimp only
  split <;> rfl

theorem endRead_table (l : Lane) (seen : ArrayRead) : (s.endRead l seen).table = s.table := by
  unfold endRead
  dsimp only
  split <;> rfl

theorem endMove_table (l : Lane) (seen : ArrayRead) (pass : Bool) : (s.endMove l seen pass).table = s.table := by
  unfold endMove
  dsimp only
  split
  · split <;> rfl
  · rfl

theorem endErase_table (l : Lane) (pass : Bool) : (s.endErase l pass).table = s.table := by
  unfold endErase
  dsimp only
  split <;> simp

theorem beginWriteRow_table : s.beginWriteRow.table = s.table := by
  unfold beginWriteRow
  split <;> rfl

theorem beginReadRow_table : s.beginReadRow.table = s.table := by
  unfold beginReadRow
  split <;> rfl

@[simp] theorem putWrite_table (a : WriteAsm) : (s.putWrite a).table = s.table := by
  unfold putWrite
  dsimp only
  split <;> rfl

theorem takeStagingWord_table : s.takeStagingWord.table = s.table := by
  unfold takeStagingWord coderTake
  dsimp only
  split
  · split
    · split <;> simp
    · rfl
  · rfl

theorem handPage_table : s.handPage.table = s.table := by
  unfold handPage
  split
  · split
    · exact putWrite_table ..
    · rfl
  · split
    · exact (Runs.putCopy ..).table
    · rfl
  · rfl

theorem handNext_table : s.handNext.table = s.table := by
  unfold handNext
  split
  · split
    · unfold handRecordWord
      dsimp only
      split <;> rfl
    · split
      · unfold handRowWord
        dsimp only
        split <;> rfl
      · rfl
  · rfl

/-! ## The bus (chapter 8) -/

@[simp] theorem busError_table (a : Nat) (w : Bool) : (s.busError a w).table = s.table := rfl

@[simp] theorem busRead_table (reply : BusReply) (a n : Nat) : (s.busRead reply a n).1.table = s.table := by
  unfold busRead
  dsimp only
  split <;> rfl

@[simp] theorem busWrite_table (reply : BusReply) (ws : List (Nat × Word)) :
    (s.busWrite reply ws).1.table = s.table := by
  unfold busWrite
  dsimp only
  split <;> rfl

@[simp] theorem beatRead_table (reply : BusReply) (a : Nat) : (s.beatRead reply a).1.table = s.table :=
  s.busRead_table reply a 1

variable {s} in
/-- The state in which a single-beat read ends. -/
theorem table_of_beatRead {t : State} {reply : BusReply} {a : Nat} {w : Option Word}
    (h : s.beatRead reply a = (t, w)) : t.table = s.table := by
  rw [← s.beatRead_table reply a, h]

variable {s} in
/-- The state in which a write burst ends. -/
theorem table_of_busWrite {t : State} {reply : BusReply} {ws : List (Nat × Word)} {ok : Bool}
    (h : s.busWrite reply ws = (t, ok)) : t.table = s.table := by
  rw [← s.busWrite_table reply ws, h]

@[simp] theorem emitUnits_table (n : Nat) : (s.emitUnits n).table = s.table := by
  induction n generalizing s with
  | zero => rfl
  | succ n ih => exact ih _

@[simp] theorem moverFlushed_table : s.moverFlushed.table = s.table := rfl

@[simp] theorem endDescriptor_table (a : Nat) (got : List Word) (ws : Option (List Word)) :
    (s.endDescriptor a got ws).table = s.table := by
  unfold endDescriptor
  split
  · rfl
  · split
    · dsimp only
      split <;> rfl
    · rfl

theorem descriptorEnds_table (reply : BusReply) : (s.descriptorEnds reply).table = s.table := by
  unfold descriptorEnds
  split
  · exact (endDescriptor_table ..).trans (busRead_table ..)
  · rfl

theorem burstStarts_table : s.burstStarts.table = s.table := by
  unfold burstStarts
  split <;> rfl

@[simp] theorem endReadBurst_table (ws : Option (List Word)) : (s.endReadBurst ws).table = s.table := by
  unfold endReadBurst
  dsimp only
  split
  · rfl
  · split
    · rfl
    · split <;> rfl

@[simp] theorem endWriteBurst_table (n : Nat) (ok : Bool) : (s.endWriteBurst n ok).table = s.table := by
  unfold endWriteBurst
  dsimp only
  split <;> simp

theorem burstEnds_table (reply : BusReply) : (s.burstEnds reply).table = s.table := by
  unfold burstEnds
  split
  · exact (endReadBurst_table ..).trans (busRead_table ..)
  · exact (endWriteBurst_table ..).trans (busWrite_table ..)
  · rfl

/-! ## Orders at their start (chapters 2, 5, 6 and 7) -/

@[simp] theorem startMover_table (owner : MoverOwner) (dir : Direction) (head permit unit : Nat) (fill : Option Byte) :
    (s.startMover owner dir head permit unit fill).table = s.table := rfl

@[simp] theorem startFetch_table (a n : Nat) (who : FetchFor) : (s.startFetch a n who).table = s.table := rfl

theorem startWrite_table (o : Order) : (s.startWrite o).table = s.table := by
  unfold startWrite
  split <;> simp

theorem startRead_table (o : Order) : (s.startRead o).table = s.table := by
  unfold startRead
  split <;> simp

theorem startCopy_table (o : Order) : (s.startCopy o).table = s.table := by
  unfold startCopy
  split
  · rfl
  · split_ifs <;> simp

@[simp] theorem eraseBegin_table : s.eraseBegin.table = s.table := by
  obtain ⟨v, ms, h⟩ := s.eraseBegin_eq
  rw [h]

theorem startErase_table (o : Order) : (s.startErase o).table = s.table := by
  unfold startErase
  split
  · rfl
  · dsimp only
    split <;> simp

theorem startSeal_table (o : Order) : (s.startSeal o).table = s.table := by
  unfold startSeal
  split <;> rfl

theorem startQuery_table (o : Order) : (s.startQuery o).table = s.table := by
  unfold startQuery
  split <;> rfl

theorem startFreeze_table (o : Order) : (s.startFreeze o).table = s.table := by
  unfold startFreeze
  split
  · rfl
  · dsimp only
    split <;> rfl

/-- No path touches the table when it takes an order: it speaks to it by messages. -/
theorem handOrder_table (o : Order) : (s.handOrder o).table = s.table := by
  unfold handOrder
  split
  case h_1 => exact s.startWrite_table o
  case h_2 => exact s.startRead_table o
  case h_3 => exact s.startCopy_table o
  case h_4 => exact s.startErase_table o
  case h_5 => exact s.startSeal_table o
  case h_6 => exact s.startQuery_table o
  case h_10 => exact s.startFreeze_table o
  all_goals rfl

/-! ## Sheets (chapter 4) -/

@[simp] theorem sheetFault_table : s.sheetFault.table = s.table := rfl

@[simp] theorem setAccess_table (a : Option SheetAccess) : (s.setAccess a).table = s.table := rfl

@[simp] theorem endBeat_table : s.endBeat.table = s.table := rfl

theorem activate_table : s.activate.table = s.table := by
  unfold activate
  split
  · split <;> rfl
  · rfl

theorem startEntryRead_table : s.startEntryRead.table = s.table := by
  unfold startEntryRead
  split <;> rfl

theorem endHeaderRead_table (reply : BusReply) : (s.endHeaderRead reply).table = s.table := by
  unfold endHeaderRead
  split
  · split
    · next hr => exact (table_of_beatRead hr :)
    · next hr => split <;> exact (table_of_beatRead hr :)
  · rfl

theorem takeEntry_table (i : Nat) (ws : List Word) : (s.takeEntry i ws).table = s.table := by
  unfold takeEntry
  dsimp only
  split
  · rfl
  · split
    · rfl
    · exact handOrder_table ..

theorem endEntryRead_table (reply : BusReply) : (s.endEntryRead reply).table = s.table := by
  unfold endEntryRead
  split
  · split
    · next hr => exact (table_of_beatRead hr :)
    · next hr =>
        split
        · exact (table_of_beatRead hr :)
        · exact (takeEntry_table ..).trans (table_of_beatRead hr)
  · rfl

theorem endResultWrite_table (reply : BusReply) : (s.endResultWrite reply).table = s.table := by
  unfold endResultWrite
  split
  · split
    · next hr => split <;> exact (table_of_busWrite hr :)
    · next hr => exact (table_of_busWrite hr :)
  · rfl

theorem endCompletionWrite_table (reply : BusReply) : (s.endCompletionWrite reply).table = s.table := by
  unfold endCompletionWrite
  split
  · split
    · next hr =>
        dsimp only
        split <;> exact (table_of_busWrite hr :)
    · next hr => exact (table_of_busWrite hr :)
  · rfl

/-- A sheet access that ends leaves the table alone when its own effect does. -/
theorem accessEnds_table (k : AccessKind) {f : State → State} (hf : ∀ t : State, (f t).table = t.table) :
    (s.accessEnds k f).table = s.table := by
  unfold accessEnds
  split
  · exact hf _
  · rfl

@[simp] theorem answerRow_table (a : RowAnswer) : (s.answerRow a).table = s.table := by
  unfold answerRow
  dsimp only
  split <;> rfl

@[simp] theorem answerHeld_table (a : RowAnswer) : (s.answerHeld a).table = s.table := by
  unfold answerHeld
  split <;> simp

theorem rowGo_table : s.rowGo.table = s.table := by
  unfold rowGo
  split
  · split <;> simp
  · rfl

theorem hold_table : s.hold.table = s.table := by
  unfold hold
  split <;> rfl

theorem resume_table : s.resume.table = s.table := by
  unfold resume
  dsimp only
  split <;> simp

theorem abort_table : s.abort.table = s.table := by
  unfold abort
  split
  · split <;> simp
  · rfl

/-! ## Modes and patrol (chapters 9 and 10) -/

@[simp] theorem refuse_table (apply : Bool) (r : Reason) : (s.refuse apply r).table = s.table := rfl

@[simp] theorem powerDownAll_table : s.powerDownAll.table = s.table := rfl

@[simp] theorem enterDrain_table : s.enterDrain.table = s.table := by
  unfold enterDrain drainSheets
  simp

@[simp] theorem startWake_table : s.startWake.table = s.table := by
  unfold startWake
  split <;> rfl

@[simp] theorem patrolWakeUp_table : s.patrolWakeUp.table = s.table := by
  unfold patrolWakeUp
  split <;> rfl

theorem post_table (a : Word) : (s.post a).table = s.table := by
  unfold post wakeUp
  split
  · rfl
  · split <;> simp [enqueue]

theorem apply_table : s.apply.table = s.table := by
  unfold apply
  dsimp only
  split_ifs <;> rfl

theorem standby_table : s.standby.table = s.table := by
  unfold standby
  split <;> rfl

theorem wake_table : s.wake.table = s.table := by
  unfold wake
  split <;> simp

@[simp] theorem reportClear_table : s.reportClear.table = s.table := rfl

theorem warnAsserted_table : s.warnAsserted.table = s.table := by
  unfold warnAsserted
  dsimp only
  split
  case h_6 => split <;> rfl
  all_goals simp

@[simp] theorem warnWithdrawn_table : s.warnWithdrawn.table = s.table := rfl

@[simp] theorem stopTimer_table : s.stopTimer.table = s.table := rfl

@[simp] theorem second_table : s.second.table = s.table := by
  unfold second
  split
  · split_ifs <;> rfl
  · rfl

theorem timerExpiry_table : s.timerExpiry.table = s.table := by
  unfold timerExpiry
  split
  · split <;> simp
  · rfl

theorem loadFuses_table : s.loadFuses.table = s.table := by
  unfold loadFuses
  split <;> rfl

theorem endFuse_table : s.endFuse.table = s.table := by
  unfold endFuse
  split
  · dsimp only
    split <;> rfl
  · rfl

theorem configure_table (c : Applied) : (s.configure c).table = s.table := by
  unfold configure
  dsimp only
  split_ifs
  · exact enterDrain_table _
  · rfl
  · rfl

theorem takeConfig_table (m : Mode) (ws : List Word) : (s.takeConfig m ws).table = s.table := by
  unfold takeConfig
  dsimp only
  split
  · rfl
  · split
    · exact configure_table ..
    · rfl

theorem endConfigRead_table (reply : BusReply) : (s.endConfigRead reply).table = s.table := by
  unfold endConfigRead
  split
  · rfl
  · split
    · next hr => exact (table_of_beatRead hr :)
    · next hr =>
        split
        · exact (table_of_beatRead hr :)
        · exact (takeConfig_table ..).trans (table_of_beatRead hr)

theorem configEnds_table (reply : BusReply) : (s.configEnds reply).table = s.table := by
  unfold configEnds
  split
  · exact endConfigRead_table ..
  · rfl

theorem patrolVisit_table : s.patrolVisit.table = s.table := by
  unfold patrolVisit visitRow
  dsimp only
  split
  · split
    · split
      · rfl
      · split
        · exact claimCoder_table ..
        · rfl
    · rfl
  · rfl

@[simp] theorem reportFailed_table (w : ReportWrite) : (s.reportFailed w).table = s.table := by
  cases w
  case finding => exact (Runs.dropFinding _).table
  case headerFor => exact (Runs.dropFinding _).table
  all_goals rfl

theorem reportEnds_table (reply : BusReply) : (s.reportEnds reply).table = s.table := by
  unfold reportEnds endReportWrite
  split
  · split
    · rfl
    · dsimp only
      split
      · next hr => exact (table_of_busWrite hr :)
      · next hr => exact (reportFailed_table ..).trans (table_of_busWrite (s := s.freePort) hr)
  · rfl

/-! ## Resets (9.7) -/

@[simp] theorem coldStart_table : s.coldStart.table = s.table := by
  unfold coldStart
  dsimp only
  split <;> rfl

@[simp] theorem resetBlocks_table (cut : Cut) : (s.resetBlocks cut).table = s.table.cleared := rfl

theorem softReset_table (cut : Cut) : (s.softReset cut).table = s.table.cleared := by
  unfold softReset
  simp [cutWrites]

theorem assertReset_table (cut : Cut) : (s.assertReset cut).table = s.table.cleared := rfl

theorem withdrawReset_table : s.withdrawReset.table = s.table := coldStart_table _

theorem loseSupply_table (cut : Cut) : (s.loseSupply cut).table = s.table.cleared := rfl

theorem gainSupply_table (lockEn warn inhibit : Bool) (cut : Cut) :
    (s.gainSupply lockEn warn inhibit cut).table = s.table.cleared := by
  unfold gainSupply
  dsimp only
  split
  · rfl
  · exact coldStart_table _

theorem powerOn_table (lockEn warn inhibit : Bool) (cut : Cut) :
    (s.powerOn lockEn warn inhibit cut).table = s.table.cleared := by
  unfold powerOn
  rw [gainSupply_table]
  split <;> rfl

end State

end Sys2Proof.Machine
end

