-- ==== Sys2Proof/Proofs/TableInvariants.lean ====
section
/-! What a step may do to the band table, said once, and the two invariants of the table that every step keeps. -/

namespace Sys2Proof.Machine

open Sys2Proof

/-! ## The moves of the table -/

/-- What the own effect of a command may do to the table: nothing, a reset, a load (R41), the start of a commit (R35) or
the end of one (R36). The updates and requests of the working table come by the reactions (R26). -/
inductive Table.Moves (t : Table) : Table → Prop where
  | kept : t.Moves t
  | cleared : t.Moves t.cleared
  | load : t.Moves t.load
  | failLoad : t.Moves t.failLoad
  | start (due : t.commitDue = true) : t.Moves t.startCommit
  | pass (c : CommitRun) (flying : t.commit = some c) : t.Moves (t.store c).raiseUnclean
  | fail (c : CommitRun) (flying : t.commit = some c) : t.Moves (t.failCommit c)

theorem Table.Moves.of_eq {t u : Table} (h : u = t) : t.Moves u := h ▸ .kept

/-- A state reached from a table by one move, with or without what comes about in the step. -/
def State.MovedFrom (b : Table) (t : State) : Prop := ∃ u : State, b.Moves u.table ∧ (t = u ∨ t = u.settle)

theorem State.MovedFrom.of_move {b : Table} {t : State} (h : b.Moves t.table) : State.MovedFrom b t :=
  ⟨t, h, .inl rfl⟩

/-- The table is cleared or left alone by a command that does not settle. -/
theorem State.MovedFrom.of_next {s t u : State} (h : (.next u : Result) = .next t) (hu : s.table.Moves u.table) :
    State.MovedFrom s.table t := by
  obtain rfl : u = t := by simpa using h
  exact .of_move hu

/-- A command that a live part takes makes the move of its own effect, and a part that is not live makes none. -/
theorem State.MovedFrom.of_takes {s t : State} {f : State → State} (h : s.takes f = .next t)
    (hf : s.table.Moves (f s).table) : State.MovedFrom s.table t := by
  cases hs : s.live with
  | true =>
      rw [s.takes_live f hs] at h
      obtain rfl : (f s).settle = t := by simpa using h
      exact ⟨f s, hf, .inr rfl⟩
  | false =>
      rw [s.takes_dead f hs] at h
      exact .of_next h .kept

/-- A command whose own effect leaves the table alone. -/
theorem State.MovedFrom.of_kept {s t : State} {f : State → State} (h : s.takes f = .next t)
    (hf : (f s).table = s.table) : State.MovedFrom s.table t := .of_takes h (.of_eq hf)

/-! ## Register writes, the load and the commits -/

theorem State.controlCommand_table (s : State) (i : Nat) : (s.controlCommand i).table = s.table := by
  unfold State.controlCommand
  split
  · exact s.apply_table
  · exact s.hold_table
  · exact s.resume_table
  · exact s.abort_table
  · exact s.standby_table
  · exact s.wake_table
  · exact s.reportClear_table

/-- A CONTROL write resets the table with bit 31, and otherwise leaves it alone (R189). -/
theorem State.writeControl_moves (s : State) (v : Word) (cut : Cut) : s.table.Moves (s.writeControl v cut).table := by
  unfold State.writeControl
  split
  · rw [s.softReset_table]
    exact .cleared
  · split
    · exact .kept
    · exact .of_eq (s.controlCommand_table _)
    · exact .kept

theorem State.writeRegister_moves (s : State) (offset bytes : Nat) (v : Word) (cut : Cut) :
    s.table.Moves (s.writeRegister offset bytes v cut).table := by
  unfold State.writeRegister
  split_ifs
  · exact .kept
  · exact .of_eq (s.post_table v)
  · exact s.writeControl_moves v cut
  all_goals exact .kept

theorem State.loadTable_moves (s : State) (agrees : Bool) : s.table.Moves (s.loadTable agrees).table := by
  unfold State.loadTable
  dsimp only
  split
  · split
    · split
      · exact .load
      · rw [(State.Runs.scanErasing _ 0).table]
        exact .load
    · exact .failLoad
  · exact .kept

theorem State.beginCommit_moves (s : State) : s.table.Moves s.beginCommit.table := by
  unfold State.beginCommit
  split
  · next due => exact .start due
  · exact .kept

theorem State.endCommit_table (s : State) (c : CommitRun) (pass : Bool) :
    (s.endCommit c pass).table = if pass then (s.table.store c).raiseUnclean else s.table.failCommit c := by
  unfold State.endCommit
  split
  · rw [State.tellAll_table]
  · rw [State.tellAll_table]; rfl

theorem State.commitEnds_moves (s : State) (pass : Bool) : s.table.Moves (s.commitEnds pass).table := by
  unfold State.commitEnds
  split
  · next c hc =>
      rw [s.endCommit_table]
      cases pass
      · exact .fail c hc
      · exact .pass c hc
  · exact .kept

/-! ## One step -/

/-- Every command makes one move of the table, and then what comes about in the step follows. -/
theorem exec_movedFrom {i : Instr} {s t : State} (h : exec i s = .next t) : State.MovedFrom s.table t := by
  cases i with
  | powerOn lockEn warn inhibit cut =>
      exact .of_next h (by rw [s.powerOn_table]; exact .cleared)
  | resetNAsserted cut =>
      refine .of_next h ?_
      split_ifs
      · exact .kept
      · exact .cleared
      · exact .kept
  | resetNWithdrawn =>
      refine .of_next h ?_
      split_ifs
      · exact .of_eq s.withdrawReset_table
      · exact .kept
      · exact .kept
  | softReset cut =>
      refine .of_next h ?_
      unfold State.whenLive
      split
      · rw [s.softReset_table]
        exact .cleared
      · exact .kept
  | lossOfSupply cut =>
      refine .of_next h ?_
      split
      · exact .cleared
      · exact .kept
  | writeInhibitAsserted | writeInhibitWithdrawn | eventsWrite | eventEnableWrite =>
      refine .of_next h (.of_eq ?_)
      unfold State.whenLive
      split <;> rfl
  | fuseWriteEnd =>
      have h : (if s.supply then s.endFuse.settle else s) = t := by simpa [exec, execFuseWriteEnd] using h
      subst h
      split
      · exact ⟨s.endFuse, .of_eq s.endFuse_table, .inr rfl⟩
      · exact .of_move .kept
  | registerWrite offset bytes value cut => exact .of_takes h (s.writeRegister_moves offset bytes value cut)
  | tableLoad agrees => exact .of_takes h (s.loadTable_moves agrees)
  | commitStart => exact .of_takes h s.beginCommit_moves
  | commitEnd pass => exact .of_takes h (s.commitEnds_moves pass)
  | pwrWarnAsserted => exact .of_kept (s := { s with warnLine := true }) h (State.warnAsserted_table _)
  | pwrWarnWithdrawn => exact .of_kept (s := { s with warnLine := false }) h rfl
  | post address => exact .of_kept h (s.post_table address)
  | apply => exact .of_kept h s.apply_table
  | hold => exact .of_kept h s.hold_table
  | resume => exact .of_kept h s.resume_table
  | abort => exact .of_kept h s.abort_table
  | standby => exact .of_kept h s.standby_table
  | wake => exact .of_kept h s.wake_table
  | patrolTimerExpiry => exact .of_kept h s.timerExpiry_table
  | fuseRowLoad => exact .of_kept h s.loadFuses_table
  | cacheUnload l => exact .of_kept h (s.takeUnload_table l)
  | pageMove l => exact .of_kept h (s.takeMove_table l)
  | resultQuery l => exact .of_kept h (s.query_table l)
  | programEnd l pass => exact .of_kept h (s.endProgram_table l pass)
  | readEnd l seen => exact .of_kept h (s.endRead_table l seen)
  | moveEnd l seen pass => exact .of_kept h (s.endMove_table l seen pass)
  | blockEraseEnd l pass => exact .of_kept h (s.endErase_table l pass)
  | beginWriteRow => exact .of_kept h s.beginWriteRow_table
  | stagingWordTaken => exact .of_kept h s.takeStagingWord_table
  | pageHanded => exact .of_kept h s.handPage_table
  | beginReadRow => exact .of_kept h s.beginReadRow_table
  | wordHanded => exact .of_kept h s.handNext_table
  | sheetActivation => exact .of_kept h s.activate_table
  | orderStart => exact .of_kept h s.startEntryRead_table
  | headerReadEnd reply => exact .of_kept h (s.accessEnds_table .header fun u => u.endHeaderRead_table reply)
  | entryReadEnd reply => exact .of_kept h (s.accessEnds_table .entry fun u => u.endEntryRead_table reply)
  | resultWriteEnd reply => exact .of_kept h (s.accessEnds_table .result fun u => u.endResultWrite_table reply)
  | completionWriteEnd reply =>
      exact .of_kept h (s.accessEnds_table .completion fun u => u.endCompletionWrite_table reply)
  | rowGo => exact .of_kept h s.rowGo_table
  | descriptorReadEnd reply => exact .of_kept h (s.descriptorEnds_table reply)
  | burstStart => exact .of_kept h s.burstStarts_table
  | burstEnd reply => exact .of_kept h (s.burstEnds_table reply)
  | configReadEnd reply => exact .of_kept h (s.configEnds_table reply)
  | patrolVisit => exact .of_kept h s.patrolVisit_table
  | reportWriteEnd reply => exact .of_kept h (s.reportEnds_table reply)
  | reportClear | cacheLoad | cacheCommit | cacheDiscard | pageRead | blockErase | powerDown | powerUp | transferEnd
    | powerUpEnd => exact .of_kept h rfl

theorem step_movedFrom {s t : State} (h : step s = .next t) : State.MovedFrom s.table t := by
  unfold step at h
  split at h
  · next rest _ => exact exec_movedFrom (s := { s with pending := rest }) h
  · exact .of_kept h s.second_table

/-- An invariant of the table that every move keeps, and that the reactions keep, is kept by every step. -/
theorem step_keeps_table {Q : Table → Prop} (moves : ∀ b u, Q b → b.Moves u → Q u)
    (settle : ∀ s : State, Q s.table → Q s.settle.table) {s t : State} (hs : Q s.table) (h : step s = .next t) :
    Q t.table := by
  obtain ⟨u, hu, rfl | rfl⟩ := step_movedFrom h
  · exact moves _ _ hs hu
  · exact settle _ (moves _ _ hs hu)

/-! ## The records stay sound (R20, R31) -/

/-- The records that a plain commit takes are working records (R35). -/
theorem soundAll_dirtyRecords (t : Table) (h : soundAll t.working = true) : soundAll t.dirtyRecords = true := by
  simp only [soundAll, Table.dirtyRecords, List.all_map, List.all_eq_true]
  exact fun b _ => soundAll_read t.working b h

theorem Table.Moves.sound {b u : Table} (hb : b.sound = true) (h : b.Moves u) : u.sound = true := by
  obtain ⟨working, stored, workingForm, storedForm, flight⟩ := (Table.sound_iff b).1 hb
  cases h with
  | kept => exact hb
  | cleared | failLoad =>
      exact (Table.sound_iff _).2 ⟨rfl, stored, rfl, storedForm, nofun⟩
  | load =>
      exact (Table.sound_iff _).2 ⟨stored, stored, storedForm, storedForm, nofun⟩
  | start due =>
      refine (Table.sound_iff _).2 ⟨working, stored, workingForm, storedForm, fun c hc => ?_⟩
      obtain rfl := Option.some.inj hc
      split
      · exact ⟨working, fun _ => workingForm⟩
      · exact ⟨soundAll_dirtyRecords b working, fun hk => absurd hk (by simp)⟩
  | pass c flying =>
      obtain ⟨records, recordsForm⟩ := flight c flying
      rw [Table.raiseUnclean_sound]
      refine (Table.sound_iff _).2 ⟨working, ?_, workingForm, ?_, nofun⟩
      · show soundAll (if c.clean then c.records else writeRecords b.stored c.records) = true
        split
        · exact records
        · exact soundAll_writeRecords _ _ records stored
      · show Sparse.wf .factory (if c.clean then c.records else writeRecords b.stored c.records) = true
        split
        · next hk => exact recordsForm hk
        · exact writeRecords_wf _ _ storedForm
  | fail c flying =>
      exact (Table.sound_iff _).2 ⟨working, stored, workingForm, storedForm, nofun⟩

/-- Settles O57: every move of the table and every reaction keeps the records sound. -/
theorem recordsStaySound : Obligations.RecordsStaySound :=
  fun _ _ hs h => step_keeps_table (Q := fun b => b.sound = true) (fun _ _ => Table.Moves.sound) State.settle_sound hs h

/-! ## With marker 1 the store is the working table (R39) -/

theorem Table.Moves.gated {b u : Table} (hb : b.gated = true) (h : b.Moves u) : u.gated = true := by
  rw [Table.gated_iff] at hb
  cases h with
  | kept => exact (Table.gated_iff _).2 hb
  | cleared | failLoad => rfl
  | load => exact (Table.gated_iff _).2 fun _ => ⟨fun _ => rfl, fun _ _ => rfl, nofun⟩
  | start due =>
      simp only [Table.commitDue, Bool.and_eq_true, Bool.not_eq_true'] at due
      obtain ⟨⟨-, nofault⟩, -⟩ := due
      refine (Table.gated_iff _).2 fun loaded => ?_
      obtain ⟨same, clean, -⟩ := hb loaded
      refine ⟨same, fun _ _ => rfl, fun c hc => ⟨nofault, ?_⟩⟩
      obtain rfl := Option.some.inj hc
      split
      · exact ⟨fun _ => ⟨rfl, rfl⟩, fun hk => absurd hk (by simp)⟩
      · exact ⟨fun hk => absurd hk (by simp), fun _ hm => by simp [Table.dirtyRecords, clean hm nofault]⟩
  | pass c flying =>
      rw [Table.raiseUnclean_gated]
      refine (Table.gated_iff _).2 fun loaded => ?_
      obtain ⟨-, -, flight⟩ := hb loaded
      obtain ⟨-, carries, -⟩ := flight c flying
      refine ⟨fun hk => ?_, fun hk _ => (carries hk).2, nofun⟩
      have hk : c.clean = true := hk
      simp [Table.store, hk, (carries hk).1]
  | fail c flying =>
      refine (Table.gated_iff _).2 fun loaded => ?_
      obtain ⟨same, -, -⟩ := hb loaded
      exact ⟨same, nofun, nofun⟩

/-- Settles O58: every move of the table and every reaction keeps the table's part of R39. -/
theorem markerOneMeansStoredIsWorking : Obligations.MarkerOneMeansStoredIsWorking :=
  fun _ _ hs h => step_keeps_table (Q := fun b => b.gated = true) (fun _ _ => Table.Moves.gated) State.settle_gated hs h

/-- Settles O56: the values after reset meet each invariant. -/
theorem invariantsHoldAtReset : Obligations.InvariantsHoldAtReset :=
  ⟨rfl, rfl, rfl, rfl, rfl, rfl⟩

end Sys2Proof.Machine
end

