-- ==== Sys2Proof/Proofs/BandUpdates.lean ====
section
/-! The updates on a band record: what each does when its condition holds, when it is not applied, and the moves between
states (R23, R25 to R33). -/

namespace Sys2Proof.Machine

open Sys2Proof

variable {r : BandRecord} {b n : Nat}

/-! ## ERASE START and ERASE END (R27, R28) -/

theorem applyUpdate_eraseStart (level : Level) (h : r.state ∉ [BandState.erasing, .retired]) :
    applyUpdate r (.eraseStart b level) = some { r with state := .erasing, level := level } := by
  cases hs : r.state <;> simp_all [applyUpdate]

theorem applyUpdate_eraseStart_none (level : Level) (h : r.state ∈ [BandState.erasing, .retired]) :
    applyUpdate r (.eraseStart b level) = none := by
  cases hs : r.state <;> simp_all [applyUpdate]

theorem applyUpdate_eraseEnd (pass : Bool) (h : r.state = .erasing) :
    applyUpdate r (.eraseEnd b pass) =
      some (if pass then { r with state := .blank, nextRow := 0, lost := [], voids := [], attention := false }
        else { r with state := .retired }) := by
  simp [applyUpdate, h]

/-! ## next_row moved (R30, R33) -/

/-- Past row `n` the band is SEALED if that was its last row, and else stays as it was (R30, R33). -/
theorem BandRecord.advance_opened (h : r.state = .opened) :
    r.advance n = { r with nextRow := n + 1, state := if n = 63 then .sealed else .opened } := by
  simp [BandRecord.advance, Config.rows, h]

theorem applyUpdate_rowFound (h : r.state = .opened) (hn : n = r.nextRow) (hlt : n < 64) :
    applyUpdate r (.rowFound b n) = some (r.advance n) :=
  if_pos ⟨h, hn, hlt⟩

theorem applyUpdate_rowTorn (h : r.state = .opened) (hn : n = r.nextRow) (hlt : n < 64) :
    applyUpdate r (.rowTorn b n) =
      if r.voids.length < 4 then some { r.advance n with voids := r.voids ++ [n] }
      else some { r with nextRow := n + 1, state := .sealed } :=
  if_pos ⟨h, hn, hlt⟩

/-- Off its row, or not in OPEN, a scanned row is not applied (R33). -/
theorem applyUpdate_scanned_none (h : r.state ≠ .opened ∨ n ≠ r.nextRow) :
    applyUpdate r (.rowFound b n) = none ∧ applyUpdate r (.rowTorn b n) = none := by
  have hcond : ¬(r.state = .opened ∧ n = r.nextRow ∧ n < Config.rows) := fun ⟨ho, hn, _⟩ =>
    h.elim (fun k => k ho) fun k => k hn
  exact ⟨if_neg hcond, if_neg hcond⟩

theorem applyUpdate_rowComplete_opened (h : r.state = .opened) (hn : n = r.nextRow) (hlt : n < 64) :
    applyUpdate r (.rowComplete b n) = some (r.advance n) := by
  have hcond : n = r.nextRow ∧ n < Config.rows := ⟨hn, hlt⟩
  simp only [applyUpdate, if_pos hcond, h]

theorem applyUpdate_rowComplete_failed (h : r.state = .failed) (hn : n = r.nextRow) (hlt : n < 64) :
    applyUpdate r (.rowComplete b n) = some { r with nextRow := n + 1 } := by
  have hcond : n = r.nextRow ∧ n < Config.rows := ⟨hn, hlt⟩
  simp only [applyUpdate, if_pos hcond, h]

theorem applyUpdate_rowComplete_none (h : n ≠ r.nextRow ∨ (r.state ≠ .opened ∧ r.state ≠ .failed)) :
    applyUpdate r (.rowComplete b n) = none := by
  unfold applyUpdate
  dsimp only
  split
  · next hcond =>
      obtain ⟨notOpened, notFailed⟩ := h.resolve_left fun k => k hcond.1
      cases hs : r.state <;> simp_all
  · rfl

/-! ## PROGRAM FAIL (R31) -/

theorem BandRecord.isLost_iff {l : Lane} : r.isLost l = true ↔ ∃ e ∈ r.lost, e.lane = l := by
  simp [BandRecord.isLost]

/-- A lane not yet listed, in OPEN: listed while the list has room, and the band FAILED beyond its level. -/
theorem applyUpdate_programFail {l : Lane} (h : r.state = .opened) (hl : ¬∃ e ∈ r.lost, e.lane = l) :
    applyUpdate r (.programFail b l n) =
      (let lost := if r.lost.length < 2 then r.lost ++ [⟨l, n⟩] else r.lost
       if r.lost.length + 1 ≤ r.level.val then some { r with lost := lost }
       else some { r with state := .failed, lost := lost }) := by
  rw [← BandRecord.isLost_iff, Bool.not_eq_true] at hl
  exact if_pos ⟨h, hl⟩

theorem applyUpdate_programFail_none {l : Lane} (h : r.state ≠ .opened ∨ ∃ e ∈ r.lost, e.lane = l) :
    applyUpdate r (.programFail b l n) = none := by
  rw [← BandRecord.isLost_iff] at h
  exact if_neg fun ⟨ho, hl⟩ => h.elim (fun k => k ho) fun k => by simp [hl] at k

/-! ## The moves between states (R25) -/

/-- An update that is applied moves the band as R25 lays down, or leaves it in its state. -/
theorem applyUpdate_moves {r' : BandRecord} {u : Update} (h : applyUpdate r u = some r') :
    r'.state = r.state ∨ r'.state ∈ stateMoves r.state := by
  have advanced (n : Nat) (ho : r.state = .opened) :
      (r.advance n).state = r.state ∨ (r.advance n).state ∈ stateMoves r.state := by
    rw [BandRecord.advance_opened ho, ho]
    by_cases hn : n = 63 <;> simp [hn, stateMoves]
  cases u with
  | eraseStart _ level =>
      by_cases hs : r.state ∈ [BandState.erasing, .retired]
      · simp [applyUpdate_eraseStart_none level hs] at h
      · obtain rfl := Option.some.inj ((applyUpdate_eraseStart level hs).symm.trans h)
        cases hst : r.state <;> simp_all [stateMoves]
  | eraseEnd _ pass =>
      simp only [applyUpdate, Option.ite_none_right_eq_some, Option.some.injEq] at h
      obtain ⟨hs, rfl⟩ := h
      cases pass <;> simp [hs, stateMoves]
  | openBand | sealBand =>
      simp only [applyUpdate, Option.ite_none_right_eq_some, Option.some.injEq] at h
      obtain ⟨hs, rfl⟩ := h
      simp [hs, stateMoves]
  | rowComplete _ n =>
      simp only [applyUpdate, Option.ite_none_right_eq_some] at h
      obtain ⟨-, h⟩ := h
      split at h <;> cases h
      · next ho => exact advanced _ ho
      · exact .inl rfl
  | programFail _ l n =>
      simp only [applyUpdate, Option.ite_none_right_eq_some] at h
      obtain ⟨⟨ho, -⟩, h⟩ := h
      split at h <;> cases h
      · exact .inl rfl
      · simp [ho, stateMoves]
  | rowFound _ n =>
      simp only [applyUpdate, Option.ite_none_right_eq_some, Option.some.injEq] at h
      obtain ⟨⟨ho, -⟩, rfl⟩ := h
      exact advanced _ ho
  | rowTorn _ n =>
      simp only [applyUpdate, Option.ite_none_right_eq_some] at h
      obtain ⟨⟨ho, -⟩, h⟩ := h
      split at h <;> cases h
      · exact advanced _ ho
      · simp [ho, stateMoves]
  | setAttention | clearAttention =>
      obtain rfl := Option.some.inj h
      exact .inl rfl

/-- Settles O30: each update by the lemma of its condition. -/
theorem bandUpdatesByRule : Obligations.BandUpdatesByRule := by
  refine ⟨fun r b level => ?_, fun r b n => ?_, fun r b n => ?_, fun r b n l _ => ?_, fun r r' u h => ?_⟩
  · refine ⟨applyUpdate_eraseStart level, applyUpdate_eraseStart_none level, fun hs => ?_, fun hs pass => if_neg hs,
      rfl, rfl, fun _ _ => ⟨rfl, rfl, rfl, rfl⟩⟩
    exact ⟨applyUpdate_eraseEnd true hs, applyUpdate_eraseEnd false hs⟩
  · refine ⟨fun ho hn hlt => ⟨?_, fun room => ?_, fun full => ?_⟩, applyUpdate_scanned_none, rfl, rfl,
      fun _ => ⟨rfl, rfl, rfl, rfl⟩⟩
    · rw [applyUpdate_rowFound ho hn hlt, BandRecord.advance_opened ho]
    · rw [applyUpdate_rowTorn ho hn hlt, if_pos room, BandRecord.advance_opened ho]
    · rw [applyUpdate_rowTorn ho hn hlt, if_neg (by omega)]
  · refine ⟨fun ho hn hlt => ?_, fun ho hn hlast => ?_, fun hf hn hlt => ?_, applyUpdate_rowComplete_none⟩
    · have hne : n ≠ 63 := by omega
      rw [applyUpdate_rowComplete_opened ho hn (by omega), BandRecord.advance_opened ho, if_neg hne, ← ho]
      exact ⟨rfl, by simp [Update.requesting, ho]⟩
    · obtain rfl : n = 63 := by omega
      rw [applyUpdate_rowComplete_opened ho hn (by omega), BandRecord.advance_opened ho]
      exact ⟨rfl, by simp [Update.requesting, ho]⟩
    · exact ⟨applyUpdate_rowComplete_failed hf hn hlt, by simp [Update.requesting, hf]⟩
  · refine ⟨fun ho hl fits => ?_, fun ho hl beyond room => ?_, fun ho hl beyond full => ?_,
      applyUpdate_programFail_none, fun _ => rfl⟩
    · have room : r.lost.length < 2 := by have := r.level.isLt; omega
      rw [applyUpdate_programFail ho hl, if_pos room, if_pos fits]
    · rw [applyUpdate_programFail ho hl, if_pos room, if_neg (by omega)]
    · rw [applyUpdate_programFail ho hl, if_neg (by omega), if_neg (by omega)]
  · have moves := applyUpdate_moves h
    exact ⟨moves, fun hr => by simpa [hr, stateMoves] using moves⟩

end Sys2Proof.Machine
end

