-- ==== Sys2Proof/Proofs/Commits.lean ====
section
/-! Commits of the table store (R34 to R36, R40): what their start takes, what their end leaves in the store, and
whom it tells. -/

namespace Sys2Proof.Machine

open Sys2Proof

/-! ## Records written into the store (R34) -/

/-- A band that no record names reads as before. -/
theorem read_writeRecords_other {rs : Sparse BandRecord} {b : Nat} (h : b ∉ rs.map (·.1)) (m : Sparse BandRecord) :
    Sparse.read .factory (writeRecords m rs) b = Sparse.read .factory m b := by
  induction rs generalizing m with
  | nil => rfl
  | cons e rest ih =>
      simp only [List.map_cons, List.mem_cons, not_or] at h
      obtain ⟨hne, hrest⟩ := h
      rw [writeRecords, ih hrest, Sparse.read_write_other _ _ _ _ _ hne]

/-- Each band that a record names, once, reads as that record. -/
theorem read_writeRecords_mem {rs : Sparse BandRecord} {b : Nat} {r : BandRecord} (h : (b, r) ∈ rs)
    (once : (rs.map (·.1)).Nodup) {m : Sparse BandRecord} (hm : Sparse.wf .factory m = true) :
    Sparse.read .factory (writeRecords m rs) b = r := by
  induction rs generalizing m with
  | nil => cases h
  | cons e rest ih =>
      obtain ⟨hfirst, hrest⟩ := List.nodup_cons.1 once
      rw [writeRecords]
      rcases List.mem_cons.1 h with rfl | h
      · rw [read_writeRecords_other hfirst, Sparse.read_write _ _ _ _ hm]
      · exact ih h hrest (Sparse.write_wf _ _ _ _ hm)

theorem mem_addDirtyAll {ds bs : List Nat} {x : Nat} : x ∈ addDirtyAll ds bs ↔ x ∈ ds ∨ x ∈ bs := by
  induction bs generalizing ds with
  | nil => simp [addDirtyAll]
  | cons b rest ih => rw [addDirtyAll, ih, mem_addDirty, List.mem_cons, or_assoc]

/-! ## The start (R35) -/

/-- A commit may start: none is in flight, STORE_FAULT is 0, and a request is pending (R35, R40). -/
theorem Table.commitDue_iff (t : Table) :
    t.commitDue = true ↔ t.commit = none ∧ t.storeFault = false ∧ (t.plainReq = true ∨ t.cleanReq = true) := by
  simp [Table.commitDue, and_assoc]

theorem execCommitStart_starts {s : State} (hs : s.live = true) (due : s.table.commitDue = true) :
    exec .commitStart s = .next (State.settle { s with table := s.table.startCommit }) := by
  refine (s.takes_live _ hs).trans ?_
  rw [State.beginCommit, if_pos due]

theorem execCommitStart_waits {s : State} (hs : s.live = true) (h : ¬s.table.commitDue = true) :
    exec .commitStart s = .next s.settle := by
  refine (s.takes_live _ hs).trans ?_
  rw [State.beginCommit, if_neg h]

/-! ## The end (R36, R40) -/

/-- Those who wait are told in order, and nothing else changes. -/
theorem State.tellAll_eq (s : State) (stored : Bool) (ws : List Waiter) :
    s.tellAll stored ws = { s with signals := s.signals ++ ws.map (fun w => .notice w.client w.what stored) } := by
  induction ws generalizing s with
  | nil => simp [State.tellAll]
  | cons w rest ih => simp [State.tellAll, ih, State.emit]

/-- At a PASS the store takes the records, and every wait that the commit covers is told STORED. -/
theorem State.endCommit_pass (s : State) (c : CommitRun) :
    s.endCommit c true = { s with
      table := (s.table.store c).raiseUnclean,
      signals := s.signals ++ (s.table.waiters.filter (·.covered)).map (fun w => .notice w.client w.what true) } :=
  State.tellAll_eq _ _ _

/-- At a FAIL STORE_FAULT is set, and every wait is told FAULT. -/
theorem State.endCommit_fail (s : State) (c : CommitRun) :
    s.endCommit c false = { s with
      table := s.table.failCommit c, window := s.window.set .storeFault,
      signals := s.signals ++ s.table.waiters.map (fun w => .notice w.client w.what false) } :=
  State.tellAll_eq _ _ _

theorem execCommitEnd_ends {s : State} {run : CommitRun} (pass : Bool) (hs : s.live = true)
    (flying : s.table.commit = some run) : exec (.commitEnd pass) s = .next (s.endCommit run pass).settle := by
  refine (s.takes_live _ hs).trans ?_
  simp only [State.commitEnds, flying]

/-- After a PASS: no commit in flight, the marker of the commit, the check value new, and in the store the records of
the commit beside those it did not carry (R34, R36). -/
theorem State.endCommit_pass_store (s : State) (run : CommitRun) :
    (s.endCommit run true).table.commit = none ∧ (s.endCommit run true).table.marker = run.clean ∧
      (s.endCommit run true).table.checkDelta = 0 ∧
      (s.endCommit run true).table.stored =
        if run.clean then run.records else writeRecords s.table.stored run.records := by
  obtain ⟨p, hp⟩ := (s.table.store run).raiseUnclean_eq
  rw [State.endCommit_pass, hp]
  exact ⟨rfl, rfl, rfl, rfl⟩

/-- Settles O31: the start by `Table.startCommit`, the two ends by `State.endCommit_pass` and `State.endCommit_fail`. -/
theorem commitsChangeStoreWhole : Obligations.CommitsChangeStoreWhole := by
  refine ⟨fun s hs idle sound request => ?_, fun s run hs flying form => ⟨?_, ?_⟩, fun s run pass hs flying => ?_,
    fun s hs idle sound request => ?_, fun s hs h => ?_⟩
  · have due := (Table.commitDue_iff _).2 ⟨idle, sound, request⟩
    refine ⟨_, _, execCommitStart_starts hs due, rfl, ?_, ?_, ?_, rfl, rfl, rfl, rfl, rfl, rfl, rfl⟩
    · split <;> simp_all
    · exact fun clean => by rw [if_pos clean]
    · exact fun plain => by rw [if_neg (by simp [plain])]; rfl
  · obtain ⟨commit, marker, check, stored⟩ := s.endCommit_pass_store run
    refine ⟨_, execCommitEnd_ends true hs flying, commit, marker, check, fun clean b => ?_, fun plain once b r hr => ?_,
      fun plain b hb => ?_⟩ <;> rw [Table.storedRecord, State.settle_stored, stored]
    · rw [if_pos clean]
    · rw [if_neg (by simp [plain]), read_writeRecords_mem hr once form]
    · rw [if_neg (by simp [plain]), read_writeRecords_other hb, Table.storedRecord]
  · refine ⟨_, execCommitEnd_ends false hs flying, ?_⟩
    rw [State.endCommit_fail]
    refine ⟨rfl, rfl, Window.flag_set_same _ _, rfl, rfl, fun plain b hb => ?_, fun clean b hb => ?_⟩
    · simp only [Table.failCommit, plain, Bool.false_eq_true, if_false]
      exact mem_addDirtyAll.2 (.inr hb)
    · simp only [Table.failCommit, clean, if_true]
      exact List.mem_range.2 hb
  · refine ⟨_, execCommitEnd_ends pass hs flying, ?_⟩
    cases pass
    · rw [State.endCommit_fail]
      exact ⟨rfl, rfl, rfl, fun _ => ⟨rfl, rfl, rfl, rfl⟩, fun _ => rfl, fun _ _ _ => rfl⟩
    · obtain ⟨p, hp⟩ := (s.table.store run).raiseUnclean_eq
      rw [State.endCommit_pass, hp]
      exact ⟨rfl, rfl, rfl, fun _ => ⟨rfl, rfl, rfl, rfl⟩, fun _ => rfl, fun _ _ _ => rfl⟩
  · exact ⟨_, execCommitStart_starts hs ((Table.commitDue_iff _).2 ⟨idle, sound, request⟩), rfl, rfl⟩
  · refine execCommitStart_waits hs fun due => ?_
    obtain ⟨idle, sound, request⟩ := (Table.commitDue_iff _).1 due
    rcases h with h | h | ⟨hp, hc⟩
    · exact h idle
    · simp [sound] at h
    · simp [hp, hc] at request

end Sys2Proof.Machine
end

