-- ==== Sys2Proof/Proofs/Gate.lean ====
section
/-! The clean-marker gate (R26, R35, R39, R40): what it holds, what an update that passes it does, and what it
releases. -/

namespace Sys2Proof.Machine

open Sys2Proof

/-! ## The gate and what it holds -/

theorem Table.cleanInFlight_iff (t : Table) :
    t.cleanInFlight = true ↔ ∃ run, t.commit = some run ∧ run.clean = true := by
  cases hc : t.commit <;> simp [Table.cleanInFlight, hc]

/-- The gate is open with STORE_FAULT 0, marker 0, no clean commit in flight and no clean request pending (R39,
log 43). -/
theorem Table.gateOpen_iff (t : Table) : t.gateOpen = true ↔ t.storeFault = false ∧ t.marker = false ∧
    ¬((∃ run, t.commit = some run ∧ run.clean = true) ∨ t.cleanReq = true) := by
  rw [← Table.cleanInFlight_iff]
  simp [Table.gateOpen, and_assoc]

theorem Table.gateOpen_of_not_shut {t : Table} (fault : t.storeFault = false) (marker : t.marker = false)
    (h : ¬((∃ run, t.commit = some run ∧ run.clean = true) ∨ t.cleanReq = true)) : t.gateOpen = true :=
  (t.gateOpen_iff).2 ⟨fault, marker, h⟩

theorem Table.gateOpen_of_shut {t : Table}
    (h : t.marker = true ∨ (∃ run, t.commit = some run ∧ run.clean = true) ∨ t.cleanReq = true) :
    t.gateOpen = false := by
  rw [Bool.eq_false_iff, Ne, Table.gateOpen_iff]
  rintro ⟨-, marker, notShut⟩
  exact h.elim (fun m => by simp [marker] at m) notShut

theorem Table.holds_iff (t : Table) : t.holds = true ↔ t.heldUpdates ≠ [] ∨ t.heldPermits ≠ [] := by
  simp [Table.holds]

/-- For what is held the unclean write is requested when it is due. -/
theorem Table.raiseUnclean_of_holds {t : Table} (h : t.holds = true) :
    t.raiseUnclean = { t with plainReq := t.plainReq || t.uncleanDue } := by
  unfold Table.raiseUnclean
  cases hd : t.uncleanDue <;> simp [h]

/-- An update that meets the closed gate joins those held, and the unclean write is requested when it is due. -/
theorem State.giveUpdate_held {s : State} (c : Client) (u : Update) (n : Bool) (fault : s.table.storeFault = false)
    (closed : s.table.gateOpen = false) :
    s.giveUpdate c u n = { s with table := { s.table with
      heldUpdates := s.table.heldUpdates ++ [{ client := c, update := u, notice := n }],
      plainReq := s.table.plainReq || s.table.uncleanDue } } := by
  unfold State.giveUpdate
  dsimp only
  rw [if_neg (by simp [fault, closed]), Table.raiseUnclean_of_holds ((Table.holds_iff _).2 (.inl (by simp)))]
  rfl

/-- A permit asked for at the closed gate is held in the same way. -/
theorem State.askPermit_held {s : State} (c : Client) (fault : s.table.storeFault = false)
    (closed : s.table.gateOpen = false) :
    s.askPermit c = { s with table := { s.table with
      heldPermits := s.table.heldPermits ++ [c], plainReq := s.table.plainReq || s.table.uncleanDue } } := by
  rw [State.askPermit, if_neg (by simp [fault]), if_neg (by simp [closed]),
    Table.raiseUnclean_of_holds ((Table.holds_iff _).2 (.inr (by simp)))]
  rfl

/-! ## An update taken (R26, R37) -/

/-- What the giver that asked for notice is told at once: FAULT under STORE_FAULT (R40). -/
def HeldUpdate.toldFault (h : HeldUpdate) (fault : Bool) : List Signal :=
  if h.notice && fault then [.notice h.client h.update.noticeFor false] else []

/-- The wait for notice that is noted otherwise (R26). -/
def HeldUpdate.waits (h : HeldUpdate) (fault : Bool) : List Waiter :=
  if h.notice && !fault then [{ client := h.client, what := h.update.noticeFor, covered := false }] else []

/-- The table with the record that an applied update leaves: as it was when nothing changed (R26, R35). -/
def Table.updated (t : Table) (u : Update) (new : BandRecord) : Table :=
  if new ≠ t.record u.band then t.change u.band new (u.requesting (t.record u.band) new) else t

@[simp] theorem Table.updated_storeFault (t : Table) (u : Update) (new : BandRecord) :
    (t.updated u new).storeFault = t.storeFault := by
  unfold Table.updated
  split <;> rfl

@[simp] theorem Table.updated_waiters (t : Table) (u : Update) (new : BandRecord) :
    (t.updated u new).waiters = t.waiters := by
  unfold Table.updated
  split <;> rfl

/-- The table with waits for notice noted after those that stand (R26). -/
def Table.noting (t : Table) (ws : List Waiter) : Table := { t with waiters := t.waiters ++ ws }

@[simp] theorem Table.noting_nil (t : Table) : t.noting [] = t := by simp [Table.noting]

/-- Not applied: the table is as it was, and the giver is answered so. -/
theorem State.takeUpdate_refused {s : State} {h : HeldUpdate}
    (no : (s.table.storeFault && s.table.marker) = true ∨ applyUpdate (s.band h.update.band) h.update = none) :
    s.takeUpdate h = { s with signals :=
      s.signals ++ [.answer h.client h.update false false] ++ h.toldFault s.table.storeFault } := by
  have result : (if s.table.storeFault && s.table.marker then none
      else applyUpdate (s.band h.update.band) h.update) = none := by
    split
    · rfl
    · next hf => exact no.resolve_left hf
  unfold State.takeUpdate HeldUpdate.toldFault
  dsimp only
  rw [result]
  dsimp only
  rw [State.emit_table]
  cases h.notice && s.table.storeFault <;> simp [State.emit]

/-- Applied: the record stands in the table, the giver is answered, and its wait for notice is noted, or told FAULT. -/
theorem State.takeUpdate_applied {s : State} {h : HeldUpdate} {new : BandRecord}
    (pass : (s.table.storeFault && s.table.marker) = false)
    (hn : applyUpdate (s.band h.update.band) h.update = some new) :
    s.takeUpdate h = { s with
      table := (s.table.updated h.update new).noting (h.waits s.table.storeFault),
      signals := s.signals ++ [.answer h.client h.update true (decide (new ≠ s.band h.update.band))] ++
        h.toldFault s.table.storeFault } := by
  have result : (if s.table.storeFault && s.table.marker then none
      else applyUpdate (s.band h.update.band) h.update) = some new := by rw [pass]; exact hn
  have table : (if decide (new ≠ s.band h.update.band) = true then
      s.table.change h.update.band new (h.update.requesting (s.band h.update.band) new) else s.table) =
        s.table.updated h.update new := by
    simp only [decide_eq_true_eq]
    rfl
  unfold State.takeUpdate HeldUpdate.toldFault HeldUpdate.waits
  dsimp only
  rw [result]
  dsimp only
  rw [table, State.emit_table, Table.updated_storeFault]
  cases h.notice
  · simp [State.emit]
  · cases hf : s.table.storeFault
    · simp [State.emit, Table.noting, hf]
    · simp [State.emit]

/-- The updated band reads as its new record, and every other band as before. -/
theorem Table.record_updated {t : Table} {u : Update} {new : BandRecord} (form : Sparse.wf .factory t.working = true)
    (b : Nat) : (t.updated u new).record b = if b = u.band then new else t.record b := by
  unfold Table.updated
  split
  · exact Sparse.read_write_eq _ _ _ _ _ form
  · next same =>
      split
      · next hb => rw [hb, not_not.1 same]
      · rfl

/-- A changed record raises the plain request if the update is requesting, and its band is dirty, once (R26, R35). -/
theorem Table.updated_changed {t : Table} {u : Update} {new : BandRecord} (h : new ≠ t.record u.band) :
    t.updated u new = t.change u.band new (u.requesting (t.record u.band) new) :=
  if_pos h

/-- A record that stays as it was leaves the table as it was (R26). -/
theorem Table.updated_same {t : Table} {u : Update} {new : BandRecord} (h : new = t.record u.band) :
    t.updated u new = t :=
  if_neg (not_not.2 h)

/-! ## What the gate releases (R39, R40) -/

/-- Permits are answered in their order, and nothing else changes. -/
theorem State.answerPermits_eq (s : State) (granted : Bool) (cs : List Client) :
    s.answerPermits granted cs = { s with signals := s.signals ++ cs.map (fun c => .permit c granted) } := by
  induction cs generalizing s with
  | nil => simp [State.answerPermits]
  | cons c rest ih => simp [State.answerPermits, ih, State.emit]

/-- Released work: the held updates taken in order, and then the permits answered. -/
theorem State.releaseHeld_eq (s : State) :
    s.releaseHeld =
      (let left : State := { s with table := { s.table with heldUpdates := [], heldPermits := [] } }
       let t := left.takeAll s.table.heldUpdates
       { t with signals := t.signals ++ s.table.heldPermits.map (fun c => .permit c (!s.table.storeFault)) }) :=
  State.answerPermits_eq _ _ _

/-- Updates and permits may be taken: under STORE_FAULT, or with the gate open. -/
theorem Table.free_iff (t : Table) : (t.gateOpen || t.storeFault) = true ↔
    t.storeFault = true ∨ (t.marker = false ∧ t.cleanReq = false ∧ ∀ run, t.commit = some run → run.clean = false) := by
  have flying : (¬∃ run, t.commit = some run ∧ run.clean = true) ↔ ∀ run, t.commit = some run → run.clean = false := by
    simp
  rw [Bool.or_eq_true, Table.gateOpen_iff, not_or, flying, Bool.not_eq_true]
  cases t.storeFault <;> simp [and_comm]

/-- The unclean write is requested at the PASS of a clean commit that finds work held (R39). -/
theorem State.endCommit_requests {s : State} {run : CommitRun} (clean : run.clean = true)
    (fault : s.table.storeFault = false) (held : s.table.heldUpdates ≠ [] ∨ s.table.heldPermits ≠ []) :
    (s.endCommit run true).table.plainReq = true := by
  have holds : (s.table.store run).holds = true := (Table.holds_iff _).2 held
  rw [State.endCommit_pass, Table.raiseUnclean_of_holds holds]
  simp [Table.uncleanDue, Table.store, Table.cleanInFlight, clean, fault]

/-! ## The statement -/

/-- An update that meets the open gate, or STORE_FAULT with marker 0, and is applied. -/
theorem State.giveUpdate_applied {s : State} (c : Client) {u : Update} (n : Bool) {new : BandRecord}
    (marker : s.table.marker = false) (free : s.table.storeFault = true ∨ s.table.gateOpen = true)
    (idle : s.table.heldUpdates = []) (hn : applyUpdate (s.band u.band) u = some new) :
    s.giveUpdate c u n = { s with
      table := (s.table.updated u new).noting (HeldUpdate.waits ⟨c, u, n⟩ s.table.storeFault),
      signals := s.signals ++ [.answer c u true (decide (new ≠ s.band u.band))] ++
        HeldUpdate.toldFault ⟨c, u, n⟩ s.table.storeFault } := by
  rw [s.giveUpdate_taken c u n idle free]
  exact State.takeUpdate_applied (by simp [marker]) hn

/-- An update that is not applied leaves the table as it was, and is answered NOT_APPLIED. -/
theorem State.giveUpdate_refused {s : State} (c : Client) {u : Update} (n : Bool)
    (free : s.table.storeFault = true ∨ s.table.gateOpen = true) (idle : s.table.heldUpdates = [])
    (no : (s.table.storeFault && s.table.marker) = true ∨ applyUpdate (s.band u.band) u = none) :
    (s.giveUpdate c u n).table = s.table ∧ .answer c u false false ∈ (s.giveUpdate c u n).signals := by
  rw [s.giveUpdate_taken c u n idle free, State.takeUpdate_refused no]
  exact ⟨rfl, by simp⟩

/-- Settles O32: held by `giveUpdate_held`, applied by `giveUpdate_applied`, released by `releaseHeld_eq`. -/
theorem gateHoldsUpdates : Obligations.GateHoldsUpdates := by
  refine ⟨fun s c u n => ⟨fun fault shut => ?_, fun fault marker idle => ?_, fun marker free idle form => ?_,
    fun fault => ?_, fun fault marker open_ => ?_, fun run clean fault held =>
      State.endCommit_requests clean fault held⟩,
    fun s => ⟨fun held free => ?_, fun h => ?_, rfl, fun free idle c u n rest => ?_⟩⟩
  · have closed := Table.gateOpen_of_shut shut
    rw [State.giveUpdate_held c u n fault closed, State.askPermit_held c fault closed]
    refine ⟨_, ?_, rfl, rfl, rfl, rfl⟩
    rw [← Table.cleanInFlight_iff]
    simp [Table.uncleanDue, fault]
  · exact State.giveUpdate_refused c n (.inl fault) idle (.inl (by simp [fault, marker]))
  · have free : s.table.storeFault = true ∨ s.table.gateOpen = true := by
      cases fault : s.table.storeFault
      · exact .inr (Table.gateOpen_of_not_shut fault marker (free.resolve_left (by simp [fault])))
      · exact .inl rfl
    refine ⟨fun new hn => ?_, fun hn => State.giveUpdate_refused c n free idle (.inr hn)⟩
    rw [State.giveUpdate_applied c n marker free idle hn]
    refine ⟨?_, fun b hb => ?_, by simp, fun changed => ?_, fun same => ?_, fun notice fault => ?_,
      fun notice fault => ?_⟩
    · exact (Table.record_updated form _).trans (if_pos rfl)
    · exact (Table.record_updated form _).trans (if_neg hb)
    · rw [Table.updated_changed changed]
      exact ⟨rfl, fun b => mem_addDirty _ _ _, nodup_addDirty _ _⟩
    · rw [Table.updated_same same]
      exact ⟨rfl, rfl⟩
    · simp [HeldUpdate.waits, Table.noting, notice, fault]
    · simp [HeldUpdate.toldFault, notice, fault]
  · simp [State.askPermit, fault]
  · simp [State.askPermit, fault, Table.gateOpen_of_not_shut fault marker open_]
  · have h : (s.table.holds && (s.table.gateOpen || s.table.storeFault)) = true := by
      rw [Bool.and_eq_true, Table.holds_iff, Table.free_iff]
      exact ⟨held, free⟩
    rw [State.gateReleases, if_pos h, State.releaseHeld_eq]
  · refine if_neg fun both => ?_
    rw [Bool.and_eq_true, Table.holds_iff, Table.free_iff] at both
    exact h.elim (fun k => k both.1) fun k => k both.2
  · rw [← Table.free_iff, Bool.or_comm, Bool.or_eq_true] at free
    rw [s.giveUpdate_taken c u n idle free]
    rfl

end Sys2Proof.Machine
end

