-- ==== Sys2Proof/Proofs/OrderChecks.lean ====
section
/-! The checks at the start of each order, as one list of conditions with their statuses, the first that fails giving
the status (R43, R90, R107, R111, R120, R132, R146). -/

namespace Sys2Proof.Machine

open Sys2Proof

/-! ## The first check that fails -/

/-- The status of the first check that fails; a check stands with the condition under which it fails. -/
def firstFailing (checks : List (Bool × OrderStatus)) : Option OrderStatus := (checks.find? (·.1)).map (·.2)

@[simp] theorem firstFailing_nil : firstFailing [] = none := rfl

/-- A check and the checks after it. -/
theorem firstFailing_cons (c : Bool) (st : OrderStatus) (rest : List (Bool × OrderStatus)) :
    firstFailing ((c, st) :: rest) = if c then some st else firstFailing rest := by
  cases c <;> rfl

/-- An order passes when none of its checks fails. -/
theorem firstFailing_eq_none (checks : List (Bool × OrderStatus)) :
    firstFailing checks = none ↔ ∀ c ∈ checks, c.1 = false := by
  simp [firstFailing]

/-- A step of a chain of checks is the head of the list, under the same condition. -/
theorem check_eq_firstFailing {p : Prop} [Decidable p] {c : Bool} {st : OrderStatus} {later : Option OrderStatus}
    {rest : List (Bool × OrderStatus)} (hc : p ↔ c = true) (hr : later = firstFailing rest) :
    (if p then some st else later) = firstFailing ((c, st) :: rest) := by
  rw [firstFailing_cons, hr]
  exact if_congr hc rfl rfl

/-! ## The checks of each order -/

theorem BandState.readable_iff (st : BandState) :
    st.readable = true ↔ st = .opened ∨ st = .sealed ∨ st = .failed := by
  cases st <;> simp [BandState.readable]

/-- The count of rows is in range, and the rows fit below row 64 from `n` on. -/
theorem count_bad_iff (count n : Nat) :
    ¬(1 ≤ count ∧ count ≤ Config.rows ∧ n + count ≤ Config.rows) ↔
      decide (count = 0 ∨ 64 < count ∨ 64 < n + count) = true := by
  rw [decide_eq_true_iff, Config.rows]
  omega

theorem count_out_iff (count : Nat) :
    ¬(1 ≤ count ∧ count ≤ Config.rows) ↔ decide (count = 0 ∨ 64 < count) = true := by
  rw [decide_eq_true_iff, Config.rows]
  omega

section
variable (s : State) (o : Order)

theorem State.checkWrite_eq : s.checkWrite o = firstFailing
    [(decide (1024 ≤ o.band), .badBand), (s.table.storeFault, .storeFault), (s.protect.frozen o.band, .frozen),
      (s.protect.locked o.band, .protected_),
      (decide ((s.band o.band).state ≠ .blank ∧ (s.band o.band).state ≠ .opened), .bandState),
      (!o.atNext && decide (o.startRow ≠ (s.band o.band).nextRow), .badRow),
      (decide (o.count = 0 ∨ 64 < o.count ∨ 64 < (s.band o.band).nextRow + o.count), .badCount)] := by
  refine check_eq_firstFailing (decide_eq_true_iff).symm <| check_eq_firstFailing .rfl <| check_eq_firstFailing .rfl <|
    check_eq_firstFailing .rfl <| check_eq_firstFailing ?_ <| check_eq_firstFailing ?_ <|
    check_eq_firstFailing (count_bad_iff _ _) rfl
  · simp [not_or]
  · simp [not_or]

theorem State.checkRead_eq : s.checkRead o = firstFailing
    [(decide (1024 ≤ o.band), .badBand),
      (decide ¬((s.band o.band).state = .opened ∨ (s.band o.band).state = .sealed ∨ (s.band o.band).state = .failed),
        .bandState),
      (decide (o.count = 0 ∨ 64 < o.count), .badCount), (decide ((s.band o.band).nextRow ≤ o.startRow), .badRow),
      (decide ((s.band o.band).nextRow < o.startRow + o.count), .badCount)] := by
  refine check_eq_firstFailing (decide_eq_true_iff).symm <| check_eq_firstFailing ?_ <|
    check_eq_firstFailing (count_out_iff _) <| check_eq_firstFailing (decide_eq_true_iff).symm <|
    check_eq_firstFailing (decide_eq_true_iff).symm rfl
  rw [decide_eq_true_iff, ← BandState.readable_iff, Bool.not_eq_true]

theorem State.checkCopy_eq : s.checkCopy o = firstFailing
    [(decide (1024 ≤ o.band ∨ 1024 ≤ o.targetBand), .badBand), (s.table.storeFault, .storeFault),
      (s.protect.frozen o.targetBand, .frozen), (s.protect.locked o.targetBand, .protected_),
      (decide (¬((s.band o.band).state = .opened ∨ (s.band o.band).state = .sealed ∨ (s.band o.band).state = .failed) ∨
        ((s.band o.targetBand).state ≠ .blank ∧ (s.band o.targetBand).state ≠ .opened)), .bandState),
      (decide ((s.band o.band).level ≠ (s.band o.targetBand).level), .levelMismatch),
      (decide (o.count = 0 ∨ 64 < o.count), .badCount), (decide ((s.band o.band).nextRow ≤ o.startRow), .badRow),
      (decide ((s.band o.band).nextRow < o.startRow + o.count ∨ 64 < (s.band o.targetBand).nextRow + o.count),
        .badCount),
      (decide (∃ v ∈ (s.band o.band).voids, o.startRow ≤ v ∧ v < o.startRow + o.count), .voidRow)] := by
  refine check_eq_firstFailing (decide_eq_true_iff).symm <| check_eq_firstFailing .rfl <| check_eq_firstFailing .rfl <|
    check_eq_firstFailing .rfl <| check_eq_firstFailing ?_ <| check_eq_firstFailing (decide_eq_true_iff).symm <|
    check_eq_firstFailing (count_out_iff _) <| check_eq_firstFailing (decide_eq_true_iff).symm <|
    check_eq_firstFailing (decide_eq_true_iff).symm <| check_eq_firstFailing ?_ rfl
  · rw [decide_eq_true_iff, ← BandState.readable_iff, not_and_or, not_or]
  · simp

theorem State.checkErase_eq : s.checkErase o = firstFailing
    [(decide (1024 ≤ o.band), .badBand), (decide (o.eraseLevel = none), .badRange), (s.table.storeFault, .storeFault),
      (s.protect.frozen o.band, .frozen), (s.protect.locked o.band, .protected_),
      (decide ((s.band o.band).state = .erasing ∨ (s.band o.band).state = .retired), .bandState)] := by
  refine check_eq_firstFailing (decide_eq_true_iff).symm <| check_eq_firstFailing (decide_eq_true_iff).symm <|
    check_eq_firstFailing .rfl <| check_eq_firstFailing .rfl <| check_eq_firstFailing .rfl ?_
  rw [firstFailing_cons]
  cases (s.band o.band).state <;> rfl

theorem State.checkSeal_eq : s.checkSeal o = firstFailing
    [(decide (1024 ≤ o.band), .badBand), (s.table.storeFault, .storeFault), (s.protect.frozen o.band, .frozen),
      (s.protect.locked o.band, .protected_), (decide ((s.band o.band).state ≠ .opened), .bandState)] :=
  check_eq_firstFailing (decide_eq_true_iff).symm <| check_eq_firstFailing .rfl <| check_eq_firstFailing .rfl <|
    check_eq_firstFailing .rfl <| check_eq_firstFailing (decide_eq_true_iff).symm rfl

theorem checkQuery_eq : checkQuery o = firstFailing
    [(decide (1024 ≤ o.band), .badBand),
      (decide (o.count = 0 ∨ 1024 < o.count ∨ 1024 < o.band + o.count), .badCount)] := by
  refine check_eq_firstFailing (decide_eq_true_iff).symm <| check_eq_firstFailing ?_ rfl
  rw [decide_eq_true_iff, Config.bands]
  omega

theorem State.checkFreeze_eq : s.checkFreeze o = firstFailing
    [(!s.protect.lockEnable, .lockDisabled), (decide (64 ≤ o.group), .badRange),
      (s.protect.working.getLsbD o.group, .ok), (s.table.storeFault, .storeFault),
      (s.groupErasing o.group, .bandState)] :=
  check_eq_firstFailing .rfl <| check_eq_firstFailing (decide_eq_true_iff).symm <| check_eq_firstFailing .rfl <|
    check_eq_firstFailing .rfl <| check_eq_firstFailing .rfl rfl

end

/-! ## A group with a band ERASING (R146) -/

section
variable {α : Type} [DecidableEq α] (d : α)

/-- In canonical form the keys stand at or above the bound. -/
theorem Sparse.le_of_mem {m : Sparse α} {lo k : Nat} {v : α} (h : Sparse.wfFrom d lo m = true) (hm : (k, v) ∈ m) :
    lo ≤ k := by
  induction m generalizing lo with
  | nil => cases hm
  | cons e rest ih =>
      obtain ⟨a, w⟩ := e
      simp only [Sparse.wfFrom, Bool.and_eq_true, decide_eq_true_eq] at h
      rcases List.mem_cons.1 hm with he | hm
      · obtain ⟨rfl, -⟩ := Prod.mk.inj he
        exact h.1.1
      · have := ih h.2 hm
        omega

/-- In canonical form an entry is what its key reads as. -/
theorem Sparse.read_of_mem {m : Sparse α} {lo k : Nat} {v : α} (h : Sparse.wfFrom d lo m = true) (hm : (k, v) ∈ m) :
    Sparse.read d m k = v := by
  induction m generalizing lo with
  | nil => cases hm
  | cons e rest ih =>
      obtain ⟨a, w⟩ := e
      simp only [Sparse.wfFrom, Bool.and_eq_true] at h
      rcases List.mem_cons.1 hm with he | hm
      · obtain ⟨rfl, rfl⟩ := Prod.mk.inj he
        exact if_pos rfl
      · have := Sparse.le_of_mem d h.2 hm
        rw [Sparse.read, if_neg (by omega), ih h.2 hm]

/-- A key that does not read as the unlisted value has its entry. -/
theorem Sparse.mem_of_read_ne {α : Type} (d : α) {m : Sparse α} {k : Nat} (h : Sparse.read d m k ≠ d) :
    (k, Sparse.read d m k) ∈ m := by
  induction m with
  | nil => exact absurd rfl h
  | cons e rest ih =>
      obtain ⟨a, w⟩ := e
      unfold Sparse.read at h ⊢
      split
      · next hak => simp [hak]
      · next hak => exact List.mem_cons_of_mem _ (ih (by rwa [if_neg hak] at h))

end

theorem State.groupErasing_iff {s : State} (g : Nat) (form : Sparse.wf .factory s.table.working = true) :
    s.groupErasing g = true ↔ ∃ b, b / 16 = g ∧ (s.band b).state = .erasing := by
  simp only [State.groupErasing, List.any_eq_true, Bool.and_eq_true, decide_eq_true_eq]
  constructor
  · rintro ⟨⟨b, r⟩, hm, hg, hr⟩
    exact ⟨b, hg, by rw [State.band, Table.record, Sparse.read_of_mem _ form hm]; exact hr⟩
  · rintro ⟨b, hg, hr⟩
    have listed : s.band b ≠ .factory := fun hf => by simp [hf, BandRecord.factory] at hr
    exact ⟨(b, s.band b), Sparse.mem_of_read_ne _ listed, hg, hr⟩

/-- A patch is well formed within the ranges of R120. -/
theorem Patch.good_iff (p : Patch) (count : Nat) (level : Level) : p.good count level = true ↔
    p.rowOffset < count ∧ p.index < 6 - level.val ∧ 1 ≤ p.length ∧ p.length ≤ 256 ∧ p.offset + p.length ≤ 2048 ∧
      p.source ≠ 0#32 ∧ p.source.toNat % 4 = 0 := by
  simp only [Patch.good, Bool.and_eq_true, decide_eq_true_eq, bne_iff_ne, beq_iff_eq, and_assoc]
  rfl

/-- Settles O35: each order's checks are its list. -/
theorem orderChecksByTable : Obligations.OrderChecksByTable :=
  ⟨fun s o => ⟨s.checkWrite_eq o, s.checkRead_eq o, s.checkCopy_eq o, s.checkErase_eq o, s.checkSeal_eq o,
    checkQuery_eq o, s.checkFreeze_eq o⟩, fun _ g form => State.groupErasing_iff g form, Patch.good_iff⟩

end Sys2Proof.Machine
end

