-- ==== Sys2Proof/Proofs/OrderStarts.lean ====
section
/-! What each order does when its path takes it: refused by its checks, or started (R44, R89, R91, R107, R110, R112,
R120, R121, R133, R141 to R143, R147, R150). -/

namespace Sys2Proof.Machine

open Sys2Proof

/-! ## Orders that a check refuses -/

/-- An order that fails a check ends with the check's status and changes nothing else. -/
theorem State.handOrder_refused {s : State} {o : Order} {st : OrderStatus}
    (h : (o.kind = .writeRows ∧ s.checkWrite o = some st) ∨ (o.kind = .readRows ∧ s.checkRead o = some st) ∨
      (o.kind = .copyRows ∧ s.checkCopy o = some st) ∨ (o.kind = .eraseBand ∧ s.checkErase o = some st) ∨
      (o.kind = .sealBand ∧ s.checkSeal o = some st) ∨ (o.kind = .queryBands ∧ checkQuery o = some st) ∨
      (o.kind = .freezeGroup ∧ s.checkFreeze o = some st)) :
    s.handOrder o = s.emit (.orderEnd (plainResult st)) := by
  rcases h with ⟨hk, hc⟩ | ⟨hk, hc⟩ | ⟨hk, hc⟩ | ⟨hk, hc⟩ | ⟨hk, hc⟩ | ⟨hk, hc⟩ | ⟨hk, hc⟩ <;>
    simp only [State.handOrder, hk]
  · simp only [State.startWrite, hc]
  · simp only [State.startRead, hc]
  · simp only [State.startCopy, hc]
  · simp only [State.startErase, hc]
  · simp only [State.startSeal, hc]
  · simp only [State.startQuery, hc]
  · simp only [State.startFreeze, hc]

/-! ## The coder claimed and a transfer started (R48, R150) -/

theorem State.claimCoder_free {s : State} (owner : CoderOwner) (free : s.coder.owner = none) :
    s.claimCoder owner = { s with coder := { s.coder with owner := some owner } } := by
  simp only [State.claimCoder, free]

/-- The mover after START of a transfer along the order's chain: its head next, and the chain at its end if the head
is 0 (R150). -/
def Order.transfer (o : Order) (config : Option Applied) (owner : MoverOwner) (dir : Direction) (permit unit : Nat)
    (fill : Option Byte) : Mover :=
  { Mover.reset with
    phase := .moving, owner := some owner, direction := some dir, permit := permit, unitSize := unit, fill := fill,
    burstLength := config.elim 1 (·.burstLength), threshold := config.elim 4 (·.threshold),
    cursor := some { descriptor := 0, fragment := 0, left := 0, next := o.chain.toNat, walked := 0 },
    chain := if o.chain = 0#32 then .atEnd else .notStarted }

theorem State.startMover_chain (s : State) (o : Order) (owner : MoverOwner) {dir : Direction} (permit unit : Nat)
    (fill : Option Byte) (hd : dir ≠ .fetch) :
    s.startMover owner dir o.chain.toNat permit unit fill =
      { s with mover := o.transfer s.modes.config owner dir permit unit fill } := by
  have head : (o.chain.toNat = 0 ∧ dir ≠ .fetch) ↔ o.chain = 0#32 := by
    rw [and_iff_left hd, ← BitVec.toNat_inj]
    rfl
  simp only [State.startMover, Order.transfer, head]

section
variable {s : State} {o : Order}

/-! ## Row orders (R89, R91, R110, R112, R120, R121) -/

theorem State.startWrite_starts (free : s.coder.owner = none) (h : s.checkWrite o = none) :
    s.startWrite o = { s with
      writer := Writer.start o (s.band o.band), coder := { s.coder with owner := some .writer },
      mover := o.transfer s.modes.config .writer .inbound (o.count * rowBytes (s.band o.band).level) 0
        (if o.fill then some o.fillByte else none) } := by
  simp only [State.startWrite, h]
  rw [State.claimCoder_free (s := { s with writer := Writer.start o (s.band o.band) }) .writer free,
    State.startMover_chain _ _ _ _ _ _ (by simp)]

theorem State.startRead_starts (free : s.coder.owner = none) (h : s.checkRead o = none) :
    s.startRead o = { s with
      reader := Reader.startRead o (s.band o.band), coder := { s.coder with owner := some .reader },
      mover := o.transfer s.modes.config .reader .outbound (o.count * rowBytes (s.band o.band).level)
        (rowBytes (s.band o.band).level) none } := by
  simp only [State.startRead, h]
  rw [State.claimCoder_free (s := { s with reader := Reader.startRead o (s.band o.band) }) .reader free,
    State.startMover_chain _ _ _ _ _ _ (by simp)]

/-- The context of a copy of this order (R121). -/
def State.copyContext (s : State) (o : Order) (started : Bool) : Reader :=
  Reader.startCopy o (s.band o.band) (s.band o.targetBand) started

/-- Without a patch a copy starts at once (R121). -/
theorem State.startCopy_starts (free : s.coder.owner = none) (h : s.checkCopy o = none) (noPatch : o.aux2 = 0#32) :
    s.startCopy o = { s with reader := s.copyContext o true, coder := { s.coder with owner := some .reader } } := by
  simp only [State.startCopy, h, if_pos noPatch]
  exact State.claimCoder_free .reader free

/-- A patch descriptor at a misaligned address is refused, with nothing fetched (R120). -/
theorem State.startCopy_misaligned (h : s.checkCopy o = none) (patch : o.aux2 ≠ 0#32)
    (align : o.aux2.toNat % 16 ≠ 0) :
    s.startCopy o = { s.startMover .reader .fetch 0 0 0 none with
      reader := { s.copyContext o false with ending := some .badRange } } := by
  simp only [State.startCopy, h, if_neg patch, if_pos align]
  rfl

/-- While the patch descriptor is fetched: a fetch of four words at its address, and the copy waiting (R120, R158). -/
def State.fetchingPatch (s : State) (o : Order) : State :=
  { (s.startMover .reader .fetch 0 0 0 none).startFetch o.aux2.toNat 4 .descriptor with
    reader := s.copyContext o false }

/-- The descriptor of a patch is fetched first (R120). -/
theorem State.startCopy_fetches (h : s.checkCopy o = none) (patch : o.aux2 ≠ 0#32)
    (align : o.aux2.toNat % 16 = 0) : s.startCopy o = s.fetchingPatch o := by
  simp only [State.startCopy, h, if_neg patch, if_neg (not_not.2 align)]
  rfl

/-- A good patch descriptor starts the order that waits for it (R120, R121). -/
theorem State.patchDescriptor_good {ws : List Word} (free : s.coder.owner = none)
    (h : (patchOf ws).good (s.reader.order.elim 0 (·.count)) s.reader.level = true) :
    s.patchDescriptor ws = { s with
      reader := { s.reader with started := true, patch := some (patchOf ws) },
      coder := { s.coder with owner := some .reader } } := by
  simp only [State.patchDescriptor, h, if_true]
  exact State.claimCoder_free .reader free

/-- A patch out of its ranges refuses the order (R120). -/
theorem State.patchDescriptor_bad {ws : List Word}
    (h : (patchOf ws).good (s.reader.order.elim 0 (·.count)) s.reader.level = false) :
    s.patchDescriptor ws = { s with reader := s.reader.setEnding .badRange } := by
  simp only [State.patchDescriptor, h, Bool.false_eq_true, if_false]

/-- The order that waits for its patch starts by a good one. -/
theorem State.fetchingPatch_good {ws : List Word} (free : s.coder.owner = none)
    (h : (patchOf ws).good o.count (s.band o.band).level = true) :
    (s.fetchingPatch o).patchDescriptor ws = { s.fetchingPatch o with
      reader := { s.copyContext o true with usesMover := true, patch := some (patchOf ws) },
      coder := { s.coder with owner := some .reader } } :=
  State.patchDescriptor_good (s := s.fetchingPatch o) free h

/-- The order that waits for its patch is refused by a bad one. -/
theorem State.fetchingPatch_bad {ws : List Word} (h : (patchOf ws).good o.count (s.band o.band).level = false) :
    (s.fetchingPatch o).patchDescriptor ws = { s.fetchingPatch o with
      reader := { s.copyContext o false with ending := some .badRange } } :=
  State.patchDescriptor_bad (s := s.fetchingPatch o) h

/-! ## ERASE BAND (R133) -/

/-- The context of an erase with the lanes that its query has not found idle yet (R133). -/
def State.eraseContext (s : State) (o : Order) : Services :=
  { Services.reset with
    order := some o, phase := .queryLanes, band := o.band, level := o.eraseLevel.getD 0,
    lanesAwaited := Lane.all.filter (fun l => !(s.lane l).answersIdle) }

theorem mem_all_lanes (l : Lane) : l ∈ Lane.all := by cases l <;> decide

theorem LaneCtl.answersIdle_iff (c : LaneCtl) : c.answersIdle = true ↔ c.state = .idle ∧ c.port = none := by
  simp [LaneCtl.answersIdle]

/-- A band whose erase has passed its checks is neither frozen nor locked (R132). -/
theorem State.checkErase_open (h : s.checkErase o = none) :
    s.protect.frozen o.band = false ∧ s.protect.locked o.band = false := by
  rw [State.checkErase_eq, firstFailing_eq_none] at h
  exact ⟨h (s.protect.frozen o.band, .frozen) (by simp), h (s.protect.locked o.band, .protected_) (by simp)⟩

/-- With every lane idle ERASE START is given at once (R133). -/
theorem State.startErase_gives (h : s.checkErase o = none)
    (idle : ∀ l, (s.lane l).state = .idle ∧ (s.lane l).port = none) :
    s.startErase o = { s with services := { s.eraseContext o with phase := .eraseNotice } }.emit
      (.update .services (.eraseStart o.band (o.eraseLevel.getD 0)) true) := by
  have noneAwaited : Lane.all.filter (fun l => !(s.lane l).answersIdle) = [] :=
    List.filter_eq_nil_iff.2 fun l _ => by simp [(LaneCtl.answersIdle_iff _).2 (idle l)]
  obtain ⟨frozen, locked⟩ := State.checkErase_open h
  simp only [State.startErase, h, noneAwaited, List.isEmpty_nil, if_true, State.eraseBegin, frozen, locked,
    Bool.false_eq_true, if_false, State.eraseContext]

/-- With a lane not idle the erase waits for it (R133). -/
theorem State.startErase_waits (h : s.checkErase o = none) {l : Lane}
    (busy : (s.lane l).state ≠ .idle ∨ (s.lane l).port ≠ none) :
    l ∈ (s.eraseContext o).lanesAwaited ∧ s.startErase o = { s with services := s.eraseContext o } := by
  have awaited : l ∈ Lane.all.filter (fun l => !(s.lane l).answersIdle) := by
    rw [List.mem_filter, Bool.not_eq_true', Bool.eq_false_iff, Ne, LaneCtl.answersIdle_iff, not_and_or]
    exact ⟨mem_all_lanes l, busy⟩
  have someAwaited : (Lane.all.filter (fun l => !(s.lane l).answersIdle)).isEmpty = false :=
    List.isEmpty_eq_false_iff.2 (List.ne_nil_of_mem awaited)
  refine ⟨awaited, ?_⟩
  simp only [State.startErase, h, someAwaited, Bool.false_eq_true, if_false, State.eraseContext]

/-! ## The other services (R44, R107, R141 to R143, R147) -/

theorem State.startSeal_gives (h : s.checkSeal o = none) :
    s.startSeal o = { s with services := { Services.reset with
      order := some o, phase := .sealNotice, band := o.band } }.emit (.update .services (.sealBand o.band) true) := by
  simp only [State.startSeal, h]

theorem State.startQuery_starts (h : checkQuery o = none) :
    s.startQuery o = { s with
      services := { Services.reset with order := some o, phase := .records, band := o.band, nextRecord := o.band },
      mover := o.transfer s.modes.config .services .outbound (o.count * 16) 16 none } := by
  simp only [State.startQuery, h]
  rw [State.startMover_chain _ _ _ _ _ _ (by simp)]

/-- With marker 1 the fuse write begins at once (R147). -/
theorem State.startFreeze_begins (h : s.checkFreeze o = none) (marker : s.table.marker = true) :
    s.startFreeze o = { s with
      services := { Services.reset with order := some o, phase := .fuseWriting },
      protect := { s.protect with fuseWrite := some o.group } } := by
  simp only [State.startFreeze, h, marker, if_true]
  rfl

/-- With marker 0 a commit comes first (R147). -/
theorem State.startFreeze_commits (h : s.checkFreeze o = none) (marker : s.table.marker = false) :
    s.startFreeze o = { s with services := { Services.reset with order := some o, phase := .freezeCommit } }.emit
      (.commitRequest .services false true) := by
  simp only [State.startFreeze, h, marker, Bool.false_eq_true, if_false]

end

/-- Settles O36: refused by `handOrder_refused`, and started by the lemma of each kind of order. -/
theorem ordersStart : Obligations.OrdersStart := by
  refine ⟨fun s o st h => State.handOrder_refused h, fun s o free => ?_⟩
  refine ⟨fun hk hc => ?write, fun hk hc => ?read,
    fun hk hc => ⟨fun noPatch => ?copyAtOnce, fun patch align => ?misaligned, fun patch align => ?fetch⟩,
    fun hk hc level hl => ⟨fun idle => ?eraseGives, fun l busy => ?eraseWaits⟩,
    fun hk hc => ?sealBand, fun hk hc => ?query, fun hk hc => ⟨fun marker => ?fuse, fun marker => ?freezeCommit⟩,
    fun taken h => ?locks⟩
  case locks =>
    rcases h with ⟨hk, rfl⟩ | ⟨hk, rfl⟩ | ⟨hk, rfl⟩ <;> simp only [State.handOrder, hk] <;> rfl
  all_goals simp only [State.handOrder, hk]
  case write =>
    rw [State.startWrite_starts free hc]
    exact ⟨rfl, rfl, rfl⟩
  case read =>
    rw [State.startRead_starts free hc]
    exact ⟨rfl, rfl, rfl⟩
  case copyAtOnce =>
    rw [State.startCopy_starts free hc noPatch]
    exact ⟨rfl, rfl, rfl⟩
  case misaligned =>
    rw [State.startCopy_misaligned hc patch align]
    exact ⟨rfl, rfl, free⟩
  case fetch =>
    rw [State.startCopy_fetches hc patch align]
    refine ⟨rfl, free, rfl, rfl, rfl, rfl, fun ws => ⟨fun good => ?_, fun bad => State.fetchingPatch_bad bad⟩⟩
    rw [State.fetchingPatch_good free good]
    exact ⟨rfl, rfl⟩
  case eraseGives =>
    rw [State.startErase_gives hc idle, hl]
    exact ⟨rfl, rfl⟩
  case eraseWaits =>
    obtain ⟨awaited, waits⟩ := State.startErase_waits hc busy
    rw [waits]
    exact ⟨rfl, awaited, rfl⟩
  case sealBand =>
    rw [State.startSeal_gives hc]
    exact ⟨rfl, rfl⟩
  case query =>
    rw [State.startQuery_starts hc]
    exact ⟨rfl, rfl⟩
  case fuse =>
    rw [State.startFreeze_begins hc marker]
    exact ⟨rfl, rfl, rfl⟩
  case freezeCommit =>
    rw [State.startFreeze_commits hc marker]
    exact ⟨rfl, rfl, rfl⟩

end Sys2Proof.Machine
end

