-- ==== Sys2Proof/Proofs/CodingField.lean ====
section
/-! The coding field (R46): multiplication by g is linear and has period 255 on every byte, so that every non-zero byte
is a power of g; products, inverses and negative powers of g are read off the powers. -/

namespace Sys2Proof.Machine

open Sys2Proof

/-! ## Multiplication by g -/

@[simp] theorem gMul_zero : gMul 0#8 = 0#8 := by decide

theorem xor_xor_xor_comm (a b c d : Byte) : (a ^^^ b) ^^^ (c ^^^ d) = (a ^^^ c) ^^^ (b ^^^ d) := by ac_rfl

/-- The reduction of bit 7 as a summand. -/
theorem gMul_eq (b : Byte) : gMul b = (b <<< 1) ^^^ (if b.getLsbD 7 then 0x1D#8 else 0#8) := by
  unfold gMul
  split <;> simp

theorem gMul_xor (a b : Byte) : gMul (a ^^^ b) = gMul a ^^^ gMul b := by
  have hbit : (if (a ^^^ b).getLsbD 7 then 0x1D#8 else 0#8) =
      (if a.getLsbD 7 then 0x1D#8 else 0#8) ^^^ (if b.getLsbD 7 then 0x1D#8 else 0#8) := by
    rw [BitVec.getLsbD_xor]
    cases a.getLsbD 7 <;> cases b.getLsbD 7 <;> rfl
  rw [gMul_eq, gMul_eq a, gMul_eq b, BitVec.shiftLeft_xor_distrib, hbit, xor_xor_xor_comm]

@[simp] theorem gDiv_gMul (b : Byte) : gDiv (gMul b) = b := by revert b; decide +kernel

@[simp] theorem gMul_gDiv (b : Byte) : gMul (gDiv b) = b := by revert b; decide +kernel

theorem gMul_injective : Function.Injective gMul := Function.LeftInverse.injective gDiv_gMul

/-! ## Powers of g -/

theorem gPow_eq_iterate (i : Nat) (b : Byte) : gPow i b = gMul^[i] b := by
  induction i with
  | zero => rfl
  | succ i ih => rw [gPow, ih, Function.iterate_succ_apply']

theorem gPow_add (i j : Nat) (b : Byte) : gPow (i + j) b = gPow i (gPow j b) := by
  simp only [gPow_eq_iterate, Function.iterate_add_apply]

theorem gPow_comm (i j : Nat) (b : Byte) : gPow i (gPow j b) = gPow j (gPow i b) := by
  rw [← gPow_add, Nat.add_comm, gPow_add]

@[simp] theorem gPow_zero_byte (i : Nat) : gPow i 0#8 = 0#8 := by
  induction i with
  | zero => rfl
  | succ i ih => rw [gPow, ih, gMul_zero]

theorem gPow_xor (i : Nat) (a b : Byte) : gPow i (a ^^^ b) = gPow i a ^^^ gPow i b := by
  induction i with
  | zero => rfl
  | succ i ih => simp only [gPow, ih, gMul_xor]

theorem gPow_injective (i : Nat) : Function.Injective (gPow i) := by
  have h : gPow i = gMul^[i] := funext (gPow_eq_iterate i)
  exact h ▸ gMul_injective.iterate i

@[simp] theorem gPow_gPowInv (i : Nat) (b : Byte) : gPow i (gPowInv i b) = b := by
  induction i generalizing b with
  | zero => rfl
  | succ i ih => rw [gPowInv, gPow_add, show gPow 1 (gDiv _) = gPowInv i b from gMul_gDiv _, ih]

@[simp] theorem gPowInv_gPow (i : Nat) (b : Byte) : gPowInv i (gPow i b) = b :=
  gPow_injective i (gPow_gPowInv i (gPow i b))

/-! ## The powers of g are the non-zero bytes -/

theorem gPow_255_one : gPow 255 1#8 = 1#8 := by decide +kernel

/-- No power of g below 255 is 1: the least one would divide 255, and no divisor of 255 gives 1. -/
theorem gPow_one_ne_one {i : Nat} (hpos : 0 < i) (hlt : i < 255) : gPow i 1#8 ≠ 1#8 := by
  intro h
  have hi : Function.IsPeriodicPt gMul i 1#8 := (gPow_eq_iterate i 1#8).symm.trans h
  have h255 : Function.IsPeriodicPt gMul 255 1#8 := (gPow_eq_iterate 255 1#8).symm.trans gPow_255_one
  have hgcd : gPow (i.gcd 255) 1#8 = 1#8 := (gPow_eq_iterate _ _).trans (hi.gcd h255)
  have hproper : i.gcd 255 ∈ Nat.properDivisors 255 :=
    Nat.mem_properDivisors.2 ⟨Nat.gcd_dvd_right i 255, (Nat.gcd_le_left 255 hpos).trans_lt hlt⟩
  have hnone : ∀ d ∈ Nat.properDivisors 255, gPow d 1#8 ≠ 1#8 := by decide +kernel
  exact hnone _ hproper hgcd

theorem gPow_one_ne_zero (i : Nat) : gPow i 1#8 ≠ 0#8 := by
  intro h
  exact absurd (gPow_injective i (h.trans (gPow_zero_byte i).symm)) (by decide)

theorem gPow_one_injOn {i j : Nat} (hij : i < j) (hj : j < 255) : gPow i 1#8 ≠ gPow j 1#8 := by
  intro h
  rw [show j = i + (j - i) by omega, gPow_add] at h
  exact gPow_one_ne_one (by omega) (by omega) (gPow_injective i h).symm

/-- The 255 powers differ and none is zero, so they are all the non-zero bytes. -/
theorem exists_gPow {b : Byte} (hb : b ≠ 0#8) : ∃ i, i < 255 ∧ gPow i 1#8 = b := by
  let powers := (Finset.range 255).image (fun i => (gPow i 1#8).toNat)
  have hcard : powers.card = 255 := by
    rw [Finset.card_image_of_injOn, Finset.card_range]
    intro i hi j hj h
    have hi := Finset.mem_range.1 hi
    have hj := Finset.mem_range.1 hj
    have h := BitVec.eq_of_toNat_eq h
    by_contra hne
    rcases Nat.lt_or_gt_of_ne hne with hlt | hlt
    · exact gPow_one_injOn hlt hj h
    · exact gPow_one_injOn hlt hi h.symm
  have hsub : powers ⊆ Finset.Ico 1 256 := by
    intro n hn
    obtain ⟨i, -, rfl⟩ := Finset.mem_image.1 hn
    have := gPow_one_ne_zero i
    rw [Finset.mem_Ico]
    bv_omega
  have hall : powers = Finset.Ico 1 256 := Finset.eq_of_subset_of_card_le hsub (by rw [hcard, Nat.card_Ico])
  have hmem : b.toNat ∈ powers := by
    rw [hall, Finset.mem_Ico]
    bv_omega
  obtain ⟨i, hi, h⟩ := Finset.mem_image.1 hmem
  exact ⟨i, Finset.mem_range.1 hi, BitVec.eq_of_toNat_eq h⟩

/-- A property of zero and of the powers of g holds of every byte. -/
theorem byte_induction {P : Byte → Prop} (zero : P 0#8) (pow : ∀ i, P (gPow i 1#8)) (b : Byte) : P b := by
  by_cases hb : b = 0#8
  · exact hb ▸ zero
  · obtain ⟨i, -, rfl⟩ := exists_gPow hb
    exact pow i

theorem gPow_255 (b : Byte) : gPow 255 b = b := by
  induction b using byte_induction with
  | zero => simp
  | pow i => rw [gPow_comm, gPow_255_one]

theorem gPow_255_mul (n : Nat) (b : Byte) : gPow (255 * n) b = b := by
  induction n with
  | zero => rfl
  | succ n ih => rw [Nat.mul_succ, gPow_add, gPow_255, ih]

theorem gPowInv_eq_gPow {x : Nat} (hx : x ≤ 255) (b : Byte) : gPowInv x b = gPow (255 - x) b := by
  apply gPow_injective x
  rw [gPow_gPowInv, ← gPow_add, Nat.add_sub_cancel' hx, gPow_255]

/-! ## The product -/

theorem fieldMulBits_xor (a b c : Byte) (n : Nat) :
    fieldMulBits a (b ^^^ c) n = fieldMulBits a b n ^^^ fieldMulBits a c n := by
  induction n with
  | zero => simp [fieldMulBits]
  | succ n ih =>
      rw [fieldMulBits, fieldMulBits, fieldMulBits, ih]
      split
      · rw [gPow_xor, xor_xor_xor_comm]
      · simp

theorem fieldMul_xor (a b c : Byte) : fieldMul a (b ^^^ c) = fieldMul a b ^^^ fieldMul a c := fieldMulBits_xor a b c 8

theorem fieldMulBits_gMul (a b : Byte) (n : Nat) : fieldMulBits a (gMul b) n = gMul (fieldMulBits a b n) := by
  induction n with
  | zero => simp [fieldMulBits]
  | succ n ih =>
      rw [fieldMulBits, fieldMulBits, ih, gMul_xor]
      split
      · rw [show gPow n (gMul b) = gMul (gPow n b) from gPow_comm n 1 b]
      · simp

theorem fieldMul_gPow (a b : Byte) (i : Nat) : fieldMul a (gPow i b) = gPow i (fieldMul a b) := by
  induction i with
  | zero => rfl
  | succ i ih => rw [gPow, fieldMul, fieldMulBits_gMul, ← fieldMul, ih, gPow]

@[simp] theorem fieldMul_zero (a : Byte) : fieldMul a 0#8 = 0#8 := by
  have h := fieldMul_xor a 0#8 0#8
  rwa [BitVec.xor_self, BitVec.xor_self] at h

@[simp] theorem zero_fieldMul (b : Byte) : fieldMul 0#8 b = 0#8 := by simp [fieldMul, fieldMulBits]

@[simp] theorem fieldMul_one (a : Byte) : fieldMul a 1#8 = a := by revert a; decide +kernel

/-- The product with a power of g is that power of g applied. -/
theorem gPow_one_fieldMul (i : Nat) (b : Byte) : fieldMul (gPow i 1#8) b = gPow i b := by
  induction b using byte_induction with
  | zero => simp
  | pow j => rw [fieldMul_gPow, fieldMul_one, gPow_comm]

theorem fieldMul_comm (a b : Byte) : fieldMul a b = fieldMul b a := by
  induction b using byte_induction with
  | zero => simp
  | pow j => rw [gPow_one_fieldMul, fieldMul_gPow, fieldMul_one]

theorem fieldMul_assoc (a b c : Byte) : fieldMul (fieldMul a b) c = fieldMul a (fieldMul b c) := by
  induction c using byte_induction with
  | zero => simp
  | pow j => simp only [fieldMul_gPow, fieldMul_one]

theorem xor_fieldMul (a b c : Byte) : fieldMul (a ^^^ b) c = fieldMul a c ^^^ fieldMul b c := by
  rw [fieldMul_comm, fieldMul_xor, fieldMul_comm c, fieldMul_comm c]

/-! ## Inverses -/

/-- The squares of g^i multiply to g^(i (2 + 4 + ... + 2^n)). -/
theorem fieldSquares_gPow (n i : Nat) : fieldSquares n (gPow i 1#8) = gPow (i * (2 ^ (n + 1) - 2)) 1#8 := by
  induction n generalizing i with
  | zero => simp [fieldSquares, gPow]
  | succ n ih =>
      have hsq : fieldMul (gPow i 1#8) (gPow i 1#8) = gPow (2 * i) 1#8 := by
        rw [gPow_one_fieldMul, ← gPow_add, Nat.two_mul]
      have hexp : 2 * i + 2 * i * (2 ^ (n + 1) - 2) = i * (2 ^ (n + 1 + 1) - 2) := by
        obtain ⟨m, hm⟩ : ∃ m, 2 ^ (n + 1) = m + 2 := ⟨2 ^ (n + 1) - 2, by have := Nat.two_pow_pos n; omega⟩
        rw [Nat.pow_succ 2 (n + 1), hm, Nat.add_sub_cancel, show (m + 2) * 2 - 2 = 2 * m + 2 by omega]
        ring
      rw [fieldSquares, hsq, ih, gPow_one_fieldMul, ← gPow_add, hexp]

theorem fieldMul_fieldInv {d : Byte} (hd : d ≠ 0#8) : fieldMul d (fieldInv d) = 1#8 := by
  obtain ⟨i, -, rfl⟩ := exists_gPow hd
  rw [fieldInv, fieldSquares_gPow, gPow_one_fieldMul, ← gPow_add, show i + i * (2 ^ (7 + 1) - 2) = 255 * i by ring,
    gPow_255_mul]

theorem fieldInv_fieldMul_cancel {d : Byte} (hd : d ≠ 0#8) (b : Byte) : fieldMul (fieldInv d) (fieldMul d b) = b := by
  rw [← fieldMul_assoc, fieldMul_comm (fieldInv d), fieldMul_fieldInv hd, fieldMul_comm, fieldMul_one]

/-! ## The statement about the field -/

/-- Settles O27: the period of g, the powers as the non-zero bytes, and the product through them. -/
theorem codingField : Obligations.CodingField := by
  refine ⟨fun b => rfl, fun b => ⟨gDiv_gMul b, gMul_gDiv b⟩, fun i => gPow_one_ne_one, gPow_255_one, by decide,
    by decide, fun b => exists_gPow, fun x hx b => gPowInv_eq_gPow (by omega) b, ?sums, fun d => fieldMul_fieldInv, fieldMul_xor,
    fun i b _ => gPow_one_fieldMul i b⟩
  intro x y hxy hy
  revert x
  interval_cases y <;> decide

end Sys2Proof.Machine
end

