-- ==== Sys2Proof/Proofs/PagesRebuilt.lean ====
section
/-! Sums of pages and the rebuild of missing ones (R55, R56): adding the present pages to the parity leaves the sum of
the missing pages, each times its power of g for Q. -/

namespace Sys2Proof.Machine

open Sys2Proof

/-! ## Sums of pages -/

theorem addPage_comm (a b : List Byte) : addPage a b = addPage b a :=
  List.zipWith_comm_of_comm fun x y => BitVec.xor_comm x y

theorem addPage_right_comm (a b c : List Byte) : addPage (addPage a b) c = addPage (addPage a c) b := by
  induction a generalizing b c with
  | nil => simp [addPage]
  | cons x a ih =>
      cases b with
      | nil => cases c <;> simp [addPage]
      | cons y b =>
          cases c with
          | nil => simp [addPage]
          | cons z c =>
              have h := ih b c
              simp only [addPage] at h
              simp only [addPage, List.zipWith_cons_cons, h, List.cons.injEq, and_true]
              ac_rfl

/-- A page added twice is gone. -/
theorem addPage_cancel {a b : List Byte} (h : a.length ≤ b.length) : addPage (addPage a b) b = a := by
  induction a generalizing b with
  | nil => simp [addPage]
  | cons x a ih =>
      cases b with
      | nil => simp at h
      | cons y b =>
          have h := ih (Nat.le_of_succ_le_succ h)
          simp only [addPage] at h
          simp [addPage, h]

theorem zeros_addPage {n : Nat} {page : List Byte} (h : page.length = n) :
    addPage (List.replicate n 0#8) page = page := by
  subst h
  induction page with
  | nil => rfl
  | cons x page ih =>
      simp only [addPage] at ih
      simp [addPage, List.replicate_succ, ih]

@[simp] theorem addPage_length (a b : List Byte) : (addPage a b).length = min a.length b.length := List.length_zipWith

@[simp] theorem timesG_length (i : Nat) (page : List Byte) : (timesG i page).length = page.length := List.length_map ..

theorem sumPages_length {n : Nat} {start : List Byte} {pages : List (List Byte)} (hs : start.length = n)
    (h : ∀ p ∈ pages, p.length = n) : (sumPages start pages).length = n := by
  induction pages with
  | nil => exact hs
  | cons p pages ih =>
      obtain ⟨hp, hps⟩ := List.forall_mem_cons.1 h
      simp [sumPages, ih hps, hp]

/-- A page added to the start is added to the sum. -/
theorem sumPages_addPage (a b : List Byte) (pages : List (List Byte)) :
    sumPages (addPage a b) pages = addPage (sumPages a pages) b := by
  induction pages with
  | nil => rfl
  | cons p pages ih => rw [sumPages, sumPages, ih, addPage_right_comm]

/-- Adding some of the pages of a sum once more leaves the sum of the others. -/
theorem sumPages_filter {ι : Type} {n : Nat} {start : List Byte} (f : ι → List Byte) (missing : ι → Bool) (L : List ι)
    (hs : start.length = n) (hf : ∀ i, (f i).length = n) :
    sumPages (sumPages start (L.map f)) ((L.filter (fun i => !missing i)).map f) =
      sumPages start ((L.filter missing).map f) := by
  induction L with
  | nil => rfl
  | cons i L ih =>
      have hlen : (sumPages start ((L.filter missing).map f)).length = n :=
        sumPages_length hs (by simp only [List.mem_map]; rintro _ ⟨j, -, rfl⟩; exact hf j)
      cases h : missing i
      · simp [h, sumPages, sumPages_addPage, ih, addPage_cancel (hlen.trans (hf i).symm).le]
      · simp [h, sumPages, sumPages_addPage, ih]

/-- Adding every page of a sum once more leaves the start. -/
theorem sumPages_cancel {n : Nat} {start : List Byte} {pages : List (List Byte)} (hs : start.length = n)
    (h : ∀ p ∈ pages, p.length = n) : sumPages (sumPages start pages) pages = start := by
  induction pages with
  | nil => rfl
  | cons p pages ih =>
      obtain ⟨hp, hps⟩ := List.forall_mem_cons.1 h
      rw [sumPages, sumPages, sumPages_addPage, ih hps, addPage_cancel (hs.trans hp.symm).le]

/-- The parity of some pages and one more, plus those pages, is that one more. -/
theorem sumPages_rebuilds {n : Nat} {page : List Byte} {pages : List (List Byte)} (hp : page.length = n)
    (h : ∀ p ∈ pages, p.length = n) :
    sumPages (addPage (sumPages (List.replicate n 0#8) pages) page) pages = page := by
  rw [sumPages_addPage, sumPages_cancel List.length_replicate h, zeros_addPage hp]

@[simp] theorem timesG_map_gPowInv (x : Nat) (page : List Byte) : (timesG x page).map (gPowInv x) = page := by
  simp [timesG, Function.comp_def]

/-! ## Two missing pages (R56) -/

/-- g^x + g^y is not zero, as it stands among the six bytes of R46. -/
theorem gPow_sum_ne_zero {x y : Nat} (hxy : x < y) (hy : y < 4) : gPow x 1#8 ^^^ gPow y 1#8 ≠ 0#8 := by
  intro h
  exact gPow_one_injOn hxy (by omega) (BitVec.xor_eq_zero_iff.1 h)

/-- The byte of page x out of those of P' and Q'. -/
theorem rebuild_byte {x y : Nat} (hxy : x < y) (hy : y < 4) (a b : Byte) :
    fieldMul (fieldInv (gPow x 1#8 ^^^ gPow y 1#8)) (gPow y (a ^^^ b) ^^^ (gPow x a ^^^ gPow y b)) = a := by
  have hsum : gPow y (a ^^^ b) ^^^ (gPow x a ^^^ gPow y b) = fieldMul (gPow x 1#8 ^^^ gPow y 1#8) a := by
    rw [xor_fieldMul, gPow_one_fieldMul, gPow_one_fieldMul, gPow_xor, xor_xor_xor_comm, BitVec.xor_self,
      BitVec.xor_zero, BitVec.xor_comm]
  rw [hsum, fieldInv_fieldMul_cancel (gPow_sum_ne_zero hxy hy)]

theorem rebuildTwo_rebuilds {x y : Nat} {px py : List Byte} (hxy : x < y) (hy : y < 4) (h : px.length = py.length) :
    rebuildTwo x y (addPage px py) (addPage (timesG x px) (timesG y py)) = (px, py) := by
  have hx : (addPage (timesG y (addPage px py)) (addPage (timesG x px) (timesG y py))).map
      (fieldMul (fieldInv (gPow x 1#8 ^^^ gPow y 1#8))) = px := by
    apply List.ext_getElem
    · simp [h]
    · intro j _ _
      simp [addPage, timesG, rebuild_byte hxy hy]
  rw [rebuildTwo, hx, addPage_comm px py, addPage_cancel h.symm.le]

/-! ## Lanes and the parity of a row (R45) -/

theorem dataLanes_map_number (level : Level) : (dataLanes level).map Lane.number = List.range (dataPages level) := by
  fin_cases level <;> rfl

theorem mem_dataLanes {level : Level} {l : Lane} : l ∈ dataLanes level ↔ l.number < dataPages level := by
  simp [dataLanes, mem_all_lanes]

theorem dataLanes_sorted (level : Level) : (dataLanes level).Pairwise (fun l k => l.number < k.number) := by
  fin_cases level <;> decide

/-- P of a row is the sum of its data pages, lane by lane. -/
theorem parityP_eq_sum (level : Level) (D : Nat → List Byte) :
    parityP ((List.range (dataPages level)).map D) =
      sumPages zeroPage ((dataLanes level).map (fun l => D l.number)) := by
  rw [parityP, ← dataLanes_map_number, List.map_map]
  rfl

theorem parityQ_range' (D : Nat → List Byte) (i n : Nat) :
    parityQ i ((List.range' i n).map D) = sumPages zeroPage ((List.range' i n).map (fun j => timesG j (D j))) := by
  induction n generalizing i with
  | zero => rfl
  | succ n ih => simp [List.range'_succ, parityQ, sumPages, ih]

/-- Q of a row is the sum of its data pages, each times its power of g. -/
theorem parityQ_eq_sum (level : Level) (D : Nat → List Byte) :
    parityQ 0 ((List.range (dataPages level)).map D) =
      sumPages zeroPage ((dataLanes level).map (fun l => timesG l.number (D l.number))) := by
  rw [List.range_eq_range', parityQ_range', ← List.range_eq_range', ← dataLanes_map_number, List.map_map]
  rfl

theorem zeroPage_length : zeroPage.length = 2048 := List.length_replicate

theorem zeroPage_addPage {page : List Byte} (h : page.length = 2048) : addPage zeroPage page = page := zeros_addPage h

/-! ## What the coder rebuilds -/

section Row

variable {r : ReadAsm} {D : Nat → List Byte}

theorem ReadAsm.mem_missingData {l : Lane} :
    l ∈ r.missingData ↔ l.number < dataPages r.level ∧ r.isMissing l = true := by
  simp [ReadAsm.missingData, mem_dataLanes]

theorem ReadAsm.parityPresent_iff {o : Option Lane} :
    r.parityPresent o = true ↔ ∃ l, o = some l ∧ r.isMissing l = false := by
  cases o <;> simp [ReadAsm.parityPresent]

/-- The present data pages of a row that holds pages of `D`, each taken through `f`. -/
theorem ReadAsm.presentData_map (f : Nat → List Byte → List Byte)
    (hdata : ∀ l, l.number < dataPages r.level → r.isMissing l = false → r.bytes l = D l.number) :
    r.presentData.map (fun l => f l.number (r.bytes l)) = r.presentData.map (fun l => f l.number (D l.number)) := by
  refine List.map_congr_left fun l hl => ?_
  obtain ⟨hl, hp⟩ := List.mem_filter.1 hl
  rw [hdata l (mem_dataLanes.1 hl) (by simpa using hp)]

/-- P' is the sum of the missing data pages. -/
theorem ReadAsm.pPrime_eq (hD : ∀ i, (D i).length = 2048)
    (hdata : ∀ l, l.number < dataPages r.level → r.isMissing l = false → r.bytes l = D l.number)
    (hP : ∀ l, pLane r.level = some l → r.isMissing l = false →
      r.bytes l = parityP ((List.range (dataPages r.level)).map D))
    (hp : r.parityPresent (pLane r.level) = true) :
    r.pPrime = sumPages zeroPage (r.missingData.map (fun l => D l.number)) := by
  obtain ⟨l, hl, hm⟩ := ReadAsm.parityPresent_iff.1 hp
  have hpresent := r.presentData_map (fun _ => id) hdata
  simp only [id] at hpresent
  rw [ReadAsm.pPrime, hpresent, hl, Option.elim_some, hP l hl hm, parityP_eq_sum]
  exact sumPages_filter _ r.isMissing _ zeroPage_length fun l => hD l.number

/-- Q' is the sum of the missing data pages, each times its power of g. -/
theorem ReadAsm.qPrime_eq (hD : ∀ i, (D i).length = 2048)
    (hdata : ∀ l, l.number < dataPages r.level → r.isMissing l = false → r.bytes l = D l.number)
    (hQ : ∀ l, qLane r.level = some l → r.isMissing l = false →
      r.bytes l = parityQ 0 ((List.range (dataPages r.level)).map D))
    (hq : r.parityPresent (qLane r.level) = true) :
    r.qPrime = sumPages zeroPage (r.missingData.map (fun l => timesG l.number (D l.number))) := by
  obtain ⟨l, hl, hm⟩ := ReadAsm.parityPresent_iff.1 hq
  rw [ReadAsm.qPrime, r.presentData_map timesG hdata, hl, Option.elim_some, hQ l hl hm, parityQ_eq_sum]
  exact sumPages_filter _ r.isMissing _ zeroPage_length fun l => by simp [hD]

/-- Q stands at level 2 alone, where the data pages are 0 to 3. -/
theorem dataPages_of_qPresent (hq : r.parityPresent (qLane r.level) = true) : dataPages r.level = 4 := by
  obtain ⟨l, hl, -⟩ := ReadAsm.parityPresent_iff.1 hq
  have h2 : r.level.val = 2 := by
    by_contra h
    simp [qLane, h] at hl
  simp [dataPages, h2]

/-- The two missing data pages stand in index order. -/
theorem ReadAsm.missingData_sorted {x y : Lane} (h : r.missingData = [x, y]) :
    x.number < y.number ∧ y.number < dataPages r.level := by
  have hs := (dataLanes_sorted r.level).sublist (List.filter_sublist (p := r.isMissing))
  rw [← ReadAsm.missingData, h] at hs
  exact ⟨by simpa using hs, (ReadAsm.mem_missingData.1 (h ▸ by simp)).1⟩

end Row

/-- Settles O28: the sums of pages, and the rebuild of one and of two missing data pages through P' and Q'. -/
theorem missingPagesRebuilt : Obligations.MissingPagesRebuilt := by
  refine ⟨fun n x page others _ hpage hothers => ⟨?fromP, ?fromQ⟩,
    fun x y px py hxy hy h => rebuildTwo_rebuilds hxy hy h,
    fun r D hD hdata hP hQ => ⟨fun x hx hpar => ?one, fun x y hxy hp hq => ?two⟩⟩
  case fromP =>
    refine sumPages_rebuilds hpage fun p hp => ?_
    obtain ⟨o, ho, rfl⟩ := List.mem_map.1 hp
    exact hothers o ho
  case fromQ =>
    rw [sumPages_rebuilds ((timesG_length x page).trans hpage) fun p hp => ?_, timesG_map_gPowInv]
    obtain ⟨o, ho, rfl⟩ := List.mem_map.1 hp
    exact (timesG_length o.1 o.2).trans (hothers o ho)
  case one =>
    unfold ReadAsm.rebuilt
    simp only [hx]
    split
    · next hp =>
        rw [ReadAsm.pPrime_eq hD hdata hP hp, hx, List.map_singleton, sumPages, sumPages, zeroPage_addPage (hD _)]
    · next hp =>
        have hq := hpar.resolve_left hp
        rw [ReadAsm.qPrime_eq hD hdata hQ hq, hx, List.map_singleton, sumPages, sumPages,
          zeroPage_addPage (by simp [hD]), timesG_map_gPowInv]
  case two =>
    have hp' : r.pPrime = addPage (D x.number) (D y.number) := by
      rw [ReadAsm.pPrime_eq hD hdata hP hp, hxy]
      simp only [List.map_cons, List.map_nil, sumPages]
      rw [zeroPage_addPage (hD _), addPage_comm]
    have hq' : r.qPrime = addPage (timesG x.number (D x.number)) (timesG y.number (D y.number)) := by
      rw [ReadAsm.qPrime_eq hD hdata hQ hq, hxy]
      simp only [List.map_cons, List.map_nil, sumPages]
      rw [zeroPage_addPage (by simp [hD]), addPage_comm]
    obtain ⟨hlt, hy⟩ := ReadAsm.missingData_sorted hxy
    refine ⟨hp', hq', ?_⟩
    unfold ReadAsm.rebuilt
    simp only [hxy, hp', hq']
    rw [rebuildTwo_rebuilds hlt (dataPages_of_qPresent hq ▸ hy) ((hD _).trans (hD _).symm)]

end Sys2Proof.Machine
end

