-- ==== Sys2Proof/Proofs/PatchedParity.lean ====
section
/-! The delta update of a patch (R59): the parity of the patched data, byte by byte, and so for the patched row. -/

namespace Sys2Proof.Machine

open Sys2Proof

/-! ## Bytes of a page after an addition or a replacement -/

theorem addFront_getElem? (ps bs : List Byte) (j : Nat) :
    (addFront ps bs)[j]? = ps[j]?.map (· ^^^ bs.getD j 0#8) := by
  induction ps generalizing bs j with
  | nil => simp [addFront]
  | cons p ps ih => cases bs <;> cases j <;> simp [addFront, ih]

theorem addAt_getElem? {page : List Byte} {offset : Nat} (bs : List Byte) (h : offset ≤ page.length) (j : Nat) :
    (addAt page offset bs)[j]? =
      if j < offset then page[j]? else page[j]?.map (· ^^^ bs.getD (j - offset) 0#8) := by
  have hlen : (page.take offset).length = offset := List.length_take_of_le h
  rw [addAt]
  split
  · next hj => rw [List.getElem?_append_left (by omega), List.getElem?_take_of_lt hj]
  · next hj =>
      rw [List.getElem?_append_right (by omega), hlen, addFront_getElem?, List.getElem?_drop,
        show offset + (j - offset) = j by omega]

theorem putAt_getElem? {page : List Byte} {offset : Nat} {bs : List Byte} (h : offset + bs.length ≤ page.length)
    (j : Nat) :
    (putAt page offset bs)[j]? =
      if j < offset then page[j]? else if j < offset + bs.length then bs[j - offset]? else page[j]? := by
  have hlen : (page.take offset).length = offset := List.length_take_of_le (by omega)
  rw [putAt, List.append_assoc]
  split
  · next hj => rw [List.getElem?_append_left (by omega), List.getElem?_take_of_lt hj]
  · next hj =>
      rw [List.getElem?_append_right (by omega), hlen]
      split
      · next hb => rw [List.getElem?_append_left (by omega)]
      · next hb =>
          rw [List.getElem?_append_right (by omega), List.getElem?_drop]
          congr 1
          omega

theorem addPage_getElem? (a b : List Byte) (j : Nat) :
    (addPage a b)[j]? = a[j]?.bind (fun x => b[j]?.map (x ^^^ ·)) := by
  rw [addPage, List.getElem?_zipWith]
  cases a[j]? <;> cases b[j]? <;> rfl

/-- The bytes a patch changes, as the difference of the page it replaces and its own. -/
def patchDelta (page : List Byte) (offset : Nat) (bs : List Byte) : List Byte :=
  addPage ((page.drop offset).take bs.length) bs

/-- Adding a patch's delta, taken through any linear map, replaces the page in a sum by the patched page. -/
theorem addAt_patchDelta {f : Byte → Byte} (hf : ∀ a b, f (a ^^^ b) = f a ^^^ f b) {p old new : List Byte}
    {offset : Nat} (hp : p.length = old.length) (h : offset + new.length ≤ old.length) :
    addAt (addPage p (old.map f)) offset ((patchDelta old offset new).map f) =
      addPage p ((putAt old offset new).map f) := by
  have hsum : offset ≤ (addPage p (old.map f)).length := by simp; omega
  apply List.ext_getElem?
  intro j
  rw [addAt_getElem? _ hsum, addPage_getElem?, addPage_getElem?, List.getElem?_map, List.getElem?_map, putAt_getElem? h]
  split
  · rfl
  · next hj =>
      split
      · next hb =>
          have hnew : j - offset < new.length := by omega
          have hold : j < old.length := by omega
          have hcut : ((old.drop offset).take new.length)[j - offset]? = some old[j] := by
            rw [List.getElem?_take_of_lt hnew, List.getElem?_drop, Nat.add_sub_cancel' (Nat.le_of_not_lt hj),
              List.getElem?_eq_getElem hold]
          have hdelta : ((patchDelta old offset new).map f).getD (j - offset) 0#8 = f old[j] ^^^ f new[j - offset] := by
            rw [List.getD_eq_getElem?_getD, List.getElem?_map, patchDelta, addPage_getElem?, hcut,
              List.getElem?_eq_getElem hnew]
            exact hf _ _
          rw [List.getElem?_eq_getElem (hp.symm ▸ hold), List.getElem?_eq_getElem hold, List.getElem?_eq_getElem hnew,
            hdelta]
          simp [BitVec.xor_assoc, ← BitVec.xor_assoc (f old[j])]
      · next hb =>
          have hdelta : ((patchDelta old offset new).map f).getD (j - offset) 0#8 = 0#8 := by
            rw [List.getD_eq_getElem?_getD, List.getElem?_eq_none (by simp [patchDelta]; omega), Option.getD_none]
          rw [hdelta]
          simp [Function.comp_def]

/-- Adding the delta to P gives the P of the patched data (R59). -/
theorem addAt_patchDelta_p {p old new : List Byte} {offset : Nat} (hp : p.length = old.length)
    (h : offset + new.length ≤ old.length) :
    addAt (addPage p old) offset (patchDelta old offset new) = addPage p (putAt old offset new) := by
  simpa using addAt_patchDelta (f := id) (fun _ _ => rfl) hp h

/-- Adding g^i times the delta to Q gives the Q of the patched data (R59). -/
theorem addAt_patchDelta_q (i : Nat) {q old new : List Byte} {offset : Nat} (hq : q.length = old.length)
    (h : offset + new.length ≤ old.length) :
    addAt (addPage q (timesG i old)) offset (timesG i (patchDelta old offset new)) =
      addPage q (timesG i (putAt old offset new)) :=
  addAt_patchDelta (gPow_xor i) hq h

/-! ## One page of a parity sum -/

/-- In a sum over different indexes one page stands as the last summand, whatever the page is. -/
theorem sumPages_isolates {ι : Type} {n : Nat} {f : ι → List Byte} {i : ι} {L : List ι} (hL : L.Nodup) (hi : i ∈ L)
    (hf : ∀ j, (f j).length = n) :
    ∃ p, p.length = n ∧ ∀ g : ι → List Byte, (∀ j, j ≠ i → g j = f j) →
      sumPages (List.replicate n 0#8) (L.map g) = addPage p (g i) := by
  induction L with
  | nil => simp at hi
  | cons k L ih =>
      obtain ⟨hk, hL⟩ := List.nodup_cons.1 hL
      by_cases hki : k = i
      · subst hki
        refine ⟨sumPages (List.replicate n 0#8) (L.map f), sumPages_length List.length_replicate ?_, fun g hg => ?_⟩
        · simp only [List.mem_map]
          rintro _ ⟨j, -, rfl⟩
          exact hf j
        · rw [List.map_cons, sumPages, List.map_congr_left fun j hj => hg j (fun h => hk (h ▸ hj))]
      · obtain ⟨p, hp, hsum⟩ := ih hL ((List.mem_cons.1 hi).resolve_left (Ne.symm hki))
        refine ⟨addPage p (f k), by simp [hp, hf], fun g hg => ?_⟩
        rw [List.map_cons, sumPages, hsum g hg, hg k hki, addPage_right_comm]

/-! ## The patched row -/

@[simp] theorem laneAt_number (l : Lane) : laneAt l.number = l := by cases l <;> rfl

theorem number_laneAt {n : Nat} (h : n < 6) : (laneAt n).number = n := by interval_cases n <;> rfl

theorem ReadAsm.place_bytes (r : ReadAsm) (l k : Lane) (d : List Byte) :
    (r.place l d).bytes k = if k = l then d else r.bytes k := by
  by_cases h : k = l
  · subst h; simp [ReadAsm.place, ReadAsm.bytes, Slot.bytes]
  · simp [ReadAsm.place, ReadAsm.bytes, Six.get_set_other _ _ h, h]

theorem pLane_number {level : Level} {l : Lane} (h : pLane level = some l) : l.number = dataPages level := by
  unfold pLane at h
  split at h
  · cases h
  · next hlevel =>
      obtain rfl := Option.some.inj h
      exact number_laneAt (by unfold dataPages; omega)

theorem qLane_number {level : Level} {l : Lane} (h : qLane level = some l) : dataPages level < l.number := by
  unfold qLane at h
  split at h
  · next hlevel =>
      obtain rfl := Option.some.inj h
      simp [dataPages, hlevel, Lane.number]
  · cases h

/-- A parity page that is present takes its part of the delta (R59). -/
def ReadAsm.changePage (r : ReadAsm) (o : Option Lane) (here : Bool) (f : List Byte → List Byte) : ReadAsm :=
  match o with
  | some l => if here then r.place l (f (r.bytes l)) else r
  | none => r

theorem ReadAsm.changePage_bytes (r : ReadAsm) (o : Option Lane) (here : Bool) (f : List Byte → List Byte) (l : Lane) :
    (r.changePage o here f).bytes l = if o = some l ∧ here = true then f (r.bytes l) else r.bytes l := by
  cases o with
  | none => simp [ReadAsm.changePage]
  | some k =>
      cases here with
      | false => simp [ReadAsm.changePage]
      | true =>
          by_cases h : l = k
          · subst h; simp [ReadAsm.changePage, ReadAsm.place_bytes]
          · simp [ReadAsm.changePage, ReadAsm.place_bytes, h, Ne.symm h]

/-- The patched row: data page i placed, then P and Q changed by the delta. -/
theorem ReadAsm.patched_eq (r : ReadAsm) (p : PatchBytes) (pHere qHere : Bool) :
    let x := laneAt p.index
    let delta := patchDelta (r.bytes x) p.offset p.bytes
    r.patched p pHere qHere =
      ((r.place x (putAt (r.bytes x) p.offset p.bytes)).changePage (pLane r.level) pHere
        (addAt · p.offset delta)).changePage (qLane r.level) qHere (addAt · p.offset (timesG p.index delta)) := by
  unfold ReadAsm.patched ReadAsm.changePage patchDelta
  cases pLane r.level <;> cases qLane r.level <;> rfl

section Patched

variable {r : ReadAsm} {p : PatchBytes} {pHere qHere : Bool} {l : Lane}

theorem ReadAsm.patched_data (hl : l.number < dataPages r.level) :
    (r.patched p pHere qHere).bytes l =
      if l = laneAt p.index then putAt (r.bytes l) p.offset p.bytes else r.bytes l := by
  have hp : pLane r.level ≠ some l := fun h => hl.ne (pLane_number h)
  have hq : qLane r.level ≠ some l := fun h => hl.not_gt (qLane_number h)
  rw [ReadAsm.patched_eq, ReadAsm.changePage_bytes, ReadAsm.changePage_bytes, ReadAsm.place_bytes]
  simp only [hp, hq, false_and, if_false]
  split
  · next h => rw [h]
  · rfl

theorem ReadAsm.patched_p (hi : p.index < dataPages r.level) (hl : pLane r.level = some l) (here : pHere = true) :
    (r.patched p pHere qHere).bytes l =
      addAt (r.bytes l) p.offset (patchDelta (r.bytes (laneAt p.index)) p.offset p.bytes) := by
  have hn := pLane_number hl
  have hq : qLane r.level ≠ some l := fun h => hn.not_gt (qLane_number h)
  have hx : l ≠ laneAt p.index := by
    rintro rfl
    rw [number_laneAt (hi.trans_le (Nat.sub_le _ _))] at hn
    omega
  rw [ReadAsm.patched_eq, ReadAsm.changePage_bytes, ReadAsm.changePage_bytes, ReadAsm.place_bytes]
  simp [hl, hq, here, hx]

theorem ReadAsm.patched_q (hi : p.index < dataPages r.level) (hl : qLane r.level = some l) (here : qHere = true) :
    (r.patched p pHere qHere).bytes l =
      addAt (r.bytes l) p.offset (timesG p.index (patchDelta (r.bytes (laneAt p.index)) p.offset p.bytes)) := by
  have hn := qLane_number hl
  have hp : pLane r.level ≠ some l := fun h => hn.ne' (pLane_number h)
  have hx : l ≠ laneAt p.index := by
    rintro rfl
    rw [number_laneAt (hi.trans_le (Nat.sub_le _ _))] at hn
    omega
  rw [ReadAsm.patched_eq, ReadAsm.changePage_bytes, ReadAsm.changePage_bytes, ReadAsm.place_bytes]
  simp [hl, hp, here, hx]

end Patched

/-- Data pages with one of them patched. -/
def patchedData (D : Nat → List Byte) (p : PatchBytes) (i : Nat) : List Byte :=
  if i = p.index then putAt (D i) p.offset p.bytes else D i

section Data

variable {D : Nat → List Byte} {p : PatchBytes} {level : Level}

theorem patchedData_same : patchedData D p p.index = putAt (D p.index) p.offset p.bytes := if_pos rfl

theorem patchedData_other {i : Nat} (h : i ≠ p.index) : patchedData D p i = D i := if_neg h

/-- P plus the delta is P of the patched data. -/
theorem addAt_parityP (hD : ∀ i, (D i).length = 2048) (hi : p.index < dataPages level)
    (hoff : p.offset + p.bytes.length ≤ 2048) :
    addAt (parityP ((List.range (dataPages level)).map D)) p.offset (patchDelta (D p.index) p.offset p.bytes) =
      parityP ((List.range (dataPages level)).map (patchedData D p)) := by
  obtain ⟨s, hs, hsum⟩ := sumPages_isolates List.nodup_range (List.mem_range.2 hi) hD
  rw [parityP, parityP, zeroPage, Config.pageBytes, hsum D fun _ _ => rfl, hsum _ fun _ h => patchedData_other h,
    patchedData_same, addAt_patchDelta_p (hs.trans (hD _).symm) (hD _ ▸ hoff)]

/-- Q plus g^i times the delta is Q of the patched data. -/
theorem addAt_parityQ (hD : ∀ i, (D i).length = 2048) (hi : p.index < dataPages level)
    (hoff : p.offset + p.bytes.length ≤ 2048) :
    addAt (parityQ 0 ((List.range (dataPages level)).map D)) p.offset
        (timesG p.index (patchDelta (D p.index) p.offset p.bytes)) =
      parityQ 0 ((List.range (dataPages level)).map (patchedData D p)) := by
  obtain ⟨s, hs, hsum⟩ := sumPages_isolates (f := fun i => timesG i (D i)) List.nodup_range (List.mem_range.2 hi)
    fun i => (timesG_length i (D i)).trans (hD i)
  rw [List.range_eq_range'] at hsum ⊢
  rw [parityQ_range', parityQ_range', zeroPage, Config.pageBytes, hsum _ fun _ _ => rfl,
    hsum _ fun _ h => by rw [patchedData_other h], patchedData_same,
    addAt_patchDelta_q _ (hs.trans (hD _).symm) (hD _ ▸ hoff)]

end Data

/-- Settles O29: one page of the parity sum is isolated and replaced through the delta. -/
theorem patchDeltaKeepsParity : Obligations.PatchDeltaKeepsParity := by
  refine ⟨fun n i offset old new p q hold hp hq h => ⟨addAt_patchDelta_p (hp.trans hold.symm) (hold ▸ h),
    addAt_patchDelta_q i (hq.trans hold.symm) (hold ▸ h)⟩, fun r p D pHere qHere hD hi hoff hdata hP hQ => ?_⟩
  have hnumber : (laneAt p.index).number = p.index := number_laneAt (hi.trans_le (Nat.sub_le _ _))
  have hx : r.bytes (laneAt p.index) = D p.index := by rw [hdata _ (by rwa [hnumber]), hnumber]
  refine ⟨fun l hl => ?data, fun l hl here => ?parityP, fun l hl here => ?parityQ⟩
  case data =>
    have hsame : l = laneAt p.index ↔ l.number = p.index :=
      ⟨fun h => h ▸ hnumber, fun h => by rw [← h, laneAt_number]⟩
    rw [ReadAsm.patched_data hl, hdata l hl]
    simp only [hsame]
  case parityP =>
    rw [ReadAsm.patched_p hi hl here, hP l hl here, hx]
    exact addAt_parityP hD hi hoff
  case parityQ =>
    rw [ReadAsm.patched_q hi hl here, hQ l hl here, hx]
    exact addAt_parityQ hD hi hoff

end Sys2Proof.Machine
end

