-- ==== Sys2Proof/Proofs/RowsLoaded.lean ====
section
/-! Rows begun in the coder and pages handed to their lanes: what the write assembly does once a page is handed or
dropped, and the same for the target pages of a copy (R49, R50, R53, R58). -/

namespace Sys2Proof.Machine

open Sys2Proof

/-! ## The write assembly after a page handed or dropped (R50) -/

section Parity

variable {lanes : Six LaneCtl} {a : WriteAsm}

/-- The page of a lane, as it is handed. -/
def pageFor (lanes : Six LaneCtl) (l : Lane) (data : List Byte) : Handing :=
  { lane := l, data := data, behind := (lanes.get l).ownerFirst }

/-- The assembly with the page of its index dropped. -/
def WriteAsm.dropped (a : WriteAsm) : WriteAsm := { a with index := a.index + 1, received := [] }

/-- A finished page whose lane is in the load set is handed. -/
theorem WriteAsm.finish_handed (data : List Byte) (hl : laneAt a.index ∈ a.loadSet) :
    a.finish lanes data = { a with handing := some (pageFor lanes (laneAt a.index) data), received := [] } := by
  simp [WriteAsm.finish, pageFor, hl]

/-- A finished page whose lane is not in the load set is dropped. -/
theorem WriteAsm.finish_dropped (data : List Byte) (hl : laneAt a.index ∉ a.loadSet) :
    a.finish lanes data = a.dropped := by
  simp [WriteAsm.finish, WriteAsm.dropped, hl]

/-- No parity page is next: data pages are left, or every page is finished, or a page is being handed. -/
theorem WriteAsm.parity_stays (h : a.handing = none → a.index < dataPages a.level ∨ 6 ≤ a.index) :
    a.parity lanes = a := by
  refine if_neg ?_
  rintro ⟨hh, hk, h6⟩
  have := h hh
  omega

theorem WriteAsm.parity_dropped (hh : a.handing = none) (hk : dataPages a.level ≤ a.index) (h6 : a.index < 6)
    (hl : laneAt a.index ∉ a.loadSet) : a.parity lanes = a.dropped := by
  rw [WriteAsm.parity, if_pos ⟨hh, hk, h6⟩, WriteAsm.finish_dropped _ hl]

theorem WriteAsm.parity_handed (hh : a.handing = none) (hk : dataPages a.level ≤ a.index) (h6 : a.index < 6)
    (hl : laneAt a.index ∈ a.loadSet) :
    a.parity lanes = { a with
      handing := some (pageFor lanes (laneAt a.index) (if a.index = dataPages a.level then a.p else a.q)),
      received := [] } := by
  rw [WriteAsm.parity, if_pos ⟨hh, hk, h6⟩, WriteAsm.finish_handed _ hl]

end Parity

section PutWrite

variable {s : State} {a : WriteAsm}

@[simp] theorem State.putWrite_lanes (s : State) (a : WriteAsm) : (s.putWrite a).lanes = s.lanes := by
  unfold State.putWrite
  dsimp only
  split <;> rfl

@[simp] theorem State.putWrite_mover (s : State) (a : WriteAsm) : (s.putWrite a).mover = s.mover := by
  unfold State.putWrite
  dsimp only
  split <;> rfl

@[simp] theorem State.putWrite_writer (s : State) (a : WriteAsm) : (s.putWrite a).writer = s.writer := by
  unfold State.putWrite
  dsimp only
  split <;> rfl

/-- The assembly kept with a page to fill or to hand. -/
theorem State.putWrite_kept {b : WriteAsm} (hb : (a.parity s.lanes).parity s.lanes = b)
    (h : b.handing = none → b.index < 6) :
    s.putWrite a = { s with coder := { s.coder with write := some b } } := by
  unfold State.putWrite
  rw [hb]
  refine if_neg ?_
  rintro ⟨hh, h6⟩
  have := h hh
  omega

/-- The assembly emptied, every page being handed or dropped. -/
theorem State.putWrite_emptied {b : WriteAsm} (hb : (a.parity s.lanes).parity s.lanes = b) (hh : b.handing = none)
    (h6 : 6 ≤ b.index) :
    s.putWrite a = { s with coder := { s.coder with write := none } }.emit (.rowLoaded b.loaded) := by
  unfold State.putWrite
  rw [hb]
  exact if_pos ⟨hh, h6⟩

/-- A page being handed stays. -/
theorem State.putWrite_handing {h : Handing} (hh : a.handing = some h) :
    s.putWrite a = { s with coder := { s.coder with write := some a } } := by
  have stays : a.parity s.lanes = a := WriteAsm.parity_stays (by simp [hh])
  exact State.putWrite_kept (by rw [stays, stays]) (by simp [hh])

/-- With data pages left the next one is filled. -/
theorem State.putWrite_data (hk : a.index < dataPages a.level) :
    s.putWrite a = { s with coder := { s.coder with write := some a } } := by
  have stays : a.parity s.lanes = a := WriteAsm.parity_stays fun _ => .inl hk
  exact State.putWrite_kept (by rw [stays, stays]) fun _ => hk.trans_le (Nat.sub_le _ _)

theorem four_le_dataPages (level : Level) : 4 ≤ dataPages level := by unfold dataPages; omega

/-- No parity page in the load set is left: ROW LOADED is told and the assembly emptied. -/
theorem State.putWrite_loaded (hh : a.handing = none) (hk : dataPages a.level ≤ a.index)
    (hl : ∀ j, a.index ≤ j → j < 6 → laneAt j ∉ a.loadSet) :
    s.putWrite a = { s with coder := { s.coder with write := none } }.emit (.rowLoaded a.loaded) := by
  have hfour := four_le_dataPages a.level
  by_cases h6 : 6 ≤ a.index
  · have stays : a.parity s.lanes = a := WriteAsm.parity_stays fun _ => .inr h6
    exact State.putWrite_emptied (by rw [stays, stays]) hh h6
  · have dropped := WriteAsm.parity_dropped (lanes := s.lanes) hh hk (by omega) (hl _ le_rfl (by omega))
    have next : a.dropped.index = a.index + 1 := rfl
    by_cases h5 : a.index = 5
    · have stays : a.dropped.parity s.lanes = a.dropped := WriteAsm.parity_stays fun _ => .inr (by omega)
      exact State.putWrite_emptied (b := a.dropped) (by rw [dropped, stays]) hh (by omega)
    · have again : a.dropped.parity s.lanes = a.dropped.dropped :=
        WriteAsm.parity_dropped hh (hk.trans (Nat.le_succ _)) (by omega) (hl _ (Nat.le_succ _) (by omega))
      exact State.putWrite_emptied (b := a.dropped.dropped) (by rw [dropped, again]) hh (by
        have : a.dropped.dropped.index = a.index + 2 := rfl
        omega)

/-- The first parity page left whose lane is in the load set is handed, the one before it dropped. -/
theorem State.putWrite_parity {n : Nat} (hh : a.handing = none) (hk : dataPages a.level ≤ a.index) (hn : a.index ≤ n)
    (h6 : n < 6) (hl : laneAt n ∈ a.loadSet) (hbefore : ∀ j, a.index ≤ j → j < n → laneAt j ∉ a.loadSet) :
    s.putWrite a = { s with coder := { s.coder with write := some { a with
      handing := some (pageFor s.lanes (laneAt n) (if n = dataPages a.level then a.p else a.q)),
      received := [], index := n } } } := by
  have hfour := four_le_dataPages a.level
  rcases Nat.eq_or_lt_of_le hn with rfl | hlt
  · have handed := WriteAsm.parity_handed (lanes := s.lanes) hh hk h6 hl
    exact State.putWrite_kept (by rw [handed, WriteAsm.parity_stays (by simp)]) fun _ => h6
  · have hn' : n = a.index + 1 := by omega
    subst hn'
    have dropped := WriteAsm.parity_dropped (lanes := s.lanes) hh hk (by omega) (hbefore _ le_rfl hlt)
    have handed := WriteAsm.parity_handed (lanes := s.lanes) (a := a.dropped) hh (hk.trans (Nat.le_succ _)) h6 hl
    exact State.putWrite_kept (by rw [dropped]; exact handed) fun _ => h6

end PutWrite

/-! ## A page entering its lane's port (R6, R50) -/

section Place

variable {s : State} {h : Handing}

theorem State.portOpen_iff : s.portOpen h = true ↔
    (s.lane h.lane).port = none ∧ (h.behind = false ∨ (s.lane h.lane).waiting = []) := by
  simp [State.portOpen]

theorem State.placeLoad_lane (id : PageId) : (s.placeLoad h id).lane h.lane =
    { s.lane h.lane with port := some (.coder, .cacheLoad id h.data) } := by simp [State.placeLoad]

theorem State.placeLoad_other (id : PageId) {l : Lane} (hl : l ≠ h.lane) : (s.placeLoad h id).lane l = s.lane l :=
  State.lane_setLane_other s _ hl

end Place

section HandPage

variable {s : State} {h : Handing}

theorem State.handPage_write {a : WriteAsm} (hw : s.coder.write = some a) (hh : a.handing = some h)
    (hopen : s.portOpen h = true) : s.handPage = s.handWritePage a h := by
  simp [State.handPage, Coder.writeHanding, hw, hh, hopen]

theorem State.handPage_waits {a : WriteAsm} (hw : s.coder.write = some a) (hh : a.handing = some h)
    (hopen : s.portOpen h = false) : s.handPage = s := by
  simp [State.handPage, Coder.writeHanding, hw, hh, hopen]

theorem State.handPage_copy {r : ReadAsm} (hw : s.coder.write = none) (hr : s.coder.read = some r)
    (hh : r.handing = some h) (hopen : s.portOpen h = true) : s.handPage = s.handCopyPage r h := by
  simp [State.handPage, Coder.writeHanding, Coder.copyHanding, hw, hr, hh, hopen]

@[simp] theorem State.handWritePage_lanes (a : WriteAsm) : (s.handWritePage a h).lanes =
    (s.placeLoad h { band := a.band, row := a.row, level := a.level }).lanes := State.putWrite_lanes _ _

theorem State.putCopy_lanes (s : State) (r : ReadAsm) : (s.putCopy r).lanes = s.lanes := by
  unfold State.putCopy
  dsimp only
  split <;> rfl

@[simp] theorem State.handCopyPage_lanes (r : ReadAsm) : (s.handCopyPage r h).lanes =
    (s.placeLoad h { band := r.target.1, row := r.target.2, level := r.level }).lanes := State.putCopy_lanes _ _

end HandPage

/-! ## The target pages of a copy (R58) -/

section PutCopy

variable {s : State} {r : ReadAsm}

/-- With no page left to hand ROW LOADED is told and the read assembly released. -/
theorem State.putCopy_loaded (hh : r.handing = none) (hn : r.toHand = []) :
    s.putCopy r = s.releaseRead.emit (.rowLoaded r.loaded) := by
  simp [State.putCopy, ReadAsm.nextHanding, hh, hn]

/-- The first page left is handed. -/
theorem State.putCopy_next {l : Lane} {d : List Byte} {rest : List (Lane × List Byte)} (hh : r.handing = none)
    (hn : r.toHand = (l, d) :: rest) :
    s.putCopy r = { s with coder := { s.coder with
      read := some { r with toHand := rest, handing := some (pageFor s.lanes l d) } } } := by
  simp [State.putCopy, ReadAsm.nextHanding, hh, hn, pageFor]

end PutCopy

/-! ## The pages a copy produces -/

/-- Pages placed change the slots alone. -/
theorem ReadAsm.placeAll_eq (r : ReadAsm) (pages : List (Lane × List Byte)) :
    r.placeAll pages = { r with slots := (r.placeAll pages).slots } := by
  induction pages generalizing r with
  | nil => rfl
  | cons x pages ih => rw [ReadAsm.placeAll, ih]; rfl

/-- A patch changes the slots alone. -/
theorem ReadAsm.patched_slots (r : ReadAsm) (p : PatchBytes) (pHere qHere : Bool) :
    r.patched p pHere qHere = { r with slots := (r.patched p pHere qHere).slots } := by
  unfold ReadAsm.patched
  cases pLane r.level <;> cases qLane r.level <;> cases pHere <;> cases qHere <;> rfl

/-- The row a copy takes its pages from: the missing data pages rebuilt, the patch applied (R58 steps 1 and 2). -/
def ReadAsm.copySource (r : ReadAsm) (patch : Option PatchBytes) : ReadAsm :=
  match patch with
  | none => r.placeAll r.rebuilt
  | some p => (r.placeAll r.rebuilt).patched p (r.parityPresent (pLane r.level)) (r.parityPresent (qLane r.level))

theorem ReadAsm.copySource_slots (r : ReadAsm) (patch : Option PatchBytes) :
    r.copySource patch = { r with slots := (r.copySource patch).slots } := by
  cases patch with
  | none => exact r.placeAll_eq _
  | some p =>
      simp only [ReadAsm.copySource]
      rw [ReadAsm.patched_slots, ReadAsm.placeAll_eq]

/-- The page of a lane of the copied row: a parity page missing in the source is regenerated (R58 step 3). -/
def ReadAsm.targetPage (r : ReadAsm) (pHere qHere : Bool) (l : Lane) : List Byte :=
  if pLane r.level = some l ∧ pHere = false then parityP r.dataPagesOf
  else if qLane r.level = some l ∧ qHere = false then parityQ 0 r.dataPagesOf
  else r.bytes l

/-- Regenerating a parity page changes it where it is missing in the source. -/
theorem ReadAsm.placeAll_regenerated (r : ReadAsm) (pHere qHere : Bool) :
    r.placeAll (r.regenerated pHere qHere) =
      (r.changePage (pLane r.level) (!pHere) fun _ => parityP r.dataPagesOf).changePage (qLane r.level) (!qHere)
        fun _ => parityQ 0 r.dataPagesOf := by
  unfold ReadAsm.regenerated ReadAsm.changePage
  cases pLane r.level <;> cases qLane r.level <;> cases pHere <;> cases qHere <;> rfl

theorem ReadAsm.placeAll_regenerated_bytes (r : ReadAsm) (pHere qHere : Bool) (l : Lane) :
    (r.placeAll (r.regenerated pHere qHere)).bytes l = r.targetPage pHere qHere l := by
  have hpq : pLane r.level = some l → qLane r.level ≠ some l :=
    fun hp hq => (pLane_number hp).not_gt (qLane_number hq)
  rw [ReadAsm.placeAll_regenerated, ReadAsm.changePage_bytes, ReadAsm.changePage_bytes, ReadAsm.targetPage]
  by_cases hp : pLane r.level = some l
  · simp [hp, hpq hp]
  · simp [hp]

/-- The row with every page that a copy may name. -/
def ReadAsm.copyRowMade (r : ReadAsm) (patch : Option PatchBytes) : ReadAsm :=
  (r.copySource patch).placeAll
    ((r.copySource patch).regenerated (r.parityPresent (pLane r.level)) (r.parityPresent (qLane r.level)))

theorem ReadAsm.copyRowMade_slots (r : ReadAsm) (patch : Option PatchBytes) :
    r.copyRowMade patch = { r with slots := (r.copyRowMade patch).slots } := by
  rw [ReadAsm.copyRowMade, ReadAsm.placeAll_eq, ReadAsm.copySource_slots]

/-- The workspace of a produced copy row (R47, R58). -/
def ReadAsm.copyWorkspace (r : ReadAsm) (patch : Option PatchBytes) : Workspace :=
  { pages := r.rebuilt.map (fun x => (x.1.number, x.2)), pPrime := r.pPrime,
    qPrime := if r.level.val = 2 then r.qPrime else [],
    parity := ((r.copySource patch).regenerated (r.parityPresent (pLane r.level)) (r.parityPresent (qLane r.level))).map
      (fun x => (roleOf r.level x.1, x.2)) }

/-- The named pages of the row made, ready to be handed (R58 step 4). -/
def ReadAsm.copyReady (r : ReadAsm) (patch : Option PatchBytes) (named : List Lane) (target : Nat × Nat) : ReadAsm :=
  { r with slots := (r.copyRowMade patch).slots, target := target,
           toHand := named.map fun l => (l, (r.copyRowMade patch).bytes l) }

/-- Producing a copy keeps the workspace and hands the named pages of the row made (R58). -/
theorem State.produceCopy_eq (s : State) (r : ReadAsm) (named : List Lane) (target : Nat × Nat) :
    s.produceCopy r named target =
      { s with coder := { s.coder with workspace := some (r.copyWorkspace s.coder.patch) } }.putCopy
        (r.copyReady s.coder.patch named target) := by
  have hmade : s.produceCopy r named target =
      { s with coder := { s.coder with workspace := some (r.copyWorkspace s.coder.patch) } }.putCopy
        { r.copyRowMade s.coder.patch with
          target := target, toHand := named.map fun l => (l, (r.copyRowMade s.coder.patch).bytes l) } := by
    unfold State.produceCopy ReadAsm.copyRowMade ReadAsm.copyWorkspace ReadAsm.copySource
    cases s.coder.patch <;> rfl
  rw [hmade, ReadAsm.copyReady, r.copyRowMade_slots s.coder.patch]

/-- The page of a lane of the row made. -/
theorem ReadAsm.copyRowMade_bytes (r : ReadAsm) (patch : Option PatchBytes) (l : Lane) :
    (r.copyRowMade patch).bytes l =
      if pLane r.level = some l ∧ r.parityPresent (pLane r.level) = false then parityP (r.copySource patch).dataPagesOf
      else if qLane r.level = some l ∧ r.parityPresent (qLane r.level) = false then
        parityQ 0 (r.copySource patch).dataPagesOf
      else (r.copySource patch).bytes l := by
  have hlevel : (r.copySource patch).level = r.level := by rw [ReadAsm.copySource_slots]
  rw [ReadAsm.copyRowMade, ReadAsm.placeAll_regenerated_bytes, ReadAsm.targetPage, hlevel]

/-! ## The statement about rows begun and loaded -/

section Commands

variable {s : State}

theorem State.beginWriteRow_taken {b : RowBegin} (hb : s.coder.beginWrite = some b) (hw : s.coder.write = none) :
    s.beginWriteRow =
      { s with coder := { s.coder with beginWrite := none, write := some (WriteAsm.start b) } } := by
  simp [State.beginWriteRow, hb, hw]

theorem State.beginReadRow_taken {b : RowBegin} (hb : s.coder.beginRead = some b) (hr : s.coder.read = none) :
    s.beginReadRow =
      { s with coder := { s.coder with beginRead := none, read := some (ReadAsm.start b), verdict := none } }.emit
        (.readBegun b) := by
  simp [State.beginReadRow, hb, hr]

theorem ReadAsm.start_slot (b : RowBegin) (l : Lane) :
    (ReadAsm.start b).slots.get l = if l ∈ b.lanes then .awaited else .notExpected := by
  simp [ReadAsm.start]

theorem exec_pageHanded (hs : s.live = true) : exec .pageHanded s = .next s.handPage.settle :=
  State.takes_live s _ hs

/-- The write assembly with its page handed, the next one due. -/
def WriteAsm.handedOver (a : WriteAsm) (l : Lane) : WriteAsm :=
  { a with handing := none, index := a.index + 1, loaded := addLane a.loaded l }

theorem State.handWritePage_eq (s : State) (a : WriteAsm) (h : Handing) : s.handWritePage a h =
    (s.placeLoad h { band := a.band, row := a.row, level := a.level }).putWrite (a.handedOver h.lane) := rfl

/-- A page of the write assembly placed in its port, whatever the assembly does next. -/
theorem State.handWritePage_lane (s : State) (a : WriteAsm) (h : Handing) (l : Lane) :
    (s.handWritePage a h).lane l =
      (s.placeLoad h { band := a.band, row := a.row, level := a.level }).lane l :=
  congrArg (Six.get · l) (State.handWritePage_lanes a)

/-- The read assembly of a copy with its page placed, the next one due. -/
def ReadAsm.handedOver (r : ReadAsm) (l : Lane) : ReadAsm := { r with handing := none, loaded := addLane r.loaded l }

theorem State.handCopyPage_eq (s : State) (r : ReadAsm) (h : Handing) : s.handCopyPage r h =
    (s.placeLoad h { band := r.target.1, row := r.target.2, level := r.level }).putCopy (r.handedOver h.lane) := rfl

/-- A page of a copy placed in its port, whatever the read assembly does next. -/
theorem State.handCopyPage_lane (s : State) (r : ReadAsm) (h : Handing) (l : Lane) :
    (s.handCopyPage r h).lane l =
      (s.placeLoad h { band := r.target.1, row := r.target.2, level := r.level }).lane l :=
  congrArg (Six.get · l) (State.handCopyPage_lanes r)

end Commands

/-- Settles O24: each command by the lemma of its case, the assembly then by `putWrite` and `putCopy`. -/
theorem coderBeginsAndLoadsRows : Obligations.CoderBeginsAndLoadsRows := by
  refine ⟨fun s b hs => ⟨fun hb hw => ?beginWrite, fun hb hr => ?beginRead⟩,
    fun s h hs hport hbehind => ⟨fun a hw hh => ?placeWrite, fun r hw hr hh => ?placeCopy⟩,
    fun s a h hs hw hh => ⟨fun hwait => ?waits, fun hport hfree => ?handWrite⟩,
    fun s r h hs hw hr hh hport hfree => ?handCopy,
    fun s r named target hh => ⟨fun hn => ?copyNone, fun l rest hn => ?copyNext⟩⟩
  case beginWrite => exact (State.takes_live s _ hs).trans (by rw [State.beginWriteRow_taken hb hw]; rfl)
  case beginRead =>
    refine ⟨s.beginReadRow, ReadAsm.start b, State.takes_live s _ hs, ?_⟩
    rw [State.beginReadRow_taken hb hr]
    exact ⟨rfl, rfl, rfl, rfl, rfl, rfl, rfl, rfl, rfl, ReadAsm.start_slot b, rfl, rfl⟩
  case placeWrite =>
    refine ⟨_, exec_pageHanded hs, ?_⟩
    rw [State.handPage_write hw hh (State.portOpen_iff.2 ⟨hport, .inl hbehind⟩)]
    simp only [State.handWritePage_lane, State.placeLoad_lane, true_and]
    exact fun l hl => State.placeLoad_other _ hl
  case placeCopy =>
    refine ⟨_, exec_pageHanded hs, ?_⟩
    rw [State.handPage_copy hw hr hh (State.portOpen_iff.2 ⟨hport, .inl hbehind⟩)]
    simp only [State.handCopyPage_lane, State.placeLoad_lane, true_and]
    exact fun l hl => State.placeLoad_other _ hl
  case waits =>
    have hopen : s.portOpen h = false := by
      rw [← Bool.not_eq_true, State.portOpen_iff]
      rintro ⟨hport, hfree⟩
      rcases hwait with hwait | ⟨hbehind, hne⟩
      · exact hwait hport
      · exact hfree.elim (by simp [hbehind]) hne
    rw [exec_pageHanded hs, State.handPage_waits hw hh hopen]
  case handWrite =>
    refine ⟨_, exec_pageHanded hs, ?_⟩
    rw [State.handPage_write hw hh (State.portOpen_iff.2 ⟨hport, hfree⟩)]
    refine ⟨by rw [State.handWritePage_lane, State.placeLoad_lane], fun hk => ?_, fun hk hl => ?_,
      fun n hk hn h6 hl hbefore => ?_⟩ <;> rw [State.handWritePage_eq]
    · rw [State.putWrite_data (a := a.handedOver h.lane) hk]
      exact ⟨rfl, rfl⟩
    · rw [State.putWrite_loaded (a := a.handedOver h.lane) rfl hk hl]
      exact ⟨rfl, rfl⟩
    · rw [State.putWrite_parity (a := a.handedOver h.lane) rfl hk hn h6 hl hbefore]
      exact ⟨_, rfl, rfl, rfl, rfl⟩
  case handCopy =>
    refine ⟨_, exec_pageHanded hs, ?_⟩
    rw [State.handPage_copy hw hr hh (State.portOpen_iff.2 ⟨hport, hfree⟩)]
    refine ⟨fun hn => ?_, fun l d rest hn => ?_⟩ <;> rw [State.handCopyPage_eq]
    · rw [State.putCopy_loaded (r := r.handedOver h.lane) rfl hn]
      exact ⟨rfl, rfl⟩
    · rw [State.putCopy_next (r := r.handedOver h.lane) rfl hn]
      exact ⟨_, _, rfl, rfl, rfl, rfl, rfl, rfl, rfl⟩
  case copyNone =>
    rw [State.produceCopy_eq, hn, State.putCopy_loaded (r := r.copyReady _ [] target) hh rfl]
    exact ⟨rfl, rfl⟩
  case copyNext =>
    rw [State.produceCopy_eq, hn, State.putCopy_next (r := r.copyReady _ (l :: rest) target) hh rfl]
    refine ⟨_, _, rfl, rfl, rfl, r.copyRowMade_bytes _ l, ?_, rfl, rfl, rfl⟩
    exact List.map_congr_left fun k _ => congrArg (Prod.mk k) (r.copyRowMade_bytes _ k)

end Sys2Proof.Machine
end

