-- ==== Sys2Proof/Proofs/WordsHanded.lean ====
section
/-! Words through the staging FIFO: into the pages of a row being written (R50), out of a row judged RECOVERABLE (R57),
and the words of a band query record (R44, R155). -/

namespace Sys2Proof.Machine

open Sys2Proof

/-! ## Words and bytes -/

/-- The word appended to stands above. -/
theorem toNat_append_eq_add {m n : Nat} (x : BitVec m) (y : BitVec n) :
    (x ++ y).toNat = 2 ^ n * x.toNat + y.toNat := by
  rw [BitVec.toNat_append, ← Nat.shiftLeft_add_eq_or_of_lt y.isLt, Nat.shiftLeft_eq, Nat.mul_comm]

/-- A word's bytes are those it is made of. -/
theorem wordBytes_wordOf (b0 b1 b2 b3 : Byte) : wordBytes (wordOf b0 b1 b2 b3) = [b0, b1, b2, b3] := by
  have hword : (wordOf b0 b1 b2 b3).toNat =
      2 ^ 8 * (2 ^ 8 * (2 ^ 8 * b3.toNat + b2.toNat) + b1.toNat) + b0.toNat := by
    rw [wordOf, toNat_append_eq_add, toNat_append_eq_add, toNat_append_eq_add]
  have hbyte : ∀ i, (wordByte (wordOf b0 b1 b2 b3) i).toNat = (wordOf b0 b1 b2 b3).toNat / 2 ^ (8 * i) % 2 ^ 8 := by
    intro i
    rw [wordByte, BitVec.toNat_setWidth, BitVec.toNat_ushiftRight, Nat.shiftRight_eq_div_pow]
  have h0 := b0.isLt
  have h1 := b1.isLt
  have h2 := b2.isLt
  simp only [wordBytes, List.cons.injEq, and_true, ← BitVec.toNat_inj, hbyte, hword]
  omega

@[simp] theorem wordBytes_length (w : Word) : (wordBytes w).length = 4 := rfl

/-- Four bytes of a page from an offset on. -/
theorem take_four_drop {page : List Byte} {j : Nat} (h : j + 4 ≤ page.length) :
    (page.drop j).take 4 = [page.getD j 0#8, page.getD (j + 1) 0#8, page.getD (j + 2) 0#8, page.getD (j + 3) 0#8] := by
  rw [List.drop_eq_getElem_cons (by omega), List.drop_eq_getElem_cons (by omega), List.drop_eq_getElem_cons (by omega),
    List.drop_eq_getElem_cons (by omega), List.getD_eq_getElem _ _ (by omega), List.getD_eq_getElem _ _ (by omega),
    List.getD_eq_getElem _ _ (by omega), List.getD_eq_getElem _ _ (by omega)]
  rfl

/-! ## Fields of a word (R194) -/

theorem bits_eq (w : Word) (lo len : Nat) : bits w lo len = w.toNat / 2 ^ lo % 2 ^ len := by
  rw [bits, BitVec.extractLsb'_toNat, Nat.shiftRight_eq_div_pow]

theorem field_toNat {v p : Nat} (h : 2 ^ p * v < 2 ^ 32) : (field v p).toNat = 2 ^ p * v := by
  have hv : v < 2 ^ 32 := (Nat.le_mul_of_pos_left v (Nat.two_pow_pos p)).trans_lt h
  rw [field, BitVec.toNat_shiftLeft, BitVec.toNat_ofNat, Nat.mod_eq_of_lt hv, Nat.shiftLeft_eq, Nat.mul_comm,
    Nat.mod_eq_of_lt h]

/-- A field placed above the bits a word uses is added to it. -/
theorem or_field_toNat {w : Word} {v p : Nat} (hw : w.toNat < 2 ^ p) (h : 2 ^ p * v < 2 ^ 32) :
    (w ||| field v p).toNat = w.toNat + 2 ^ p * v := by
  rw [BitVec.toNat_or, field_toNat h, Nat.or_comm, Nat.mul_comm, ← Nat.shiftLeft_eq, ← Nat.shiftLeft_add_eq_or_of_lt hw,
    Nat.add_comm]

theorem word4_toNat {a b c d : Nat} (ha : a < 256) (hb : b < 256) (hc : c < 256) (hd : d < 256) :
    (word4 a b c d).toNat = a + 2 ^ 8 * b + 2 ^ 16 * c + 2 ^ 24 * d := by
  have h0 := field_toNat (v := a) (p := 0) (by omega)
  have h1 := or_field_toNat (w := field a 0) (v := b) (p := 8) (by omega) (by omega)
  have h2 := or_field_toNat (w := field a 0 ||| field b 8) (v := c) (p := 16) (by omega) (by omega)
  rw [word4, or_field_toNat (by omega) (by omega), h2, h1, h0]
  omega

theorem bits_word4 {a b c d : Nat} (ha : a < 256) (hb : b < 256) (hc : c < 256) (hd : d < 256) :
    bits (word4 a b c d) 0 8 = a ∧ bits (word4 a b c d) 8 8 = b ∧ bits (word4 a b c d) 16 8 = c ∧
      bits (word4 a b c d) 24 8 = d := by
  simp only [bits_eq, word4_toNat ha hb hc hd]
  omega

/-! ## A word taken into the page being filled (R50) -/

section Staging

variable {s : State} {a : WriteAsm} {w : Word} {rest : List Word}

/-- The first word of the FIFO taken, counted as received by the row writer (R153). -/
def State.stagingTaken (s : State) (rest : List Word) : State :=
  { s with mover := { s.mover with fifo := rest },
           writer := { s.writer with bytesNeeded := s.writer.bytesNeeded - 4 } }

theorem State.takeStagingWord_taken (hw : s.coder.write = some a) (hh : a.handing = none)
    (hk : a.index < dataPages a.level) (hdir : s.mover.direction = some .inbound) (hphase : s.mover.phase = .moving)
    (hfifo : s.mover.fifo = w :: rest) : s.takeStagingWord = (s.stagingTaken rest).coderTake a w := by
  simp [State.takeStagingWord, State.stagingTaken, WriteAsm.asking, hw, hfifo, hdir, hphase, hh, hk]

theorem WriteAsm.addWord_received (a : WriteAsm) (w : Word) : (a.addWord w).received = a.received ++ wordBytes w := rfl

theorem WriteAsm.addWord_received_length (a : WriteAsm) (w : Word) :
    (a.addWord w).received.length = a.received.length + 4 := by
  rw [WriteAsm.addWord_received, List.length_append, wordBytes_length]

/-- A word that does not fill the page. -/
theorem State.coderTake_filling (h : a.received.length + 4 < 2048) :
    s.coderTake a w = { s with coder := { s.coder with write := some (a.addWord w) } } := by
  rw [← a.addWord_received_length w] at h
  exact if_neg (Nat.not_le_of_lt h)

/-- The word that fills the page. -/
theorem State.coderTake_full (h : a.received.length + 4 = 2048) :
    s.coderTake a w = s.putWrite ((a.addWord w).finish s.lanes (a.received ++ wordBytes w)) := by
  rw [← a.addWord_received_length w] at h
  exact if_pos h.ge

end Staging

/-! ## A word handed to the mover (R155) -/

section Handed

variable {s : State}

theorem Mover.accepts_iff (m : Mover) : m.accepts = true ↔
    m.phase = .moving ∧ m.direction = some .outbound ∧ m.pendingEnding = none ∧ m.fifo.length < Config.fifoWords := by
  simp [Mover.accepts, and_assoc]

theorem State.handNext_record (hm : s.mover.accepts = true) (hv : s.services.hasWord = true) :
    s.handNext = s.handRecordWord := by simp [State.handNext, hm, hv]

theorem State.handNext_row {r : ReadAsm} {v : RowReport} (hm : s.mover.accepts = true)
    (hphase : s.services.phase ≠ .records) (hr : s.coder.read = some r) (hd : r.purpose = .deliver)
    (hv : s.coder.verdict = some v) : s.handNext = s.handRowWord r := by
  have hdue : s.coder.delivering = some r := by simp [Coder.delivering, hr, hd, hv, Option.filter]
  simp [State.handNext, hm, Services.hasWord, hphase, hdue]

/-- The next word of the record in hand. -/
theorem State.handRecordWord_next {w : Word} {rest : List Word} (hw : s.services.words = w :: rest) :
    s.handRecordWord = { s with services := { s.services with words := rest } }.handWord w := by
  simp [State.handRecordWord, State.recordWords, hw]

/-- The first word of the next record, which is taken then (log 24). -/
theorem State.handRecordWord_first (hw : s.services.words = []) :
    let b := s.services.nextRecord
    let ws := queryRecord b (s.band b) (s.protect.locked b) (s.protect.frozen b)
    s.handRecordWord = { s with
      services := { s.services with words := ws.drop 1, nextRecord := b + 1 },
      mover := { s.mover with fifo := s.mover.fifo ++ ws.take 1, handed := s.mover.handed + 1 } } := by
  simp [State.handRecordWord, State.recordWords, State.handWord, hw, queryRecord]

/-- A word of a row with more words to come. -/
theorem State.handRowWord_more {r : ReadAsm} (h : r.handed + 1 < dataPages r.level * 512) :
    s.handRowWord r = { s.handWord (r.wordAt r.handed) with
      coder := { s.coder with read := some { r with handed := r.handed + 1 } } } :=
  if_neg (Nat.not_le_of_lt h)

/-- The last word of a row. -/
theorem State.handRowWord_last {r : ReadAsm} (h : dataPages r.level * 512 ≤ r.handed + 1) :
    s.handRowWord r = (s.handWord (r.wordAt r.handed)).releaseRead.emit .rowDelivered := if_pos h

theorem State.handRowWord_mover (r : ReadAsm) :
    (s.handRowWord r).mover = (s.handWord (r.wordAt r.handed)).mover := by
  unfold State.handRowWord
  dsimp only
  split <;> rfl

/-- Word n of a row is four bytes of data page n / 512 (R57). -/
theorem ReadAsm.wordAt_bytes {r : ReadAsm} {n : Nat} {data : List Byte} {o : PageOutcome}
    (h : r.slots.get (laneAt (n / 512)) = .held data o) (hlen : data.length = 2048) :
    wordBytes (r.wordAt n) = (data.drop (4 * (n % 512))).take 4 := by
  have hbytes : r.bytes (laneAt (n / 512)) = data := by rw [ReadAsm.bytes, h]; rfl
  rw [take_four_drop (by omega), ← hbytes, ReadAsm.wordAt, wordBytes_wordOf]
  rfl

end Handed

/-! ## A band query record (11.4) -/

section Record

theorem Lane.number_lt (l : Lane) : l.number < 6 := by cases l <;> decide

theorem BandState.code_lt (st : BandState) : st.code < 256 := by cases st <;> decide

theorem queryRecord_identity {band : Nat} (hb : band < 1024) (r : BandRecord) :
    let w := field band 0 ||| field r.state.code 16 ||| field r.level.val 24
    bits w 0 16 = band ∧ bits w 16 8 = r.state.code ∧ bits w 24 8 = r.level.val := by
  have hstate := r.state.code_lt
  have hlevel := r.level.isLt
  have h0 := field_toNat (v := band) (p := 0) (by omega)
  have h1 := or_field_toNat (w := field band 0) (v := r.state.code) (p := 16) (by omega) (by omega)
  have h2 := or_field_toNat (w := field band 0 ||| field r.state.code 16) (v := r.level.val) (p := 24)
    (by omega) (by omega)
  simp only [bits_eq, h2, h1, h0]
  omega

/-- The bounds of R20 that let the counts of a record stand in bytes. -/
theorem BandRecord.wf_bounds {r : BandRecord} (h : r.wf = true) :
    r.nextRow ≤ 64 ∧ r.lost.length ≤ 2 ∧ r.voids.length ≤ 4 ∧ ∀ v ∈ r.voids, v < r.nextRow := by
  simp only [BandRecord.wf, Bool.and_eq_true, decide_eq_true_eq, List.all_eq_true] at h
  obtain ⟨⟨⟨⟨⟨hrow, hvoids⟩, -⟩, hall⟩, hlost⟩, -⟩ := h
  exact ⟨hrow, hlost, hvoids, hall⟩

/-- A number of a list that may be short stands in a byte, where every number of the list does. -/
theorem elim_getElem?_lt {α : Type} {xs : List α} {f : α → Nat} (h : ∀ x ∈ xs, f x < 256) (i : Nat) :
    (xs[i]?).elim 0 f < 256 := by
  cases hx : xs[i]? with
  | none => exact Nat.zero_lt_succ _
  | some x => exact h x (List.mem_of_getElem? hx)

theorem getD_getElem?_lt {xs : List Nat} (h : ∀ x ∈ xs, x < 256) (i : Nat) : (xs[i]?).getD 0 < 256 := by
  cases hx : xs[i]? with
  | none => exact Nat.zero_lt_succ _
  | some x => exact h x (List.mem_of_getElem? hx)

end Record

/-- Settles O25: a word taken in by `coderTake` and `putWrite`, a word handed out by the lemma of its source. -/
theorem wordsPassTheFifo : Obligations.WordsPassTheFifo := by
  refine ⟨fun s a w rest hs hw hh hk hdir hphase hfifo hlen => ?filling,
    fun s a w rest hs hw hh hk hdir hphase hfifo hlen => ?full,
    fun s hs hphase hdir hend hroom => ⟨fun w rest hv hended hnone hws => ?nextWord,
      fun o hv hended hnone hws ho hmore => ?firstWord, fun b rec locked frozen hb hwf hlost => ?record,
      fun r n data o h hlen => ReadAsm.wordAt_bytes h hlen, fun r v hv hr hd hverdict => ?row⟩⟩
  case filling =>
    refine (State.takes_live s _ hs).trans ?_
    rw [State.takeStagingWord_taken hw hh hk hdir hphase hfifo, State.coderTake_filling hlen]
    rfl
  case full =>
    refine ⟨_, State.takes_live s _ hs, ?_⟩
    rw [State.takeStagingWord_taken hw hh hk hdir hphase hfifo, State.coderTake_full hlen]
    refine ⟨State.putWrite_mover _ _, State.putWrite_lanes _ _, State.putWrite_writer _ _, fun hl => ?_,
      fun hl => ⟨fun hk' => ?_, fun hk' hl' => ?_, fun n hk' hn h6 hl' hbefore => ?_⟩⟩
    · rw [WriteAsm.finish_handed (a := a.addWord w) _ hl, State.putWrite_handing rfl]
      exact ⟨rfl, _, rfl, rfl, rfl⟩
    all_goals rw [WriteAsm.finish_dropped (a := a.addWord w) _ hl]
    · rw [State.putWrite_data (a := (a.addWord w).dropped) hk']
      exact ⟨rfl, rfl⟩
    · rw [State.putWrite_loaded (a := (a.addWord w).dropped) hh hk' hl']
      exact ⟨rfl, rfl⟩
    · rw [State.putWrite_parity (a := (a.addWord w).dropped) hh hk' hn h6 hl' hbefore]
      exact ⟨_, rfl, rfl, rfl, rfl⟩
  case record =>
    obtain ⟨hrow, hlost2, hvoids4, hvoids⟩ := BandRecord.wf_bounds hwf
    obtain ⟨hband, hstate, hlevel⟩ := queryRecord_identity hb rec
    have hflags : rec.attention.toNat + 2 * locked.toNat + 4 * frozen.toNat < 256 := by
      have := rec.attention.toNat_le
      have := locked.toNat_le
      have := frozen.toNat_le
      omega
    obtain ⟨hnext, hlostCount, hvoidCount, hflag⟩ := bits_word4 (a := rec.nextRow) (b := rec.lost.length)
      (c := rec.voids.length) (by omega) (by omega) (by omega) hflags
    have hlane := elim_getElem?_lt (f := fun e : LostEntry => e.lane.number) fun e (_ : e ∈ rec.lost) =>
      (Lane.number_lt e.lane).trans (by decide)
    have hfrom := elim_getElem?_lt (f := LostEntry.fromRow) fun e he => (hlost e he).trans (by decide)
    have hvoid := getD_getElem?_lt fun v hv => ((hvoids v hv).trans_le hrow).trans (by decide)
    obtain ⟨hlane0, hfrom0, hlane1, hfrom1⟩ := bits_word4 (hlane 0) (hfrom 0) (hlane 1) (hfrom 1)
    obtain ⟨hvoid0, hvoid1, hvoid2, hvoid3⟩ := bits_word4 (hvoid 0) (hvoid 1) (hvoid 2) (hvoid 3)
    refine ⟨rfl, hband, hstate.trans (by cases rec.state <;> rfl), hlevel, hnext, hlostCount, hvoidCount, hflag, ?_, ?_⟩
    · intro i hi
      interval_cases i
      · exact ⟨hlane0, hfrom0⟩
      · exact ⟨hlane1, hfrom1⟩
    · intro i hi
      interval_cases i
      · exact hvoid0
      · exact hvoid1
      · exact hvoid2
      · exact hvoid3
  all_goals have hm := (Mover.accepts_iff s.mover).2 ⟨hphase, hdir, hend, hroom⟩
  case nextWord =>
    refine (State.takes_live s _ hs).trans ?_
    have hword : s.services.hasWord = true := by simp [Services.hasWord, hv, hended, hnone, hws]
    rw [State.handNext_record hm hword, State.handRecordWord_next hws]
    rfl
  case firstWord =>
    refine (State.takes_live s _ hs).trans ?_
    have hword : s.services.hasWord = true := by simp [Services.hasWord, Services.count, hv, hended, hnone, ho, hmore]
    rw [State.handNext_record hm hword, State.handRecordWord_first hws]
  case row =>
    refine ⟨_, State.takes_live s _ hs, ?_⟩
    rw [State.handNext_row hm hv hr hd hverdict, State.handRowWord_mover]
    refine ⟨rfl, rfl, fun hmore => ?_, fun hlast => ?_⟩
    · rw [State.handRowWord_more hmore]
      exact ⟨rfl, rfl⟩
    · rw [State.handRowWord_last hlast]
      exact ⟨rfl, rfl⟩

end Sys2Proof.Machine
end

