-- ==== Sys2Proof/Proofs/RowsJudged.lean ====
section
/-! The judgement of a read row (R52 to R61): which pages are missing and why, the row report, what the judgement does
with the row, the pages a copy still needs, and the parity compared by a check. -/

namespace Sys2Proof.Machine

open Sys2Proof

/-! ## When a row is judged (R53) -/

theorem Slot.isAwaited_iff (x : Slot) : x.isAwaited = true ↔ x = .awaited := by
  cases x <;> simp [Slot.isAwaited]

/-- A row that has not been judged is due once no lane is awaited. -/
theorem Coder.judgeDue_iff {c : Coder} {r : ReadAsm} (hr : c.read = some r) (hv : c.verdict = none)
    (hhand : r.toHand = []) (hh : r.handing = none) : c.judgeDue = true ↔ ∀ l, r.slots.get l ≠ .awaited := by
  simp [Coder.judgeDue, hr, hv, hhand, hh, mem_all_lanes, ← Slot.isAwaited_iff]

/-! ## Missing pages (R52) -/

/-- The outcome the coder knows of a lane's page, with its bytes or without. -/
def ReadAsm.known (r : ReadAsm) (l : Lane) (o : PageOutcome) : Prop :=
  r.slots.get l = .outcomeOnly o ∨ ∃ d, r.slots.get l = .held d o

theorem Slot.outcome_eq_some (x : Slot) (o : PageOutcome) :
    x.outcome = some o ↔ x = .outcomeOnly o ∨ ∃ d, x = .held d o := by
  cases x <;> simp [Slot.outcome]

theorem Slot.cause_of_outcome {x : Slot} {o : PageOutcome} (h : x.outcome = some o) :
    x.cause = Slot.cause.classCause o.cls := by
  rcases (Slot.outcome_eq_some x o).1 h with rfl | ⟨d, rfl⟩ <;> rfl

theorem Slot.cause_absent (x : Slot) : x.cause = some .absent ↔ x = .notExpected := by
  cases x with
  | notExpected => simp [Slot.cause]
  | awaited => simp [Slot.cause]
  | outcomeOnly o => cases h : o.cls <;> simp [Slot.cause, Slot.cause.classCause, h]
  | held d o => cases h : o.cls <;> simp [Slot.cause, Slot.cause.classCause, h]

/-- Each of the other causes comes from one page class. -/
theorem classCause_iff {cls : PageClass} {c : Cause} (h : Slot.cause.classCause cls = some c) :
    (c = .erased ↔ cls = .erased) ∧ (c = .uncorrectable ↔ cls = .uncorrectable) ∧ (c = .tag ↔ cls = .tagMismatch) := by
  cases cls <;> simp [Slot.cause.classCause] at h <;> subst h <;> decide

theorem Slot.missing_iff (x : Slot) : x.cause.isSome = true ↔
    x = .notExpected ∨ ∃ o, x.outcome = some o ∧ o.cls ∈ [PageClass.erased, .uncorrectable, .tagMismatch] := by
  cases x with
  | notExpected => simp [Slot.cause]
  | awaited => simp [Slot.cause, Slot.outcome]
  | outcomeOnly o => cases h : o.cls <;> simp [Slot.cause, Slot.outcome, Slot.cause.classCause, h]
  | held d o => cases h : o.cls <;> simp [Slot.cause, Slot.outcome, Slot.cause.classCause, h]

section Missing

variable {r : ReadAsm}

theorem ReadAsm.known_iff {l : Lane} {o : PageOutcome} : r.known l o ↔ (r.slots.get l).outcome = some o :=
  (Slot.outcome_eq_some _ o).symm

theorem filterMap_map_some {α β γ : Type} (f : α → Option β) (g : α → β → γ) (k : γ → α) (hk : ∀ a b, k (g a b) = a)
    (xs : List α) : (xs.filterMap (fun a => (f a).map (g a))).map k = xs.filter (fun a => (f a).isSome) := by
  induction xs with
  | nil => rfl
  | cons a xs ih => cases h : f a <;> simp [h, hk, ih]

/-- The lanes of the missing pages, in lane order. -/
theorem ReadAsm.missing_lanes (r : ReadAsm) : r.missing.map (·.lane) = Lane.all.filter r.isMissing :=
  filterMap_map_some _ _ _ (fun _ _ => rfl) _

theorem ReadAsm.mem_missing {m : MissingPage} :
    m ∈ r.missing ↔ (r.slots.get m.lane).cause = some m.cause ∧ m.role = roleOf r.level m.lane := by
  simp only [ReadAsm.missing, List.mem_filterMap, mem_all_lanes, true_and, Option.map_eq_some_iff]
  constructor
  · rintro ⟨l, c, hc, rfl⟩
    exact ⟨hc, rfl⟩
  · rintro ⟨hc, hrole⟩
    exact ⟨m.lane, m.cause, hc, by rw [← hrole]⟩

/-- The outcomes of the row report, in lane order. -/
theorem ReadAsm.report_outcomes_lanes (r : ReadAsm) (v : Verdict) :
    (r.report v).outcomes.map (·.1) = Lane.all.filter (fun l => (r.slots.get l).outcome.isSome) :=
  filterMap_map_some _ _ _ (fun _ _ => rfl) _

theorem ReadAsm.mem_report_outcomes {v : Verdict} {l : Lane} {o : PageOutcome} :
    (l, o) ∈ (r.report v).outcomes ↔ (r.slots.get l).outcome = some o := by
  simp [ReadAsm.report, mem_all_lanes]

/-- The missing data pages among the missing pages. -/
theorem ReadAsm.missingData_eq (r : ReadAsm) :
    r.missingData = (Lane.all.filter r.isMissing).filter (fun l => decide (l.number < dataPages r.level)) := by
  rw [ReadAsm.missingData, dataLanes, List.filter_filter, List.filter_filter]
  exact List.filter_congr fun l _ => Bool.and_comm _ _

end Missing

section Report

variable {r : ReadAsm}

theorem ReadAsm.isMissing_iff {l : Lane} : r.isMissing l = true ↔ r.slots.get l = .notExpected ∨
    ∃ o, r.known l o ∧ o.cls ∈ [PageClass.erased, .uncorrectable, .tagMismatch] := by
  simp only [ReadAsm.known_iff]
  exact Slot.missing_iff _

/-- The role and the cause of a missing page. -/
theorem ReadAsm.missing_cause {m : MissingPage} (h : m ∈ r.missing) : m.role = roleOf r.level m.lane ∧
    (m.cause = .absent ↔ r.slots.get m.lane = .notExpected) ∧ ∀ o, r.known m.lane o →
      (m.cause = .erased ↔ o.cls = .erased) ∧ (m.cause = .uncorrectable ↔ o.cls = .uncorrectable) ∧
        (m.cause = .tag ↔ o.cls = .tagMismatch) := by
  obtain ⟨hcause, hrole⟩ := ReadAsm.mem_missing.1 h
  refine ⟨hrole, ?_, fun o ho => classCause_iff ?_⟩
  · rw [← Slot.cause_absent, hcause, Option.some_inj]
  · rw [← Slot.cause_of_outcome (ReadAsm.known_iff.1 ho), hcause]

theorem ReadAsm.report_rebuilt (r : ReadAsm) (v : Verdict) :
    (r.report v).rebuilt = if v = .recoverable then r.rebuiltCount else 0 := rfl

/-- The data lanes among the missing ones, counted. -/
theorem ReadAsm.missingData_filter (r : ReadAsm) :
    r.missingData = Lane.all.filter (fun l => decide (l.number < 6 - r.level.val) && r.isMissing l) := by
  rw [ReadAsm.missingData_eq, List.filter_filter]
  rfl

end Report

/-! ## The data pages a check rebuilds (R54, R60) -/

section CheckCount

variable {r : ReadAsm}

theorem ReadAsm.missingData_of_one {l : Lane} (h : r.missing.map (·.lane) = [l]) :
    r.missingData = if l.number < dataPages r.level then [l] else [] := by
  rw [ReadAsm.missing_lanes] at h
  rw [ReadAsm.missingData_eq, h]
  by_cases hl : l.number < dataPages r.level <;> simp [hl]

/-- At level 2 an absent data page alone is rebuilt. -/
theorem ReadAsm.rebuiltCount_check_one {l : Lane} (hp : r.purpose = .check) (h2 : r.level.val = 2)
    (h : r.missing.map (·.lane) = [l]) (ha : r.slots.get l = .notExpected) :
    r.rebuiltCount = if l.number < 4 then 1 else 0 := by
  obtain ⟨m, hm, rfl⟩ := List.map_eq_singleton_iff.1 h
  have hc : m.cause = .absent := by
    have := (ReadAsm.mem_missing (r := r) (m := m)).1 (by simp [hm])
    rw [ha] at this
    exact (Option.some.inj this.1).symm
  have hk : dataPages r.level = 4 := by simp [dataPages, h2]
  have hdata := ReadAsm.missingData_of_one h
  rw [hk] at hdata
  simp [ReadAsm.rebuiltCount, hp, hm, h2, hc, hdata, apply_ite List.length]

/-- Otherwise a check rebuilds nothing. -/
theorem ReadAsm.rebuiltCount_check_none (hp : r.purpose = .check)
    (h : r.level.val ≠ 2 ∨ r.missing.length ≠ 1 ∨ ∃ m ∈ r.missing, m.cause ≠ .absent) : r.rebuiltCount = 0 := by
  simp only [ReadAsm.rebuiltCount, hp]
  split
  · next m hm =>
      refine if_neg ?_
      simpa [hm, or_iff_not_imp_left] using h
  · rfl

/-- A row delivered or copied has every missing data page rebuilt. -/
theorem ReadAsm.rebuiltCount_eq (hp : r.purpose ≠ .check) : r.rebuiltCount = r.missingData.length := by
  cases h : r.purpose
  · simp [ReadAsm.rebuiltCount, h]
  · simp [ReadAsm.rebuiltCount, h]
  · exact absurd h hp

end CheckCount

/-! ## What the judgement does with the row (R54, R57, R61) -/

section Placed

variable {r : ReadAsm} {l : Lane}

theorem ReadAsm.placeAll_other {pages : List (Lane × List Byte)} (h : ∀ x ∈ pages, x.1 ≠ l) :
    (r.placeAll pages).slots.get l = r.slots.get l := by
  induction pages generalizing r with
  | nil => rfl
  | cons x pages ih =>
      obtain ⟨hx, hpages⟩ := List.forall_mem_cons.1 h
      rw [ReadAsm.placeAll, ih hpages]
      exact Six.get_set_other _ _ hx.symm

/-- Pages of different lanes all stand where they were placed. -/
theorem ReadAsm.placeAll_bytes {pages : List (Lane × List Byte)} (h : (pages.map (·.1)).Nodup) {x : Lane × List Byte}
    (hx : x ∈ pages) : (r.placeAll pages).bytes x.1 = x.2 := by
  induction pages generalizing r with
  | nil => simp at hx
  | cons y pages ih =>
      obtain ⟨hy, hpages⟩ := List.nodup_cons.1 h
      rcases List.mem_cons.1 hx with rfl | hx
      · have hother : ∀ z ∈ pages, z.1 ≠ x.1 := fun z hz hzx => hy (List.mem_map.2 ⟨z, hz, hzx⟩)
        rw [ReadAsm.placeAll, ReadAsm.bytes, ReadAsm.placeAll_other hother]
        exact (r.place_bytes x.1 x.1 x.2).trans (if_pos rfl)
      · exact ih hpages hx

theorem ReadAsm.rebuilt_lanes (r : ReadAsm) : r.rebuilt.map (·.1) = r.missingData.take 2 := by
  unfold ReadAsm.rebuilt
  split
  · next h => simp [h]
  · next x h => split <;> simp [h]
  · next x y rest h => simp [h]

theorem ReadAsm.rebuilt_nodup (r : ReadAsm) : (r.rebuilt.map (·.1)).Nodup := by
  have hall : Lane.all.Nodup := by decide
  rw [ReadAsm.rebuilt_lanes]
  exact ((hall.filter _).filter _).sublist (List.take_sublist _ _)

end Placed

section Judge

variable {s : State} {r : ReadAsm}

/-- A CHECK row is released with its result (R61). -/
theorem State.judge_check (hr : s.coder.read = some r) (hp : r.purpose = .check) :
    s.judge = s.releaseRead.emit
      (.checked (r.report (if r.level.val < r.missing.length then .unrecoverable else .recoverable)) r.compared) := by
  simp [State.judge, hr, hp]

/-- More pages missing than the level: the row is released (R54). -/
theorem State.judge_unrecoverable (hr : s.coder.read = some r) (hp : r.purpose ≠ .check)
    (h : r.level.val < r.missing.length) : s.judge = s.releaseRead.emit (.judged (r.report .unrecoverable)) := by
  cases hpurpose : r.purpose
  · simp [State.judge, hr, hpurpose, h]
  · simp [State.judge, hr, hpurpose, ReadAsm.verdict, h]
  · exact absurd hpurpose hp

/-- A DELIVER row is rebuilt and stands ready (R57). -/
theorem State.judge_deliver (hr : s.coder.read = some r) (hp : r.purpose = .deliver)
    (h : ¬r.level.val < r.missing.length) :
    s.judge = { s with coder := { s.coder with
      read := some (r.placeAll r.rebuilt), workspace := r.workspace, verdict := some (r.report .recoverable) } }.emit
        (.judged (r.report .recoverable)) := by
  simp [State.judge, hr, hp, h]

/-- A COPY row of which nothing is lacking is RECOVERABLE (R58). -/
theorem State.judge_copy_recoverable (hr : s.coder.read = some r) (hp : r.purpose = .copy)
    (h : ¬r.level.val < r.missing.length) (hl : r.lacking s.coder.patch = []) :
    s.judge = { s with coder := { s.coder with verdict := some (r.report .recoverable) } }.emit
      (.judged (r.report .recoverable)) := by
  simp [State.judge, hr, hp, ReadAsm.verdict, h, hl]

/-- The read assembly with some lanes awaited again (R54). -/
def ReadAsm.awaitAgain (r : ReadAsm) (ls : List Lane) : ReadAsm :=
  { r with slots := Six.build (fun l => if ls.contains l then .awaited else r.slots.get l) }

theorem ReadAsm.awaitAgain_slot (r : ReadAsm) (ls : List Lane) (l : Lane) :
    (r.awaitAgain ls).slots.get l = if l ∈ ls then .awaited else r.slots.get l := by
  simp [ReadAsm.awaitAgain]

/-- Otherwise NEED_PAGES names the lacking lanes, which are awaited again (R54). -/
theorem State.judge_copy_needs (hr : s.coder.read = some r) (hp : r.purpose = .copy)
    (h : ¬r.level.val < r.missing.length) (hl : r.lacking s.coder.patch ≠ []) :
    s.judge = { s with coder := { s.coder with read := some (r.awaitAgain (r.lacking s.coder.patch)) } }.emit
      (.needPages (r.lacking s.coder.patch)) := by
  simp [State.judge, hr, hp, ReadAsm.verdict, h, hl, ReadAsm.awaitAgain]

/-- The judgement is the coder's alone. -/
theorem State.judge_kept (s : State) : s.judge.lanes = s.lanes ∧ s.judge.mover = s.mover ∧ s.judge.mem = s.mem := by
  unfold State.judge
  split
  · exact ⟨rfl, rfl, rfl⟩
  · split
    · exact ⟨rfl, rfl, rfl⟩
    · dsimp only
      split <;> exact ⟨rfl, rfl, rfl⟩
    · split <;> exact ⟨rfl, rfl, rfl⟩

end Judge

/-! ## The pages a copy still needs (R54, R55, R56, R58, R59) -/

section Lacking

variable {r : ReadAsm} {l : Lane}

/-- A data page that is missing. -/
def ReadAsm.gone (r : ReadAsm) (l : Lane) : Prop := l.number < 6 - r.level.val ∧ r.isMissing l = true

theorem ReadAsm.mem_missingData_iff_gone : l ∈ r.missingData ↔ r.gone l := ReadAsm.mem_missingData

theorem ReadAsm.missingData_ne_nil : r.missingData ≠ [] ↔ ∃ l, r.gone l := by
  constructor
  · intro h
    obtain ⟨l, hl⟩ := List.exists_mem_of_ne_nil _ h
    exact ⟨l, ReadAsm.mem_missingData_iff_gone.1 hl⟩
  · rintro ⟨l, hl⟩
    exact List.ne_nil_of_mem (ReadAsm.mem_missingData_iff_gone.2 hl)

theorem ReadAsm.mem_presentData (hm : r.isMissing l = false) : l ∈ r.presentData ↔ l.number < 6 - r.level.val := by
  simp [ReadAsm.presentData, mem_dataLanes, hm, dataPages]

theorem ReadAsm.missingData_nodup (r : ReadAsm) : r.missingData.Nodup := by
  have hall : Lane.all.Nodup := by decide
  exact (hall.filter _).filter _

/-- Without a P lane there is no Q lane. -/
theorem qLane_of_pLane_none {level : Level} (h : pLane level = none) : qLane level = none := by
  by_cases h0 : level.val = 0
  · simp [qLane, h0]
  · simp [pLane, h0] at h

/-- With the present lane `l`, P serves any rebuild, and Q that of two pages or of one without P (R55, R56). -/
theorem ReadAsm.mem_rebuildParity (hm : r.isMissing l = false) (hgone : ∃ x, r.gone x) :
    l ∈ r.rebuildParity ↔ pLane r.level = some l ∨ (qLane r.level = some l ∧
      ((∃ k, pLane r.level = some k ∧ r.isMissing k = true) ∨ ∃ x y, x ≠ y ∧ r.gone x ∧ r.gone y)) := by
  unfold ReadAsm.rebuildParity
  split
  · next h => exact absurd h (ReadAsm.missingData_ne_nil.2 hgone)
  · next z h =>
      have hone : ∀ x y, r.gone x → r.gone y → x = y := by
        intro x y hx hy
        rw [← ReadAsm.mem_missingData_iff_gone, h, List.mem_singleton] at hx hy
        rw [hx, hy]
      have hnot : ¬∃ x y, x ≠ y ∧ r.gone x ∧ r.gone y := fun ⟨x, y, hne, hx, hy⟩ => hne (hone x y hx hy)
      cases hp : pLane r.level with
      | none => simp [ReadAsm.parityPresent, qLane_of_pLane_none hp]
      | some p =>
          cases hmp : r.isMissing p with
          | false => simp [ReadAsm.parityPresent, hmp, hnot, eq_comm (a := l)]
          | true =>
              have hne : p ≠ l := by rintro rfl; simp [hm] at hmp
              simp [ReadAsm.parityPresent, hmp, hne]
  · next ls hnil hone =>
      have htwo : ∃ x y, x ≠ y ∧ r.gone x ∧ r.gone y := by
        have hnd := r.missingData_nodup
        simp only [← ReadAsm.mem_missingData_iff_gone]
        match hd : r.missingData with
        | [] => exact absurd hd hnil
        | [x] => exact absurd hd (hone x)
        | x :: y :: rest =>
            rw [hd] at hnd
            exact ⟨x, y, by simp at hnd; tauto, by simp, by simp⟩
      simp [htwo]

/-- The lanes whose bytes the row's method needs, present ones alone. -/
theorem ReadAsm.mem_needed {patch : Option PatchBytes} : l ∈ r.needed patch ↔ r.isMissing l = false ∧
    (((∃ x, r.gone x) ∧ (l ∈ r.presentData ∨ l ∈ r.rebuildParity)) ∨ (r.parityMissing = true ∧ l ∈ r.presentData) ∨
      ∃ p, patch = some p ∧ (l = laneAt p.index ∨ pLane r.level = some l ∨ qLane r.level = some l)) := by
  have hrebuild : l ∈ (if r.missingData.isEmpty then [] else r.presentData ++ r.rebuildParity) ↔
      (∃ x, r.gone x) ∧ (l ∈ r.presentData ∨ l ∈ r.rebuildParity) := by
    rw [← ReadAsm.missingData_ne_nil]
    cases r.missingData <;> simp
  have hregenerate : l ∈ (if r.parityMissing then r.presentData else []) ↔
      r.parityMissing = true ∧ l ∈ r.presentData := by
    cases r.parityMissing <;> simp
  unfold ReadAsm.needed
  cases patch with
  | none =>
      rw [List.mem_filter, List.append_nil, List.mem_append, hrebuild, hregenerate, and_comm]
      simp
  | some p =>
      rw [List.mem_filter, List.mem_append, List.mem_append, hrebuild, hregenerate, and_comm]
      simp [or_assoc]

theorem ReadAsm.parityMissing_iff : r.parityMissing = true ↔
    ∃ k, (pLane r.level = some k ∨ qLane r.level = some k) ∧ r.isMissing k = true := by
  unfold ReadAsm.parityMissing
  cases pLane r.level <;> cases qLane r.level <;> simp [or_and_right, exists_or]

/-- A present page that is not awaited and not held is known by its outcome alone. -/
theorem ReadAsm.outcomeOnly_iff (ha : r.slots.get l ≠ .awaited) (hm : r.isMissing l = false) :
    (r.slots.get l).isHeld = false ↔ ∃ o, r.slots.get l = .outcomeOnly o := by
  unfold ReadAsm.isMissing at hm
  cases hx : r.slots.get l with
  | notExpected => simp [hx, Slot.cause] at hm
  | awaited => exact absurd hx ha
  | outcomeOnly o => simp [Slot.isHeld]
  | held d o => simp [Slot.isHeld]

/-- When a present page is needed: for the rebuild, for a parity page to regenerate, or for the patch. -/
theorem ReadAsm.mem_needed_of_present {patch : Option PatchBytes} (hm : r.isMissing l = false) : l ∈ r.needed patch ↔
    ((∃ x, r.gone x) ∧ (l.number < 6 - r.level.val ∨ pLane r.level = some l ∨ (qLane r.level = some l ∧
        ((∃ k, pLane r.level = some k ∧ r.isMissing k = true) ∨ ∃ x y, x ≠ y ∧ r.gone x ∧ r.gone y)))) ∨
      ((∃ k, (pLane r.level = some k ∨ qLane r.level = some k) ∧ r.isMissing k = true) ∧ l.number < 6 - r.level.val) ∨
      ∃ p, patch = some p ∧ (l = laneAt p.index ∨ pLane r.level = some l ∨ qLane r.level = some l) := by
  simp only [ReadAsm.mem_needed, hm, true_and, ReadAsm.mem_presentData hm, ReadAsm.parityMissing_iff]
  exact or_congr_left (and_congr_right fun hgone => or_congr_right (ReadAsm.mem_rebuildParity hm hgone))

/-- The lacking lanes are the needed ones known by their outcome alone. -/
theorem ReadAsm.mem_lacking {patch : Option PatchBytes} (ha : r.slots.get l ≠ .awaited) :
    l ∈ r.lacking patch ↔ (∃ o, r.slots.get l = .outcomeOnly o) ∧ r.isMissing l = false ∧ l ∈ r.needed patch := by
  have hlacking : l ∈ r.lacking patch ↔ l ∈ r.needed patch ∧ (r.slots.get l).isHeld = false := by
    simp [ReadAsm.lacking, mem_all_lanes]
  rw [hlacking]
  constructor
  · rintro ⟨hn, hh⟩
    have hm := (ReadAsm.mem_needed.1 hn).1
    exact ⟨(ReadAsm.outcomeOnly_iff ha hm).1 hh, hm, hn⟩
  · rintro ⟨ho, hm, hn⟩
    exact ⟨hn, (ReadAsm.outcomeOnly_iff ha hm).2 ho⟩

end Lacking

/-! ## The parity compared by a check (R60) -/

section Compared

variable {r : ReadAsm} {l : Lane}

/-- The data pages of a row, read off a choice of pages. -/
def ReadAsm.dataFrom (r : ReadAsm) (page : Lane → List Byte) : List (List Byte) :=
  (Lane.all.filter (fun l => decide (l.number < 6 - r.level.val))).map page

/-- The comparison of P of the given pages with the P page of lane `l`. -/
def ReadAsm.comparedP (r : ReadAsm) (l : Lane) (page : Lane → List Byte) : ParityCompared :=
  { lane := l, role := .p, matched := decide (parityP (r.dataFrom page) = r.bytes l) }

/-- The comparison of Q of the given pages with the Q page. -/
def ReadAsm.comparedQ (r : ReadAsm) (page : Lane → List Byte) : ParityCompared :=
  { lane := .l5, role := .q, matched := decide (parityQ 0 (r.dataFrom page) = r.bytes .l5) }

theorem pLane_one {level : Level} (h : level.val = 1) : pLane level = some .l5 := by
  simp [pLane, dataPages, h, laneAt]

theorem pLane_two {level : Level} (h : level.val = 2) : pLane level = some .l4 := by
  simp [pLane, dataPages, h, laneAt]

theorem qLane_one {level : Level} (h : level.val = 1) : qLane level = none := by simp [qLane, h]

theorem qLane_two {level : Level} (h : level.val = 2) : qLane level = some .l5 := by simp [qLane, h]

/-- Nothing is compared at level 0, or with a page missing for another cause than its absence. -/
theorem ReadAsm.compared_nil (h : r.level.val = 0 ∨ ∃ m ∈ r.missing, m.cause ≠ .absent) : r.compared = [] :=
  if_pos (by simpa using h)

theorem ReadAsm.not_uncompared (h0 : r.level.val ≠ 0) (habsent : ∀ m ∈ r.missing, m.cause = .absent) :
    ¬(r.level.val = 0 ∨ r.missing.any (fun m => decide (m.cause ≠ .absent)) = true) := by
  simpa [h0] using habsent

/-- A row whose data pages are all present is left as it is by the rebuild. -/
theorem ReadAsm.placeAll_rebuilt_none (h : r.missingData = []) : r.placeAll r.rebuilt = r := by
  simp [ReadAsm.rebuilt, h, ReadAsm.placeAll]

theorem ReadAsm.missingData_of_none (h : r.missing = []) : r.missingData = [] := by
  rw [ReadAsm.missingData_eq, ← ReadAsm.missing_lanes, h]
  rfl

/-- A data page missing alone at level 2 is rebuilt from P. -/
theorem ReadAsm.placeAll_rebuilt_one (h2 : r.level.val = 2) (h : r.missing.map (·.lane) = [l]) (hl : l.number < 4) :
    r.placeAll r.rebuilt = r.place l r.pPrime := by
  have hdata : r.missingData = [l] := by
    rw [ReadAsm.missingData_of_one h, if_pos (by simpa [dataPages, h2] using hl)]
  have hp : r.parityPresent (pLane r.level) = true := by
    rw [ReadAsm.parityPresent_iff]
    refine ⟨.l4, pLane_two h2, ?_⟩
    rw [← Bool.not_eq_true]
    intro hm
    have hmem : Lane.l4 ∈ r.missing.map (·.lane) := by
      rw [ReadAsm.missing_lanes]
      exact List.mem_filter.2 ⟨mem_all_lanes _, hm⟩
    rw [h, List.mem_singleton] at hmem
    subst hmem
    exact absurd hl (by decide)
  simp [ReadAsm.rebuilt, hdata, hp, ReadAsm.placeAll]

theorem ReadAsm.place_dataPagesOf (r : ReadAsm) (l : Lane) (d : List Byte) :
    (r.place l d).dataPagesOf = r.dataFrom (fun k => if k = l then d else r.bytes k) :=
  List.map_congr_left fun k _ => r.place_bytes l k d

/-- At level 1 P is compared where no page is missing. -/
theorem ReadAsm.compared_level_one (h1 : r.level.val = 1) (habsent : ∀ m ∈ r.missing, m.cause = .absent) :
    r.compared = if r.missing = [] then [r.comparedP .l5 r.bytes] else [] := by
  rw [ReadAsm.compared, if_neg (ReadAsm.not_uncompared (by omega) habsent)]
  simp only [pLane_one h1, qLane_one h1, h1]
  split
  · next h =>
      rw [if_pos h, ReadAsm.placeAll_rebuilt_none (ReadAsm.missingData_of_none h)]
      rfl
  · next m h => simp [h]
  · next hnil _ => rw [if_neg hnil]

section LevelTwo

variable (h2 : r.level.val = 2) (habsent : ∀ m ∈ r.missing, m.cause = .absent)
include h2 habsent

/-- At level 2 with no page missing P and Q are compared. -/
theorem ReadAsm.compared_whole (h : r.missing = []) :
    r.compared = [r.comparedP .l4 r.bytes, r.comparedQ r.bytes] := by
  rw [ReadAsm.compared, if_neg (ReadAsm.not_uncompared (by omega) habsent)]
  simp only [pLane_two h2, qLane_two h2, h, ReadAsm.placeAll_rebuilt_none (ReadAsm.missingData_of_none h)]
  rfl

/-- At level 2 with one page absent: the parity that is left, over the data pages present or rebuilt from P. -/
theorem ReadAsm.compared_one_absent (h : r.missing.map (·.lane) = [l]) :
    (l.number < 4 → r.compared = [r.comparedQ (fun k => if k = l then r.pPrime else r.bytes k)]) ∧
      (l = .l4 → r.compared = [r.comparedQ r.bytes]) ∧ (l = .l5 → r.compared = [r.comparedP .l4 r.bytes]) := by
  obtain ⟨m, hm, rfl⟩ := List.map_eq_singleton_iff.1 h
  have hrole : m.role = roleOf r.level m.lane := ((ReadAsm.mem_missing (r := r) (m := m)).1 (by simp [hm])).2
  have hk : dataPages r.level = 4 := by simp [dataPages, h2]
  rw [ReadAsm.compared, if_neg (ReadAsm.not_uncompared (by omega) habsent)]
  simp only [pLane_two h2, qLane_two h2, hm, h2, if_true]
  refine ⟨fun hl => ?_, fun hl => ?_, fun hl => ?_⟩
  · rw [hrole, roleOf, if_pos (hk ▸ hl), ReadAsm.placeAll_rebuilt_one h2 h hl, ReadAsm.place_dataPagesOf]
    rfl
  all_goals
    have hwhole : r.placeAll r.rebuilt = r := by
      refine ReadAsm.placeAll_rebuilt_none ?_
      rw [ReadAsm.missingData_of_one h, hl, hk]
      rfl
    rw [hwhole, hrole, roleOf, hl, hk]
    rfl

/-- At level 2 with more pages absent nothing is compared. -/
theorem ReadAsm.compared_two_absent (h : 2 ≤ r.missing.length) : r.compared = [] := by
  rw [ReadAsm.compared, if_neg (ReadAsm.not_uncompared (by omega) habsent)]
  dsimp only
  split
  · next hm => simp [hm] at h
  · next m hm => simp [hm] at h
  · rfl

end LevelTwo

end Compared

/-! ## The statement about the judgement -/

/-- Settles O26: by the lemmas above on causes, the report, the judgement of each purpose, the lacking pages and the
comparisons. -/
theorem coderJudgesRows : Obligations.CoderJudgesRows := by
  refine ⟨fun s r hr hv hhand hh => ⟨fun ⟨l, hl⟩ => ?waits, fun hall => ?due⟩,
    fun r => ⟨fun l => ?missing, r.missing_lanes, fun m hm => ?cause, fun v => ?report⟩,
    fun s r hr => ⟨fun hp => ?check, fun hp hb => ?beyond, fun hp hb => ?deliver,
      fun hp hb => ⟨fun hl => ?copy, fun hl => ?needs⟩, s.judge_kept⟩,
    fun r patch hall => ⟨List.filter_sublist, fun l => ?lacking⟩,
    fun r => ⟨ReadAsm.compared_nil, fun habsent => ⟨fun h1 => ⟨fun hm => ?oneWhole, fun hm => ?oneMissing⟩,
      fun h2 => ⟨ReadAsm.compared_whole h2 habsent, fun l => ReadAsm.compared_one_absent h2 habsent,
        ReadAsm.compared_two_absent h2 habsent⟩⟩⟩⟩
  case waits => exact if_neg fun hdue => (Coder.judgeDue_iff hr hv hhand hh).1 hdue l hl
  case due => exact if_pos ((Coder.judgeDue_iff hr hv hhand hh).2 hall)
  case missing => exact ReadAsm.isMissing_iff
  case cause => exact ReadAsm.missing_cause hm
  case report =>
    refine ⟨rfl, rfl, ?_, fun l o => ReadAsm.mem_report_outcomes.trans (Slot.outcome_eq_some _ o), rfl,
      fun hv => if_neg hv, fun hv hp => ?_, fun hv hp => ⟨fun l h2 hl ha => ?_, fun h => ?_⟩⟩
    · rw [ReadAsm.report_outcomes_lanes]
      exact List.filter_sublist
    all_goals rw [ReadAsm.report_rebuilt, if_pos hv]
    · rw [ReadAsm.rebuiltCount_eq hp, ReadAsm.missingData_filter]
    · exact ReadAsm.rebuiltCount_check_one hp h2 hl ha
    · exact ReadAsm.rebuiltCount_check_none hp h
  case check =>
    rw [State.judge_check hr hp]
    exact ⟨rfl, rfl⟩
  case beyond =>
    rw [State.judge_unrecoverable hr hp hb]
    exact ⟨rfl, rfl⟩
  case deliver =>
    rw [State.judge_deliver hr hp hb]
    exact ⟨rfl, r.placeAll r.rebuilt, rfl, fun x hx => ReadAsm.placeAll_bytes r.rebuilt_nodup hx,
      fun l hl => ReadAsm.placeAll_other hl, r.placeAll_eq r.rebuilt⟩
  case copy =>
    rw [State.judge_copy_recoverable hr hp hb hl]
    exact ⟨rfl, rfl⟩
  case needs =>
    rw [State.judge_copy_needs hr hp hb hl]
    exact ⟨rfl, r.awaitAgain _, rfl, rfl, r.awaitAgain_slot _⟩
  case lacking =>
    rw [ReadAsm.mem_lacking (hall l)]
    exact and_congr_right fun _ => and_congr_right fun hm => ReadAsm.mem_needed_of_present hm
  case oneWhole => rw [ReadAsm.compared_level_one h1 habsent, if_pos hm]; rfl
  case oneMissing => rw [ReadAsm.compared_level_one h1 habsent, if_neg hm]

end Sys2Proof.Machine
end

