-- ==== Sys2Proof/Proofs/RowQuestions.lean ====
section
/-! Row questions (R76): how each stop state answers one, and what an answer does to the path whose order is in progress. -/

namespace Sys2Proof.Machine

open Sys2Proof

/-- The answer each stop state gives to a row question; none while it is held. -/
def StopState.answer : StopState → Option RowAnswer
  | .none => some .go
  | .hold => Option.none
  | .abort => some (.stopped .aborted)
  | .drain => some (.stopped .interrupted)

/-- The row writer with an answer. -/
def Writer.answered (w : Writer) : RowAnswer → Writer
  | .go => { w with go := true }
  | .stopped st => { w with stopped := some st }

/-- The row reader with an answer. -/
def Reader.answered (r : Reader) : RowAnswer → Reader
  | .go => { r with go := true }
  | .stopped st => { r with stopped := some st }

variable {s : State}

/-- The answer reaches the writer when an order is in progress there, and the reader otherwise. -/
theorem State.answerRow_eq (s : State) (a : RowAnswer) : s.answerRow a = { s with
    sheets := { s.sheets with questionHeld := false },
    writer := if s.writer.order = none then s.writer else s.writer.answered a,
    reader := if s.writer.order = none then s.reader.answered a else s.reader } := by
  cases ho : s.writer.order <;> cases a <;> simp [State.answerRow, Writer.answered, Reader.answered, ho]

/-- A held question is answered, and none is held afterwards. -/
theorem State.answerHeld_eq (s : State) (a : RowAnswer) : s.answerHeld a = { s with
    sheets := { s.sheets with questionHeld := false },
    writer := if s.sheets.questionHeld = true ∧ s.writer.order ≠ none then s.writer.answered a else s.writer,
    reader := if s.sheets.questionHeld = true ∧ s.writer.order = none then s.reader.answered a else s.reader } := by
  cases hq : s.sheets.questionHeld with
  | false =>
      have hsame : { s.sheets with questionHeld := false } = s.sheets := by rw [← hq]
      simp [State.answerHeld, hq, hsame]
  | true =>
      rw [State.answerHeld, if_pos hq, s.answerRow_eq]
      by_cases ho : s.writer.order = none <;> simp [ho]

/-- What a command does to a live part, and all that comes about with it. -/
theorem State.takes_eq {f : State → State} {t : State} (hs : s.live = true) (h : f s = t) :
    s.takes f = .next t.settle := by
  rw [s.takes_live f hs, h]

/-- Outside HOLD a question is answered at once. -/
theorem exec_rowGo_answered {a : RowAnswer} (hs : s.live = true) (hasks : s.writerAsks = true ∨ s.readerAsks = true)
    (h : s.sheets.stop.answer = some a) : exec .rowGo s = .next (s.answerRow a).settle := by
  refine State.takes_eq hs ?_
  rw [State.rowGo, if_pos (by simpa using hasks)]
  cases hst : s.sheets.stop <;> rw [hst] at h <;> cases h <;> rfl

/-- In HOLD it is held. -/
theorem exec_rowGo_held (hs : s.live = true) (hasks : s.writerAsks = true ∨ s.readerAsks = true)
    (h : s.sheets.stop = .hold) :
    exec .rowGo s = .next (State.settle { s with sheets := { s.sheets with questionHeld := true } }) := by
  refine State.takes_eq hs ?_
  rw [State.rowGo, if_pos (by simpa using hasks), h]

theorem State.order_of_writerAsks (h : s.writerAsks = true) : s.writer.order ≠ none := by
  intro ho
  simp [State.writerAsks, ho] at h

/-- The four answers, `t` being the state in which the path that asks has one. -/
theorem rowGo_by_stop {t : RowAnswer → State} (hs : s.live = true) (hasks : s.writerAsks = true ∨ s.readerAsks = true)
    (ht : ∀ a, s.answerRow a = t a) :
    (s.sheets.stop = .none → exec .rowGo s = .next (t .go).settle) ∧
    (s.sheets.stop = .hold →
      exec .rowGo s = .next (State.settle { s with sheets := { s.sheets with questionHeld := true } })) ∧
    (s.sheets.stop = .abort → exec .rowGo s = .next (t (.stopped .aborted)).settle) ∧
    (s.sheets.stop = .drain → exec .rowGo s = .next (t (.stopped .interrupted)).settle) := by
  have answered {a : RowAnswer} (h : s.sheets.stop.answer = some a) : exec .rowGo s = .next (t a).settle :=
    ht a ▸ exec_rowGo_answered hs hasks h
  exact ⟨fun h => answered (by rw [h]; rfl), exec_rowGo_held hs hasks, fun h => answered (by rw [h]; rfl),
    fun h => answered (by rw [h]; rfl)⟩

/-- Settles O38: the answer goes to the writer that asks, or to the reader when no order is in progress in the writer. -/
theorem rowQuestionAnswered : Obligations.RowQuestionAnswered := by
  intro s hs
  refine ⟨fun hw => ?_, fun ho hr => ?_⟩
  · refine rowGo_by_stop (t := fun a => { s with
      sheets := { s.sheets with questionHeld := false }, writer := s.writer.answered a }) hs (.inl hw) fun a => ?_
    simp [s.answerRow_eq, State.order_of_writerAsks hw]
  · refine rowGo_by_stop (t := fun a => { s with
      sheets := { s.sheets with questionHeld := false }, reader := s.reader.answered a }) hs (.inr hr) fun a => ?_
    simp [s.answerRow_eq, ho]

end Sys2Proof.Machine
end

