-- ==== Sys2Proof/Proofs/Posts.lean ====
section
/-! Posting (R67, R68) and the wake that a post or WAKE starts (R174, R175). -/

namespace Sys2Proof.Machine

open Sys2Proof

variable {s : State} {a : Word}

/-! ## The checks of a post (R67) -/

theorem Mode.refusesPost_iff (m : Mode) :
    m.refusesPost = true ↔ m ∈ [Mode.cold, .faulted, .awaitConfig, .drain, .parked] := by
  cases m <;> decide

/-- The checks in their order: the mode, the address, the room in the queue. -/
theorem State.checkPost_eq (s : State) (a : Word) : s.checkPost a =
    if s.modes.mode ∈ [Mode.cold, .faulted, .awaitConfig, .drain, .parked] then some .state
    else if a = 0#32 ∨ a.toNat % 32 ≠ 0 then some .align
    else if 2 ≤ s.sheets.queue.length then some .full
    else none := by
  simp only [State.checkPost, Mode.refusesPost_iff]
  rfl

theorem exec_post_accepted (hs : s.live = true) (h : s.checkPost a = none) :
    exec (.post a) s = .next (s.enqueue a).wakeUp.settle := by
  refine State.takes_eq (f := fun s => s.post a) hs ?_
  simp only [State.post, h]

theorem exec_post_refused {r : Reason} (hs : s.live = true) (h : s.checkPost a = some r) :
    exec (.post a) s = .next (s.refuse false r).settle := by
  refine State.takes_eq (f := fun s => s.post a) hs ?_
  simp only [State.post, h]

/-! ## A wake (R174, R175) -/

theorem State.startWake_new (h : s.modes.wake = false) : s.startWake = { s with
    modes := { s.modes with wake := true, powerGiven := false }, patrol := { s.patrol with timer := none } } := by
  simp [State.startWake, State.stopTimer, h]

theorem State.startWake_pending (h : s.modes.wake = true) : s.startWake = s := by simp [State.startWake, h]

/-- A patrol whose run has ended is not waited for any longer. -/
theorem State.patrolWakeUp_committing (h : s.modes.patrolStage = .committing) : s.patrolWakeUp = { s with
    modes := { s.modes with mode := .run, patrolStage := .none, commitAwaited := false },
    signals := s.signals ++ [.forgetCommit .mode] } := by
  simp [State.patrolWakeUp, State.emit, h]

/-- A patrol whose run goes on is asked to end. -/
theorem State.patrolWakeUp_running (h : s.modes.patrolStage ≠ .committing) : s.patrolWakeUp = { s with
    modes := { s.modes with patrolWake := true },
    patrol := { s.patrol with run := s.patrol.run.map (fun r => { r with endRequested := true }) } } := by
  unfold State.patrolWakeUp
  split
  · contradiction
  · rfl

theorem State.wakeUp_standby (h : s.modes.mode = .standby) : s.wakeUp = s.startWake := by simp [State.wakeUp, h]

theorem State.wakeUp_patrol (h : s.modes.mode = .patrol) : s.wakeUp = s.patrolWakeUp := by simp [State.wakeUp, h]

theorem State.wakeUp_awake (h : s.modes.mode ∈ [Mode.run, .holding, .held]) : s.wakeUp = s := by
  unfold State.wakeUp
  split <;> simp_all

/-- A wake changes the mode controller, the patrol unit and the messages alone. -/
theorem State.wakeUp_eq (s : State) : ∃ m p ms, s.wakeUp = { s with modes := m, patrol := p, signals := ms } := by
  unfold State.wakeUp
  split
  · unfold State.startWake
    split
    · exact ⟨s.modes, s.patrol, s.signals, rfl⟩
    · exact ⟨_, _, s.signals, rfl⟩
  · unfold State.patrolWakeUp
    split
    · exact ⟨_, s.patrol, _, rfl⟩
    · exact ⟨_, _, s.signals, rfl⟩
  · exact ⟨s.modes, s.patrol, s.signals, rfl⟩

/-- What an accepted post leaves alone, with all that comes about in the step. -/
theorem State.posted_kept (s : State) (a : Word) : let t := (s.enqueue a).wakeUp.settle
    t.sheets.queue = s.sheets.queue ++ [a] ∧ t.window.refusal = s.window.refusal ∧
      t.window.refusalApply = s.window.refusalApply ∧ State.lanesKept s t ∧ State.memoryKept s t ∧
      State.arrayKept s t ∧ State.storeKept s t ∧ State.protectKept s t ∧ State.outsideKept s t := by
  obtain ⟨m, p, ms, h⟩ := (s.enqueue a).wakeUp_eq
  rw [h]
  obtain ⟨hl, hm, ha, hst, hp, -, ho, -, -⟩ :=
    State.settle_kept { s.enqueue a with modes := m, patrol := p, signals := ms }
  exact ⟨rfl, rfl, rfl, hl, hm, ha, hst, hp, ho⟩

/-- Settles O15: an accepted post by the wake of its mode, a refused one by the first check that fails. -/
theorem postByChecks : Obligations.PostByChecks := by
  refine ⟨fun s a hs hm h0 h32 hq => ?_, fun s a hs r hr => ?_⟩
  · have hnone : s.checkPost a = none := by
      have hmode : s.modes.mode ∉ [Mode.cold, .faulted, .awaitConfig, .drain, .parked] := by
        simp only [List.mem_cons, List.not_mem_nil, or_false] at hm
        rcases hm with h | h | h | h | h <;> rw [h] <;> decide
      rw [s.checkPost_eq, if_neg hmode, if_neg (by simp [h0, h32]), if_neg (by omega)]
    rw [exec_post_accepted hs hnone]
    refine ⟨⟨_, rfl, s.posted_kept a⟩, fun hawake => ?_, fun h hw => ?_, fun h hw => ?_, fun h hc => ?_, fun h hc => ?_⟩
    · rw [State.wakeUp_awake (s := s.enqueue a) hawake]; rfl
    · rw [State.wakeUp_standby (s := s.enqueue a) h, State.startWake_new (s := s.enqueue a) hw]; rfl
    · rw [State.wakeUp_standby (s := s.enqueue a) h, State.startWake_pending (s := s.enqueue a) hw]; rfl
    · rw [State.wakeUp_patrol (s := s.enqueue a) h, State.patrolWakeUp_committing (s := s.enqueue a) hc]; rfl
    · rw [State.wakeUp_patrol (s := s.enqueue a) h, State.patrolWakeUp_running (s := s.enqueue a) hc]; rfl
  · have hsome : s.checkPost a = some r := by
      rw [s.checkPost_eq]
      rcases hr with ⟨hb, rfl⟩ | ⟨hb, hk, rfl⟩ | ⟨hb, hk, hf, rfl⟩
      · exact if_pos hb
      · rw [if_neg hb, if_pos hk]
      · rw [if_neg hb, if_neg hk, if_pos hf]
    obtain ⟨hl, hm, ha, hst, -⟩ := (s.refuse false r).settle_kept
    exact ⟨_, exec_post_refused hs hsome, rfl, State.settle_flag _ _ (Window.flag_set_same ..), rfl, rfl, hl, hm, ha, hst⟩

end Sys2Proof.Machine
end

