-- ==== Sys2Proof/Proofs/ControlCommands.lean ====
section
/-! HOLD, RESUME, ABORT, STANDBY and WAKE, each by the mode and the stop state (R77, R79, R80, R164, R173 to R175). -/

namespace Sys2Proof.Machine

open Sys2Proof

variable {s : State}

theorem Mode.sheetMode_iff (m : Mode) : m.sheetMode = true ↔ m ∈ [Mode.run, .holding, .held] := by
  cases m <;> decide

/-! ## HOLD (R77) -/

theorem State.hold_taken (hm : s.modes.mode = .run) (hst : s.sheets.stop = .none) : s.hold = { s with
    sheets := { s.sheets with stop := .hold }, modes := { s.modes with mode := .holding } } := by
  simp [State.hold, hm, hst]

theorem State.hold_held (hm : s.modes.mode ∈ [Mode.holding, .held]) (hst : s.sheets.stop = .hold) : s.hold = s := by
  simp only [List.mem_cons, List.not_mem_nil, or_false] at hm
  rcases hm with h | h <;> simp [State.hold, h, hst]

theorem State.hold_refused (h : s.sheets.stop = .abort ∨ s.modes.mode ∉ [Mode.run, .holding, .held]) :
    s.hold = s.requestRefused := by
  unfold State.hold
  split
  case h_4 => rfl
  all_goals simp_all

/-! ## RESUME (R79) -/

theorem State.resume_taken (hm : s.modes.mode ∈ [Mode.holding, .held]) (hst : s.sheets.stop = .hold) :
    s.resume = State.answerHeld
      { s with sheets := { s.sheets with stop := .none }, modes := { s.modes with mode := .run } } .go := by
  simp only [List.mem_cons, List.not_mem_nil, or_false] at hm
  rcases hm with h | h <;> simp [State.resume, h, hst]

theorem State.resume_running (hm : s.modes.mode = .run) (hst : s.sheets.stop = .none) : s.resume = s := by
  simp [State.resume, hm, hst]

theorem State.resume_refused (h : s.sheets.stop = .abort ∨ s.modes.mode ∉ [Mode.run, .holding, .held]) :
    s.resume = s.requestRefused := by
  unfold State.resume
  dsimp only
  split
  case h_4 => rfl
  all_goals simp_all

/-! ## ABORT (R80) -/

theorem State.abort_taken (hm : s.modes.mode ∈ [Mode.run, .holding, .held])
    (hst : s.sheets.stop = .none ∨ s.sheets.stop = .hold) :
    s.abort = State.answerHeld { s with sheets := { s.sheets.closeAll .aborted with stop := .abort } }
      (.stopped .aborted) := by
  rw [State.abort, if_pos (s.modes.mode.sheetMode_iff.2 hm)]
  rcases hst with h | h <;> rw [h]

theorem State.abort_again (hm : s.modes.mode ∈ [Mode.run, .holding, .held]) (hst : s.sheets.stop = .abort) :
    s.abort = s := by
  rw [State.abort, if_pos (s.modes.mode.sheetMode_iff.2 hm), hst]

theorem State.abort_refused (hm : s.modes.mode ∉ [Mode.run, .holding, .held]) : s.abort = s.requestRefused := by
  rw [State.abort, if_neg (fun h => hm (s.modes.mode.sheetMode_iff.1 h))]

/-- With no completion write raised the active sheet takes the ending. -/
theorem Sheets.closeAll_active {h : Sheets} (hw : ∀ w, h.access ≠ some (.completion w)) :
    (h.closeAll .aborted).active = h.active.map (fun r => { r with ending := .aborted }) := by
  have ending (r : SheetRun) (hr : r.ending = .aborted) : r = { r with ending := .aborted } := by rw [← hr]
  unfold Sheets.closeAll
  dsimp only
  split
  · next w h => exact absurd h (hw w)
  · refine congrArg (Option.map · h.active) (funext fun r => ?_)
    split
    · next hr => exact ending r (by simpa using hr)
    · rfl

/-- A completion write once raised keeps the active sheet's ending (log 31). -/
theorem Sheets.closeAll_completing {h : Sheets} {w : Word} (e : Ending) (hw : h.access = some (.completion w)) :
    (h.closeAll e).active = h.active := by
  simp [Sheets.closeAll, hw]

/-! ## STANDBY (R173) -/

theorem State.mayStandby_iff (s : State) : s.mayStandby = true ↔ s.modes.mode = .run ∧ s.sheets.stop = .none ∧
    s.sheets.active = none ∧ s.sheets.queue = [] ∧ s.sheets.closing = [] ∧ s.modes.configRead = none := by
  simp [State.mayStandby, and_assoc]

/-- A request given to all six lanes waits at each behind those given before. -/
theorem State.giveAll_all_lane (s : State) (q : LaneReq) (l : Lane) :
    (s.giveAll q Lane.all).lane l = { s.lane l with waiting := (s.lane l).waiting ++ [q] } := by
  cases l <;> rfl

/-- STANDBY in an idle RUN, the requests and the timer as they then stand. -/
theorem State.standby_taken {c : Applied} (h : s.mayStandby = true) (hc : s.modes.config = some c) : s.standby =
    State.giveAll { s with
      modes := { s.modes with
        mode := .standby, wake := false, powerGiven := false, commitAwaited := !s.table.storeFault },
      signals := s.signals ++ [.commitRequest .mode true (!s.table.storeFault)],
      patrol := { s.patrol with timer := if c.patrolInterval = 0 then none else some 0 } } .powerDown Lane.all := by
  rw [State.standby, if_pos h]
  simp [State.startTimer, State.powerDownAll, State.giveAll, State.awaitClean, State.emit, State.lane, hc]

theorem State.standby_refused (h : ¬s.mayStandby = true) : s.standby = s.requestRefused := if_neg h

/-! ## A clean request, once raised, stays (R35, R38) -/

@[simp] theorem Table.raiseUnclean_cleanReq (t : Table) : t.raiseUnclean.cleanReq = t.cleanReq := by
  obtain ⟨p, hp⟩ := t.raiseUnclean_eq
  rw [hp]

@[simp] theorem State.takeUpdate_cleanReq (s : State) (h : HeldUpdate) :
    (s.takeUpdate h).table.cleanReq = s.table.cleanReq := by
  unfold State.takeUpdate
  dsimp only
  split <;> split_ifs <;> rfl

@[simp] theorem State.takeAll_cleanReq (hs : List HeldUpdate) (s : State) :
    (s.takeAll hs).table.cleanReq = s.table.cleanReq := by
  induction hs generalizing s with
  | nil => rfl
  | cons h rest ih => exact (ih _).trans (s.takeUpdate_cleanReq h)

/-- Nothing that comes about inside a step withdraws a clean commit request. -/
theorem State.settleLoop_cleanReq (n : Nat) (s : State) (h : s.table.cleanReq = true) :
    (State.settleLoop n s).table.cleanReq = true := by
  refine State.settleLoop_table (Q := fun t => t.cleanReq = true) (fun s c u n h => ?_) (fun s c h => ?_)
    (fun s c cl tl h => ?_) (fun s c h => h) (fun s h _ => ?_) n s h
  · unfold State.giveUpdate
    dsimp only
    split
    · simpa using h
    · simpa using h
  · unfold State.askPermit
    split_ifs
    · exact h
    · exact h
    · simpa using h
  · simp [State.takeRequest_eq, h]
  · unfold State.releaseHeld
    simpa using h

/-- A clean commit request among no other messages is raised within the step. -/
theorem State.settle_cleanReq {c : Client} {tell : Bool} (h : s.signals = [.commitRequest c true tell]) :
    s.settle.table.cleanReq = true := by
  obtain ⟨n, hn⟩ : ∃ n, s.fuel = n + 1 := ⟨_, (Nat.succ_pred_eq_of_pos (by simp [State.fuel, Config.reactionFuel])).symm⟩
  have taken : s.advance = some (State.dispatch { s with signals := [] } (.commitRequest c true tell)) := by
    rw [State.advance, h]
  rw [s.settle_eq, hn, State.settleLoop, taken]
  exact State.settleLoop_cleanReq n _ (by simp [State.dispatch, State.takeRequest_eq])

/-! ## WAKE (R174, R175) -/

theorem State.wake_standby (h : s.modes.mode = .standby) : s.wake = s.startWake := by simp [State.wake, h]

theorem State.wake_patrol (h : s.modes.mode = .patrol) : s.wake = s.patrolWakeUp := by simp [State.wake, h]

theorem State.wake_awake (h : s.modes.mode ∈ [Mode.run, .holding, .held]) : s.wake = s := by
  unfold State.wake
  split <;> simp_all

theorem State.wake_refused (h : s.modes.mode ∈ [Mode.cold, .faulted, .awaitConfig, .drain, .parked]) :
    s.wake = s.requestRefused := by
  unfold State.wake
  split <;> simp_all

/-! ## The statement -/

/-- Settles O16: each command by its lemmas above, one for each case of the mode and the stop state. -/
theorem controlCommandsByMode : Obligations.ControlCommandsByMode := by
  refine ⟨fun s hs => ⟨fun hm hst => ?_, fun hm hst => ?_, fun h => ?_⟩,
    fun s hs => ⟨fun hm hst => ?_, fun hm hst => ?_, fun h => ?_⟩,
    fun s hs => ⟨fun hm hst => ?_, fun hm hst => ?_, fun hm => ?_⟩,
    fun s hs => ⟨fun idle c hc => ?_, fun idle hsig => ?_, fun busy => ?_⟩,
    fun s hs => ⟨fun hm hw => ?_, fun hm hw => ?_, fun hm => ?_, fun hm hc => ?_, fun hm hc => ?_, fun hm => ?_⟩⟩
  · exact State.takes_eq hs (State.hold_taken hm hst)
  · exact State.takes_eq hs (State.hold_held hm hst)
  · exact State.takes_eq hs (State.hold_refused h)
  · refine ⟨_, State.takes_eq hs ((State.resume_taken hm hst).trans (State.answerHeld_eq _ _)), rfl, rfl,
      fun hq ho => if_pos ⟨hq, ho⟩, fun hq ho => if_pos ⟨hq, ho⟩, fun hq => ⟨if_neg ?_, if_neg ?_⟩, rfl, rfl, rfl⟩ <;>
    simp [hq]
  · exact State.takes_eq hs (State.resume_running hm hst)
  · exact State.takes_eq hs (State.resume_refused h)
  · exact ⟨_, State.takes_eq hs ((State.abort_taken hm hst).trans (State.answerHeld_eq _ _)), rfl, rfl, rfl,
      Sheets.closeAll_active, fun _ => Sheets.closeAll_completing _, rfl, rfl, rfl, fun hq ho => if_pos ⟨hq, ho⟩,
      fun hq ho => if_pos ⟨hq, ho⟩, rfl, rfl, rfl, rfl, rfl⟩
  · exact State.takes_eq hs (State.abort_again hm hst)
  · exact State.takes_eq hs (State.abort_refused hm)
  · exact ⟨_, State.takes_eq hs (State.standby_taken (s.mayStandby_iff.2 idle) hc), rfl, rfl,
      fun l => State.giveAll_all_lane _ _ l, rfl, rfl, rfl, rfl⟩
  · refine ⟨_, s.takes_live State.standby hs, State.settle_cleanReq (c := .mode) (tell := !s.table.storeFault) ?_⟩
    rw [State.standby, if_pos (s.mayStandby_iff.2 idle)]
    exact congrArg (· ++ [Signal.commitRequest .mode true (!s.table.storeFault)]) hsig
  · exact State.takes_eq hs (State.standby_refused (mt s.mayStandby_iff.1 busy))
  · exact State.takes_eq hs ((State.wake_standby hm).trans (State.startWake_new hw))
  · exact State.takes_eq hs ((State.wake_standby hm).trans (State.startWake_pending hw))
  · exact State.takes_eq hs (State.wake_awake hm)
  · exact State.takes_eq hs ((State.wake_patrol hm).trans (State.patrolWakeUp_committing hc))
  · exact State.takes_eq hs ((State.wake_patrol hm).trans (State.patrolWakeUp_running hc))
  · exact State.takes_eq hs (State.wake_refused hm)

end Sys2Proof.Machine
end

