-- ==== Sys2Proof/Proofs/SheetAccesses.lean ====
section
/-! The single-beat accesses of the sheet processor (R160, R161): what a read or a write of one word leaves, which sheet
it is made for, and how it ends. -/

namespace Sys2Proof.Machine

open Sys2Proof

variable {s : State} {reply : BusReply} {a : Nat} {w : Word}

/-! ## One word at the bus (R161, R162) -/

theorem hostStores_none (h : reply.stores = []) (m : List Host.Cell) : hostStores m reply = m := by
  simp [hostStores, h, Memory.writeWords]

/-- A read that the bus partner answers gives the word and leaves the state. -/
theorem State.beatRead_word (hst : reply.stores = []) (he : reply.error = none) (s : State) (a : Nat) :
    s.beatRead reply a = (s, some (Memory.readWord s.mem a)) := by
  simp [State.beatRead, State.busRead, hostStores_none hst, he, Memory.readWords]

/-- A read that fails leaves its bus error. -/
theorem State.beatRead_error (hst : reply.stores = []) (he : reply.error = some 0) (s : State) (a : Nat) :
    s.beatRead reply a = (s.busError a false, none) := by
  simp [State.beatRead, State.busRead, hostStores_none hst, he]

/-- A write that the bus partner takes leaves the word in memory. -/
theorem State.busWrite_word (hst : reply.stores = []) (he : reply.error = none) (s : State) (a : Nat) (w : Word) :
    s.busWrite reply [(a, w)] = ({ s with mem := Memory.writeWord s.mem a w }, true) := by
  simp [State.busWrite, hostStores_none hst, he, Memory.writeWords]

/-- A write that fails leaves its bus error, and the word where the bus partner took it. -/
theorem State.busWrite_error (hst : reply.stores = []) (he : reply.error = some 0) (s : State) (a : Nat) (w : Word) :
    s.busWrite reply [(a, w)] =
      (State.busError { s with mem := Memory.writeWords s.mem (landedOf [(a, w)] reply.landed) } a true, false) := by
  simp [State.busWrite, hostStores_none hst, he]

theorem State.busError_flag (s : State) (a : Nat) (write : Bool) :
    (s.busError a write).window.flag .busError = true := Window.flag_set_same _ _

/-- ERROR_ADDRESS keeps the first error (R162). -/
theorem State.busError_errorAddress (s : State) (a : Nat) (write : Bool) : (s.busError a write).window.errorAddress =
    if s.window.flag .busError then s.window.errorAddress else errorWord a write := by
  unfold State.busError
  dsimp only
  rw [Window.set_errorAddress]
  split <;> rfl

theorem Window.flag_set_keeps (w : Window) (e : Event) {f : Event} (h : w.flag f = true) : (w.set e).flag f = true :=
  w.set_keeps e f.bit h

/-! ## The end of a beat (R160) -/

/-- A beat of the sheet access in progress, at the port, ends. -/
theorem State.accessEnds_due {access : SheetAccess} (hp : s.port = some .sheet)
    (hl : s.sheetLine.head? = some .sheets) (ha : s.sheets.access = some access) (f : State → State) :
    s.accessEnds access.kind f = f s.endBeat := by
  simp [State.accessEnds, State.accessing, State.serves, hp, hl, ha]

/-! ## The sheet in hand (R69, R82) -/

variable {h : Sheets} {r : SheetRun}

/-- The sheet in hand is the active one, or the one of the closing list when none is active. -/
theorem Sheets.inHand_eq (hr : h.active = some r ∨ (h.active = none ∧ h.closer = some r)) : h.inHand = some r := by
  rcases hr with ha | ⟨ha, hc⟩ <;> simp [Sheets.inHand, *]

theorem Sheets.setHand_eq (h : Sheets) (q : SheetRun) : h.setHand q =
    if h.active = none then { h with closer := some q } else { h with active := some q } := by
  cases ha : h.active <;> simp [Sheets.setHand, ha]

theorem Sheets.dropHand_eq (h : Sheets) : h.dropHand =
    if h.active = none then { h with closer := none, closing := h.closing.drop 1 } else { h with active := none } := by
  cases ha : h.active <;> simp [Sheets.dropHand, ha]

/-- The sheet in hand replaced at the end of its access. -/
def Sheets.put (h : Sheets) (q : SheetRun) : Sheets :=
  if h.active = none then { h with closer := some q, access := none } else { h with active := some q, access := none }

/-- The sheet in hand dropped at the end of its access: no longer active, or off the closing list. -/
def Sheets.dropped (h : Sheets) : Sheets :=
  if h.active = none then { h with closer := none, closing := h.closing.drop 1, access := none }
  else { h with active := none, access := none }

theorem Sheets.dropped_active (ha : h.active = some r) : h.dropped = { h with active := none, access := none } := by
  simp [Sheets.dropped, ha]

theorem Sheets.put_eq (h : Sheets) (q : SheetRun) : { h.setHand q with access := none } = h.put q := by
  rw [Sheets.setHand_eq, Sheets.put]
  split <;> rfl

theorem Sheets.dropped_eq (h : Sheets) : { h.dropHand with access := none } = h.dropped := by
  rw [Sheets.dropHand_eq, Sheets.dropped]
  split <;> rfl

/-! ## Sheet faults (R85) -/

/-- A sheet fault drops the sheet in hand. -/
theorem State.sheetFault_sheets (s : State) (a : Nat) (write : Bool) :
    (s.busError a write).sheetFault.sheets = s.sheets.dropped := s.sheets.dropped_eq

/-- What the window shows after a bus error that is a sheet fault. -/
theorem State.sheetFault_window (s : State) (a : Nat) (write : Bool) :
    let t := (s.busError a write).sheetFault
    t.window.flag .sheetFault = true ∧ t.window.flag .busError = true ∧
      t.window.errorAddress = if s.window.flag .busError then s.window.errorAddress else errorWord a write :=
  ⟨Window.flag_set_same _ _, Window.flag_set_keeps _ _ (s.busError_flag a write), s.busError_errorAddress a write⟩

end Sys2Proof.Machine
end

