-- ==== Sys2Proof/Proofs/SheetReads.lean ====
section
/-! Activation, the header reads, the start of an order and its entry reads (R64, R70 to R72, R82, R85). -/

namespace Sys2Proof.Machine

open Sys2Proof

variable {s : State} {r : SheetRun} {reply : BusReply} {got : List Word}

/-! ## Activation (R70) -/

theorem State.activate_taken {a : Word} {rest : List Word} (hq : s.sheets.queue = a :: rest)
    (hm : s.modes.mode = .run) (ha : s.sheets.active = none) (hst : s.sheets.stop = .none)
    (hc : s.sheets.closing = []) : s.activate = { s with sheets := { s.sheets with
      queue := rest, active := some (SheetRun.fresh a .normal), access := some (.header []) } } := by
  have may : s.mayActivate = true := by simp [State.mayActivate, hq, hm, ha, hst, hc]
  rw [State.activate, if_pos may, hq]

/-! ## The header reads (R71) -/

/-- The header is accepted with 1 to 32 orders and a completion word of zero. -/
theorem SheetRun.withHeader_eq (r : SheetRun) (w0 w : Word) : r.withHeader (headerOf w0 w) = { r with
    count := bits w0 0 8, notify := w0.getLsbD 8, haltOnError := w0.getLsbD 9,
    header := if 1 ≤ bits w0 0 8 ∧ bits w0 0 8 ≤ 32 ∧ w = 0#32 then .accepted else .refused } := by
  have accepted : (headerOf w0 w).accepted = true ↔ 1 ≤ bits w0 0 8 ∧ bits w0 0 8 ≤ 32 ∧ w = 0#32 := by
    simp [Header.accepted, headerOf, Config.sheetOrders, and_assoc]
  simp only [SheetRun.withHeader, accepted]
  rfl

/-- After the first beat header word 0 is held. -/
theorem State.endHeaderRead_first (hst : reply.stores = []) (he : reply.error = none)
    (ha : s.sheets.access = some (.header [])) (hr : s.sheets.inHand = some r) :
    s.endHeaderRead reply =
      s.setAccess (some (.header [Memory.readWord s.mem (headerWordAddress r.address 0)])) := by
  simp [State.endHeaderRead, ha, hr, State.beatRead_word hst he]

/-- With the second the sheet in hand takes its header. -/
theorem State.endHeaderRead_second {w0 : Word} (hst : reply.stores = []) (he : reply.error = none)
    (ha : s.sheets.access = some (.header [w0])) (hr : s.sheets.inHand = some r) :
    s.endHeaderRead reply = { s with
      sheets := s.sheets.put (r.withHeader (headerOf w0 (Memory.readWord s.mem (headerWordAddress r.address 1)))) } := by
  simp [State.endHeaderRead, ha, hr, State.beatRead_word hst he, Sheets.put_eq]

theorem State.endHeaderRead_error (hst : reply.stores = []) (he : reply.error = some 0)
    (ha : s.sheets.access = some (.header got)) (hr : s.sheets.inHand = some r) :
    s.endHeaderRead reply = (s.busError (headerWordAddress r.address got.length) false).sheetFault := by
  simp [State.endHeaderRead, ha, hr, State.beatRead_error hst he]

/-! ## The start of an order (R72) -/

theorem State.mayStartOrder_iff (ha : s.sheets.active = some r) : s.mayStartOrder = true ↔
    r.header = .accepted ∧ r.index < r.count ∧ r.halted = false ∧ s.sheets.order = none ∧ s.sheets.access = none ∧
      s.sheets.stop = .none ∧ s.modes.mode = .run := by
  simp [State.mayStartOrder, ha, and_assoc]

theorem State.startEntryRead_raised (h : s.mayStartOrder = true) : s.startEntryRead =
    { s with sheets := { s.sheets with access := some (.entry []) } } := if_pos h

theorem State.startEntryRead_waits (h : ¬s.mayStartOrder = true) : s.startEntryRead = s := if_neg h

/-! ## The entry reads (R64, R72) -/

/-- Short of six words the words are held. -/
theorem State.endEntryRead_more (hst : reply.stores = []) (he : reply.error = none)
    (ha : s.sheets.access = some (.entry got)) (hr : s.sheets.active = some r) (hn : got.length < 5) :
    s.endEntryRead reply = s.setAccess (some (.entry
      (got ++ [Memory.readWord s.mem (entryWordAddress r.address r.index got.length)]))) := by
  simp [State.endEntryRead, ha, hr, State.beatRead_word hst he, hn]

/-- With the sixth they are taken. -/
theorem State.endEntryRead_last (hst : reply.stores = []) (he : reply.error = none)
    (ha : s.sheets.access = some (.entry got)) (hr : s.sheets.active = some r) (hn : got.length = 5) :
    s.endEntryRead reply = s.takeEntry r.index
      (got ++ [Memory.readWord s.mem (entryWordAddress r.address r.index got.length)]) := by
  simp [State.endEntryRead, ha, hr, State.beatRead_word hst he, hn]

theorem State.endEntryRead_error (hst : reply.stores = []) (he : reply.error = some 0)
    (ha : s.sheets.access = some (.entry got)) (hr : s.sheets.active = some r) :
    s.endEntryRead reply = (s.busError (entryWordAddress r.address r.index got.length) false).sheetFault := by
  simp [State.endEntryRead, ha, hr, State.beatRead_error hst he]

/-- The order that six words spell (R64). -/
def entryOrder (ws : List Word) : Option Order :=
  orderOf (ws.getD 0 0#32) (ws.getD 1 0#32) (ws.getD 2 0#32) (ws.getD 3 0#32) (ws.getD 4 0#32)

/-- Outside RUN, or under a stop state, the words are set aside. -/
theorem State.takeEntry_aside {i : Nat} {ws : List Word} (h : s.modes.mode ≠ .run ∨ s.sheets.stop ≠ .none) :
    s.takeEntry i ws = s.setAccess none := if_pos h

/-- Words that spell no valid kind end BAD_KIND. -/
theorem State.takeEntry_bad {i : Nat} {ws : List Word} (hm : s.modes.mode = .run) (hs : s.sheets.stop = .none)
    (h : entryOrder ws = none) : s.takeEntry i ws = s.setAccess (some (.result (plainResult .badKind) 0)) := by
  rw [entryOrder] at h
  unfold State.takeEntry
  dsimp only
  rw [if_neg (by simp [State.setAccess, hm, hs]), h]
  rfl

/-- A valid order is in progress and handed to its path. -/
theorem State.takeEntry_order {i : Nat} {ws : List Word} {o : Order} (hm : s.modes.mode = .run)
    (hs : s.sheets.stop = .none) (h : entryOrder ws = some o) : s.takeEntry i ws = State.handOrder { s with
      sheets := { s.sheets with access := none, order := some { kind := o.kind, index := i } } } o := by
  rw [entryOrder] at h
  unfold State.takeEntry
  dsimp only
  rw [if_neg (by simp [State.setAccess, hm, hs]), h]
  rfl

/-! ## The statement -/

/-- Settles O34: a beat that is due is its end on the state after the beat, and a bus error is a sheet fault. -/
theorem sheetsActivateAndReadEntries : Obligations.SheetsActivateAndReadEntries := by
  refine ⟨fun s a rest hs hq hm ha hst hc => ?_, fun s r got reply hs hp hl ha hr hst => ?_,
    fun s r hs hr => ⟨fun hh hi hf ho hacc hstop hm => ?_, fun h => ?_⟩,
    fun s r got reply hs hp hl ha hr hst => ?_⟩
  · exact ⟨_, _, State.takes_eq hs (State.activate_taken hq hm ha hst hc), rfl, rfl, rfl, rfl, rfl, rfl, rfl, rfl, rfl,
      rfl, rfl, rfl, rfl⟩
  · have ends := State.accessEnds_due hp hl ha fun s => s.endHeaderRead reply
    have hand := Sheets.inHand_eq hr
    refine ⟨fun he hg => ?_, fun he w0 hg => ?_, fun he => ?_⟩
    · subst hg
      exact State.takes_eq hs (ends.trans (State.endHeaderRead_first hst he ha hand))
    · subst hg
      refine ⟨_, State.takes_eq hs (ends.trans (State.endHeaderRead_second hst he ha hand)), rfl, rfl, ?_⟩
      rw [SheetRun.withHeader_eq]
      rfl
    · obtain ⟨fault, error, address⟩ :=
        State.sheetFault_window s.endBeat (headerWordAddress r.address got.length) false
      exact ⟨_, State.takes_eq hs (ends.trans (State.endHeaderRead_error hst he ha hand)),
        State.sheetFault_sheets s.endBeat _ _, fault, error, address, rfl⟩
  · exact State.takes_eq hs (State.startEntryRead_raised ((State.mayStartOrder_iff hr).2 ⟨hh, hi, hf, ho, hacc, hstop, hm⟩))
  · refine State.takes_eq hs (State.startEntryRead_waits fun may => ?_)
    obtain ⟨-, -, -, -, -, hstop, hm⟩ := (State.mayStartOrder_iff hr).1 may
    exact h.elim (· hm) (· hstop)
  · have ends := State.accessEnds_due hp hl ha fun s => s.endEntryRead reply
    refine ⟨fun he hn => ?_, fun he hn => ?_, fun he => ?_⟩
    · exact State.takes_eq hs (ends.trans (State.endEntryRead_more hst he ha hr hn))
    · have last := ends.trans (State.endEntryRead_last hst he ha hr hn)
      exact ⟨fun hm hstop o ho => State.takes_eq hs (last.trans (State.takeEntry_order hm hstop ho)),
        fun hm hstop ho => State.takes_eq hs (last.trans (State.takeEntry_bad hm hstop ho)),
        fun h => State.takes_eq hs (last.trans (State.takeEntry_aside h))⟩
    · obtain ⟨fault, error, address⟩ :=
        State.sheetFault_window s.endBeat (entryWordAddress r.address r.index got.length) false
      have sheets := (State.sheetFault_sheets s.endBeat (entryWordAddress r.address r.index got.length) false).trans
        (Sheets.dropped_active hr)
      exact ⟨_, State.takes_eq hs (ends.trans (State.endEntryRead_error hst he ha hr)), congrArg Sheets.active sheets,
        rfl, (congrArg Sheets.order sheets :), fault, error, address, rfl⟩

end Sys2Proof.Machine
end

