-- ==== Sys2Proof/Proofs/SheetWrites.lean ====
section
/-! The result writes with the counts, and the completion word (R65, R66, R73 to R75, R82, R85). -/

namespace Sys2Proof.Machine

open Sys2Proof

variable {s : State} {r : SheetRun} {reply : BusReply} {a : Nat} {w : Word}

/-! ## A word written (00 Layouts, R161) -/

theorem wordOf_wordBytes (w : Word) : wordOf (wordByte w 0) (wordByte w 1) (wordByte w 2) (wordByte w 3) = w := by
  refine BitVec.eq_of_getLsbD_eq fun i hi => ?_
  simp only [wordOf, wordByte, BitVec.getLsbD_append, BitVec.getLsbD_setWidth, BitVec.getLsbD_ushiftRight]
  by_cases h8 : i < 8
  · simp [h8]
  · by_cases h16 : i - 8 < 8
    · simp [h8, h16, show 8 + (i - 8) = i by omega]
    · by_cases h24 : i - 8 - 8 < 8
      · simp [h8, h16, h24, show 16 + (i - 8 - 8) = i by omega]
      · simp [h8, h16, h24, show 24 + (i - 8 - 8 - 8) = i by omega, show i - 8 - 8 - 8 < 8 by omega]

/-- The word written reads as the word. -/
theorem Memory.readWord_writeWord {m : List Host.Cell} (hm : Memory.wf m = true) (a : Nat) (w : Word) :
    Memory.readWord (Memory.writeWord m a w) a = w := by
  have byte (m : List Host.Cell) (hm : Memory.wf m = true) (k j : Nat) (v : Byte) :
      Memory.readByte (Memory.writeByte m k v) j = if j = k then v else Memory.readByte m j :=
    Sparse.read_write_eq emptyByte m k j v hm
  have wf0 := Memory.wf_writeByte m a (wordByte w 0) hm
  have wf1 := Memory.wf_writeByte _ (a + 1) (wordByte w 1) wf0
  have wf2 := Memory.wf_writeByte _ (a + 2) (wordByte w 2) wf1
  simp [Memory.readWord, Memory.writeWord, byte _ hm, byte _ wf0, byte _ wf1, byte _ wf2, wordOf_wordBytes]

/-- Of a failed write of one word, that word or nothing stands in memory (R161). -/
theorem landedOf_one (x : Nat × Word) (bs : List Bool) :
    landedOf [x] bs = if bs.head? = some true then [x] else [] := by
  cases bs with
  | nil => rfl
  | cons b rest => cases b <;> rfl

/-- A failed write leaves every byte outside its word. -/
theorem readByte_failedWrite (m : List Host.Cell) (w : Word) (bs : List Bool) {b : Nat} (h : b < a ∨ a + 4 ≤ b) :
    Memory.readByte (Memory.writeWords m (landedOf [(a, w)] bs)) b = Memory.readByte m b := by
  rw [landedOf_one]
  split
  · exact Memory.readByte_writeWord_other m a w b h
  · rfl

/-- A failed write of which the bus partner took nothing leaves memory as it was. -/
theorem writeWords_notLanded (m : List Host.Cell) (x : Nat × Word) {bs : List Bool} (h : bs.head? ≠ some true) :
    Memory.writeWords m (landedOf [x] bs) = m := by
  rw [landedOf_one, if_neg h]
  rfl

/-- The state after a write of a word at `a` that is a sheet fault (R85). -/
def State.faultedWrite (s : State) (reply : BusReply) (a : Nat) (w : Word) : State :=
  (State.busError { s with mem := Memory.writeWords s.mem (landedOf [(a, w)] reply.landed) } a true).sheetFault

/-- It drops the sheet in hand, records the error, and leaves memory outside its word. -/
theorem State.faultedWrite_spec (s : State) (reply : BusReply) (a : Nat) (w : Word) :
    let t := s.faultedWrite reply a w
    t.sheets = s.sheets.dropped ∧ t.window.flag .sheetFault = true ∧ t.window.flag .busError = true ∧
      t.window.errorAddress = (if s.window.flag .busError then s.window.errorAddress else errorWord a true) ∧
      (∀ b, b < a ∨ a + 4 ≤ b → Memory.readByte t.mem b = Memory.readByte s.mem b) ∧
      (reply.landed.head? ≠ some true → State.memoryKept s t) := by
  obtain ⟨fault, error, address⟩ := State.sheetFault_window
    { s with mem := Memory.writeWords s.mem (landedOf [(a, w)] reply.landed) } a true
  exact ⟨State.sheetFault_sheets _ _ _, fault, error, address, fun b => readByte_failedWrite _ _ _,
    fun h b => congrArg (Memory.readByte · b) (writeWords_notLanded s.mem (a, w) h)⟩

/-- SHEET_DONE is set by its own event alone. -/
theorem Window.flag_sheetDone_set (w : Window) {e : Event} (h : e ≠ .sheetDone) :
    (w.set e).flag .sheetDone = w.flag .sheetDone := by
  cases e <;> simp_all [Window.flag, Window.set, Event.bit]

theorem State.faultedWrite_sheetDone (s : State) (reply : BusReply) (a : Nat) (w : Word) :
    (s.faultedWrite reply a w).window.flag .sheetDone = s.window.flag .sheetDone := by
  refine (Window.flag_sheetDone_set _ (by decide)).trans ((Window.flag_sheetDone_set _ (by decide)).trans ?_)
  split <;> rfl

/-! ## The result writes (R65, R73) -/

/-- Result word 2 is written first, then result word 1. -/
theorem nextResultWrite_eq (r : SheetRun) (v : OrderResult) {done : Nat} (h : done < 2) : nextResultWrite r v done =
    [(entryWordAddress r.address r.index (if done = 0 then 7 else 6), if done = 0 then v.word2 else v.word1)] := by
  obtain rfl | rfl : done = 0 ∨ done = 1 := by omega
  · rfl
  · rfl

theorem OrderStatus.cls_ok_iff (st : OrderStatus) : st.cls = .ok ↔ st = .ok ∨ st = .okRebuilt := by
  cases st <;> decide

theorem OrderStatus.cls_skipped_iff (st : OrderStatus) : st.cls = .skipped ↔ st = .skipped := by
  cases st <;> decide

/-- A result counts in the class of its status, and a failed one halts a HALT_ON_ERROR sheet. -/
theorem SheetRun.counted_eq (r : SheetRun) (st : OrderStatus) :
    let good := st = .ok ∨ st = .okRebuilt
    let bad := ¬good ∧ st ≠ .skipped
    r.counted st = { r with
      index := r.index + 1, ok := if good then r.ok + 1 else r.ok,
      skipped := if st = .skipped then r.skipped + 1 else r.skipped,
      failed := if bad then r.failed + 1 else r.failed,
      halted := if bad then r.halted || r.haltOnError else r.halted } := by
  simp only [← st.cls_ok_iff, ← st.cls_skipped_iff, SheetRun.counted]
  cases h : st.cls <;> simp [← st.cls_skipped_iff, h]

/-- After the first write the second follows. -/
theorem State.endResultWrite_first {v : OrderResult} (hst : reply.stores = []) (he : reply.error = none)
    (ha : s.sheets.access = some (.result v 0)) (hr : s.sheets.inHand = some r) :
    s.endResultWrite reply = { s with
      mem := Memory.writeWord s.mem (entryWordAddress r.address r.index 7) v.word2,
      sheets := { s.sheets with access := some (.result v 1) } } := by
  simp [State.endResultWrite, ha, hr, nextResultWrite_eq r v, State.busWrite_word hst he, State.setAccess]

/-- With the second the result counts. -/
theorem State.endResultWrite_second {v : OrderResult} (hst : reply.stores = []) (he : reply.error = none)
    (ha : s.sheets.access = some (.result v 1)) (hr : s.sheets.inHand = some r) :
    s.endResultWrite reply = { s with
      mem := Memory.writeWord s.mem (entryWordAddress r.address r.index 6) v.word1,
      sheets := s.sheets.put (r.counted v.status) } := by
  simp [State.endResultWrite, ha, hr, nextResultWrite_eq r v, State.busWrite_word hst he, Sheets.put_eq]

theorem State.endResultWrite_error {v : OrderResult} {done : Nat} (hst : reply.stores = []) (he : reply.error = some 0)
    (ha : s.sheets.access = some (.result v done)) (hr : s.sheets.inHand = some r) (hd : done < 2) :
    s.endResultWrite reply = s.faultedWrite reply (entryWordAddress r.address r.index (if done = 0 then 7 else 6))
      (if done = 0 then v.word2 else v.word1) := by
  simp [State.endResultWrite, ha, hr, nextResultWrite_eq r v hd, State.busWrite_error hst he, State.faultedWrite]

/-! ## The completion write (R66, R75) -/

/-- The sheet in hand is gone once its completion word stands, and SHEET_DONE is set when NOTIFY is 1. -/
theorem State.endCompletionWrite_done (hst : reply.stores = []) (he : reply.error = none)
    (ha : s.sheets.access = some (.completion w)) (hr : s.sheets.inHand = some r) :
    s.endCompletionWrite reply = { s with
      mem := Memory.writeWord s.mem (headerWordAddress r.address 1) w,
      sheets := s.sheets.dropped,
      window := if r.notify then s.window.set .sheetDone else s.window } := by
  simp only [State.endCompletionWrite, ha, hr, State.busWrite_word hst he, Sheets.dropped_eq]
  split <;> rfl

theorem State.endCompletionWrite_error (hst : reply.stores = []) (he : reply.error = some 0)
    (ha : s.sheets.access = some (.completion w)) (hr : s.sheets.inHand = some r) :
    s.endCompletionWrite reply = s.faultedWrite reply (headerWordAddress r.address 1) w := by
  simp [State.endCompletionWrite, ha, hr, State.busWrite_error hst he, State.faultedWrite]

/-! ## The statement -/

/-- Settles O37: each write by the word it leaves, and a failed one by `State.faultedWrite_spec`. -/
theorem resultsAndCompletionWritten : Obligations.ResultsAndCompletionWritten := by
  refine ⟨fun s v => rfl, fun s r v done reply hs hp hl ha hr hst hm hd => ?_,
    fun s r w reply hs hp hl ha hr hst hm => ?_, fun r => ?_⟩
  · have ends := State.accessEnds_due hp hl ha fun s => s.endResultWrite reply
    have hand := Sheets.inHand_eq hr
    refine ⟨fun he => ?_, fun he => ?_⟩
    · obtain rfl | rfl : done = 0 ∨ done = 1 := by omega
      · exact ⟨_, State.takes_eq hs (ends.trans (State.endResultWrite_first hst he ha hand)),
          Memory.readWord_writeWord hm _ _, fun b => Memory.readByte_writeWord_other _ _ _ b, fun _ => rfl, nofun, rfl,
          fun l => ⟨rfl, rfl, rfl, rfl⟩, fun _ _ _ => rfl, rfl⟩
      · refine ⟨_, State.takes_eq hs (ends.trans (State.endResultWrite_second hst he ha hand)),
          Memory.readWord_writeWord hm _ _, fun b => Memory.readByte_writeWord_other _ _ _ b, nofun, fun _ => ?_, rfl,
          fun l => ⟨rfl, rfl, rfl, rfl⟩, fun _ _ _ => rfl, rfl⟩
        rw [SheetRun.counted_eq]
        rfl
    · exact ⟨_, State.takes_eq hs (ends.trans (State.endResultWrite_error hst he ha hand hd)),
        State.faultedWrite_spec s.endBeat reply _ _⟩
  · have ends := State.accessEnds_due hp hl ha fun s => s.endCompletionWrite reply
    have hand := Sheets.inHand_eq (.inl hr)
    have dropped := Sheets.dropped_active hr
    refine ⟨fun he => ?_, fun he => ?_⟩
    · refine ⟨_, State.takes_eq hs (ends.trans (State.endCompletionWrite_done hst he ha hand)),
        Memory.readWord_writeWord hm _ _, fun b => Memory.readByte_writeWord_other _ _ _ b,
        (congrArg Sheets.active dropped :), (congrArg Sheets.access dropped :), rfl, (congrArg Sheets.queue dropped :)⟩
    · obtain ⟨sheets, fault, error, address, outside, kept⟩ := State.faultedWrite_spec s.endBeat reply
        (headerWordAddress r.address 1) w
      have gone := sheets.trans dropped
      exact ⟨_, State.takes_eq hs (ends.trans (State.endCompletionWrite_error hst he ha hand)),
        (congrArg Sheets.active gone :), (congrArg Sheets.access gone :), fault, error, address,
        State.faultedWrite_sheetDone _ _ _ _, outside, kept⟩
  · refine ⟨fun h => ?_, fun h e => ?_, fun h e => ?_, fun h e f => ?_, fun h e f => ?_⟩ <;>
    simp [SheetRun.completionWord, SheetRun.completion, *]

end Sys2Proof.Machine
end

