-- ==== Sys2Proof/Proofs/SheetsClosed.lean ====
section
/-! What the sheet processor does at once: skips, closes, the closing list, the end of an abort, QUIET (R71, R74, R75,
R78, R82). -/

namespace Sys2Proof.Machine

open Sys2Proof

variable {s : State} {r : SheetRun}

/-! ## The sheet in hand at rest (R74, R75) -/

theorem Sheets.atRest_busy {h : Sheets} (hb : h.order ≠ none ∨ h.access ≠ none) : h.atRest = none := by
  simp only [← Option.isSome_iff_ne_none] at hb
  simp [Sheets.atRest, hb]

theorem Sheets.atRest_unread {h : Sheets} (hr : h.inHand = some r) (hu : r.header = .unread) : h.atRest = none := by
  simp [Sheets.atRest, hr, hu]

theorem Sheets.atRest_read {h : Sheets} (ho : h.order = none) (ha : h.access = none) (hr : h.inHand = some r)
    (hu : r.header ≠ .unread) : h.atRest = some r := by
  simp [Sheets.atRest, ho, ha, hr, hu]

theorem State.sheetSkip_none (h : s.sheets.atRest = none) : s.sheetSkip = none := by simp [State.sheetSkip, h]

theorem State.sheetClose_none (h : s.sheets.atRest = none) : s.sheetClose = none := by simp [State.sheetClose, h]

/-- An entry left is passed over when the sheet is halted or its ending is not NORMAL. -/
theorem State.sheetSkip_eq (h : s.sheets.atRest = some r) : s.sheetSkip =
    if r.header = .accepted ∧ r.index < r.count ∧ (r.halted = true ∨ r.ending ≠ .normal) then
      some { s with sheets := { s.sheets with access := some (.result (plainResult .skipped) 0) } }
    else none := by
  simp only [State.sheetSkip, h]

/-- A refused sheet closes, and one with no entry left. -/
theorem State.sheetClose_eq (h : s.sheets.atRest = some r) : s.sheetClose =
    if r.header = .refused ∨ r.count ≤ r.index then
      some { s with sheets := { s.sheets with access := some (.completion r.completionWord) } }
    else none := by
  simp only [State.sheetClose, h]

/-! ## The closing list (R82) -/

theorem Sheets.dropped_closer {h : Sheets} (ha : h.active = none) : h.dropped =
    { h with closer := none, closing := h.closing.drop 1, access := none } := by
  simp [Sheets.dropped, ha]

/-! ## QUIET (R78) -/

theorem OrderKind.isRow_iff (k : OrderKind) : k.isRow = true ↔ k ∈ [OrderKind.writeRows, .readRows, .copyRows] := by
  cases k <;> decide

theorem State.rowOrderResting_iff (s : State) : s.rowOrderResting = true ↔ s.sheets.questionHeld = true ∧
    s.writer.flights = [] ∧ s.reader.flights = [] ∧ s.reader.copyRow = none := by
  simp [State.rowOrderResting, and_assoc]

theorem State.quiet_iff (s : State) : s.quiet = true ↔ (s.sheets.access = none ∧
    (s.sheets.order = none ∨ ∃ o, s.sheets.order = some o ∧ o.kind ∈ [OrderKind.writeRows, .readRows, .copyRows] ∧
      s.sheets.questionHeld = true ∧ s.writer.flights = [] ∧ s.reader.flights = [] ∧ s.reader.copyRow = none)) ∧
    s.sheetSkip = none ∧ s.sheetClose = none := by
  simp only [← OrderKind.isRow_iff, ← s.rowOrderResting_iff]
  cases ho : s.sheets.order <;> simp [State.quiet, ho] <;> tauto

/-! ## The statement -/

/-- Settles O39: skip and close by the sheet at rest, the closing list by the sheet dropped, QUIET by its conditions. -/
theorem sheetsSkipCloseAndRest : Obligations.SheetsSkipCloseAndRest := by
  refine ⟨fun s r hr => ⟨fun ho ha => ⟨fun hu => ?_, fun hacc hi => ?_, fun hc => ?_⟩, fun hb => ?_⟩,
    fun s => ⟨fun a e rest free hc => ?_, fun h => ?_⟩,
    fun s r x rest w reply hs hp hl hacc ha hc hcl hst hm => ?_,
    fun s => ⟨fun due hm => ?_, fun due hm => ?_, fun h => ?_⟩, fun s => ⟨fun due => ?_, fun h => ?_⟩⟩
  · have none_ := Sheets.atRest_unread (Sheets.inHand_eq hr) hu
    exact ⟨State.sheetSkip_none none_, State.sheetClose_none none_⟩
  · have rest := Sheets.atRest_read ho ha (Sheets.inHand_eq hr) (by simp [hacc])
    rw [State.sheetClose_eq rest, State.sheetSkip_eq rest]
    refine ⟨if_neg (by simp [hacc, hi]), fun h => if_pos ⟨hacc, hi, h⟩, fun h e => if_neg (by simp [h, e])⟩
  · have rest := Sheets.atRest_read ho ha (Sheets.inHand_eq hr) (by rcases hc with h | ⟨h, -⟩ <;> simp [h])
    rw [State.sheetClose_eq rest, State.sheetSkip_eq rest]
    refine ⟨if_neg ?_, if_pos (hc.imp_right (·.2))⟩
    rintro ⟨hacc, hi, -⟩
    rcases hc with h | ⟨-, h⟩
    · simp [hacc] at h
    · omega
  · have none_ := Sheets.atRest_busy hb
    exact ⟨State.sheetSkip_none none_, State.sheetClose_none none_⟩
  · rw [State.closeNext, if_pos free]
    simp only [hc]
    rfl
  · unfold State.closeNext
    dsimp only
    split
    · next free => rw [h.resolve_left (not_not.2 free)]
    · rfl
  · have ends := State.accessEnds_due hp hl hacc fun s => s.endCompletionWrite reply
    have hand := Sheets.inHand_eq (.inr ⟨ha, hc⟩)
    have dropped := Sheets.dropped_closer ha
    rw [hcl] at dropped
    refine ⟨fun he => ?_, fun he => ?_⟩
    · exact ⟨_, State.takes_eq hs (ends.trans (State.endCompletionWrite_done hst he hacc hand)), dropped,
        Memory.readWord_writeWord hm _ _, rfl⟩
    · obtain ⟨sheets, fault, error, -⟩ := State.faultedWrite_spec s.endBeat reply (headerWordAddress r.address 1) w
      exact ⟨_, State.takes_eq hs (ends.trans (State.endCompletionWrite_error hst he hacc hand)),
        sheets.trans dropped, fault, error⟩
  · rw [State.abortEnd, if_pos due, if_pos (s.modes.mode.sheetMode_iff.2 hm)]
  · rw [State.abortEnd, if_pos due, if_neg (mt s.modes.mode.sheetMode_iff.1 hm)]
  · exact if_neg h
  · obtain ⟨hm, hst, quiet, skip, close⟩ := due
    exact if_pos ⟨hm, hst, s.quiet_iff.2 ⟨quiet, skip, close⟩⟩
  · refine if_neg fun ⟨hm, hst, quiet⟩ => h ?_
    obtain ⟨quiet, skip, close⟩ := s.quiet_iff.1 quiet
    exact ⟨hm, hst, quiet, skip, close⟩

end Sys2Proof.Machine
end

