-- ==== Sys2Proof/Proofs/WakeAndDrain.lean ====
section
/-! The end of an awaited commit, a wake, a drain and PARKED (R38, R40, R84, R173, R174, R177, R178). -/

namespace Sys2Proof.Machine

open Sys2Proof

variable {s : State} {d : Drain}

/-! ## The six lanes together -/

theorem Six.all_iff {α : Type} (f : α → Bool) (x : Six α) : x.all f = true ↔ ∀ l, f (x.get l) = true := by
  simp only [Six.all, List.all_eq_true]
  exact ⟨fun h l => h l (by cases l <;> decide), fun h l _ => h l⟩

theorem State.lanesQuiet_iff (s : State) : s.lanesQuiet = true ↔
    ∀ l, (s.lane l).state = .idle ∧ (s.lane l).port = none ∧ (s.lane l).waiting = [] := by
  simp [State.lanesQuiet, Six.all_iff, LaneCtl.quiet, State.lane, and_assoc]

theorem State.lanesStill_iff (s : State) : s.lanesStill = true ↔
    ∀ l, ((s.lane l).state = .idle ∨ (s.lane l).state = .off) ∧ (s.lane l).port = none ∧ (s.lane l).waiting = [] := by
  simp [State.lanesStill, Six.all_iff, State.lane, and_assoc]

theorem State.lanesOff_iff (s : State) : s.lanesOff = true ↔ ∀ l, (s.lane l).state = .off := by
  simp [State.lanesOff, Six.all_iff, State.lane]

/-- POWER DOWN given to the lanes that are not off. -/
theorem State.giveAll_lanesOn (t : State) (h : t.lanes = s.lanes) (q : LaneReq) (l : Lane) :
    (t.giveAll q s.lanesOn).lane l =
      if (s.lane l).state = .off then s.lane l else { s.lane l with waiting := (s.lane l).waiting ++ [q] } := by
  have on : s.lanesOn.contains l = true ↔ (s.lane l).state ≠ .off := by
    simp only [State.lanesOn, List.contains_iff_mem, List.mem_filter, decide_eq_true_eq]
    exact and_iff_right (by cases l <;> decide)
  have same : t.lane l = s.lane l := by rw [State.lane, h, State.lane]
  rw [State.lane, State.giveAll, Six.get_build, same]
  by_cases ho : (s.lane l).state = .off
  · rw [if_neg (mt on.1 (not_not.2 ho)), if_pos ho]
  · rw [if_pos (on.2 ho), if_neg ho]

/-! ## The commit awaited (R173, R177) -/

theorem State.modeNotice_none (h : s.modes.commitAwaited = false) : s.modeNotice = s := by
  simp [State.modeNotice, h]

/-- Outside a patrol that waits for its commit, none is awaited any longer, and a drain that waits for it counts it
done. -/
theorem State.modeNotice_eq (h : s.modes.commitAwaited = true)
    (hp : s.modes.mode ≠ .patrol ∨ s.modes.patrolStage ≠ .committing) : s.modeNotice = { s with
      modes := { s.modes with commitAwaited := false, drain := s.modes.drain.map fun d =>
        { d with commitDone := d.commitDone || d.lanesQuiet } } } := by
  have hn : ¬(s.modes.mode = .patrol ∧ s.modes.patrolStage = .committing) := fun ⟨hm, hc⟩ => hp.elim (· hm) (· hc)
  simp [State.modeNotice, h, hn]

/-! ## A wake, and PARKED left (R174, R178) -/

theorem State.wakeOn_powers (hw : s.modes.mode = .standby ∧ s.modes.wake = true ∧ s.modes.commitAwaited = false)
    (hp : s.modes.powerGiven = false) :
    s.wakeOn = some { s with modes := { s.modes with powerGiven := true } }.powerUpAll := by
  rw [State.wakeOn, if_pos hw, if_pos hp]

theorem State.wakeOn_powered (hw : s.modes.mode = .standby ∧ s.modes.wake = true ∧ s.modes.commitAwaited = false)
    (hp : s.modes.powerGiven = true) : s.wakeOn =
      if s.lanesQuiet then some { s with modes := { s.modes with mode := .run, wake := false, powerGiven := false } }
      else none := by
  rw [State.wakeOn, if_pos hw, if_neg (by simp [hp])]

theorem State.parkedOn_powers (hm : s.modes.mode = .parked) (hw : s.modes.warning = false)
    (hl : s.modes.leaving = false) :
    s.parkedOn = some { s with modes := { s.modes with leaving := true } }.powerUpAll := by
  rw [State.parkedOn, if_pos ⟨hm, hw⟩, if_pos hl]

theorem State.parkedOn_powered (hm : s.modes.mode = .parked) (hw : s.modes.warning = false)
    (hl : s.modes.leaving = true) : s.parkedOn =
      if s.lanesQuiet then some { s with
        modes := { s.modes with mode := .run, leaving := false }, sheets := { s.sheets with stop := .none } }
      else none := by
  rw [State.parkedOn, if_pos ⟨hm, hw⟩, if_neg (by simp [hl])]

/-! ## The stages of a drain (R177) -/

theorem Sheets.allClosed_iff (h : Sheets) : h.allClosed = true ↔
    h.order = none ∧ h.active = none ∧ h.closing = [] ∧ h.closer = none ∧ h.access = none := by
  simp [Sheets.allClosed, and_assoc]

section Drain
variable (hm : s.modes.mode = .drain) (hd : s.modes.drain = some d)
include hm hd

theorem State.drainOn_open (hc : d.closed = false) : s.drainOn =
    if s.sheets.allClosed then some (s.setDrain { d with closed := true }) else none := by
  simp only [State.drainOn, hm, hd, hc, if_true]

theorem State.drainOn_closed (hc : d.closed = true) (hq : d.lanesQuiet = false) : s.drainOn =
    if d.patrolEnded = true ∧ s.modes.configRead = none ∧ s.lanesStill = true then
      some ((s.setDrain { d with lanesQuiet := true }).giveAll .powerDown s.lanesOn)
    else none := by
  simp [State.drainOn, hm, hd, hc, hq]

theorem State.drainOn_off (hc : d.closed = true) (hq : d.lanesQuiet = true) (hl : d.lanesOff = false)
    (off : s.lanesOff = true) : s.drainOn = some (s.setDrain { d with lanesOff := true }) := by
  simp [State.drainOn, hm, hd, hc, hq, hl, off]

theorem State.drainOn_commit (hc : d.closed = true) (hq : d.lanesQuiet = true)
    (rest : d.lanesOff = true ∨ ¬s.lanesOff = true) (hn : d.commitDone = false) : s.drainOn =
    if s.modes.commitAwaited then none
    else if s.table.commit.isSome then none
    else if s.table.marker && !s.table.plainReq && !s.table.cleanReq then some (s.setDrain { d with commitDone := true })
    else if s.table.storeFault then some (s.setDrain { d with commitDone := true }).awaitClean
    else some s.awaitClean := by
  have hl : ¬(d.lanesOff = false ∧ s.lanesOff = true) := fun ⟨h, off⟩ => rest.elim (by simp [h]) (· off)
  simp [State.drainOn, hm, hd, hc, hq, hl, hn]

theorem State.drainOn_done (hc : d.closed = true) (hq : d.lanesQuiet = true)
    (rest : d.lanesOff = true ∨ ¬s.lanesOff = true) (hn : d.commitDone = true) : s.drainOn =
    if d.lanesOff then some { s with modes := { s.modes with mode := .parked, drain := none, leaving := false } }
    else none := by
  have hl : ¬(d.lanesOff = false ∧ s.lanesOff = true) := fun ⟨h, off⟩ => rest.elim (by simp [h]) (· off)
  simp [State.drainOn, hm, hd, hc, hq, hl, hn]

end Drain

/-- The clean commit request is raised; it is awaited unless STORE_FAULT keeps it from starting. -/
theorem State.awaitClean_eq (s : State) : s.awaitClean = { s with
    modes := { s.modes with commitAwaited := !s.table.storeFault },
    signals := s.signals ++ [.commitRequest .mode true (!s.table.storeFault)] } := rfl

/-! ## The statement -/

/-- Settles O51: the end of the commit, the wake and PARKED by whether the lanes are quiet, the drain stage by stage. -/
theorem drainWakeAndPark : Obligations.DrainWakeAndPark := by
  refine ⟨fun s => ⟨fun hc hp hq => ?_, fun hc hm hd hw hp => ?_, State.modeNotice_none⟩,
    fun s => ⟨fun hw hp => ?_, fun hw hp idle => ?_, fun h => ?_, fun hm hw hl => ?_, fun hm hw hl idle => ?_, fun h => ?_⟩,
    fun s d hm hd => ⟨fun hc => ⟨fun closed => ?_, fun busy => ?_⟩,
      fun hc hq => ⟨fun hp hr still => ?_, fun h => ?_⟩, fun hc hq hl off => ?_,
      fun ⟨hc, hq, hl⟩ hn => ?_, fun ⟨hc, hq, hl⟩ hn => ?_, fun ha hq => ?_⟩⟩
  · rw [State.modeNotice_eq hc hp]
    have same : s.modes.drain.map (fun d => { d with commitDone := d.commitDone || d.lanesQuiet }) = s.modes.drain := by
      rcases hq with h | ⟨⟨_, _, _, _, _⟩, h, hq⟩ <;> simp_all
    rw [same]
  · have notice := State.modeNotice_eq hc (.inl (by simp [hm]))
    rw [notice]
    exact ⟨_, State.wakeOn_powers (s := { s with modes := _ }) ⟨hm, hw, rfl⟩ hp, rfl, rfl,
      State.giveAll_all_lane _ _⟩
  · exact ⟨_, State.wakeOn_powers hw hp, rfl, State.giveAll_all_lane _ _, rfl⟩
  · rw [State.wakeOn_powered hw hp, if_pos (s.lanesQuiet_iff.2 idle)]
  · by_cases hw : s.modes.mode = .standby ∧ s.modes.wake = true ∧ s.modes.commitAwaited = false
    · obtain ⟨hp, busy⟩ := h.resolve_left (not_not.2 hw)
      rw [State.wakeOn_powered hw hp, if_neg (mt s.lanesQuiet_iff.1 busy)]
    · exact if_neg hw
  · exact ⟨_, State.parkedOn_powers hm hw hl, rfl, State.giveAll_all_lane _ _, rfl⟩
  · rw [State.parkedOn_powered hm hw hl, if_pos (s.lanesQuiet_iff.2 idle)]
  · by_cases hp : s.modes.mode = .parked ∧ s.modes.warning = false
    · obtain ⟨hm, hw⟩ := hp
      obtain ⟨hl, busy⟩ := (h.resolve_left (not_not.2 hm)).resolve_left (by simp [hw])
      rw [State.parkedOn_powered hm hw hl, if_neg (mt s.lanesQuiet_iff.1 busy)]
    · exact if_neg hp
  · rw [State.drainOn_open hm hd hc, if_pos (s.sheets.allClosed_iff.2 closed)]
    rfl
  · rw [State.drainOn_open hm hd hc, if_neg (mt s.sheets.allClosed_iff.1 busy)]
  · rw [State.drainOn_closed hm hd hc hq, if_pos ⟨hp, hr, s.lanesStill_iff.2 still⟩]
    exact ⟨_, rfl, rfl, State.giveAll_lanesOn _ rfl _, rfl⟩
  · rw [State.drainOn_closed hm hd hc hq, if_neg]
    rintro ⟨hp, hr, still⟩
    rcases h with h | h | h
    · simp [hp] at h
    · exact h hr
    · exact h (s.lanesStill_iff.1 still)
  · rw [State.drainOn_off hm hd hc hq hl (s.lanesOff_iff.2 off)]
    rfl
  · rw [State.drainOn_commit hm hd hc hq (hl.imp_right (mt s.lanesOff_iff.1)) hn]
    have cleanStore : (s.table.marker && !s.table.plainReq && !s.table.cleanReq) = true ↔
        s.table.marker = true ∧ s.table.plainReq = false ∧ s.table.cleanReq = false := by
      simp [and_assoc]
    refine ⟨fun ha => if_pos ha, fun ha hcm => ?_, fun ha hcm => ⟨fun clean => ?_, fun busy hf => ?_, fun busy hf => ?_⟩⟩
    · rw [if_neg (by simp [ha]), if_pos (Option.isSome_iff_ne_none.2 hcm)]
    · rw [if_neg (by simp [ha]), if_neg (by simp [hcm]), if_pos (cleanStore.2 clean)]
      rfl
    · rw [if_neg (by simp [ha]), if_neg (by simp [hcm]), if_neg (mt cleanStore.1 busy), if_neg (by simp [hf]),
        State.awaitClean_eq, hf]
      rfl
    · rw [if_neg (by simp [ha]), if_neg (by simp [hcm]), if_neg (mt cleanStore.1 busy), if_pos hf]
      simp [State.awaitClean_eq, State.setDrain, hf, ha]
  · rw [State.drainOn_done hm hd hc hq (hl.imp_right (mt s.lanesOff_iff.1)) hn]
    exact ⟨fun h => if_pos h, fun h => if_neg (by simp [h])⟩
  · rw [State.modeNotice_eq ha (.inl (by simp [hm])), hd]
    simp [hq]

end Sys2Proof.Machine
end

