-- ==== Sys2Proof/Proofs/FormKept.lean ====
section
/-! Every step keeps host memory and the page array in their canonical form, and the sheet queue at two addresses (R68;
log 3): the rules, and then the commands of the lanes, the coder and the bus, and the orders at their start. -/

namespace Sys2Proof.Machine

open Sys2Proof

/-- From `s` to `t` memory and array keep their canonical form, and the queue its bound. A change of anything else is
`⟨id, id, id⟩`: the three are the same values. -/
structure State.KeepsForm (s t : State) : Prop where
  mem : Memory.wf s.mem = true → Memory.wf t.mem = true
  array : Sparse.wf .erased s.array = true → Sparse.wf .erased t.array = true
  queue : s.queueFits = true → t.queueFits = true

namespace State.KeepsForm

theorem refl (s : State) : s.KeepsForm s := ⟨id, id, id⟩

theorem trans {s t u : State} (h : s.KeepsForm t) (g : t.KeepsForm u) : s.KeepsForm u :=
  ⟨g.mem ∘ h.mem, g.array ∘ h.array, g.queue ∘ h.queue⟩

/-- After a first change. -/
theorem after {s t u : State} (g : t.KeepsForm u) (h : s.KeepsForm t) : s.KeepsForm u := h.trans g

/-- What comes about inside the step changes none of the three. -/
theorem settle {s t : State} (h : s.KeepsForm t) : s.KeepsForm t.settle := h.trans ⟨id, id, id⟩

/-- A block's messages and reactions change none of the three. -/
theorem of_runs {k : ℤ} {s t : State} (h : s.Runs k t) : s.KeepsForm t := by
  have mem : t.mem = s.mem := (congrArg State.mem h.fixed :)
  have array : t.array = s.array := (congrArg State.array h.fixed :)
  have queue : t.sheets.queue = s.sheets.queue := (congrArg (·.sheets.queue) h.fixed :)
  refine ⟨fun hm => mem ▸ hm, fun ha => array ▸ ha, fun hq => ?_⟩
  rw [State.queueFits, queue]
  exact hq

/-- A command that a live part takes, by its own effect. -/
theorem of_takes {s t : State} {f : State → State} (h : s.takes f = .next t) (hf : s.KeepsForm (f s)) :
    s.KeepsForm t := by
  cases hs : s.live with
  | true =>
      rw [s.takes_live f hs] at h
      cases h
      exact hf.settle
  | false =>
      rw [s.takes_dead f hs] at h
      cases h
      exact .refl s

/-- A command that is its own effect alone. -/
theorem of_next {s t u : State} (h : (.next u : Result) = .next t) (hu : s.KeepsForm u) : s.KeepsForm t := by
  cases h
  exact hu

end State.KeepsForm

namespace State

variable (s : State)

open KeepsForm

/-! ## The lanes and the coder (chapters 1 and 3) -/

theorem setPage_keepsForm (l : Lane) (b r : Nat) (p : Page) : s.KeepsForm (s.setPage l b r p) :=
  ⟨id, Sparse.write_wf Page.erased s.array (pageKey l b r) p, id⟩

theorem setBlock_keepsForm (l : Lane) (b : Nat) (p : Page) : s.KeepsForm (s.setBlock l b p) := by
  refine ⟨fun h => by rwa [s.setBlock_mem], fun h => ?_, fun h => by rwa [queueFits, s.setBlock_sheets]⟩
  rw [s.setBlock_array]
  exact fillBlock_wf s.array l b p _ h

theorem finish_keepsForm (l : Lane) (c : LaneCtl) (op : LastOp) (o : Option PageOutcome) :
    s.KeepsForm (s.finish l c op o) := ⟨id, id, id⟩

theorem takeUnload_keepsForm (l : Lane) : s.KeepsForm (s.takeUnload l) := by
  unfold takeUnload
  dsimp only
  split
  · split
    · next page _ _ _ =>
        obtain ⟨c, hc⟩ := arrivePage_eq (s.setLane l (s.lane l).taken.freeCache) l page.id page.data
          (page.outcome.getD { cls := .good, highest := 0 })
        rw [hc]
        exact ⟨id, id, id⟩
    · exact .refl s
  · exact .refl s

theorem takeMove_keepsForm (l : Lane) : s.KeepsForm (s.takeMove l) := by
  unfold takeMove
  dsimp only
  split
  · split_ifs <;> exact ⟨id, id, id⟩
  · exact .refl s

theorem query_keepsForm (l : Lane) : s.KeepsForm (s.query l) := by
  obtain ⟨v, ms, h⟩ := s.query_eq l
  rw [h]
  exact ⟨id, id, id⟩

theorem endProgram_keepsForm (l : Lane) (pass : Bool) : s.KeepsForm (s.endProgram l pass) := by
  unfold endProgram
  dsimp only
  split
  · exact (s.setPage_keepsForm ..).trans (finish_keepsForm ..)
  · exact .refl s

theorem endRead_keepsForm (l : Lane) (seen : ArrayRead) : s.KeepsForm (s.endRead l seen) := by
  unfold endRead
  dsimp only
  split
  · exact s.finish_keepsForm ..
  · exact .refl s

theorem endMove_keepsForm (l : Lane) (seen : ArrayRead) (pass : Bool) : s.KeepsForm (s.endMove l seen pass) := by
  unfold endMove
  dsimp only
  split
  · split
    · exact (s.setPage_keepsForm ..).trans (finish_keepsForm ..)
    · exact s.finish_keepsForm ..
  · exact .refl s

theorem endErase_keepsForm (l : Lane) (pass : Bool) : s.KeepsForm (s.endErase l pass) := by
  unfold endErase
  dsimp only
  split
  · exact (s.setBlock_keepsForm ..).trans (finish_keepsForm ..)
  · exact .refl s

theorem beginWriteRow_keepsForm : s.KeepsForm s.beginWriteRow := by
  unfold beginWriteRow
  split <;> exact ⟨id, id, id⟩

theorem beginReadRow_keepsForm : s.KeepsForm s.beginReadRow := by
  unfold beginReadRow
  split <;> exact ⟨id, id, id⟩

theorem putWrite_keepsForm (a : WriteAsm) : s.KeepsForm (s.putWrite a) := by
  unfold putWrite
  dsimp only
  split <;> exact ⟨id, id, id⟩

theorem takeStagingWord_keepsForm : s.KeepsForm s.takeStagingWord := by
  unfold takeStagingWord coderTake
  dsimp only
  split
  · split
    · split
      · exact (putWrite_keepsForm _ _).after ⟨id, id, id⟩
      · exact ⟨id, id, id⟩
    · exact .refl s
  · exact .refl s

theorem placeLoad_keepsForm (h : Handing) (id_ : PageId) : s.KeepsForm (s.placeLoad h id_) := ⟨id, id, id⟩

theorem handPage_keepsForm : s.KeepsForm s.handPage := by
  unfold handPage
  split
  · split
    · exact (s.placeLoad_keepsForm ..).trans (putWrite_keepsForm ..)
    · exact .refl s
  · split
    · exact (s.placeLoad_keepsForm ..).trans (of_runs (Runs.putCopy ..))
    · exact .refl s
  · exact .refl s

theorem handNext_keepsForm : s.KeepsForm s.handNext := by
  unfold handNext
  split
  · split
    · unfold handRecordWord
      dsimp only
      split <;> exact ⟨id, id, id⟩
    · split
      · unfold handRowWord
        dsimp only
        split <;> exact ⟨id, id, id⟩
      · exact .refl s
  · exact .refl s

/-! ## The bus (chapter 8) -/

theorem busRead_keepsForm (reply : BusReply) (a n : Nat) : s.KeepsForm (s.busRead reply a n).1 := by
  unfold busRead
  dsimp only
  split <;> exact ⟨Memory.wf_hostStores s.mem reply, id, id⟩

theorem busWrite_keepsForm (reply : BusReply) (ws : List (Nat × Word)) : s.KeepsForm (s.busWrite reply ws).1 := by
  unfold busWrite
  dsimp only
  split <;> exact ⟨fun h => Memory.wf_writeWords _ _ (Memory.wf_hostStores s.mem reply h), id, id⟩

variable {s} in
/-- The state in which a single-beat read ends. -/
theorem keepsForm_of_beatRead {t : State} {reply : BusReply} {a : Nat} {w : Option Word}
    (h : s.beatRead reply a = (t, w)) : s.KeepsForm t := by
  have ht : (s.busRead reply a 1).1 = t := congrArg Prod.fst h
  exact ht ▸ s.busRead_keepsForm reply a 1

variable {s} in
/-- The state in which a write burst ends. -/
theorem keepsForm_of_busWrite {t : State} {reply : BusReply} {ws : List (Nat × Word)} {ok : Bool}
    (h : s.busWrite reply ws = (t, ok)) : s.KeepsForm t := by
  have ht : (s.busWrite reply ws).1 = t := congrArg Prod.fst h
  exact ht ▸ s.busWrite_keepsForm reply ws

theorem freePort_keepsForm : s.KeepsForm s.freePort := ⟨id, id, id⟩

theorem endBeat_keepsForm : s.KeepsForm s.endBeat := ⟨id, id, id⟩

theorem emitUnits_keepsForm (n : Nat) : s.KeepsForm (s.emitUnits n) := by
  induction n generalizing s with
  | zero => exact .refl s
  | succ n ih => exact (ih _).after ⟨id, id, id⟩

theorem endDescriptor_keepsForm (a : Nat) (got : List Word) (ws : Option (List Word)) :
    s.KeepsForm (s.endDescriptor a got ws) := by
  unfold endDescriptor
  split
  · exact ⟨id, id, id⟩
  · split
    · dsimp only
      split <;> exact ⟨id, id, id⟩
    · exact ⟨id, id, id⟩

theorem descriptorEnds_keepsForm (reply : BusReply) : s.KeepsForm (s.descriptorEnds reply) := by
  unfold descriptorEnds
  split
  · exact s.freePort_keepsForm.trans ((busRead_keepsForm ..).trans (endDescriptor_keepsForm ..))
  · exact .refl s

theorem burstStarts_keepsForm : s.KeepsForm s.burstStarts := by
  unfold burstStarts
  split <;> exact ⟨id, id, id⟩

theorem endReadBurst_keepsForm (ws : Option (List Word)) : s.KeepsForm (s.endReadBurst ws) := by
  unfold endReadBurst
  dsimp only
  split
  · exact ⟨id, id, id⟩
  · split
    · exact ⟨id, id, id⟩
    · split <;> exact ⟨id, id, id⟩

theorem endWriteBurst_keepsForm (n : Nat) (ok : Bool) : s.KeepsForm (s.endWriteBurst n ok) := by
  unfold endWriteBurst
  dsimp only
  split
  · exact (emitUnits_keepsForm _ _).after ⟨id, id, id⟩
  · exact ⟨id, id, id⟩

theorem burstEnds_keepsForm (reply : BusReply) : s.KeepsForm (s.burstEnds reply) := by
  unfold burstEnds
  split
  · exact s.freePort_keepsForm.trans ((busRead_keepsForm ..).trans (endReadBurst_keepsForm ..))
  · exact s.freePort_keepsForm.trans ((busWrite_keepsForm ..).trans (endWriteBurst_keepsForm ..))
  · exact .refl s

/-! ## Orders at their start (chapters 2, 5, 6 and 7) -/

theorem claimCoder_keepsForm (o : CoderOwner) : s.KeepsForm (s.claimCoder o) := of_runs (Runs.claimCoder s o)

theorem startMover_keepsForm (owner : MoverOwner) (dir : Direction) (head permit unit : Nat) (fill : Option Byte) :
    s.KeepsForm (s.startMover owner dir head permit unit fill) := ⟨id, id, id⟩

theorem startWrite_keepsForm (o : Order) : s.KeepsForm (s.startWrite o) := by
  unfold startWrite
  split
  · exact ⟨id, id, id⟩
  · exact (startMover_keepsForm ..).after ((claimCoder_keepsForm _ _).after ⟨id, id, id⟩)

theorem startRead_keepsForm (o : Order) : s.KeepsForm (s.startRead o) := by
  unfold startRead
  split
  · exact ⟨id, id, id⟩
  · exact (startMover_keepsForm ..).after ((claimCoder_keepsForm _ _).after ⟨id, id, id⟩)

theorem startCopy_keepsForm (o : Order) : s.KeepsForm (s.startCopy o) := by
  unfold startCopy
  split
  · exact ⟨id, id, id⟩
  · split_ifs
    · exact (claimCoder_keepsForm _ _).after ⟨id, id, id⟩
    · exact ⟨id, id, id⟩
    · exact ⟨id, id, id⟩

theorem eraseBegin_keepsForm : s.KeepsForm s.eraseBegin := by
  obtain ⟨v, ms, h⟩ := s.eraseBegin_eq
  rw [h]
  exact ⟨id, id, id⟩

theorem startErase_keepsForm (o : Order) : s.KeepsForm (s.startErase o) := by
  unfold startErase
  split
  · exact ⟨id, id, id⟩
  · dsimp only
    split
    · exact (eraseBegin_keepsForm _).after ⟨id, id, id⟩
    · exact ⟨id, id, id⟩

theorem startSeal_keepsForm (o : Order) : s.KeepsForm (s.startSeal o) := by
  unfold startSeal
  split <;> exact ⟨id, id, id⟩

theorem startQuery_keepsForm (o : Order) : s.KeepsForm (s.startQuery o) := by
  unfold startQuery
  split <;> exact ⟨id, id, id⟩

theorem startFreeze_keepsForm (o : Order) : s.KeepsForm (s.startFreeze o) := by
  unfold startFreeze
  split
  · exact ⟨id, id, id⟩
  · dsimp only
    split <;> exact ⟨id, id, id⟩

/-- No path touches memory, array or queue when it takes an order. -/
theorem handOrder_keepsForm (o : Order) : s.KeepsForm (s.handOrder o) := by
  unfold handOrder
  split
  case h_1 => exact s.startWrite_keepsForm o
  case h_2 => exact s.startRead_keepsForm o
  case h_3 => exact s.startCopy_keepsForm o
  case h_4 => exact s.startErase_keepsForm o
  case h_5 => exact s.startSeal_keepsForm o
  case h_6 => exact s.startQuery_keepsForm o
  case h_10 => exact s.startFreeze_keepsForm o
  all_goals exact ⟨id, id, id⟩

end State

end Sys2Proof.Machine
end

