-- ==== Sys2Proof/Proofs/FormInvariants.lean ====
section
/-! Sheets, modes, patrol, resets and the commits keep memory, array and queue in form, and so does every step (R68;
log 3). -/

namespace Sys2Proof.Machine

open Sys2Proof

theorem Sheets.setHand_queue (h : Sheets) (q : SheetRun) : (h.setHand q).queue = h.queue := by
  unfold Sheets.setHand
  split <;> rfl

theorem Sheets.dropHand_queue (h : Sheets) : h.dropHand.queue = h.queue := by
  unfold Sheets.dropHand
  split <;> rfl

namespace State

variable (s : State)

open KeepsForm

/-! ## Sheets (chapter 4) -/

variable {s} in
/-- The sheet processor changed, its queue as it was. -/
theorem keepsForm_of_queue {t : State} (hm : t.mem = s.mem) (ha : t.array = s.array)
    (hq : t.sheets.queue = s.sheets.queue) : s.KeepsForm t :=
  ⟨fun h => hm ▸ h, fun h => ha ▸ h, fun h => by rw [queueFits, hq]; exact h⟩

theorem sheetFault_keepsForm : s.KeepsForm s.sheetFault := keepsForm_of_queue rfl rfl s.sheets.dropHand_queue

theorem setAccess_keepsForm (a : Option SheetAccess) : s.KeepsForm (s.setAccess a) := ⟨id, id, id⟩

theorem activate_keepsForm : s.KeepsForm s.activate := by
  unfold activate
  split
  · split
    · next a rest hq =>
        refine ⟨id, id, fun fits => ?_⟩
        simp only [queueFits, hq, List.length_cons, decide_eq_true_eq] at fits ⊢
        omega
    · exact .refl s
  · exact .refl s

theorem startEntryRead_keepsForm : s.KeepsForm s.startEntryRead := by
  unfold startEntryRead
  split <;> exact ⟨id, id, id⟩

theorem endHeaderRead_keepsForm (reply : BusReply) : s.KeepsForm (s.endHeaderRead reply) := by
  unfold endHeaderRead
  split
  · split
    · next hr => exact (keepsForm_of_beatRead hr).trans (sheetFault_keepsForm _)
    · next hr =>
        split
        · exact (keepsForm_of_beatRead hr).trans (setAccess_keepsForm ..)
        · exact (keepsForm_of_beatRead hr).trans (keepsForm_of_queue rfl rfl (Sheets.setHand_queue ..))
  · exact .refl s

theorem takeEntry_keepsForm (i : Nat) (ws : List Word) : s.KeepsForm (s.takeEntry i ws) := by
  unfold takeEntry
  dsimp only
  split
  · exact s.setAccess_keepsForm none
  · split
    · exact ⟨id, id, id⟩
    · exact (handOrder_keepsForm _ _).after ⟨id, id, id⟩

theorem endEntryRead_keepsForm (reply : BusReply) : s.KeepsForm (s.endEntryRead reply) := by
  unfold endEntryRead
  split
  · split
    · next hr => exact (keepsForm_of_beatRead hr).trans (sheetFault_keepsForm _)
    · next hr =>
        split
        · exact (keepsForm_of_beatRead hr).trans (setAccess_keepsForm ..)
        · exact (keepsForm_of_beatRead hr).trans (takeEntry_keepsForm ..)
  · exact .refl s

theorem endResultWrite_keepsForm (reply : BusReply) : s.KeepsForm (s.endResultWrite reply) := by
  unfold endResultWrite
  split
  · split
    · next hr =>
        split
        · exact (keepsForm_of_busWrite hr).trans (setAccess_keepsForm ..)
        · exact (keepsForm_of_busWrite hr).trans (keepsForm_of_queue rfl rfl (Sheets.setHand_queue ..))
    · next hr => exact (keepsForm_of_busWrite hr).trans (sheetFault_keepsForm _)
  · exact .refl s

theorem endCompletionWrite_keepsForm (reply : BusReply) : s.KeepsForm (s.endCompletionWrite reply) := by
  unfold endCompletionWrite
  split
  · split
    · next hr =>
        dsimp only
        split <;> exact (keepsForm_of_busWrite hr).trans (keepsForm_of_queue rfl rfl (Sheets.dropHand_queue _))
    · next hr => exact (keepsForm_of_busWrite hr).trans (sheetFault_keepsForm _)
  · exact .refl s

/-- A sheet access that ends keeps the form when its own effect does. -/
theorem accessEnds_keepsForm (k : AccessKind) {f : State → State} (hf : ∀ t : State, t.KeepsForm (f t)) :
    s.KeepsForm (s.accessEnds k f) := by
  unfold accessEnds
  split
  · exact s.endBeat_keepsForm.trans (hf _)
  · exact .refl s

theorem answerRow_keepsForm (a : RowAnswer) : s.KeepsForm (s.answerRow a) := by
  rw [s.answerRow_eq]
  exact ⟨id, id, id⟩

theorem answerHeld_keepsForm (a : RowAnswer) : s.KeepsForm (s.answerHeld a) := by
  rw [s.answerHeld_eq]
  exact ⟨id, id, id⟩

theorem rowGo_keepsForm : s.KeepsForm s.rowGo := by
  unfold rowGo
  split
  · split
    case h_2 => exact ⟨id, id, id⟩
    all_goals exact s.answerRow_keepsForm _
  · exact .refl s

theorem hold_keepsForm : s.KeepsForm s.hold := by
  unfold hold
  split <;> exact ⟨id, id, id⟩

theorem resume_keepsForm : s.KeepsForm s.resume := by
  unfold resume
  dsimp only
  split
  · exact (answerHeld_keepsForm _ _).after ⟨id, id, id⟩
  · exact (answerHeld_keepsForm _ _).after ⟨id, id, id⟩
  all_goals exact ⟨id, id, id⟩

/-- Closing every sheet empties the queue. -/
theorem closeAll_keepsForm (e : Ending) (st : StopState) :
    s.KeepsForm { s with sheets := { s.sheets.closeAll e with stop := st } } := ⟨id, id, fun _ => rfl⟩

theorem abort_keepsForm : s.KeepsForm s.abort := by
  unfold abort
  split
  · split
    · exact (s.closeAll_keepsForm ..).trans (answerHeld_keepsForm ..)
    · exact (s.closeAll_keepsForm ..).trans (answerHeld_keepsForm ..)
    all_goals exact ⟨id, id, id⟩
  · exact ⟨id, id, id⟩

/-! ## Modes and patrol (chapters 9 and 10) -/

theorem drainSheets_keepsForm : s.KeepsForm s.drainSheets :=
  (s.closeAll_keepsForm ..).trans (answerHeld_keepsForm ..)

theorem enterDrain_keepsForm : s.KeepsForm s.enterDrain := (drainSheets_keepsForm _).after ⟨id, id, id⟩

theorem wakeUp_keepsForm : s.KeepsForm s.wakeUp := by
  obtain ⟨m, p, ms, h⟩ := s.wakeUp_eq
  rw [h]
  exact ⟨id, id, id⟩

/-- A post joins the queue when there is room. -/
theorem post_keepsForm (a : Word) : s.KeepsForm (s.post a) := by
  unfold post
  split
  · exact ⟨id, id, id⟩
  · next hpass =>
      refine .trans (t := s.enqueue a) ⟨id, id, fun _ => ?_⟩ (wakeUp_keepsForm _)
      rw [s.checkPost_eq] at hpass
      split_ifs at hpass with _ _ hroom
      simp [queueFits, enqueue, Config.queueDepth]
      omega

theorem apply_keepsForm : s.KeepsForm s.apply := by
  unfold apply
  dsimp only
  split_ifs <;> exact ⟨id, id, id⟩

theorem standby_keepsForm : s.KeepsForm s.standby := by
  unfold standby
  split <;> exact ⟨id, id, id⟩

theorem startWake_keepsForm : s.KeepsForm s.startWake := by
  unfold startWake
  split <;> exact ⟨id, id, id⟩

theorem patrolWakeUp_keepsForm : s.KeepsForm s.patrolWakeUp := by
  unfold patrolWakeUp
  split <;> exact ⟨id, id, id⟩

theorem wake_keepsForm : s.KeepsForm s.wake := by
  unfold wake
  split
  · exact s.startWake_keepsForm
  · exact s.patrolWakeUp_keepsForm
  all_goals exact ⟨id, id, id⟩

theorem warnAsserted_keepsForm : s.KeepsForm s.warnAsserted := by
  unfold warnAsserted
  dsimp only
  split
  case h_6 => split <;> exact ⟨id, id, id⟩
  case h_7 | h_8 | h_9 | h_10 => exact ⟨id, id, id⟩
  all_goals exact (enterDrain_keepsForm _).after ⟨id, id, id⟩

theorem second_keepsForm : s.KeepsForm s.second := by
  unfold second
  split
  · split_ifs <;> exact ⟨id, id, id⟩
  · exact .refl s

theorem timerExpiry_keepsForm : s.KeepsForm s.timerExpiry := by
  unfold timerExpiry
  split
  · split
    · exact .refl s
    · exact s.second_keepsForm
  · exact .refl s

theorem loadFuses_keepsForm : s.KeepsForm s.loadFuses := by
  unfold loadFuses
  split <;> exact ⟨id, id, id⟩

theorem endFuse_keepsForm : s.KeepsForm s.endFuse := by
  unfold endFuse
  split
  · dsimp only
    split <;> exact ⟨id, id, id⟩
  · exact .refl s

theorem configure_keepsForm (c : Applied) : s.KeepsForm (s.configure c) := by
  unfold configure
  dsimp only
  split_ifs
  · exact (enterDrain_keepsForm _).after ⟨id, id, id⟩
  all_goals exact ⟨id, id, id⟩

theorem takeConfig_keepsForm (m : Mode) (ws : List Word) : s.KeepsForm (s.takeConfig m ws) := by
  unfold takeConfig
  dsimp only
  split
  · exact ⟨id, id, id⟩
  · split
    · exact (configure_keepsForm _ _).after ⟨id, id, id⟩
    · exact ⟨id, id, id⟩

theorem endConfigRead_keepsForm (reply : BusReply) : s.KeepsForm (s.endConfigRead reply) := by
  unfold endConfigRead
  split
  · exact .refl s
  · split
    · next hr => exact (keepsForm_of_beatRead hr).trans ⟨id, id, id⟩
    · next hr =>
        split
        · exact (keepsForm_of_beatRead hr).trans ⟨id, id, id⟩
        · exact (keepsForm_of_beatRead hr).trans (takeConfig_keepsForm ..)

theorem configEnds_keepsForm (reply : BusReply) : s.KeepsForm (s.configEnds reply) := by
  unfold configEnds
  split
  · exact s.endBeat_keepsForm.trans (endConfigRead_keepsForm ..)
  · exact .refl s

theorem patrolVisit_keepsForm : s.KeepsForm s.patrolVisit := by
  unfold patrolVisit visitRow
  dsimp only
  split
  · split
    · split
      · exact ⟨id, id, id⟩
      · split
        · exact (s.claimCoder_keepsForm .patrol).trans ⟨id, id, id⟩
        · exact ⟨id, id, id⟩
    · exact .refl s
  · exact .refl s

theorem reportFailed_keepsForm (w : ReportWrite) : s.KeepsForm (s.reportFailed w) := by
  have drop := of_runs (Runs.dropFinding { s with patrol := { s.patrol with write := none, writeDone := 0 } })
  cases w
  case finding | headerFor => exact ⟨drop.mem, drop.array, drop.queue⟩
  all_goals exact ⟨id, id, id⟩

theorem reportEnds_keepsForm (reply : BusReply) : s.KeepsForm (s.reportEnds reply) := by
  unfold reportEnds endReportWrite
  split
  · split
    · exact ⟨id, id, id⟩
    · dsimp only
      split
      · next hr => exact s.freePort_keepsForm.trans ((keepsForm_of_busWrite hr).trans ⟨id, id, id⟩)
      · next hr => exact s.freePort_keepsForm.trans ((keepsForm_of_busWrite hr).trans (reportFailed_keepsForm ..))
  · exact .refl s

/-! ## The load and the commits (chapter 2) -/

theorem loadTable_keepsForm (agrees : Bool) : s.KeepsForm (s.loadTable agrees) := by
  unfold loadTable
  dsimp only
  split
  · split
    · split
      · exact ⟨id, id, id⟩
      · exact (of_runs (Runs.scanErasing _ 0)).after ⟨id, id, id⟩
    · exact ⟨id, id, id⟩
  · exact .refl s

theorem beginCommit_keepsForm : s.KeepsForm s.beginCommit := by
  unfold beginCommit
  split <;> exact ⟨id, id, id⟩

theorem commitEnds_keepsForm (pass : Bool) : s.KeepsForm (s.commitEnds pass) := by
  unfold commitEnds
  split
  · cases pass
    · rw [endCommit_fail]; exact ⟨id, id, id⟩
    · rw [endCommit_pass]; exact ⟨id, id, id⟩
  · exact .refl s

/-! ## Resets (9.7) -/

theorem cutWrites_keepsForm (cut : Cut) : s.KeepsForm (s.cutWrites cut) := ⟨Memory.wf_writeWords _ s.mem, id, id⟩

/-- An abandoned lane operation leaves pages, or a block, indeterminate. -/
theorem abandonLane_keepsForm (before : State) (cut : Cut) (l : Lane) : s.KeepsForm (before.abandonLane cut s l) := by
  unfold abandonLane
  split
  · exact s.setPage_keepsForm ..
  · split
    · exact s.setPage_keepsForm ..
    · exact .refl s
  · exact s.setBlock_keepsForm ..
  all_goals exact .refl s

theorem abandonLanes_keepsForm (cut : Cut) : s.KeepsForm (s.abandonLanes cut) := by
  have fold (ls : List Lane) (t : State) : t.KeepsForm (ls.foldl (s.abandonLane cut) t) := by
    induction ls generalizing t with
    | nil => exact .refl t
    | cons l rest ih => exact (t.abandonLane_keepsForm s cut l).trans (ih _)
  exact (fold Lane.all s).trans ⟨id, id, id⟩

theorem resetBlocks_keepsForm (cut : Cut) : s.KeepsForm (s.resetBlocks cut) :=
  (s.abandonLanes_keepsForm cut).trans ⟨id, id, fun _ => rfl⟩

theorem coldStart_keepsForm : s.KeepsForm s.coldStart := by
  unfold coldStart
  dsimp only
  split <;> exact ⟨id, id, id⟩

theorem cutAndReset_keepsForm (cut : Cut) : s.KeepsForm ((s.cutWrites cut).resetBlocks cut) :=
  (s.cutWrites_keepsForm cut).trans (resetBlocks_keepsForm _ cut)

theorem softReset_keepsForm (cut : Cut) : s.KeepsForm (s.softReset cut) :=
  (s.cutAndReset_keepsForm cut).trans (coldStart_keepsForm _)

theorem assertReset_keepsForm (cut : Cut) : s.KeepsForm (s.assertReset cut) :=
  (s.cutAndReset_keepsForm cut).trans ⟨id, id, id⟩

theorem withdrawReset_keepsForm : s.KeepsForm s.withdrawReset := (coldStart_keepsForm _).after ⟨id, id, id⟩

theorem loseSupply_keepsForm (cut : Cut) : s.KeepsForm (s.loseSupply cut) :=
  (s.cutAndReset_keepsForm cut).trans ⟨id, id, id⟩

theorem gainSupply_keepsForm (lockEn warn inhibit : Bool) (cut : Cut) :
    s.KeepsForm (s.gainSupply lockEn warn inhibit cut) := by
  unfold gainSupply
  dsimp only
  split
  · exact (s.resetBlocks_keepsForm cut).trans ⟨id, id, id⟩
  · exact (coldStart_keepsForm _).after ((s.resetBlocks_keepsForm cut).trans ⟨id, id, id⟩)

theorem powerOn_keepsForm (lockEn warn inhibit : Bool) (cut : Cut) :
    s.KeepsForm (s.powerOn lockEn warn inhibit cut) := by
  unfold powerOn
  split
  · exact (s.loseSupply_keepsForm cut).trans (gainSupply_keepsForm ..)
  · exact s.gainSupply_keepsForm ..

/-! ## Register writes (chapter 11) -/

theorem controlCommand_keepsForm (i : Nat) : s.KeepsForm (s.controlCommand i) := by
  unfold controlCommand
  split
  · exact s.apply_keepsForm
  · exact s.hold_keepsForm
  · exact s.resume_keepsForm
  · exact s.abort_keepsForm
  · exact s.standby_keepsForm
  · exact s.wake_keepsForm
  · exact ⟨id, id, id⟩

theorem writeControl_keepsForm (v : Word) (cut : Cut) : s.KeepsForm (s.writeControl v cut) := by
  unfold writeControl
  split
  · exact s.softReset_keepsForm cut
  · split
    · exact .refl s
    · exact s.controlCommand_keepsForm _
    · exact ⟨id, id, id⟩

theorem writeRegister_keepsForm (offset bytes : Nat) (v : Word) (cut : Cut) :
    s.KeepsForm (s.writeRegister offset bytes v cut) := by
  unfold writeRegister
  split_ifs
  · exact .refl s
  · exact s.post_keepsForm v
  · exact s.writeControl_keepsForm v cut
  all_goals exact ⟨id, id, id⟩

end State

/-! ## One step -/

/-- Every command keeps the form, and so does what comes about with it. -/
theorem exec_keepsForm {i : Instr} {s t : State} (h : exec i s = .next t) : s.KeepsForm t := by
  cases i with
  | powerOn lockEn warn inhibit cut => exact .of_next h (s.powerOn_keepsForm lockEn warn inhibit cut)
  | resetNAsserted cut =>
      refine .of_next h ?_
      split_ifs
      · exact .refl s
      · exact s.assertReset_keepsForm cut
      · exact ⟨id, id, id⟩
  | resetNWithdrawn =>
      refine .of_next h ?_
      split_ifs
      · exact s.withdrawReset_keepsForm
      · exact ⟨id, id, id⟩
      · exact .refl s
  | softReset cut =>
      refine .of_next h ?_
      unfold State.whenLive
      split
      · exact s.softReset_keepsForm cut
      · exact .refl s
  | lossOfSupply cut =>
      refine .of_next h ?_
      split
      · exact s.loseSupply_keepsForm cut
      · exact .refl s
  | writeInhibitAsserted | writeInhibitWithdrawn | eventsWrite | eventEnableWrite =>
      refine .of_next h ?_
      unfold State.whenLive
      split <;> exact ⟨id, id, id⟩
  | fuseWriteEnd =>
      refine .of_next h ?_
      split
      · exact s.endFuse_keepsForm.settle
      · exact .refl s
  | registerWrite offset bytes value cut => exact .of_takes h (s.writeRegister_keepsForm offset bytes value cut)
  | tableLoad agrees => exact .of_takes h (s.loadTable_keepsForm agrees)
  | commitStart => exact .of_takes h s.beginCommit_keepsForm
  | commitEnd pass => exact .of_takes h (s.commitEnds_keepsForm pass)
  | pwrWarnAsserted =>
      exact (State.KeepsForm.of_takes h (State.warnAsserted_keepsForm { s with warnLine := true })).after ⟨id, id, id⟩
  | pwrWarnWithdrawn =>
      exact (State.KeepsForm.of_takes (s := { s with warnLine := false }) h ⟨id, id, id⟩).after ⟨id, id, id⟩
  | post address => exact .of_takes h (s.post_keepsForm address)
  | apply => exact .of_takes h s.apply_keepsForm
  | hold => exact .of_takes h s.hold_keepsForm
  | resume => exact .of_takes h s.resume_keepsForm
  | abort => exact .of_takes h s.abort_keepsForm
  | standby => exact .of_takes h s.standby_keepsForm
  | wake => exact .of_takes h s.wake_keepsForm
  | patrolTimerExpiry => exact .of_takes h s.timerExpiry_keepsForm
  | fuseRowLoad => exact .of_takes h s.loadFuses_keepsForm
  | cacheUnload l => exact .of_takes h (s.takeUnload_keepsForm l)
  | pageMove l => exact .of_takes h (s.takeMove_keepsForm l)
  | resultQuery l => exact .of_takes h (s.query_keepsForm l)
  | programEnd l pass => exact .of_takes h (s.endProgram_keepsForm l pass)
  | readEnd l seen => exact .of_takes h (s.endRead_keepsForm l seen)
  | moveEnd l seen pass => exact .of_takes h (s.endMove_keepsForm l seen pass)
  | blockEraseEnd l pass => exact .of_takes h (s.endErase_keepsForm l pass)
  | beginWriteRow => exact .of_takes h s.beginWriteRow_keepsForm
  | stagingWordTaken => exact .of_takes h s.takeStagingWord_keepsForm
  | pageHanded => exact .of_takes h s.handPage_keepsForm
  | beginReadRow => exact .of_takes h s.beginReadRow_keepsForm
  | wordHanded => exact .of_takes h s.handNext_keepsForm
  | sheetActivation => exact .of_takes h s.activate_keepsForm
  | orderStart => exact .of_takes h s.startEntryRead_keepsForm
  | headerReadEnd reply => exact .of_takes h (s.accessEnds_keepsForm .header fun u => u.endHeaderRead_keepsForm reply)
  | entryReadEnd reply => exact .of_takes h (s.accessEnds_keepsForm .entry fun u => u.endEntryRead_keepsForm reply)
  | resultWriteEnd reply =>
      exact .of_takes h (s.accessEnds_keepsForm .result fun u => u.endResultWrite_keepsForm reply)
  | completionWriteEnd reply =>
      exact .of_takes h (s.accessEnds_keepsForm .completion fun u => u.endCompletionWrite_keepsForm reply)
  | rowGo => exact .of_takes h s.rowGo_keepsForm
  | descriptorReadEnd reply => exact .of_takes h (s.descriptorEnds_keepsForm reply)
  | burstStart => exact .of_takes h s.burstStarts_keepsForm
  | burstEnd reply => exact .of_takes h (s.burstEnds_keepsForm reply)
  | configReadEnd reply => exact .of_takes h (s.configEnds_keepsForm reply)
  | patrolVisit => exact .of_takes h s.patrolVisit_keepsForm
  | reportWriteEnd reply => exact .of_takes h (s.reportEnds_keepsForm reply)
  | reportClear | cacheLoad | cacheCommit | cacheDiscard | pageRead | blockErase | powerDown | powerUp | transferEnd
    | powerUpEnd => exact .of_takes h ⟨id, id, id⟩

theorem step_keepsForm {s t : State} (h : step s = .next t) : s.KeepsForm t := by
  unfold step at h
  split at h
  · exact (exec_keepsForm h).after ⟨id, id, id⟩
  · exact .of_takes h s.second_keepsForm

/-- Settles O60: the canonical form of memory and array, and the bound of the queue, are kept by every step. -/
theorem memoryAndQueueKeepForm : Obligations.MemoryAndQueueKeepForm := by
  refine ⟨fun s t hs h => ?_, fun s t hs h => (step_keepsForm h).queue hs⟩
  rw [State.canonical, Bool.and_eq_true] at hs ⊢
  obtain ⟨mem, array⟩ := hs
  exact ⟨(step_keepsForm h).mem mem, (step_keepsForm h).array array⟩

end Sys2Proof.Machine
end

