-- ==== Sys2Proof/Proofs/RowsCommitted.lean ====
section
/-! WRITE ROWS from the question to the commit: a row is asked for, begun (R92, R93), loaded (R93, R99) and given its
store permit (R95). -/

namespace Sys2Proof.Machine

open Sys2Proof

variable {s : State}

/-! ## Requests given to lanes (R6) -/

theorem State.lane_giveAll (s : State) (q : LaneReq) (ls : List Lane) (l : Lane) : (s.giveAll q ls).lane l =
    if l ∈ ls then { s.lane l with waiting := (s.lane l).waiting ++ [q] } else s.lane l := by
  rw [State.lane, State.giveAll, Six.get_build]
  simp only [List.contains_iff_mem]

theorem State.lane_give (s : State) (k : Lane) (q : LaneReq) (l : Lane) : (s.give k q).lane l =
    if l = k then { s.lane l with waiting := (s.lane l).waiting ++ [q] } else s.lane l := by
  rw [State.give]
  split
  · next h => rw [h, State.lane_setLane_same]
  · next h => rw [State.lane_setLane_other _ _ h]

@[simp] theorem State.giveAll_writer (s : State) (q : LaneReq) (ls : List Lane) :
    (s.giveAll q ls).writer = s.writer := rfl

/-- The first ending set stands (R106). -/
theorem Writer.setEnding_eq (w : Writer) (st : OrderStatus) :
    w.setEnding st = { w with ending := some (w.ending.getD st) } := by
  cases h : w.ending with
  | none => simp only [Writer.setEnding, h, Option.getD_none]
  | some e => simp only [Writer.setEnding, h, Option.getD_some]; rw [← h]

/-! ## The question and the begin (R92, R93) -/

/-- A row may be asked for beside none in flight, or beside one that is COMMITTED. -/
theorem State.writerAsks_iff (s : State) : s.writerAsks = true ↔
    s.writer.order ≠ none ∧ s.writer.toBegin ≠ 0 ∧ s.writer.ending = none ∧ s.writer.stopped = none ∧
      s.writer.go = false ∧ s.sheets.questionHeld = false ∧
      (s.writer.flights = [] ∨ ∃ f, s.writer.flights = [f] ∧ f.cond = .committed) := by
  unfold State.writerAsks
  rcases hf : s.writer.flights with _ | ⟨f, _ | ⟨g, rest⟩⟩
  · simp [hf, and_assoc, Option.isSome_iff_ne_none]
  · simp [hf, and_assoc, Option.isSome_iff_ne_none]
  · simp [hf]

/-- Row N as it begins, its pages to be loaded in these lanes (R93). -/
def Writer.nextFlight (w : Writer) (lanes : List Lane) : Flight :=
  { row := w.nextRow, cond := .assembling, loadSet := lanes, loaded := [], committed := [], awaited := [], failed := [],
    permitAsked := false }

/-- BEGIN WRITE ROW for row N (R49, R93). -/
def Writer.nextBegin (w : Writer) (lanes : List Lane) : RowBegin :=
  { band := w.band, row := w.nextRow, level := w.level, purpose := .deliver, lanes := lanes }

/-- The lanes present at row N and not failed (R93). -/
def State.loadLanes (s : State) : List Lane :=
  lanesMinus ((s.band s.writer.band).present s.writer.nextRow) s.writer.lanesFailed

theorem State.beginRow_eq (s : State) : s.beginRow = { s with
    writer := { s.writer with
      toBegin := s.writer.toBegin - 1, nextRow := s.writer.nextRow + 1,
      openWait := s.writer.openWait || decide ((s.band s.writer.band).state = .blank),
      flights := s.writer.flights ++ [s.writer.nextFlight s.loadLanes] },
    coder := { s.coder with beginWrite := some (s.writer.nextBegin s.loadLanes) },
    signals := s.signals ++ (if (s.band s.writer.band).state = .blank then
      [.update .writer (.openBand s.writer.band) true] else []) } := by
  unfold State.beginRow
  by_cases h : (s.band s.writer.band).state = .blank
  · simp [h, State.emit, Writer.nextFlight, Writer.nextBegin, State.loadLanes]
  · simp [h, Writer.nextFlight, Writer.nextBegin, State.loadLanes]

theorem State.writerBegin_waits (he : s.writer.ending = none) (hw : s.writer.lostWaits ≠ 0) :
    s.writerBegin = none := by
  simp [State.writerBegin, he, hw]

theorem State.writerBegin_ended (hgo : s.writer.go = true) (he : s.writer.ending ≠ none) :
    s.writerBegin = some { s with writer := { s.writer with go := false } } := by
  have hsome : s.writer.ending.isSome = true := Option.isSome_iff_ne_none.2 he
  simp [State.writerBegin, hgo, hsome]

theorem State.writerBegin_locked (hgo : s.writer.go = true) (he : s.writer.ending = none)
    (hw : s.writer.lostWaits = 0) (hl : s.protect.locked s.writer.band = true) :
    s.writerBegin = some { s with writer := { s.writer with go := false, ending := some .protected_ } } := by
  simp [State.writerBegin, Writer.setEnding_eq, hgo, he, hw, hl]

theorem State.writerBegin_begins (hgo : s.writer.go = true) (he : s.writer.ending = none)
    (hw : s.writer.lostWaits = 0) (hl : s.protect.locked s.writer.band = false) :
    s.writerBegin = some (State.beginRow { s with writer := { s.writer with go := false } }) := by
  simp [State.writerBegin, hgo, he, hw, hl]

/-! ## ROW LOADED (R93, R99) -/

/-- The discard given is a further one: the page is in the cache register, or in the port on its way there (log 19). -/
theorem State.mem_lateLoads (ls : List Lane) (l : Lane) : l ∈ s.lateLoads ls ↔
    l ∈ s.writer.lanesFailed ∧ l ∈ ls ∧
      ((s.lane l).cache ≠ none ∨ ∃ g id page, (s.lane l).port = some (g, .cacheLoad id page)) := by
  simp only [State.lateLoads, List.mem_filter, LaneCtl.request, ← Option.isSome_iff_ne_none, Bool.and_eq_true,
    Bool.or_eq_true, List.contains_iff_mem]
  rw [and_left_comm]
  rcases hp : (s.lane l).port with _ | ⟨g, q⟩
  · simp
  · cases q <;> simp

/-! ## The commit and its permit (R95) -/

theorem Writer.commitDue_opening {w : Writer} (h : w.openWait = true) : w.commitDue = none := if_pos h

theorem Writer.commitDue_oldest {w : Writer} {f : Flight} {rest : List Flight} (ho : w.openWait = false)
    (hf : w.flights = f :: rest) (hc : f.cond = .loaded) (ha : f.permitAsked = false) : w.commitDue = some f := by
  simp [Writer.commitDue, ho, hf, hc, ha]

theorem Writer.commitDue_behind {w : Writer} {f g : Flight} {rest : List Flight} (ho : w.openWait = false)
    (hf : w.flights = f :: g :: rest) (hc : f.cond = .committed) (hg : g.cond = .loaded) (ha : g.permitAsked = false) :
    w.commitDue = some g := by
  simp [Writer.commitDue, ho, hf, hc, hg, ha]

theorem Writer.commitDue_unready {w : Writer} {f : Flight} {rest : List Flight} (hf : w.flights = f :: rest)
    (hl : f.cond ≠ .loaded) (hc : f.cond ≠ .committed) : w.commitDue = none := by
  simp [Writer.commitDue, hf, hl, hc]

/-- Changing one row leaves rows of other numbers. -/
theorem Flight.map_other_rows {fs : List Flight} {row : Nat} {u : Flight → Flight} (h : ∀ g ∈ fs, g.row ≠ row) :
    fs.map (fun g => if g.row = row then u g else g) = fs :=
  (List.map_congr_left fun g hg => if_neg (h g hg)).trans (List.map_id fs)

/-- The permit is asked for the row that is due; no other row changes. -/
theorem State.writerCommit_asks {f : Flight} {pre rest : List Flight} (hd : s.writer.commitDue = some f)
    (hf : s.writer.flights = pre ++ f :: rest) (hpre : ∀ h ∈ pre, h.row ≠ f.row) (hrest : ∀ h ∈ rest, h.row ≠ f.row) :
    s.writerCommit = some { s with
      writer := { s.writer with flights := pre ++ { f with permitAsked := true } :: rest },
      signals := s.signals ++ [.askPermit .writer] } := by
  simp [State.writerCommit, hd, Writer.mapRow, hf, Flight.map_other_rows hpre, Flight.map_other_rows hrest, State.emit]

theorem State.writerCommit_idle (hd : s.writer.commitDue = none) : s.writerCommit = none := by
  simp [State.writerCommit, hd]

/-- The rows in flight without one row. -/
def State.withoutRow (s : State) (row : Nat) : State :=
  { s with writer := { s.writer with flights := s.writer.flights.filter (fun g => decide (g.row ≠ row)) } }

theorem State.withoutRow_eq (s : State) (row : Nat) :
    { s with writer := { s.writer with flights := s.writer.flights.filter (fun g => g.row != row) } } =
      s.withoutRow row := by
  have same : (fun g : Flight => g.row != row) = fun g => decide (g.row ≠ row) := by
    funext g
    rw [bne, decide_not, beq_eq_decide]
  rw [same, State.withoutRow]

/-- A LOADED row is discarded: it leaves the list, and its lanes discard its page (R105). -/
theorem State.discardFlight_loaded {f : Flight} (hc : f.cond = .loaded) :
    s.discardFlight f = (s.withoutRow f.row).giveAll .cacheDiscard f.loaded := by
  rw [State.discardFlight, State.withoutRow_eq, hc]

/-- The row whose store permit has been asked for. -/
def Writer.permitRow (w : Writer) : Option Flight :=
  w.flights.find? (fun f => f.permitAsked && decide (f.cond = .loaded))

theorem State.writerPermit_refused {f : Flight} (hf : s.writer.permitRow = some f) :
    s.writerPermit false = State.discardFlight { s with writer := s.writer.setEnding .storeFault } f := by
  rw [Writer.permitRow] at hf
  simp [State.writerPermit, hf]

theorem State.writerPermit_locked {f : Flight} (hf : s.writer.permitRow = some f)
    (hl : s.protect.locked s.writer.band = true) :
    s.writerPermit true = State.discardFlight { s with writer := s.writer.setEnding .protected_ } f := by
  rw [Writer.permitRow] at hf
  simp [State.writerPermit, hf, hl]

theorem State.writerPermit_granted {f : Flight} (hf : s.writer.permitRow = some f)
    (hl : s.protect.locked s.writer.band = false) :
    let ls := lanesMinus f.loaded s.writer.lanesFailed
    s.writerPermit true = State.giveAll { s with
      writer := { s.writer with flights := s.writer.flights.map (fun h => if h.row = f.row ∧ h.cond = .loaded then
        { h with cond := .committed, committed := ls, awaited := ls, permitAsked := false } else h) } }
      .cacheCommit ls := by
  rw [Writer.permitRow] at hf
  simp [State.writerPermit, hf, hl, Writer.mapRow, ← ite_and]

/-! ## The obligation -/

/-- Settles O40: the question, the begin, ROW LOADED, and the permit asked for and answered. -/
theorem writerBeginsAndCommitsRows : Obligations.WriterBeginsAndCommitsRows := by
  refine ⟨fun s => s.writerAsks_iff, fun s hgo => ⟨?waits, ?ended, ?locked, ?begins⟩, fun s ls => ⟨rfl, fun l => ?_⟩,
    fun s f g rest => ⟨fun ho => ?_, fun ho hf hc ha hrow => ?_, fun ho hf hc hg ha hrow => ?_, fun hf hl hc => ?_⟩,
    fun s f hc hf => ⟨?refused, fun hl => ?held, fun hl => ?granted⟩⟩
  case waits => exact State.writerBegin_waits
  case ended => exact State.writerBegin_ended hgo
  case locked => exact State.writerBegin_locked hgo
  case begins =>
    intro he hw hl
    rw [State.writerBegin_begins hgo he hw hl, State.beginRow_eq]
    rfl
  · have lane : (s.writerLoaded ls).lane l = _ := State.lane_giveAll _ .cacheDiscard (s.lateLoads ls) l
    rw [lane]
    exact ⟨fun h => if_pos (State.mem_lateLoads ls l |>.2 h), fun h => if_neg (mt (State.mem_lateLoads ls l).1 h)⟩
  · exact State.writerCommit_idle (Writer.commitDue_opening ho)
  · exact State.writerCommit_asks (pre := []) (Writer.commitDue_oldest ho hf hc ha) hf (by simp) hrow
  · exact State.writerCommit_asks (pre := [f]) (rest := []) (Writer.commitDue_behind ho hf hc hg ha) hf
      (by simpa using hrow) (by simp)
  · exact State.writerCommit_idle (Writer.commitDue_unready hf hl hc)
  case refused =>
    rw [State.writerPermit_refused hf, State.discardFlight_loaded hc, Writer.setEnding_eq]
    exact ⟨State.lane_giveAll _ _ _, rfl⟩
  case held =>
    rw [State.writerPermit_locked hf hl, State.discardFlight_loaded hc, Writer.setEnding_eq]
    exact ⟨State.lane_giveAll _ _ _, rfl⟩
  case granted =>
    rw [State.writerPermit_granted hf hl]
    exact ⟨State.lane_giveAll _ _ _, rfl⟩

end Sys2Proof.Machine
end

