-- ==== Sys2Proof/Proofs/RowsDiscarded.lean ====
section
/-! How rows of WRITE ROWS are given up (R101, R105): what becomes of the rows in flight, and what the lanes and the
coder are told. -/

namespace Sys2Proof.Machine

open Sys2Proof

variable {s t u : State}

/-! ## What is asked of the state -/

/-- The lane with more requests waiting behind the others (R6). -/
def LaneCtl.waits (c : LaneCtl) (qs : List LaneReq) : LaneCtl := { c with waiting := c.waiting ++ qs }

@[simp] theorem LaneCtl.waits_nil (c : LaneCtl) : c.waits [] = c := by simp [LaneCtl.waits]

theorem LaneCtl.waits_waits (c : LaneCtl) (qs rs : List LaneReq) : (c.waits qs).waits rs = c.waits (qs ++ rs) := by
  rw [LaneCtl.waits, LaneCtl.waits, LaneCtl.waits, List.append_assoc]

/-- The lane with `n` more requests CACHE DISCARD waiting. -/
def LaneCtl.discards (c : LaneCtl) (n : Nat) : LaneCtl := c.waits (List.replicate n .cacheDiscard)

@[simp] theorem LaneCtl.discards_zero (c : LaneCtl) : c.discards 0 = c := c.waits_nil

@[simp] theorem LaneCtl.discards_cache (c : LaneCtl) (n : Nat) : (c.discards n).cache = c.cache := rfl

theorem LaneCtl.discards_discards (c : LaneCtl) (m n : Nat) : (c.discards m).discards n = c.discards (m + n) := by
  rw [LaneCtl.discards, LaneCtl.discards, LaneCtl.waits_waits, List.replicate_append_replicate, LaneCtl.discards]

theorem State.lane_give_waits (s : State) (l : Lane) (q : LaneReq) (k : Lane) :
    (s.give l q).lane k = (s.lane k).waits (if k = l then [q] else []) := by
  rw [State.lane_give]
  split
  · rfl
  · exact (LaneCtl.waits_nil _).symm

theorem State.lane_giveAll_discard (s : State) (ls : List Lane) (k : Lane) :
    (s.giveAll .cacheDiscard ls).lane k = (s.lane k).discards (ls.contains k).toNat := by
  rw [State.lane_giveAll]
  by_cases h : k ∈ ls <;> simp [h, LaneCtl.discards, LaneCtl.waits]

/-- The coder has placed the lane's page of this row. -/
def State.placed (s : State) (k : Lane) (row : Nat) : Bool :=
  s.coder.write.elim false (fun a => decide (a.row = row) && a.loaded.contains k)

/-- Given up from row `n` on, the row has the lane discard its page (R101, R105). -/
def State.throws (s : State) (n : Nat) (f : Flight) (k : Lane) : Bool :=
  decide (n ≤ f.row) && match f.cond with
    | .committed => f.awaited.contains k && s.heldAt k f.row
    | .loaded => f.loaded.contains k
    | .assembling => s.placed k f.row
    | .discarding => false

/-- The flight is of this row and being loaded, and the rows from `n` on are given up. -/
def Flight.givenUp (n : Nat) (f : Flight) (row : Nat) : Bool :=
  decide (n ≤ f.row) && f.isAssembling && decide (f.row = row)

/-- The coder has not taken the row that is given up. -/
def State.withdraws (s : State) (n : Nat) (f : Flight) (row : Nat) : Bool :=
  f.givenUp n row && !s.assembles f.row

/-- What is left of a row in flight when those from `n` on are given up (R101). -/
def State.leaves (s : State) (n : Nat) (f : Flight) : Option Flight :=
  if f.row < n then some f
  else match f.cond with
    | .committed => some { f with cond := .discarding, awaited := f.awaited.filter (fun k => !s.heldAt k f.row) }
    | .assembling => none
    | .loaded => none
    | .discarding => some f

/-! ## What giving rows up changes -/

/-- Nothing outside the lanes, the coder and the rows in flight differs. -/
structure State.SameBesideRows (s t : State) : Prop where
  signals : t.signals = s.signals
  table : t.table = s.table
  mover : t.mover = s.mover
  writer : t.writer = { s.writer with flights := t.writer.flights }

theorem State.SameBesideRows.trans (h : s.SameBesideRows t) (h' : t.SameBesideRows u) : s.SameBesideRows u where
  signals := h'.signals.trans h.signals
  table := h'.table.trans h.table
  mover := h'.mover.trans h.mover
  writer := by rw [h'.writer, h.writer]

/-- From `s` to `t` each lane was given some discards more, the coder abandoned a row of some kind and a BEGIN WRITE ROW
of some kind was withdrawn. -/
structure State.Discards (s t : State) (thrown : Lane → Nat) (abandoned withdrawn : Nat → Bool) : Prop where
  lane : ∀ k, t.lane k = (s.lane k).discards (thrown k)
  write : t.coder.write = s.coder.write.filter (fun a => !abandoned a.row)
  beginWrite : t.coder.beginWrite = s.coder.beginWrite.filter (fun b => !withdrawn b.row)

namespace State.Discards

variable {m n : Lane → Nat} {ab wd ab' wd' : Nat → Bool}

theorem trans (h : s.Discards t m ab wd) (h' : t.Discards u n ab' wd') :
    s.Discards u (fun k => m k + n k) (fun r => ab r || ab' r) (fun r => wd r || wd' r) where
  lane k := by rw [h'.lane, h.lane, LaneCtl.discards_discards]
  write := by
    rw [h'.write, h.write, Option.filter_filter]
    simp
  beginWrite := by
    rw [h'.beginWrite, h.beginWrite, Option.filter_filter]
    simp

theorem heldAt (h : s.Discards t m ab wd) (k : Lane) (row : Nat) : t.heldAt k row = s.heldAt k row := by
  rw [State.heldAt, h.lane, LaneCtl.discards_cache, State.heldAt]

/-- A lane has a discard for each of the rows that it throws. -/
theorem lane_waits {fs : List Flight} {p : Lane → Flight → Bool} (h : s.Discards t (fun k => fs.countP (p k)) ab wd)
    (k : Lane) : t.lane k = (s.lane k).waits (List.replicate (fs.filter (p k)).length .cacheDiscard) := by
  rw [h.lane, List.countP_eq_length_filter, LaneCtl.discards]

/-- A row that is not abandoned stands in the assembly as before. -/
theorem placed (h : s.Discards t m ab wd) {row : Nat} (hr : ab row = false) (k : Lane) :
    t.placed k row = s.placed k row := by
  rw [State.placed, h.write, State.placed]
  cases s.coder.write with
  | none => rfl
  | some a => by_cases ha : a.row = row <;> cases hab : ab a.row <;> simp_all [Option.filter_some]

theorem assembles (h : s.Discards t m ab wd) {row : Nat} (hr : ab row = false) :
    t.assembles row = s.assembles row := by
  rw [State.assembles, h.write, State.assembles]
  cases s.coder.write with
  | none => rfl
  | some a => by_cases ha : a.row = row <;> cases hab : ab a.row <;> simp_all [Option.filter_some]

end State.Discards

/-! ## One row -/

/-- A row being loaded is discarded once the coder has taken it: the coder abandons it (R105). -/
theorem State.discardFlight_taken {f : Flight} (hc : f.cond = .assembling) (ha : s.assembles f.row = true) :
    s.discardFlight f = (s.withoutRow f.row).abandonRow.giveAll .cacheDiscard s.placedLanes := by
  rw [State.discardFlight, State.withoutRow_eq, hc]
  exact if_pos ha

/-- Before that its BEGIN WRITE ROW is withdrawn (R154; log 47). -/
theorem State.discardFlight_waiting {f : Flight} (hc : f.cond = .assembling) (ha : s.assembles f.row = false) :
    s.discardFlight f = (s.withoutRow f.row).withdrawWrite f.row := by
  rw [State.discardFlight, State.withoutRow_eq, hc]
  exact if_neg (Bool.eq_false_iff.1 ha)

/-- A row that is LOADED or being loaded leaves the list as it is discarded, and nothing else does. -/
theorem State.discardFlight_beside {f : Flight} (hc : f.cond = .assembling ∨ f.cond = .loaded) :
    s.SameBesideRows (s.discardFlight f) ∧
      (s.discardFlight f).writer.flights = s.writer.flights.filter (fun g => decide (g.row ≠ f.row)) := by
  rcases hc with hc | hc
  · cases ha : s.assembles f.row with
    | true => rw [State.discardFlight_taken hc ha]; exact ⟨⟨rfl, rfl, rfl, rfl⟩, rfl⟩
    | false => rw [State.discardFlight_waiting hc ha]; exact ⟨⟨rfl, rfl, rfl, rfl⟩, rfl⟩
  · rw [State.discardFlight_loaded hc]; exact ⟨⟨rfl, rfl, rfl, rfl⟩, rfl⟩

theorem State.failRow_below {n : Nat} {f : Flight} (hn : f.row < n) : s.failRow n f = s := if_pos hn

theorem State.failRow_discarding {n : Nat} {f : Flight} (hc : f.cond = .discarding) : s.failRow n f = s := by
  rw [State.failRow, hc, ite_self]

/-- Row `n` or one behind it, not committed, is discarded (R101). -/
theorem State.failRow_uncommitted {n : Nat} {f : Flight} (hn : n ≤ f.row)
    (hc : f.cond = .assembling ∨ f.cond = .loaded) : s.failRow n f = s.discardFlight f := by
  rw [State.failRow, if_neg (by omega)]
  rcases hc with hc | hc <;> rw [hc]

/-- Row `n` or one behind it, COMMITTED, is DISCARDING; the pages of it that stand HELD are discarded (R101). -/
theorem State.failRow_committed {n : Nat} {f : Flight} (hn : n ≤ f.row) (hc : f.cond = .committed) :
    s.failRow n f = State.giveAll { s with writer := s.writer.mapRow f.row (fun g =>
      { g with cond := .discarding, awaited := lanesMinus g.awaited (f.awaited.filter (fun l => s.heldAt l f.row)) }) }
      .cacheDiscard (f.awaited.filter (fun l => s.heldAt l f.row)) := by
  rw [State.failRow, if_neg (by omega), hc]

theorem State.failRow_sameBesideRows (s : State) (n : Nat) (f : Flight) : s.SameBesideRows (s.failRow n f) := by
  rcases Nat.lt_or_ge f.row n with hn | hn
  · rw [State.failRow_below hn]; exact ⟨rfl, rfl, rfl, rfl⟩
  · cases hc : f.cond with
    | assembling => rw [State.failRow_uncommitted hn (.inl hc)]; exact (State.discardFlight_beside (.inl hc)).1
    | loaded => rw [State.failRow_uncommitted hn (.inr hc)]; exact (State.discardFlight_beside (.inr hc)).1
    | committed => rw [State.failRow_committed hn hc]; exact ⟨rfl, rfl, rfl, rfl⟩
    | discarding => rw [State.failRow_discarding hc]; exact ⟨rfl, rfl, rfl, rfl⟩

theorem State.assembles_iff (s : State) (row : Nat) :
    s.assembles row = true ↔ ∃ a, s.coder.write = some a ∧ a.row = row := by
  rw [State.assembles]
  cases s.coder.write <;> simp

/-- The lanes in which a row's pages were placed are those of the row that the coder holds. -/
theorem State.placed_of_assembles {row : Nat} (h : s.assembles row = true) (k : Lane) :
    s.placed k row = s.placedLanes.contains k := by
  obtain ⟨a, ha, hr⟩ := (s.assembles_iff row).1 h
  simp [State.placed, State.placedLanes, ha, hr]

theorem State.placed_of_not_assembles {row : Nat} (h : s.assembles row = false) (k : Lane) :
    s.placed k row = false := by
  rw [State.assembles] at h
  rw [State.placed]
  cases hw : s.coder.write with
  | none => rfl
  | some a => simp_all

theorem Option.filter_keeps {α : Type} {p : α → Bool} {o : Option α} (h : ∀ a ∈ o, p a = true) : o.filter p = o := by
  cases o with
  | none => rfl
  | some a => rw [Option.filter_some, if_pos (h a rfl)]

theorem Flight.givenUp_assembling {n : Nat} {f : Flight} (hn : n ≤ f.row) (hc : f.cond = .assembling) :
    f.givenUp n = fun r => decide (f.row = r) := by
  funext r
  simp [Flight.givenUp, Flight.isAssembling, hn, hc]

theorem Flight.givenUp_below {n : Nat} {f : Flight} (hn : f.row < n) (r : Nat) : f.givenUp n r = false := by
  simp [Flight.givenUp, hn]

theorem Flight.givenUp_other {f : Flight} (hc : f.cond ≠ .assembling) (n r : Nat) : f.givenUp n r = false := by
  simp [Flight.givenUp, Flight.isAssembling, hc]

/-- A row that is not being loaded, or before row `n`, is no concern of the coder. -/
theorem State.Discards.of_lanes {thrown : Lane → Nat} {n : Nat} {f : Flight}
    (hl : ∀ k, t.lane k = (s.lane k).discards (thrown k)) (hc : t.coder = s.coder) (hg : ∀ r, f.givenUp n r = false) :
    s.Discards t thrown (f.givenUp n) (s.withdraws n f) where
  lane := hl
  write := by rw [hc, Option.filter_keeps]; simp [hg]
  beginWrite := by rw [hc, Option.filter_keeps]; simp [State.withdraws, hg]

/-- What one row being loaded has the lanes and the coder do. -/
theorem State.discardFlight_discards {f : Flight} (hc : f.cond = .assembling) :
    s.Discards (s.discardFlight f) (fun k => (s.placed k f.row).toNat) (fun r => decide (f.row = r))
      (fun r => decide (f.row = r) && !s.assembles f.row) := by
  cases ha : s.assembles f.row with
  | true =>
      obtain ⟨a, hw, hr⟩ := (s.assembles_iff f.row).1 ha
      rw [State.discardFlight_taken hc ha]
      refine ⟨fun k => ?_, ?_, ?_⟩
      · rw [State.lane_giveAll_discard, State.placed_of_assembles ha]; rfl
      · rw [hw, Option.filter_some, if_neg (by simp [hr])]; rfl
      · rw [Option.filter_keeps (by simp)]; rfl
  | false =>
      rw [State.discardFlight_waiting hc ha]
      refine ⟨fun k => ?_, ?_, ?_⟩
      · rw [State.placed_of_not_assembles ha]; exact (LaneCtl.discards_zero _).symm
      · refine (Option.filter_keeps fun a hw => ?_).symm
        have other : a.row ≠ f.row := fun hr => Bool.eq_false_iff.1 ha ((s.assembles_iff f.row).2 ⟨a, hw, hr⟩)
        simpa using other.symm
      · refine congrArg (Option.filter · s.coder.beginWrite) (funext fun b => ?_)
        simp [eq_comm]

/-- What one row given up has the lanes and the coder do. -/
theorem State.failRow_discards (s : State) (n : Nat) (f : Flight) :
    s.Discards (s.failRow n f) (fun k => (s.throws n f k).toNat) (f.givenUp n) (s.withdraws n f) := by
  rcases Nat.lt_or_ge f.row n with hn | hn
  · rw [State.failRow_below hn]
    exact .of_lanes (by simp [State.throws, Nat.not_le.2 hn]) rfl (Flight.givenUp_below hn)
  · cases hc : f.cond with
    | assembling =>
        have thrown (k : Lane) : s.throws n f k = s.placed k f.row := by simp [State.throws, hn, hc]
        have withdrawn : s.withdraws n f = fun r => decide (f.row = r) && !s.assembles f.row := by
          funext r
          rw [State.withdraws, Flight.givenUp_assembling hn hc]
        rw [State.failRow_uncommitted hn (.inl hc), Flight.givenUp_assembling hn hc, withdrawn]
        simpa only [thrown] using State.discardFlight_discards hc
    | loaded =>
        have thrown (k : Lane) : s.throws n f k = f.loaded.contains k := by simp [State.throws, hn, hc]
        rw [State.failRow_uncommitted hn (.inr hc), State.discardFlight_loaded hc]
        simp only [thrown]
        exact .of_lanes (State.lane_giveAll_discard _ _) rfl (Flight.givenUp_other (by simp [hc]) n)
    | committed =>
        have thrown (k : Lane) : s.throws n f k = (f.awaited.filter (fun l => s.heldAt l f.row)).contains k := by
          simp [State.throws, hn, hc]
        rw [State.failRow_committed hn hc]
        simp only [thrown]
        exact .of_lanes (State.lane_giveAll_discard _ _) rfl (Flight.givenUp_other (by simp [hc]) n)
    | discarding =>
        rw [State.failRow_discarding hc]
        exact .of_lanes (by simp [State.throws, hc]) rfl (Flight.givenUp_other (by simp [hc]) n)

theorem lanesMinus_filter (ls : List Lane) (p : Lane → Bool) :
    lanesMinus ls (ls.filter p) = ls.filter (fun l => !p l) :=
  List.filter_congr fun l hl => by simp [hl]

/-- What one row given up leaves in flight: of the rows before and behind it all. -/
theorem State.failRow_flights {n : Nat} {f : Flight} {pre rest : List Flight} (hf : s.writer.flights = pre ++ f :: rest)
    (hpre : ∀ g ∈ pre, g.row ≠ f.row) (hrest : ∀ g ∈ rest, g.row ≠ f.row) :
    (s.failRow n f).writer.flights = pre ++ (s.leaves n f).toList ++ rest := by
  rcases Nat.lt_or_ge f.row n with hn | hn
  · simp [State.failRow_below hn, State.leaves, hn, hf]
  · have hn' : ¬f.row < n := by omega
    have without (hc : f.cond = .assembling ∨ f.cond = .loaded) :
        (s.failRow n f).writer.flights = pre ++ rest := by
      rw [State.failRow_uncommitted hn hc, (State.discardFlight_beside hc).2, hf, List.filter_append,
        List.filter_cons_of_neg (by simp), List.filter_eq_self.2 (by simpa using hpre),
        List.filter_eq_self.2 (by simpa using hrest)]
    cases hc : f.cond with
    | assembling => simp [without (.inl hc), State.leaves, hn', hc]
    | loaded => simp [without (.inr hc), State.leaves, hn', hc]
    | discarding => simp [State.failRow_discarding hc, State.leaves, hc, hf]
    | committed =>
        rw [State.failRow_committed hn hc]
        simp [Writer.mapRow, hf, Flight.map_other_rows hpre, Flight.map_other_rows hrest, State.leaves, hn', hc,
          lanesMinus_filter]

/-! ## Every row in flight -/

theorem State.failRows_sameBesideRows (s : State) (n : Nat) (fs : List Flight) :
    s.SameBesideRows (s.failRows n fs) := by
  induction fs generalizing s with
  | nil => exact ⟨rfl, rfl, rfl, rfl⟩
  | cons f fs ih => exact (s.failRow_sameBesideRows n f).trans (ih _)

theorem Flight.givenUp_of_ne {f : Flight} {row : Nat} (h : row ≠ f.row) (n : Nat) : f.givenUp n row = false := by
  simp [Flight.givenUp, h.symm]

/-- One row given up changes nothing of what giving up another one does. -/
theorem State.failRow_other (s : State) (n : Nat) {f g : Flight} (h : g.row ≠ f.row) :
    (s.failRow n f).throws n g = s.throws n g ∧ (s.failRow n f).withdraws n g = s.withdraws n g ∧
      (s.failRow n f).leaves n g = s.leaves n g := by
  have given := s.failRow_discards n f
  have hf := Flight.givenUp_of_ne h n
  refine ⟨funext fun k => ?_, funext fun r => ?_, ?_⟩
  · simp only [State.throws, given.heldAt, given.placed hf]
  · simp only [State.withdraws, given.assembles hf]
  · simp only [State.leaves, given.heldAt]

/-- The rows are given up each for itself. -/
theorem State.failRows_discards (s : State) (n : Nat) {fs : List Flight} (h : (fs.map (·.row)).Nodup) :
    s.Discards (s.failRows n fs) (fun k => fs.countP (fun g => s.throws n g k))
      (fun r => fs.any (fun g => g.givenUp n r)) (fun r => fs.any (fun g => s.withdraws n g r)) := by
  induction fs generalizing s with
  | nil => exact ⟨fun k => by simp [State.failRows], by simp [State.failRows, Option.filter_keeps],
      by simp [State.failRows, Option.filter_keeps]⟩
  | cons f fs ih =>
      obtain ⟨hf, hfs⟩ := List.nodup_cons.1 h
      have other (g : Flight) (hg : g ∈ fs) :=
        s.failRow_other n (f := f) (g := g) fun e => hf (List.mem_map.2 ⟨g, hg, e⟩)
      have both := (s.failRow_discards n f).trans (ih (s.failRow n f) hfs)
      refine ⟨fun k => ?_, ?_, ?_⟩
      · rw [State.failRows, both.lane]
        have same : fs.countP (fun g => (s.failRow n f).throws n g k) = fs.countP (fun g => s.throws n g k) :=
          List.countP_congr fun g hg => by rw [(other g hg).1]
        rw [same, List.countP_cons, Nat.add_comm]
        cases s.throws n f k <;> rfl
      · rw [State.failRows, both.write]; rfl
      · rw [State.failRows, both.beginWrite]
        refine congrArg (Option.filter · s.coder.beginWrite) (funext fun b => ?_)
        have same : fs.any (fun g => (s.failRow n f).withdraws n g b.row) = fs.any (fun g => s.withdraws n g b.row) :=
          Bool.eq_iff_iff.2 (by
            simp only [List.any_eq_true]
            exact exists_congr fun g => and_congr_right fun hg => by rw [(other g hg).2.1])
        rw [same, List.any_cons]

/-- What is left of a row is of that row. -/
theorem State.leaves_rows (s : State) (n : Nat) (f : Flight) :
    ((s.leaves n f).toList.map (·.row)).Sublist [f.row] := by
  unfold State.leaves
  split
  · exact .refl _
  · split
    · exact .refl _
    · exact List.nil_sublist _
    · exact List.nil_sublist _
    · exact .refl _

/-- What is left in flight behind rows that are not given up. -/
theorem State.failRows_flights {n : Nat} {pre fs : List Flight} (hf : s.writer.flights = pre ++ fs)
    (h : ((pre ++ fs).map (·.row)).Nodup) :
    (s.failRows n fs).writer.flights = pre ++ fs.filterMap (s.leaves n) := by
  induction fs generalizing s pre with
  | nil => exact hf
  | cons f fs ih =>
      have h' := h
      rw [List.map_append, List.map_cons, List.nodup_append, List.nodup_cons] at h'
      obtain ⟨-, ⟨hrest, -⟩, apart⟩ := h'
      have behind (g : Flight) (hg : g ∈ fs) : g.row ≠ f.row := fun e => hrest (List.mem_map.2 ⟨g, hg, e⟩)
      have before (g : Flight) (hg : g ∈ pre) : g.row ≠ f.row :=
        apart _ (List.mem_map_of_mem hg) _ List.mem_cons_self
      have one := State.failRow_flights (n := n) hf before behind
      have same : fs.filterMap ((s.failRow n f).leaves n) = fs.filterMap (s.leaves n) :=
        List.filterMap_congr fun g hg => (s.failRow_other n (behind g hg)).2.2
      have nodup : ((pre ++ (s.leaves n f).toList ++ fs).map (·.row)).Nodup := by
        refine h.sublist ?_
        simp only [List.map_append, List.map_cons]
        exact ((List.Sublist.refl _).append (s.leaves_rows n f)).append (.refl _) |>.trans (by simp)
      rw [State.failRows, ih one nodup, same, List.append_assoc]
      cases hl : s.leaves n f <;> simp [hl]

/-- To discard rows not committed is to give them up, whatever their numbers (R105). -/
theorem State.discardAll_eq (s : State) {fs : List Flight} (h : ∀ f ∈ fs, f.cond = .assembling ∨ f.cond = .loaded) :
    s.discardAll fs = s.failRows 0 fs := by
  induction fs generalizing s with
  | nil => rfl
  | cons f fs ih =>
      obtain ⟨hf, hfs⟩ := List.forall_mem_cons.1 h
      rw [State.discardAll, State.failRows, State.failRow_uncommitted (Nat.zero_le _) hf, ih _ hfs]

theorem State.discardAll_flights (s : State) {fs : List Flight}
    (h : ∀ f ∈ fs, f.cond = .assembling ∨ f.cond = .loaded) :
    (s.discardAll fs).writer.flights = s.writer.flights.filter (fun g => fs.all (fun f => decide (g.row ≠ f.row))) := by
  induction fs generalizing s with
  | nil => simp [State.discardAll]
  | cons f fs ih =>
      obtain ⟨hf, hfs⟩ := List.forall_mem_cons.1 h
      rw [State.discardAll, ih _ hfs, (State.discardFlight_beside hf).2, List.filter_filter]
      simp only [List.all_cons, Bool.and_comm]

/-- Among rows of different numbers those of a kind are left out by their numbers. -/
theorem Flight.filter_rows {fs : List Flight} (h : (fs.map (·.row)).Nodup) (p : Flight → Bool) :
    fs.filter (fun g => (fs.filter p).all (fun f => decide (g.row ≠ f.row))) = fs.filter (fun g => !p g) := by
  refine List.filter_congr fun g hg => Bool.eq_iff_iff.2 ?_
  simp only [List.all_eq_true, List.mem_filter, decide_eq_true_eq, Bool.not_eq_true']
  refine ⟨fun hrow => Bool.eq_false_iff.2 fun hp => hrow g ⟨hg, hp⟩ rfl, fun hp f hf e => ?_⟩
  obtain ⟨hmem, hpf⟩ := hf
  rw [List.inj_on_of_nodup_map h hg hmem e, hpf] at hp
  cases hp

/-- The rows of one kind discarded: the others stay, and the rest of the row writer's context with them. -/
theorem State.discardAll_writer {p : Flight → Bool} (hnd : (s.writer.flights.map (·.row)).Nodup)
    (hp : ∀ f, p f = true → f.cond = .assembling ∨ f.cond = .loaded) :
    (s.discardAll (s.writer.flights.filter p)).writer =
      { s.writer with flights := s.writer.flights.filter (fun g => !p g) } := by
  have hfs : ∀ f ∈ s.writer.flights.filter p, f.cond = .assembling ∨ f.cond = .loaded :=
    fun f hf => hp f (List.mem_filter.1 hf).2
  have kept := (s.failRows_sameBesideRows 0 (s.writer.flights.filter p)).writer
  rw [← s.discardAll_eq hfs, s.discardAll_flights hfs, Flight.filter_rows hnd] at kept
  exact kept

/-! ## What the coder was told -/

theorem Flight.givenUp_iff (n : Nat) (f : Flight) (row : Nat) :
    f.givenUp n row = true ↔ n ≤ f.row ∧ f.cond = .assembling ∧ f.row = row := by
  simp [Flight.givenUp, Flight.isAssembling, and_assoc]

namespace State.Discards

variable {n : Nat} {fs : List Flight} {thrown : Lane → Nat} {wd : Nat → Bool}

theorem write_abandoned (d : s.Discards t thrown (fun r => fs.any (fun g => g.givenUp n r)) wd)
    (h : ∃ g ∈ fs, n ≤ g.row ∧ g.cond = .assembling ∧ ∃ a, s.coder.write = some a ∧ a.row = g.row) :
    t.coder.write = none := by
  obtain ⟨g, hg, hn, hc, a, ha, hr⟩ := h
  have given : fs.any (fun g => g.givenUp n a.row) = true :=
    List.any_eq_true.2 ⟨g, hg, (g.givenUp_iff n _).2 ⟨hn, hc, hr.symm⟩⟩
  rw [d.write, ha, Option.filter_some, given]
  rfl

theorem write_kept (d : s.Discards t thrown (fun r => fs.any (fun g => g.givenUp n r)) wd)
    (h : ¬∃ g ∈ fs, n ≤ g.row ∧ g.cond = .assembling ∧ ∃ a, s.coder.write = some a ∧ a.row = g.row) :
    t.coder.write = s.coder.write := by
  rw [d.write, Option.filter_keeps]
  intro a ha
  rw [Bool.not_eq_true', List.any_eq_false]
  intro g hg given
  obtain ⟨hn, hc, hr⟩ := (g.givenUp_iff n _).1 given
  exact h ⟨g, hg, hn, hc, a, ha, hr.symm⟩

theorem beginWrite_none {ab : Nat → Bool} (d : s.Discards t thrown ab wd) (h : s.coder.beginWrite = none) :
    t.coder.beginWrite = none := by
  rw [d.beginWrite, h]
  rfl

theorem beginWrite_withdrawn {ab : Nat → Bool} {b : RowBegin} (d : s.Discards t thrown ab wd)
    (h : s.coder.beginWrite = some b) (hw : wd b.row = true) : t.coder.beginWrite = none := by
  rw [d.beginWrite, h, Option.filter_some, hw]
  rfl

theorem beginWrite_kept {ab : Nat → Bool} {b : RowBegin} (d : s.Discards t thrown ab wd)
    (h : s.coder.beginWrite = some b) (hw : wd b.row = false) : t.coder.beginWrite = some b := by
  rw [d.beginWrite, h, Option.filter_some, hw]
  rfl

end State.Discards

/-- A BEGIN WRITE ROW is withdrawn whose row is being loaded, given up and not in the coder's assembly. -/
theorem State.any_withdraws_iff (s : State) (n : Nat) (fs : List Flight) (row : Nat) :
    fs.any (fun g => s.withdraws n g row) = true ↔ ∃ g ∈ fs, n ≤ g.row ∧ g.cond = .assembling ∧
      (¬∃ a, s.coder.write = some a ∧ a.row = g.row) ∧ g.row = row := by
  rw [List.any_eq_true]
  refine exists_congr fun g => and_congr_right fun _ => ?_
  rw [State.withdraws, Bool.and_eq_true, Flight.givenUp_iff, ← s.assembles_iff, Bool.not_eq_true', Bool.not_eq_true,
    and_assoc, and_assoc, and_comm (a := g.row = row)]

/-- What is left in flight, as a list. -/
theorem State.filterMap_leaves (s : State) (n : Nat) (fs : List Flight) : fs.filterMap (s.leaves n) =
    (fs.filter (fun g => decide (g.row < n) || decide (g.cond = .committed) || decide (g.cond = .discarding))).map
      (fun g => if n ≤ g.row ∧ g.cond = .committed then
        { g with cond := .discarding, awaited := g.awaited.filter (fun k => !s.heldAt k g.row) } else g) := by
  rw [← List.filterMap_eq_filter, ← List.filterMap_eq_map, List.filterMap_filterMap]
  refine List.filterMap_congr fun g _ => ?_
  by_cases hn : g.row < n
  · simp [State.leaves, hn]
  · cases hc : g.cond <;> simp [State.leaves, Option.guard, hn, hc, Nat.le_of_not_lt hn]

end Sys2Proof.Machine
end

