-- ==== Sys2Proof/Proofs/RowsEnd.lean ====
section
/-! WRITE ROWS from the report to the result: rows complete (R96), fail (R99 to R102) and are discarded (R94, R105), and
the order ends (R106). -/

namespace Sys2Proof.Machine

open Sys2Proof

variable {s t : State}

/-! ## Completion (R96) and the rows that leave (R101) -/

theorem State.writerComplete_completes {f : Flight} {rest : List Flight} (hf : s.writer.flights = f :: rest)
    (hc : f.cond = .committed) (ha : f.awaited = [])
    (hl : ∀ l ∈ f.failed, (s.band s.writer.band).absent l f.row = true) :
    s.writerComplete = some { s with
      writer := { s.writer with flights := rest, rowsDone := s.writer.rowsDone + 1 },
      signals := s.signals ++ [.update .writer (.rowComplete s.writer.band f.row) false] } := by
  simp [State.writerComplete, State.emit, hf, hc, ha, List.all_eq_true.2 hl]

theorem State.writerComplete_waits {f : Flight} {rest : List Flight} (hf : s.writer.flights = f :: rest)
    (h : f.cond ≠ .committed ∨ f.awaited ≠ [] ∨ ∃ l ∈ f.failed, (s.band s.writer.band).absent l f.row = false) :
    s.writerComplete = none := by
  have hno : ¬(f.cond = .committed ∧ f.awaited = [] ∧
      f.failed.all (fun l => (s.band s.writer.band).absent l f.row) = true) := by
    rintro ⟨hc, ha, hl⟩
    rcases h with h | h | ⟨l, hmem, h⟩
    · exact h hc
    · exact h ha
    · rw [List.all_eq_true.1 hl l hmem] at h
      cases h
  rw [State.writerComplete, hf]
  exact if_neg hno

theorem State.writerDiscarded_eq (s : State) : s.writerDiscarded =
    if ∃ f ∈ s.writer.flights, f.cond = .discarding ∧ f.awaited = [] then
      some { s with writer := { s.writer with
        flights := s.writer.flights.filter (fun f => !(decide (f.cond = .discarding) && decide (f.awaited = []))) } }
    else none := by
  simp only [State.writerDiscarded, List.any_eq_true, Bool.and_eq_true, decide_eq_true_eq, List.isEmpty_iff]
  congr!
  rename_i f
  cases f.awaited <;> rfl

/-! ## A program's report (R96, R99, R102) -/

/-- A row in flight once lane `l` has failed at row `n`: its own report is no longer awaited there or behind (R99). -/
def Flight.failsAt (f : Flight) (l : Lane) (n : Nat) : Flight :=
  { f with awaited := if n ≤ f.row then dropLane f.awaited l else f.awaited,
           failed := if f.row = n then addLane f.failed l else f.failed }

/-- The row writer's context once lane `l` has failed at row `n` (R99). -/
def Writer.failsAt (w : Writer) (l : Lane) (n : Nat) : Writer :=
  { w with lanesFailed := addLane w.lanesFailed l, flights := w.flights.map (fun f => f.failsAt l n) }

theorem mem_addLane {ls : List Lane} {l k : Lane} : k ∈ addLane ls l ↔ k ∈ ls ∨ k = l := by
  have hk : k ∈ Lane.all := by cases k <;> decide
  simp [addLane, hk, or_comm]

theorem Flight.mem_failsAt_failed (f : Flight) (l k : Lane) (n : Nat) :
    k ∈ (f.failsAt l n).failed ↔ k ∈ f.failed ∨ (f.row = n ∧ k = l) := by
  by_cases h : f.row = n <;> simp [Flight.failsAt, mem_addLane, h]

theorem State.writerReport_pass {l : Lane} {op : LastOp} (h : op.outcome = .pass) : s.writerReport l op =
    { s with writer := s.writer.mapRow op.row (fun g => { g with awaited := dropLane g.awaited l }) } := by
  rw [State.writerReport, if_neg (by simp [h])]

/-- While no row is failing the update is given, and its notice awaited (R99; log 20). -/
theorem State.writerReport_fail {l : Lane} {op : LastOp} (h : op.outcome = .fail) (hf : s.writer.failing = none) :
    s.writerReport l op = ((State.emit { s with
        writer := { s.writer.failsAt l op.row with lostWaits := s.writer.lostWaits + 1 } }
        (.update .writer (.programFail s.writer.band l op.row) true)).give l .cacheDiscard).withdrawLane l := by
  rw [State.writerReport, if_pos h, State.writerFail]
  split
  next => rfl
  next hsome => rw [hf] at hsome; cases hsome

/-- What a FAIL with no failing row set gives to the table, the lane and the coder (R99). -/
theorem State.writerReport_fail_gives {l : Lane} {op : LastOp} (h : op.outcome = .fail) (hf : s.writer.failing = none) :
    (s.writerReport l op).writer =
        { s.writer.failsAt l op.row with lostWaits := s.writer.lostWaits + 1 } ∧
      (s.writerReport l op).signals = s.signals ++ [.update .writer (.programFail s.writer.band l op.row) true] ∧
      (∀ k, (s.writerReport l op).lane k =
        if k = l then { s.lane k with waiting := (s.lane k).waiting ++ [.cacheDiscard] } else s.lane k) ∧
      (s.writerReport l op).coder.write =
        s.coder.write.map (fun a => { a with loadSet := dropLane a.loadSet l }) := by
  rw [State.writerReport_fail h hf]
  exact ⟨rfl, rfl, State.lane_give _ l .cacheDiscard, rfl⟩

/-- With a failing row set no update is given; a FAIL below it gives up the rows from its own on as well (R102). -/
theorem State.writerReport_failing {l : Lane} {op : LastOp} {f : Nat} (h : op.outcome = .fail)
    (hf : s.writer.failing = some f) :
    s.writerReport l op = ((if op.row < f then
        State.failRows { s with writer := s.writer.failsAt l op.row } op.row (s.writer.failsAt l op.row).flights
      else { s with writer := s.writer.failsAt l op.row }).give l .cacheDiscard).withdrawLane l := by
  rw [State.writerReport, if_pos h, State.writerFail]
  split
  next hnone => rw [hf] at hnone; cases hnone
  next hsome => rw [hf] at hsome; cases hsome; rfl

@[simp] theorem State.lane_withdrawLane (s : State) (l k : Lane) : (s.withdrawLane l).lane k = s.lane k := rfl

/-- A FAIL leaves the signals, the waits and the ending alone once a row is failing (R102). -/
theorem State.writerReport_failing_keeps {l : Lane} {op : LastOp} {f : Nat} (h : op.outcome = .fail)
    (hf : s.writer.failing = some f) : (s.writerReport l op).signals = s.signals ∧
      (s.writerReport l op).writer = { s.writer.failsAt l op.row with
        flights := (s.writerReport l op).writer.flights } := by
  rw [State.writerReport_failing h hf]
  split
  · have kept := State.failRows_sameBesideRows { s with writer := s.writer.failsAt l op.row } op.row
      (s.writer.failsAt l op.row).flights
    exact ⟨kept.signals, kept.writer⟩
  · exact ⟨rfl, rfl⟩

/-! ## The failing row (R101, R102) -/

/-- The failing row is set, if none was, and the rows from `n` on are given up. -/
theorem State.writerFailed_eq (s : State) (n : Nat) : s.writerFailed n = State.failRows { s with
    writer := { s.writer with
      failing := some (s.writer.failing.getD n),
      ending := if s.writer.failing = none then some .programFail else s.writer.ending } } n s.writer.flights := by
  cases hf : s.writer.failing with
  | none => simp [State.writerFailed, hf]
  | some m =>
      have same : { s.writer with failing := some m, ending := s.writer.ending } = s.writer := by rw [← hf]
      simp [State.writerFailed, hf, same]

/-- The rows from `n` on given up in a state that differs from `s` in the row writer alone. -/
theorem State.failRows_of_writer (s : State) {w : Writer} {fs : List Flight} (n : Nat) (hw : w.flights = fs)
    (h : (fs.map (·.row)).Nodup) :
    let t := State.failRows { s with writer := w } n fs
    t.writer = { w with flights := fs.filterMap (s.leaves n) } ∧ t.signals = s.signals ∧
      s.Discards t (fun k => fs.countP (fun g => s.throws n g k)) (fun r => fs.any (fun g => g.givenUp n r))
        (fun r => fs.any (fun g => s.withdraws n g r)) := by
  obtain ⟨signals, -, -, writer⟩ := State.failRows_sameBesideRows { s with writer := w } n fs
  rw [State.failRows_flights (s := { s with writer := w }) (pre := []) hw h] at writer
  obtain ⟨lane, write, beginWrite⟩ := State.failRows_discards { s with writer := w } n h
  exact ⟨writer, signals, lane, write, beginWrite⟩

/-- The band FAILED, or the failure not recorded: the rows from the failing row on are given up (R101, R102). -/
theorem State.writerFailed_gives (n : Nat) (hnd : (s.writer.flights.map (·.row)).Nodup) :
    (s.writerFailed n).writer = { s.writer with
      failing := some (s.writer.failing.getD n),
      ending := if s.writer.failing = none then some .programFail else s.writer.ending,
      flights := s.writer.flights.filterMap (s.leaves n) } ∧
    (s.writerFailed n).signals = s.signals ∧
    s.Discards (s.writerFailed n) (fun k => s.writer.flights.countP (fun g => s.throws n g k))
      (fun r => s.writer.flights.any (fun g => g.givenUp n r))
      (fun r => s.writer.flights.any (fun g => s.withdraws n g r)) := by
  rw [State.writerFailed_eq]
  exact s.failRows_of_writer n rfl hnd

/-- A FAIL of the failing row or one behind it: the lane discards its page (R102). -/
theorem State.writerReport_behind {l : Lane} {op : LastOp} {f : Nat} (h : op.outcome = .fail)
    (hf : s.writer.failing = some f) (hn : f ≤ op.row) :
    (s.writerReport l op).writer = s.writer.failsAt l op.row ∧
      ∀ k, (s.writerReport l op).lane k = (s.lane k).waits (if k = l then [.cacheDiscard] else []) := by
  rw [State.writerReport_failing h hf, if_neg (by omega)]
  exact ⟨rfl, State.lane_give_waits _ l .cacheDiscard⟩

/-- A FAIL below the failing row gives up the rows from its own row on as well (R102). -/
theorem State.writerReport_below {l : Lane} {op : LastOp} {f : Nat} {fs : List Flight} (h : op.outcome = .fail)
    (hf : s.writer.failing = some f) (hn : op.row < f) (hfs : s.writer.flights.map (fun f => f.failsAt l op.row) = fs)
    (hnd : (s.writer.flights.map (·.row)).Nodup) :
    (s.writerReport l op).writer =
        { s.writer.failsAt l op.row with flights := fs.filterMap (s.leaves op.row) } ∧
      ∀ k, (s.writerReport l op).lane k = (s.lane k).waits (List.replicate
        (fs.filter (fun g => s.throws op.row g k)).length .cacheDiscard ++ if k = l then [.cacheDiscard] else []) := by
  subst hfs
  have rows : (s.writer.flights.map (fun f => f.failsAt l op.row)).map (·.row) = s.writer.flights.map (·.row) :=
    List.map_map
  obtain ⟨writer, -, d⟩ := s.failRows_of_writer (w := s.writer.failsAt l op.row) op.row rfl (rows ▸ hnd)
  rw [State.writerReport_failing h hf, if_pos hn]
  refine ⟨writer, fun k => ?_⟩
  have lane := d.lane_waits (p := fun k g => s.throws op.row g k) k
  rw [State.lane_withdrawLane, State.lane_give_waits, ← LaneCtl.waits_waits]
  exact congrArg (fun c => c.waits (if k = l then [.cacheDiscard] else [])) lane

/-! ## The table's answer to PROGRAM FAIL (R101, R102) -/

theorem State.writerAnswer_applied (s : State) (b : Nat) (l : Lane) (n : Nat) :
    s.writerAnswer (.programFail b l n) true = if (s.band b).state = .failed then s.writerFailed n else s := by
  simp [State.writerAnswer]

/-- Not applied, no notice will come but under STORE_FAULT (logs 20, 21). -/
theorem State.writerAnswer_refused (s : State) (b : Nat) (l : Lane) (n : Nat) :
    s.writerAnswer (.programFail b l n) false = (if s.table.storeFault = true then s
      else { s with writer := { s.writer with lostWaits := s.writer.lostWaits - 1 } }).writerFailed n := by
  simp [State.writerAnswer]

/-! ## Notices and the mover's ending (R94, R100, R105) -/

/-- The rows in flight that stand in one of these conditions. -/
def Writer.rowsIn (w : Writer) (conds : List FlightCond) : List Flight :=
  w.flights.filter (fun f => decide (f.cond ∈ conds))

/-- From `s` to `t` the rows in these conditions were discarded, and beside the row writer nothing else differs. -/
structure State.DiscardsRows (s t : State) (conds : List FlightCond) : Prop where
  same : t.signals = s.signals ∧ t.table = s.table ∧ t.mover = s.mover
  told : s.Discards t (fun k => (s.writer.rowsIn conds).countP (fun g => s.throws 0 g k))
    (fun r => (s.writer.rowsIn conds).any (fun g => g.givenUp 0 r))
    (fun r => (s.writer.rowsIn conds).any (fun g => s.withdraws 0 g r))

/-- Rows not committed are discarded, an ending or a notice having changed the row writer beside its rows in flight. -/
theorem State.discardAll_rowsIn (s : State) {w : Writer} {conds : List FlightCond} (hw : w.flights = s.writer.flights)
    (hconds : ∀ c ∈ conds, c = .assembling ∨ c = .loaded) (hnd : (s.writer.flights.map (·.row)).Nodup) :
    (State.discardAll { s with writer := w } (s.writer.rowsIn conds)).writer =
        { w with flights := s.writer.flights.filter (fun f => !decide (f.cond ∈ conds)) } ∧
      s.DiscardsRows (State.discardAll { s with writer := w } (s.writer.rowsIn conds)) conds := by
  have hlost : ((s.writer.rowsIn conds).map (·.row)).Nodup := hnd.sublist (List.filter_sublist.map _)
  have unloaded (f : Flight) (h : decide (f.cond ∈ conds) = true) := hconds _ (of_decide_eq_true h)
  have left := State.discardAll_writer (s := { s with writer := w }) (hw ▸ hnd) unloaded
  rw [hw] at left
  refine ⟨left, ?_⟩
  rw [State.discardAll_eq (fs := s.writer.rowsIn conds) _ fun f hf => unloaded f (List.mem_filter.1 hf).2]
  obtain ⟨signals, table, mover, -⟩ := State.failRows_sameBesideRows { s with writer := w } 0 (s.writer.rowsIn conds)
  obtain ⟨lane, write, beginWrite⟩ := State.failRows_discards { s with writer := w } 0 hlost
  exact ⟨⟨signals, table, mover⟩, lane, write, beginWrite⟩

/-- A FAULT for OPEN leaves in flight the rows COMMITTED or DISCARDING (R94). -/
theorem State.writerNotice_openFault (hnd : (s.writer.flights.map (·.row)).Nodup) :
    (s.writerNotice .opened false).writer = { s.writer with
        openWait := false, ending := some (s.writer.ending.getD .storeFault),
        flights := s.writer.flights.filter (fun f => decide (f.cond = .committed) || decide (f.cond = .discarding)) } ∧
      s.DiscardsRows (s.writerNotice .opened false) [.assembling, .loaded] := by
  have rows : s.writer.uncommitted = s.writer.rowsIn [.assembling, .loaded] :=
    List.filter_congr fun f _ => by cases f.cond <;> rfl
  have left : s.writer.flights.filter (fun f => decide (f.cond = .committed) || decide (f.cond = .discarding)) =
      s.writer.flights.filter (fun f => !decide (f.cond ∈ [FlightCond.assembling, .loaded])) :=
    List.filter_congr fun f _ => by cases f.cond <;> rfl
  have notice : s.writerNotice .opened false = State.discardAll { s with writer := { s.writer with
      openWait := false, ending := some (s.writer.ending.getD .storeFault) } } s.writer.uncommitted := by
    simp [State.writerNotice, Writer.setEnding_eq, Writer.uncommitted]
  rw [notice, rows, left]
  exact State.discardAll_rowsIn s rfl (by simp) hnd

/-- The mover's ending leaves in flight every row but the one being loaded (R105). -/
theorem State.writerMoverEnding_eq (e : MoverEnding) (hnd : (s.writer.flights.map (·.row)).Nodup) :
    (s.writerMoverEnding e).writer = { s.writer with
        ending := some (s.writer.ending.getD e.status),
        flights := s.writer.flights.filter (fun f => decide (f.cond ≠ .assembling)) } ∧
      s.DiscardsRows (s.writerMoverEnding e) [.assembling] := by
  have rows : s.writer.flights.filter Flight.isAssembling = s.writer.rowsIn [.assembling] :=
    List.filter_congr fun f _ => by rw [Flight.isAssembling]; cases f.cond <;> rfl
  have left : s.writer.flights.filter (fun f => decide (f.cond ≠ .assembling)) =
      s.writer.flights.filter (fun f => !decide (f.cond ∈ [FlightCond.assembling])) :=
    List.filter_congr fun f _ => by cases f.cond <;> rfl
  rw [State.writerMoverEnding, Writer.setEnding_eq, rows, left]
  exact State.discardAll_rowsIn s rfl (by simp) hnd

/-! ## The end of the order (R106) -/

theorem State.writerEnd_eq (s : State) : s.writerEnd =
    if s.writer.order ≠ none ∧ s.writer.ended = false ∧ s.writer.flights = [] ∧
      (s.writer.toBegin = 0 ∨ s.writer.ending ≠ none ∨ s.writer.stopped ≠ none) ∧ s.writer.openWait = false ∧
      s.writer.lostWaits = 0 ∧ s.writer.go = false then
      some (State.endTransfer { s with
        writer := { s.writer with ended := true }, sheets := { s.sheets with questionHeld := false } })
    else none := by
  simp only [State.writerEnd, Option.isSome_iff_ne_none]
  rfl

theorem Writer.status_failing {w : Writer} (h : w.failing ≠ none) : w.status = .programFail :=
  if_pos (Option.isSome_iff_ne_none.2 h)

theorem Writer.status_ending {w : Writer} {st : OrderStatus} (h : w.failing = none) (he : w.ending = some st) :
    w.status = st := by
  simp [Writer.status, h, he]

theorem Writer.status_stopped {w : Writer} (h : w.failing = none) (he : w.ending = none) :
    w.status = w.stopped.getD .ok := by
  cases hs : w.stopped <;> simp [Writer.status, h, he, hs]

theorem State.writerFinish_reports (he : s.writer.ended = true) (hf : s.writer.flushed = true)
    (hl : s.lanesClear = true) :
    s.writerFinish = some (State.emit (State.releaseCoder { s with writer := Writer.reset }) (.orderEnd
      { status := s.writer.status, rowsDone := s.writer.rowsDone, pagesRebuilt := 0, weakSeen := 0 })) := by
  simp [State.writerFinish, he, hf, hl]

/-! ## The obligation -/

/-- Settles O41: completion, reports, the table's answers and notices, discards, the failing row, the order's end. -/
theorem writerRowsEnd : Obligations.WriterRowsEnd := by
  refine ⟨fun s f rest hf => ⟨State.writerComplete_completes hf, State.writerComplete_waits hf⟩,
    fun s l op => ⟨?passed, ?failed, ?failing⟩, fun s b l n => ?answers, fun s hlen hnd => ?notices,
    fun s e hlen hnd => ?discards, fun s n hlen hnd => ?fails, fun s => ?leave,
    fun s e hlen hnd => (State.writerMoverEnding_eq e hnd).1, fun s => ?order⟩
  case passed => exact fun h => State.writerReport_pass h
  case failed =>
    intro h hf
    obtain ⟨writer, signals, lane, write⟩ := State.writerReport_fail_gives (l := l) h hf
    rw [writer, write]
    refine ⟨fun k => mem_addLane, rfl, signals, lane, fun a ha => by rw [ha]; rfl, List.map_map, fun f hmem => ?_⟩
    exact ⟨f.failsAt l op.row, List.mem_map_of_mem hmem, rfl, rfl, rfl, (f.mem_failsAt_failed l · op.row)⟩
  case failing =>
    intro h hf
    obtain ⟨f, hf⟩ := Option.ne_none_iff_exists'.1 hf
    obtain ⟨signals, writer⟩ := State.writerReport_failing_keeps (l := l) h hf
    have failed : (s.writerReport l op).writer.lanesFailed = addLane s.writer.lanesFailed l :=
      congrArg (·.lanesFailed) writer
    exact ⟨signals, congrArg (·.lostWaits) writer, congrArg (·.failing) writer, congrArg (·.ending) writer,
      fun k => failed ▸ mem_addLane⟩
  case answers =>
    rw [State.writerAnswer_applied, State.writerAnswer_refused]
    exact ⟨fun h => if_pos h, fun h => if_neg h, fun h => by rw [if_pos h], fun h => by rw [if_neg (by simp [h])]⟩
  case notices =>
    refine ⟨rfl, (State.writerNotice_openFault hnd).1, rfl, ?_⟩
    rw [State.writerNotice, if_neg (by simp), Writer.setEnding_eq]
  case discards =>
    intro assembled placed thrown discards
    have told {conds : List FlightCond} {t : State} (hconds : ∀ c ∈ conds, c = .assembling ∨ c = .loaded)
        (h : s.DiscardsRows t conds) : discards conds t := by
      obtain ⟨same, d⟩ := h
      have withdrawn (row : Nat) := s.any_withdraws_iff 0 (s.writer.rowsIn conds) row
      have abandoned : (∃ g ∈ s.writer.rowsIn conds, 0 ≤ g.row ∧ g.cond = .assembling ∧ assembled g) ↔
          ∃ g ∈ s.writer.rowsIn conds, g.cond = .assembling ∧ assembled g := by
        simp only [Nat.zero_le, true_and]
      simp only [Nat.zero_le, true_and] at withdrawn
      refine ⟨fun k => ?_, fun h => d.write_abandoned (abandoned.2 h), fun h => d.write_kept (mt abandoned.1 h),
        d.beginWrite_none, fun b hb => ⟨fun h => d.beginWrite_withdrawn hb ((withdrawn b.row).2 h),
          fun h => d.beginWrite_kept hb (Bool.eq_false_iff.2 (mt (withdrawn b.row).1 h))⟩, same⟩
      rw [d.lane_waits (p := fun k g => s.throws 0 g k) k, List.filter_congr fun g hg => ?_]
      · rfl
      · rcases hconds _ (of_decide_eq_true (List.mem_filter.1 hg).2) with hc | hc
        · simp [State.throws, hc, State.placed, placed, thrown]
        · simp [State.throws, hc, thrown]
    exact ⟨told (by simp) (State.writerNotice_openFault hnd).2, told (by simp) (State.writerMoverEnding_eq e hnd).2⟩
  case fails =>
    intro w held placed thrown stays after discards given abandoned
    have rows (fs : List Flight) : after fs = fs.filterMap (s.leaves n) := (s.filterMap_leaves n fs).symm
    obtain ⟨writer, signals, d⟩ := State.writerFailed_gives n hnd
    refine ⟨?_, fun l op f hrow hfail hf => ?_⟩
    · rw [rows]
      exact ⟨writer, d.lane_waits (p := fun k g => s.throws n g k), signals, d.write_abandoned, d.write_kept⟩
    · subst hrow
      refine ⟨State.writerReport_behind hfail hf, fun hn => ?_⟩
      rw [rows]
      exact State.writerReport_below hfail hf hn rfl hnd
  case leave =>
    rw [State.writerDiscarded_eq]
    exact ⟨fun h => if_pos h, fun h => if_neg (by simpa using h)⟩
  case order =>
    rw [State.writerEnd_eq]
    exact ⟨fun h => if_pos h, fun h => if_neg h, Writer.status_failing, fun h st => Writer.status_ending h,
      Writer.status_stopped, fun he hf hl => ⟨_, State.writerFinish_reports he hf hl, rfl, rfl, rfl⟩⟩

end Sys2Proof.Machine
end

