-- ==== Sys2Proof/Proofs/ReaderContext.lean ====
section
/-! What READ ROWS and COPY ROWS share (6.1 to 6.3): the row reader's context, the counts and attention of a row report,
the question, the pages left in the lanes and the end of the order. -/

namespace Sys2Proof.Machine

open Sys2Proof

variable {s : State} {r : Reader} {o : Order}

/-! ## The context (R109) -/

theorem satAdd_eq_min (cap a b : Nat) : satAdd cap a b = min cap (a + b) := by
  unfold satAdd
  split <;> omega

/-- The first ending set stands (R119, R129). -/
theorem Reader.setEnding_eq (r : Reader) (st : OrderStatus) :
    r.setEnding st = { r with ending := some (r.ending.getD st) } := by
  cases h : r.ending with
  | none => simp only [Reader.setEnding, h, Option.getD_none]
  | some e => simp only [Reader.setEnding, h, Option.getD_some]; rw [← h]

theorem Reader.isCopy_of_copyRows (ho : r.order = some o) (hk : o.kind = .copyRows) : r.isCopy = true := by
  simp [Reader.isCopy, ho, hk]

theorem Reader.isCopy_of_readRows (ho : r.order = some o) (hk : o.kind = .readRows) : r.isCopy = false := by
  simp [Reader.isCopy, ho, hk]

/-! ## The counts and attention of a row report (R23, R115, R125) -/

theorem PageClass.attends_iff (k : PageClass) :
    k.attends = true ↔ k ∈ [PageClass.weak, .uncorrectable, .tagMismatch] := by
  cases k <;> simp [PageClass.attends]

theorem PageClass.attends_eq_decide (k : PageClass) :
    k.attends = decide (k ∈ [PageClass.weak, .uncorrectable, .tagMismatch]) := by
  cases k <;> rfl

/-- The row reader with the pages a row report rebuilt and its WEAK pages counted (R115). -/
def Reader.counts (r : Reader) (rep : RowReport) : Reader :=
  { r with pagesRebuilt := min 65535 (r.pagesRebuilt + rep.rebuilt), weakSeen := min 255 (r.weakSeen + rep.weak) }

/-- The row report has a page whose class sets the band's attention (R23). -/
def RowReport.attends (rep : RowReport) : Bool := rep.outcomes.any (fun x => x.2.cls.attends)

theorem RowReport.attends_iff (rep : RowReport) : rep.attends = true ↔
    ∃ x ∈ rep.outcomes, x.2.cls ∈ [PageClass.weak, .uncorrectable, .tagMismatch] := by
  simp only [RowReport.attends, List.any_eq_true, PageClass.attends_iff]

/-- The message that sets the source band's attention, if it is due (R23). -/
def Reader.attention (r : Reader) (due : Bool) : List Signal :=
  if due then [.update .reader (.setAttention r.band) false] else []

theorem State.readerAttention_eq (s : State) (due : Bool) :
    s.readerAttention due = { s with signals := s.signals ++ s.reader.attention due } := by
  cases due <;> simp [State.readerAttention, Reader.attention, State.emit]

theorem State.readerCount_eq (s : State) (rep : RowReport) : s.readerCount rep = { s with
    reader := s.reader.counts rep, signals := s.signals ++ s.reader.attention rep.attends } := by
  rw [State.readerCount, State.readerAttention_eq, satAdd_eq_min, satAdd_eq_min]
  rfl

/-! ## The coder released from a row (R115, R118, R123) -/

/-- The coder released from the row, a BEGIN READ ROW not yet taken withdrawn (R123; log 37). -/
def Coder.rowClosed (k : Coder) : Coder :=
  { k with read := none, workspace := none, patch := none, verdict := none, beginRead := none }

theorem State.closeRead_eq (s : State) : s.closeRead = { s with coder := s.coder.rowClosed } := rfl

/-! ## The question (R113, R121) -/

theorem State.readerAsks_iff (s : State) : s.readerAsks = true ↔ s.reader.order ≠ none ∧ s.reader.started = true ∧
    s.reader.toBegin ≠ 0 ∧ s.reader.ending = none ∧ s.reader.stopped = none ∧ s.reader.go = false ∧
    s.sheets.questionHeld = false ∧
    (if s.reader.isCopy = true then s.reader.copyRow = none else s.reader.flights.length ≤ 1) := by
  cases h : s.reader.isCopy <;> simp [State.readerAsks, h, and_assoc, Option.isSome_iff_ne_none]

/-! ## The pages left in the lanes (R119, R123) -/

theorem Reader.noMore_iff (r : Reader) : r.noMore = true ↔ r.toBegin = 0 ∨ r.ending ≠ none ∨ r.stopped ≠ none := by
  simp [Reader.noMore, Option.isSome_iff_ne_none, or_assoc]

theorem LaneCtl.holdsRead_iff (c : LaneCtl) : c.holdsRead = true ↔
    (∃ p, c.cache = some p ∧ p.cond = .read) ∧ c.port = none ∧ c.waiting = [] := by
  cases h : c.cache <;> simp [LaneCtl.holdsRead, LaneCtl.cacheIs, h, and_assoc]

/-- The search over the lanes finds the lowest of those sought. -/
theorem Lane.find_all {p : Lane → Bool} {l : Lane} (hl : p l = true) (hmin : ∀ k, k.number < l.number → p k ≠ true) :
    Lane.all.find? p = some l := by
  obtain ⟨below, above, hall, hbelow⟩ := Lane.all_split l
  exact List.find?_eq_some_iff_append.2 ⟨hl, below, above, hall, fun k hk => by simpa using hmin k (hbelow k hk)⟩

theorem State.readerCleanup_lowest {l : Lane} (hr : s.reader.leftovers = true) (hl : (s.lane l).holdsRead = true)
    (hmin : ∀ k, k.number < l.number → (s.lane k).holdsRead ≠ true) :
    s.readerCleanup = some (s.give l .cacheDiscard) := by
  simp [State.readerCleanup, hr, Lane.find_all (p := fun l => (s.lane l).holdsRead) hl hmin]

theorem State.readerCleanup_none (h : s.reader.leftovers ≠ true ∨ ∀ l, (s.lane l).holdsRead ≠ true) :
    s.readerCleanup = none := by
  rcases h with h | h
  · simp [State.readerCleanup, h]
  · have hfind : Lane.all.find? (fun l => (s.lane l).holdsRead) = none := List.find?_eq_none.2 fun l _ => h l
    simp [State.readerCleanup, hfind]

/-! ## The end of the order (R119, R120, R129) -/

theorem Reader.endDue_iff (r : Reader) : r.endDue = true ↔ r.order ≠ none ∧ r.ended = false ∧ r.go = false ∧
    ((r.started = true ∧ r.flights = [] ∧ r.copyRow = none ∧
        (r.toBegin = 0 ∨ r.ending ≠ none ∨ r.stopped ≠ none) ∧ r.openWait = false ∧ r.lostWaits = 0) ∨
      (r.started = false ∧ r.ending ≠ none)) := by
  cases h : r.started <;> simp [Reader.endDue, h, ← Reader.noMore_iff, and_assoc, Option.isSome_iff_ne_none]

/-- The order has ended its rows: it asks nothing more, and FLUSHED is still to come if it has a transfer. -/
def State.readerEnded (s : State) (flushed : Bool) : State :=
  { s with reader := { s.reader with ended := true, flushed := flushed },
           sheets := { s.sheets with questionHeld := false } }

theorem State.readerEnd_moving (h : s.reader.endDue = true) (hm : s.reader.usesMover = true) :
    s.readerEnd = some (s.readerEnded false).endTransfer := by
  simp [State.readerEnd, h, hm, State.dropQuestion, State.readerEnded]

theorem State.readerEnd_still (h : s.reader.endDue = true) (hm : s.reader.usesMover = false) :
    s.readerEnd = some (s.readerEnded true) := by
  simp [State.readerEnd, h, hm, State.dropQuestion, State.readerEnded]

theorem State.readerEnd_none (h : s.reader.endDue ≠ true) : s.readerEnd = none := by
  simp [State.readerEnd, h]

theorem Reader.status_failing (h : r.failing ≠ none) : r.status = .programFail :=
  if_pos (Option.isSome_iff_ne_none.2 h)

/-- Without a program failure the first ending stands before the STOP, and that before OK_REBUILT and OK. -/
theorem Reader.status_eq (h : r.failing = none) : r.status =
    r.ending.getD (r.stopped.getD (if 0 < r.pagesRebuilt then .okRebuilt else .ok)) := by
  cases he : r.ending <;> cases hs : r.stopped <;> simp [Reader.status, h, he, hs]

/-- What R119 and R129 say of the status when no program failed. -/
theorem Reader.status_cases (h : r.failing = none) :
    (∀ st, r.ending = some st → r.status = st) ∧
    (r.ending = none → ∀ st, r.stopped = some st → r.status = st) ∧
    (r.ending = none → r.stopped = none → 0 < r.pagesRebuilt → r.status = .okRebuilt) ∧
    (r.ending = none → r.stopped = none → r.pagesRebuilt = 0 → r.status = .ok) := by
  rw [Reader.status_eq h]
  refine ⟨fun st he => ?_, fun he st hs => ?_, fun he hs hp => ?_, fun he hs hp => ?_⟩
  · rw [he, Option.getD_some]
  · rw [he, hs, Option.getD_none, Option.getD_some]
  · rw [he, hs, Option.getD_none, Option.getD_none, if_pos hp]
  · rw [he, hs, Option.getD_none, Option.getD_none, if_neg (by omega)]

/-- The result of the order (R65, R119, R129). -/
def Reader.result (r : Reader) : Signal :=
  .orderEnd { status := r.status, rowsDone := r.rowsDone, pagesRebuilt := r.pagesRebuilt, weakSeen := r.weakSeen }

theorem State.readerFinish_started (he : s.reader.ended = true) (hf : s.reader.flushed = true)
    (hs : s.reader.started = true) (hl : s.lanesClear = true) : s.readerFinish = some { s with
      reader := Reader.reset, coder := { Coder.reset with owner := s.coder.claim },
      signals := s.signals ++ [s.reader.result] } := by
  simp [State.readerFinish, he, hf, hs, hl, State.releaseCoder, State.emit, Reader.result]

theorem State.readerFinish_refused (he : s.reader.ended = true) (hf : s.reader.flushed = true)
    (hs : s.reader.started = false) :
    s.readerFinish = some { s with reader := Reader.reset, signals := s.signals ++ [s.reader.result] } := by
  simp [State.readerFinish, he, hf, hs, State.emit, Reader.result]

theorem State.readerFinish_none (h : s.reader.ended = false ∨ s.reader.flushed = false ∨
    (s.reader.started = true ∧ s.lanesClear = false)) : s.readerFinish = none := by
  refine if_neg fun ⟨he, hf, hx⟩ => ?_
  rcases h with h | h | ⟨hs, hl⟩
  · simp [h] at he
  · simp [h] at hf
  · simp [hs, hl] at hx

theorem State.lanesClear_iff (s : State) : s.lanesClear = true ↔ ∀ l, (s.lane l).state = .idle ∧
    (s.lane l).port = none ∧ (s.lane l).waiting = [] ∧ (s.lane l).cache = none ∧ (s.lane l).prevFailed = false := by
  simp [State.lanesClear, Six.all_iff, LaneCtl.clear, LaneCtl.quiet, State.lane, and_assoc]

end Sys2Proof.Machine
end

