-- ==== Sys2Proof/Proofs/ReadRows.lean ====
section
/-! READ ROWS (6.2): each row begun, judged, delivered and written, and the end of the order (R113 to R119). -/

namespace Sys2Proof.Machine

open Sys2Proof

variable {s : State} {o : Order}

/-! ## A row begun (R113, R114) -/

/-- The row of this number, its present lanes expected, as it begins (R113). -/
def State.nextRead (s : State) : ReadFlight :=
  { row := s.reader.nextRow, judged := false, expected := (s.band s.reader.band).present s.reader.nextRow }

/-- BEGIN READ ROW for a row to deliver (R53, R113). -/
def Reader.deliverBegin (r : Reader) (row : Nat) (lanes : List Lane) : RowBegin :=
  { band := r.band, row := row, level := r.level, purpose := .deliver, lanes := lanes }

/-- Row N begins: the coder is given it when no other row is in flight (R113, R117). -/
theorem State.beginRead_eq (s : State) : s.beginRead = State.giveAll { s with
      reader := { s.reader with
        flights := s.reader.flights ++ [s.nextRead], toBegin := s.reader.toBegin - 1,
        nextRow := s.reader.nextRow + 1 },
      coder := if s.reader.flights = [] then
          { s.coder with beginRead := some (s.reader.deliverBegin s.reader.nextRow s.nextRead.expected) }
        else s.coder }
    (.pageRead { band := s.reader.band, row := s.reader.nextRow, level := s.reader.level }) s.nextRead.expected := by
  unfold State.beginRead
  dsimp only
  by_cases h : s.reader.flights = []
  · rw [if_pos h, if_pos (List.isEmpty_iff.2 h)]
    rfl
  · rw [if_neg h, if_neg (mt List.isEmpty_iff.1 h)]
    rfl

theorem State.readBegin_ended (hgo : s.reader.go = true) (hc : s.reader.isCopy = false) (he : s.reader.ending ≠ none) :
    s.readBegin = some { s with reader := { s.reader with go := false } } := by
  simp [State.readBegin, hgo, hc, Option.isSome_iff_ne_none.2 he]

/-- A void row ends the order, any other begins (R113). -/
theorem State.readBegin_eq (hgo : s.reader.go = true) (hc : s.reader.isCopy = false) (he : s.reader.ending = none) :
    s.readBegin = if (s.band s.reader.band).isVoid s.reader.nextRow = true then
        some { s with reader := { s.reader with go := false, ending := some .voidRow } }
      else some (State.beginRead { s with reader := { s.reader with go := false } }) := by
  have started : ¬s.reader.ending.isSome = true := by simp [he]
  unfold State.readBegin
  rw [if_pos ⟨hgo, hc⟩]
  dsimp only
  rw [if_neg started, Reader.setEnding_eq, he]
  rfl

/-- A row to be delivered or checked is unloaded from its lanes once the coder has taken it (R114, R183). -/
theorem State.readerBegun_unloads {b : RowBegin} (hb : b.purpose ≠ .copy) :
    s.readerBegun b = s.giveAll .cacheUnload b.lanes := by
  unfold State.readerBegun
  cases hp : b.purpose with
  | copy => exact absurd hp hb
  | deliver => rfl
  | check => rfl

/-! ## A row judged (R115) -/

theorem State.takeJudged_read (hc : s.reader.isCopy = false) (rep : RowReport) :
    s.takeJudged rep = s.readJudged rep := by
  simp [State.takeJudged, hc]

/-- Judging a row to deliver changes the row reader alone beside the band's attention. -/
theorem State.readJudged_beside (s : State) (rep : RowReport) : s.readJudged rep = { s with
    reader := (s.readJudged rep).reader, signals := s.signals ++ s.reader.attention rep.attends } := by
  unfold State.readJudged
  rw [State.readerCount_eq]
  dsimp only
  split
  · rfl
  · split <;> rfl

theorem State.readJudged_recoverable {rep : RowReport} (h : rep.verdict = .recoverable) {f : ReadFlight}
    {rest : List ReadFlight} (hf : s.reader.flights = f :: rest) :
    (s.readJudged rep).reader = { s.reader.counts rep with flights := { f with judged := true } :: rest } := by
  have hf' : (s.reader.counts rep).flights = f :: rest := hf
  simp only [State.readJudged, State.readerCount_eq, h, hf']

theorem State.readJudged_unrecoverable {rep : RowReport} (h : rep.verdict = .unrecoverable) :
    (s.readJudged rep).reader =
      { s.reader.counts rep with ending := some (s.reader.ending.getD .dataLoss), flights := [] } := by
  simp only [State.readJudged, State.readerCount_eq, h, Reader.setEnding_eq]
  rfl

/-! ## Delivery, and the mover's ending (R116, R118) -/

theorem State.readDelivered_last {f : ReadFlight} (hf : s.reader.flights = [f]) :
    s.readDelivered = { s with reader := { s.reader with flights := [] } } := by
  simp [State.readDelivered, hf]

theorem State.readDelivered_next {f g : ReadFlight} {more : List ReadFlight} (hf : s.reader.flights = f :: g :: more) :
    s.readDelivered = { s with
      reader := { s.reader with flights := g :: more },
      coder := { s.coder with beginRead := some (s.reader.deliverBegin g.row g.expected) } } := by
  simp only [State.readDelivered, hf, List.drop_succ_cons, List.drop_zero]
  rfl

theorem State.takeUnit_reader (ho : s.reader.order = some o) :
    s.takeUnit = { s with reader := { s.reader with rowsDone := s.reader.rowsDone + 1 } } := by
  simp [State.takeUnit, ho, State.readWritten]

theorem State.takeEnding_read (ho : s.reader.order = some o) (hk : o.kind = .readRows) (hw : s.writer.order = none)
    (e : MoverEnding) : s.takeEnding e = { s with
      reader := { s.reader with flights := [], ending := some (s.reader.ending.getD e.status) },
      coder := s.coder.rowClosed } := by
  simp [State.takeEnding, hw, ho, Reader.isCopy_of_readRows ho hk, State.readMoverEnding, State.closeRead_eq,
    Reader.setEnding_eq]

/-! ## The obligation -/

theorem Reader.leftovers_read (ho : s.reader.order = some o) (hk : o.kind = .readRows) (hs : s.reader.started = true) :
    s.reader.leftovers = true ↔
      s.reader.flights = [] ∧ (s.reader.toBegin = 0 ∨ s.reader.ending ≠ none ∨ s.reader.stopped ≠ none) := by
  simp [Reader.leftovers, ho, hs, Reader.isCopy_of_readRows ho hk, Reader.noMore_iff]

/-- Settles O42: the rows of READ ROWS one by one, and the order's end. -/
theorem readRowsByRule : Obligations.ReadRowsByRule := by
  refine ⟨fun s o ho hk => ?rows, fun s b hb l => ?unloads, fun s o ho hk hs hm => ?order⟩
  case rows =>
    have hc := Reader.isCopy_of_readRows ho hk
    refine ⟨?asks, fun hgo he => State.readBegin_ended hgo hc he, fun hgo he hv => ?void,
      fun hgo he hv => ?begins, fun rep => ?judged, fun f rest hf => ⟨?last, ?next⟩, State.takeUnit_reader ho,
      fun e hw => ?ending⟩
    case asks => simp [State.readerAsks_iff, ho, hc]
    case void => rw [State.readBegin_eq hgo hc he, if_pos (by simpa [BandRecord.isVoid] using hv)]
    case begins =>
      rw [State.readBegin_eq hgo hc he, if_neg (by simpa [BandRecord.isVoid] using hv), State.beginRead_eq]
      exact ⟨_, rfl, rfl, State.lane_giveAll _ _ _, rfl, rfl⟩
    case judged =>
      rw [State.takeJudged_read hc]
      have beside := s.readJudged_beside rep
      have signals : (s.readJudged rep).signals = s.signals ++ s.reader.attention rep.attends := by rw [beside]
      refine ⟨fun ha => ?_, fun ha => ?_, by rw [beside], by rw [beside],
        fun hv f rest hf => State.readJudged_recoverable hv hf, fun hv => State.readJudged_unrecoverable hv⟩
      · rw [signals, (rep.attends_iff).2 ha]
        rfl
      · rw [signals, Bool.eq_false_iff.2 (mt rep.attends_iff.1 ha)]
        exact List.append_nil _
    case last => exact fun hrest => State.readDelivered_last (hrest ▸ hf)
    case next =>
      rintro g more rfl
      exact State.readDelivered_next hf
    case ending =>
      rw [State.takeEnding_read ho hk hw]
      cases e <;> rfl
  case unloads =>
    rw [State.readerBegun_unloads hb]
    exact State.lane_giveAll _ _ _ l
  case order =>
    intro r noMore left due
    have held (l : Lane) : (s.lane l).holdsRead = true ↔ left l := LaneCtl.holdsRead_iff _
    have gone : s.reader.leftovers = true ↔ r.flights = [] ∧ noMore := Reader.leftovers_read ho hk hs
    have ends : s.reader.endDue = true ↔ due := by
      simp [Reader.endDue_iff, ho, hs, due, noMore, r]
    refine ⟨fun hf hn l hl hmin => ?_, fun h => ?_, fun h => State.readerEnd_moving (ends.2 h) hm,
      fun h => State.readerEnd_none (mt ends.1 h), Reader.status_cases,
      fun he hf hl => State.readerFinish_started he hf hs hl, fun h => State.readerFinish_none ?_, s.lanesClear_iff⟩
    · exact State.readerCleanup_lowest (gone.2 ⟨hf, hn⟩) ((held l).2 hl) fun k hk => mt (held k).1 (hmin k hk)
    · refine State.readerCleanup_none ?_
      rcases h with h | h | h
      · exact .inl fun hg => h (gone.1 hg).1
      · exact .inl fun hg => h (gone.1 hg).2
      · exact .inr fun l => mt (held l).1 (h l)
    · exact h.imp_right (.imp_right fun hl => ⟨hs, hl⟩)

end Sys2Proof.Machine
end

