-- ==== Sys2Proof/Proofs/CopyBegins.lean ====
section
/-! COPY ROWS from the question to the coder's taking of the row: the lane plan (R122), the begin (R121, R123), the
outcomes passed to the coder (R124) and the bytes of the patch (R128). -/

namespace Sys2Proof.Machine

open Sys2Proof

variable {s : State} {o : Order} {c : CopyRow} {q : ReadAsm} {l : Lane}

/-! ## One thing per lane -/

theorem Six.ext_get {α : Type} {x y : Six α} (h : ∀ l, x.get l = y.get l) : x = y := by
  obtain ⟨x0, x1, x2, x3, x4, x5⟩ := x
  obtain ⟨y0, y1, y2, y3, y4, y5⟩ := y
  obtain rfl : x0 = y0 := h .l0
  obtain rfl : x1 = y1 := h .l1
  obtain rfl : x2 = y2 := h .l2
  obtain rfl : x3 = y3 := h .l3
  obtain rfl : x4 = y4 := h .l4
  obtain rfl : x5 = y5 := h .l5
  rfl

theorem Six.get_set {α : Type} (x : Six α) (l k : Lane) (v : α) :
    (x.set l v).get k = if k = l then v else x.get k := by
  by_cases h : k = l
  · rw [if_pos h, h, Six.get_set_same]
  · rw [if_neg h, Six.get_set_other x v h]

theorem Six.set_get_same {α : Type} (x : Six α) (l : Lane) : x.set l (x.get l) = x :=
  Six.ext_get fun k => by
    rw [Six.get_set]
    split
    · next h => rw [h]
    · rfl

/-! ## The lane plan (R122) -/

theorem Reader.patchFor_eq_some (r : Reader) (row : Nat) (p : Patch) :
    r.patchFor row = some p ↔ r.patch = some p ∧ r.startRow + p.rowOffset = row := by
  simp [Reader.patchFor, Option.filter_eq_some_iff]

theorem Reader.startRow_eq {r : Reader} (h : r.order = some o) : r.startRow = o.startRow := by
  simp [Reader.startRow, h]

theorem mem_patchLanes (level : Level) (p : Patch) (l : Lane) :
    l ∈ patchLanes level p ↔ l = laneAt p.index ∨ pLane level = some l ∨ qLane level = some l := by
  simp [patchLanes]

theorem State.inTarget_iff (s : State) (l : Lane) (row : Nat) : s.inTarget l row = true ↔
    (s.band s.reader.targetBand).absent l row = false ∧ l ∉ s.reader.lanesFailed := by
  simp [State.inTarget]

/-- The order's patch, if it is for this source row, names the lane (R122). -/
def Reader.names (r : Reader) (row : Nat) (l : Lane) : Bool :=
  (r.patchFor row).elim false (fun p => (patchLanes r.level p).contains l)

theorem Reader.names_iff (r : Reader) (row : Nat) (l : Lane) : r.names row l = true ↔
    ∃ p, (r.patch = some p ∧ r.startRow + p.rowOffset = row) ∧
      (l = laneAt p.index ∨ pLane r.level = some l ∨ qLane r.level = some l) := by
  simp only [← Reader.patchFor_eq_some, ← mem_patchLanes]
  cases h : r.patchFor row <;> simp [Reader.names, h]

/-- The class of a lane, by its presence in source and target and by the patch (R122). -/
theorem State.planClass_eq (s : State) (src tgt : Nat) (l : Lane) : s.planClass src tgt l =
    if s.inTarget l tgt then
      (if !(s.band s.reader.band).absent l src && !s.reader.names src l then .move else .build)
    else if !(s.band s.reader.band).absent l src then .feed else .idle := rfl

theorem State.planClass_cases (s : State) (src tgt : Nat) (l : Lane) :
    (¬(s.band s.reader.band).absent l src = true → s.inTarget l tgt = true → ¬s.reader.names src l = true →
      s.planClass src tgt l = .move) ∧
    (s.inTarget l tgt = true → (s.band s.reader.band).absent l src = true ∨ s.reader.names src l = true →
      s.planClass src tgt l = .build) ∧
    (¬(s.band s.reader.band).absent l src = true → ¬s.inTarget l tgt = true → s.planClass src tgt l = .feed) ∧
    ((s.band s.reader.band).absent l src = true → ¬s.inTarget l tgt = true → s.planClass src tgt l = .idle) := by
  rw [State.planClass_eq]
  refine ⟨fun hs ht hn => ?_, fun ht h => ?_, fun hs ht => ?_, fun hs ht => ?_⟩
  · simp [hs, ht, hn]
  · rcases h with h | h <;> simp [ht, h]
  · simp [hs, ht]
  · simp [hs, ht]

theorem CopyRow.mem_lanesOf (c : CopyRow) (k : PlanClass) (l : Lane) : l ∈ c.lanesOf k ↔ c.plan.get l = k := by
  simp [CopyRow.lanesOf, mem_all_lanes]

/-! ## The begin (R121, R123) -/

theorem State.copyBegin_waits (he : s.reader.ending = none) (hw : s.reader.lostWaits ≠ 0) : s.copyBegin = none := by
  simp [State.copyBegin, he, hw]

/-- The GO has been taken (R123). -/
def State.goTaken (s : State) : State := { s with reader := { s.reader with go := false } }

theorem State.copyBegin_ended (hgo : s.reader.go = true) (hc : s.reader.isCopy = true) (he : s.reader.ending ≠ none) :
    s.copyBegin = some { s with reader := { s.reader with go := false } } := by
  simp [State.copyBegin, hgo, hc, Option.isSome_iff_ne_none.2 he]

theorem State.copyBegin_locked (hgo : s.reader.go = true) (hc : s.reader.isCopy = true) (he : s.reader.ending = none)
    (hw : s.reader.lostWaits = 0) (hl : s.protect.locked s.reader.targetBand = true) :
    s.copyBegin = some { s with reader := { s.reader with go := false, ending := some .protected_ } } := by
  simp [State.copyBegin, Reader.setEnding_eq, hgo, hc, he, hw, hl]

theorem State.copyBegin_begins (hgo : s.reader.go = true) (hc : s.reader.isCopy = true) (he : s.reader.ending = none)
    (hw : s.reader.lostWaits = 0) (hl : s.protect.locked s.reader.targetBand = false) :
    s.copyBegin = some s.goTaken.beginCopy := by
  simp [State.copyBegin, State.goTaken, hgo, hc, he, hw, hl]

/-- The lanes present in the source at the row that begins (R122). -/
def State.sourceLanes (s : State) : List Lane := (s.band s.reader.band).present s.reader.nextRow

/-- The target row of the row that begins. -/
def Reader.nextTarget (r : Reader) : Nat := r.firstTarget + (r.nextRow - r.startRow)

/-- The row that begins, with its plan. -/
def State.nextCopy (s : State) : CopyRow :=
  CopyRow.start s.reader.nextRow s.reader.nextTarget (Six.build (s.planClass s.reader.nextRow s.reader.nextTarget))

/-- The lanes read for the coder when the row begins: present in the source and not MOVE (R123 step 5). -/
def State.nextReads (s : State) : List Lane :=
  s.sourceLanes.filter (fun l => decide (s.nextCopy.plan.get l ≠ .move))

theorem State.mem_nextReads (s : State) (l : Lane) : l ∈ s.nextReads ↔
    l ∈ s.sourceLanes ∧ s.planClass s.reader.nextRow s.reader.nextTarget l ≠ .move := by
  simp [State.nextReads, State.nextCopy, CopyRow.start]

/-- Row `c` in flight, the rows to begin one fewer (R123 step 3). -/
def State.placeCopy (s : State) (c : CopyRow) : State :=
  { s with reader := { s.reader with
      copyRow := some c, toBegin := s.reader.toBegin - 1, nextRow := s.reader.nextRow + 1,
      openWait := s.reader.openWait || decide ((s.band s.reader.targetBand).state = .blank) } }

/-- The OPEN of a BLANK target, its notice asked for (R123 step 4). -/
def State.openMessage (s : State) : List Signal :=
  if (s.band s.reader.targetBand).state = .blank then [.update .reader (.openBand s.reader.targetBand) true] else []

/-- Row `c` in flight, and OPEN given to a BLANK target (R123 steps 3 and 4). -/
def State.openCopy (s : State) (c : CopyRow) : State :=
  { s.placeCopy c with signals := s.signals ++ s.openMessage }

/-- BEGIN READ ROW for a copy row (R53, R123). -/
def State.copyRowBegin (s : State) (row : Nat) : RowBegin :=
  { band := s.reader.band, row := row, level := s.reader.level, purpose := .copy,
    lanes := (s.band s.reader.band).present row }

theorem State.giveCopyRow_eq (s : State) (c : CopyRow) (reads : List Lane) : s.giveCopyRow c reads =
    State.giveAll { s with
      reader := { s.reader with copyRow := some { c with given := true, reads := reads } },
      coder := { s.coder with beginRead := some (s.copyRowBegin c.source) } }
    (.pageRead { band := s.reader.band, row := c.source, level := s.reader.level }) reads := rfl

theorem State.beginCopy_lost (h : s.reader.level.val < 6 - s.sourceLanes.length) :
    s.beginCopy = { s with reader := s.reader.setEnding .dataLoss } := if_pos h

/-- Within the level the row begins, and the coder is given it when a lane is to be built. -/
theorem State.beginCopy_eq (h : ¬s.reader.level.val < 6 - s.sourceLanes.length) : s.beginCopy =
    if (s.nextCopy.lanesOf .build).isEmpty = true then s.openCopy s.nextCopy
    else ((s.openCopy s.nextCopy).giveCopyRow s.nextCopy s.nextReads).fetchPatch s.nextCopy := by
  have opened : (if decide ((s.band s.reader.targetBand).state = .blank) = true then
        (s.placeCopy s.nextCopy).emit (.update .reader (.openBand s.reader.targetBand) true)
      else s.placeCopy s.nextCopy) = s.openCopy s.nextCopy := by
    by_cases hblank : (s.band s.reader.targetBand).state = .blank
    · rw [if_pos (decide_eq_true hblank), State.openCopy, State.openMessage, if_pos hblank]
      rfl
    · rw [if_neg (mt of_decide_eq_true hblank), State.openCopy, State.openMessage, if_neg hblank, List.append_nil]
      rfl
  rw [← opened]
  exact if_neg h

theorem State.nextCopy_builds (s : State) : (s.nextCopy.lanesOf .build).isEmpty ≠ true ↔
    ∃ l, s.planClass s.reader.nextRow s.reader.nextTarget l = .build := by
  have plan (l : Lane) : s.nextCopy.plan.get l = s.planClass s.reader.nextRow s.reader.nextTarget l := Six.get_build _ l
  rw [Ne, List.isEmpty_iff, List.eq_nil_iff_forall_not_mem]
  simp only [CopyRow.mem_lanesOf, plan, not_forall, not_not]

theorem State.fetchPatch_none (h : s.reader.patchFor c.source = none) : s.fetchPatch c = s := by
  simp [State.fetchPatch, h]

/-- The mover as it is asked for the bytes of the patch (R128, R158). -/
def Mover.fetchesPatch (m : Mover) (p : Patch) : Mover :=
  { m with permit := 4 * ((p.length + 3) / 4),
           fetch := some { address := p.source.toNat, forWhom := .patch, got := [] } }

theorem State.fetchPatch_some {d : CopyRow} {p : Patch} (h : s.reader.patchFor c.source = some p)
    (hd : s.reader.copyRow = some d) : s.fetchPatch c = { s with
      reader := { s.reader with copyRow := some { d with fetching := true } }, mover := s.mover.fetchesPatch p } := by
  simp [State.fetchPatch, State.startFetch, Mover.fetchesPatch, h, hd]

/-- The row in flight at its begin, once the coder has been given it. -/
def State.givenCopy (s : State) (fetching : Bool) : CopyRow :=
  { s.nextCopy with given := true, reads := s.nextReads, fetching := fetching }

/-- From `s` to `t` the row has begun with a lane to be built: the coder and the lanes read for it are given the row,
and the mover is asked for the bytes of its patch (R123 step 5, R128). -/
structure State.BeginsGiven (s t : State) (fetching : Bool) : Prop where
  reader : t.reader = (s.placeCopy (s.givenCopy fetching)).reader
  signals : t.signals = s.signals ++ s.openMessage
  coder : t.coder = { s.coder with beginRead := some (s.copyRowBegin s.reader.nextRow) }
  lane : ∀ l, t.lane l = if l ∈ s.nextReads then
    { s.lane l with waiting := (s.lane l).waiting ++
      [.pageRead { band := s.reader.band, row := s.reader.nextRow, level := s.reader.level }] } else s.lane l
  unpatched : s.reader.patchFor s.reader.nextRow = none → fetching = false ∧ t.mover = s.mover
  patched : ∀ p, s.reader.patchFor s.reader.nextRow = some p → fetching = true ∧ t.mover = s.mover.fetchesPatch p

theorem State.beginCopy_builds (h : ¬s.reader.level.val < 6 - s.sourceLanes.length)
    (hb : ∃ l, s.planClass s.reader.nextRow s.reader.nextTarget l = .build) :
    ∃ fetching, s.BeginsGiven s.beginCopy fetching := by
  rw [State.beginCopy_eq h, if_neg (s.nextCopy_builds.2 hb), State.giveCopyRow_eq]
  cases hp : s.reader.patchFor s.reader.nextRow with
  | none =>
      rw [State.fetchPatch_none hp]
      exact ⟨false, rfl, rfl, rfl, State.lane_giveAll _ _ _, fun _ => ⟨rfl, rfl⟩,
        fun p hsome => (nomatch hp.symm.trans hsome)⟩
  | some p =>
      rw [State.fetchPatch_some hp rfl]
      refine ⟨true, rfl, rfl, rfl, State.lane_giveAll _ _ _, fun hnone => (nomatch hp.symm.trans hnone),
        fun p' hsome => ?_⟩
      obtain rfl : p = p' := Option.some.inj (hp.symm.trans hsome)
      exact ⟨rfl, rfl⟩

/-! ## Outcomes passed to the coder (R53, R124) -/

/-- What the read assembly holds for a lane, once it is told the outcome a move reported, if there is one: an awaited
lane is then outcome only. -/
def Slot.told (x : Slot) (out : Option PageOutcome) : Slot :=
  match out with
  | some out => if x.isAwaited then .outcomeOnly out else x
  | none => x

theorem Slot.told_awaited {x : Slot} (h : x = .awaited) (out : PageOutcome) : x.told (some out) = .outcomeOnly out := by
  rw [h]
  rfl

theorem Slot.told_other {x : Slot} {out : Option PageOutcome} (h : x ≠ .awaited ∨ out = none) : x.told out = x := by
  rcases h with h | rfl
  · cases out with
    | none => rfl
    | some out => exact if_neg (mt x.isAwaited_iff.1 h)
  · rfl

/-- Only the first outcome told counts. -/
theorem Slot.told_told (x : Slot) (out : PageOutcome) (out' : Option PageOutcome) :
    (x.told (some out)).told out' = x.told (some out) := by
  by_cases h : x = .awaited
  · rw [Slot.told_awaited h, Slot.told_other (.inl Slot.noConfusion)]
  · rw [Slot.told_other (out := some out) (.inl h), Slot.told_other (.inl h)]

@[simp] theorem State.arriveOutcome_lanes (s : State) (l : Lane) (out : PageOutcome) :
    (s.arriveOutcome l out).lanes = s.lanes := by
  unfold State.arriveOutcome
  split
  · split <;> rfl
  · rfl

/-- The read assembly of a copy row is told the outcome of one lane. -/
theorem State.arriveOutcome_copy (hq : s.coder.read = some q) (hp : q.purpose = .copy) (l : Lane) (out : PageOutcome) :
    s.arriveOutcome l out = { s with coder := { s.coder with
      read := some { q with slots := q.slots.set l ((q.slots.get l).told (some out)) } } } := by
  unfold State.arriveOutcome
  rw [hq]
  dsimp only
  split
  · next h => rw [Slot.told_awaited ((q.slots.get l).isAwaited_iff.1 h.2)]
  · next h =>
      have waits : q.slots.get l ≠ .awaited := fun ha => h ⟨hp, (q.slots.get l).isAwaited_iff.2 ha⟩
      rw [Slot.told_other (.inl waits), Six.set_get_same, ← hq]

theorem State.passOutcomes_lanes (s : State) (c : CopyRow) (ls : List Lane) :
    (s.passOutcomes c ls).lanes = s.lanes := by
  induction ls generalizing s with
  | nil => rfl
  | cons l ls ih =>
      rw [State.passOutcomes, ih]
      split
      · exact s.arriveOutcome_lanes l _
      · rfl

/-- The read assembly with the outcomes that the moves of these lanes reported (R124). -/
def ReadAsm.passed (q : ReadAsm) (c : CopyRow) (ls : List Lane) : ReadAsm :=
  { q with slots := Six.build fun l => (q.slots.get l).told (if l ∈ ls then c.outcomes.get l else none) }

theorem ReadAsm.passed_get (q : ReadAsm) (c : CopyRow) (ls : List Lane) (l : Lane) :
    (q.passed c ls).slots.get l = (q.slots.get l).told (if l ∈ ls then c.outcomes.get l else none) := Six.get_build _ l

/-- Passing the outcome of one lane, and then those of others. -/
theorem ReadAsm.passed_cons (q : ReadAsm) (c : CopyRow) (l : Lane) (ls : List Lane) :
    q.passed c (l :: ls) =
      ReadAsm.passed { q with slots := q.slots.set l ((q.slots.get l).told (c.outcomes.get l)) } c ls := by
  unfold ReadAsm.passed
  congr 1
  refine Six.ext_get fun k => ?_
  rw [Six.get_build, Six.get_build, Six.get_set]
  by_cases hk : k = l
  · subst hk
    rw [if_pos rfl, if_pos List.mem_cons_self]
    cases h : c.outcomes.get k with
    | none => simp [Slot.told]
    | some out => rw [Slot.told_told]
  · simp [hk]

theorem State.passOutcomes_copy (hq : s.coder.read = some q) (hp : q.purpose = .copy) (ls : List Lane) :
    s.passOutcomes c ls = { s with coder := { s.coder with read := some (q.passed c ls) } } := by
  induction ls generalizing s q with
  | nil =>
      have same : q.passed c [] = q := by
        have slots : Six.build (fun l => q.slots.get l) = q.slots := Six.ext_get fun l => Six.get_build _ l
        simp [ReadAsm.passed, Slot.told, slots]
      rw [same, ← hq]
      rfl
  | cons l ls ih =>
      rw [State.passOutcomes, ReadAsm.passed_cons]
      cases h : c.outcomes.get l with
      | none =>
          rw [Slot.told_other (.inr rfl), Six.set_get_same, ih hq hp]
      | some out =>
          dsimp only
          rw [State.arriveOutcome_copy hq hp]
          exact ih rfl hp

/-- A copy row taken by the coder: its reads are unloaded, and the outcomes reported before are passed. -/
theorem State.readerBegun_copy {b : RowBegin} (hb : b.purpose = .copy) (hc : s.reader.copyRow = some c) :
    s.readerBegun b = (s.giveAll .cacheUnload c.reads).passOutcomes c Lane.all := by
  simp [State.readerBegun, hb, hc]

/-! ## The patch bytes and the pages produced (R125, R128) -/

/-- The BUILD lanes still present in the target, as one list. -/
theorem State.produceRow_named (hq : s.coder.read = some q) : s.produceRow c = s.produceCopy q
    (Lane.all.filter (fun l => decide (c.plan.get l = .build) && s.inTarget l c.target))
    (s.reader.targetBand, c.target) := by
  rw [State.produceRow_some hq, CopyRow.lanesOf, List.filter_filter]
  simp only [Bool.and_comm]

/-- The patch bytes the mover has fetched (R128). -/
def Patch.fetched (p : Patch) (ws : List Word) : PatchBytes :=
  { index := p.index, offset := p.offset, bytes := (ws.flatMap wordBytes).take p.length }

/-- The patch bytes in the coder's workspace; the row waits for them no more. -/
def State.withPatch (s : State) (c : CopyRow) (p : Patch) (ws : List Word) : State :=
  { s with reader := { s.reader with copyRow := some { c with fetching := false } },
           coder := { s.coder with patch := some (p.fetched ws) } }

theorem State.patchBytes_fetched {p : Patch} (hc : s.reader.copyRow = some c) (hf : c.fetching = true)
    (hp : s.reader.patchFor c.source = some p) (ws : List Word) : s.patchBytes ws =
      if c.judged = true then (s.withPatch c p ws).produceRow { c with fetching := false } else s.withPatch c p ws := by
  simp [State.patchBytes, hc, hf, hp, State.withPatch, Patch.fetched]

/-! ## The obligation -/

/-- Settles O43: the question, the lane plan, the begin, the taking by the coder and the patch bytes. -/
theorem copyRowBegins : Obligations.CopyRowBegins := by
  refine ⟨fun s o ho hk => ?row, fun s b c hb hc => ?taken, fun s o c p ws ho hc hf hp hrow => ?patch⟩
  case row =>
    intro r n target lacks there patched named plan present ready begun
    have hcopy := Reader.isCopy_of_copyRows ho hk
    have start : r.startRow = o.startRow := Reader.startRow_eq ho
    have htarget : r.nextTarget = target := by rw [Reader.nextTarget, start]
    have hthere (l : Lane) : s.inTarget l target = true ↔ there l := s.inTarget_iff l target
    have hnamed (l : Lane) : r.names n l = true ↔ named l := by rw [Reader.names_iff, start]
    have hpatch (p : Patch) : r.patchFor n = some p ↔ patched p := by rw [Reader.patchFor_eq_some, start]
    refine ⟨by simp [State.readerAsks_iff, ho, hcopy, r], fun l => ?_, fun _ => State.copyBegin_waits,
      fun hgo => State.copyBegin_ended hgo hcopy, fun hgo ⟨he, hw⟩ => State.copyBegin_locked hgo hcopy he hw,
      fun hgo ⟨he, hw⟩ hl => ?_⟩
    · rw [← hthere, ← hnamed]
      exact s.planClass_cases n target l
    · let g := s.goTaken
      have hplan (l : Lane) : g.planClass g.reader.nextRow g.reader.nextTarget l = plan l :=
        congrArg (s.planClass n · l) htarget
      rw [State.copyBegin_begins hgo hcopy he hw hl]
      refine ⟨fun hlost => ?lost, fun hlevel => ?begins⟩
      case lost =>
        have ended : g.reader.setEnding .dataLoss = { r with go := false, ending := some .dataLoss } := by
          rw [Reader.setEnding_eq, show g.reader.ending = none from he]
          rfl
        rw [State.beginCopy_lost (s := g) hlost, ended]
        rfl
      case begins =>
        have within : ¬g.reader.level.val < 6 - g.sourceLanes.length := Nat.not_lt.2 hlevel
        have planned (l : Lane) : g.nextCopy.plan.get l = plan l := (Six.get_build _ l).trans (hplan l)
        by_cases hb : ∃ l, plan l = .build
        · obtain ⟨fetching, begins⟩ := State.beginCopy_builds within (by simpa only [hplan] using hb)
          have reads (l : Lane) : l ∈ g.nextReads ↔ l ∈ present ∧ plan l ≠ .move := by
            rw [State.mem_nextReads, hplan]
            rfl
          refine ⟨_, g.givenCopy fetching, rfl, begins.reader, rfl, htarget, planned, rfl, rfl, rfl, rfl, rfl, rfl,
            rfl, rfl, rfl, fun l => Six.get_build _ l, begins.signals, fun hno => absurd hb (not_exists.2 hno),
            fun _ => ⟨rfl, begins.coder, reads, fun l => (begins.lane l).trans (if_congr (reads l) rfl rfl),
              fun hp => ?_, fun p hp => begins.patched p ((hpatch p).2 hp)⟩⟩
          exact begins.unpatched (Option.eq_none_iff_forall_ne_some.2 fun p hsome => hp p ((hpatch p).1 hsome))
        · have moves : (g.nextCopy.lanesOf .build).isEmpty = true := by
            by_contra hne
            exact hb (by simpa only [hplan] using g.nextCopy_builds.1 hne)
          rw [State.beginCopy_eq within, if_pos moves]
          exact ⟨_, g.nextCopy, rfl, rfl, rfl, htarget, planned, rfl, rfl, rfl, rfl, rfl, rfl, rfl, rfl, rfl,
            fun l => Six.get_build _ l, rfl, fun _ => ⟨rfl, rfl, rfl, rfl, rfl⟩, fun h => absurd h hb⟩
  case taken =>
    rw [State.readerBegun_copy hb hc]
    refine ⟨fun l => ?_, fun q hq hp => ⟨q.passed c Lane.all, ?_, rfl, fun l => ?_⟩⟩
    · rw [State.lane, State.passOutcomes_lanes]
      exact State.lane_giveAll _ _ _ l
    · rw [State.passOutcomes_copy (s := s.giveAll .cacheUnload c.reads) hq hp]
      rfl
    · rw [ReadAsm.passed_get, if_pos (mem_all_lanes l)]
      refine ⟨fun out ha hout => ?_, Slot.told_other⟩
      rw [hout, Slot.told_awaited ha]
  case patch =>
    have hpatch : s.reader.patchFor c.source = some p :=
      (s.reader.patchFor_eq_some c.source p).2 ⟨hp, by rw [Reader.startRow_eq ho, hrow]⟩
    rw [State.patchBytes_fetched hc hf hpatch]
    refine ⟨fun hj => if_neg (by simp [hj]), fun hj => ⟨fun hq => ?_, fun q hq => ?_⟩⟩
    · exact (if_pos hj).trans (State.produceRow_none (s := s.withPatch c p ws) hq)
    · exact (if_pos hj).trans (State.produceRow_named (s := s.withPatch c p ws) hq)

end Sys2Proof.Machine
end

