-- ==== Sys2Proof/Proofs/CopyMoves.lean ====
section
/-! A copy row in flight: its closing (R123, R127), its store permits, moves and commits (R123, R125), and the reports
of its lanes (R122, R124, R126). -/

namespace Sys2Proof.Machine

open Sys2Proof

variable {s : State} {c : CopyRow} {q : ReadAsm} {l : Lane}

/-! ## Closing a row (R123, R127) -/

@[simp] theorem State.giveAll_nil (s : State) (req : LaneReq) : (s.giveAll req []).lanes = s.lanes :=
  Six.ext_get fun l => by
    have lane := State.lane_giveAll s req [] l
    rwa [if_neg List.not_mem_nil] at lane

/-- The row as an ending closes it: it waits for no patch bytes and no permit any more. -/
def CopyRow.shut (c : CopyRow) : CopyRow := { c with closed := true, fetching := false, permitAsked := false }

/-- The lanes whose pages of the row are placed but not committed (R123, R127). -/
def State.uncommittedLanes (s : State) (c : CopyRow) : List Lane :=
  (if c.loaded.isNone && c.given then s.coder.read.elim [] (·.loaded) else []) ++
    if c.committed then [] else c.loaded.getD []

theorem State.uncommittedLanes_loaded {ls : List Lane} (h : c.loaded = some ls) (l : Lane) :
    l ∈ s.uncommittedLanes c ↔ c.committed = false ∧ l ∈ ls := by
  cases hc : c.committed <;> simp [State.uncommittedLanes, h, hc]

theorem State.uncommittedLanes_none (h : c.loaded = none) (hn : c.given = false ∨ s.coder.read = none) :
    s.uncommittedLanes c = [] := by
  rcases hn with hn | hn <;> simp [State.uncommittedLanes, h, hn]

/-- Before ROW LOADED the read assembly holds the lanes placed. -/
theorem State.uncommittedLanes_placed (h : c.loaded = none) (hg : c.given = true) (hq : s.coder.read = some q) :
    s.uncommittedLanes c = q.loaded := by
  simp [State.uncommittedLanes, h, hg, hq]

theorem State.closeCopy_none (hc : s.reader.copyRow = none) : s.closeCopy = s := by simp [State.closeCopy, hc]

theorem State.closeCopy_closed (hc : s.reader.copyRow = some c) (h : c.closed = true) : s.closeCopy = s := by
  simp [State.closeCopy, hc, h]

theorem State.closeCopy_open (hc : s.reader.copyRow = some c) (h : c.closed = false) : s.closeCopy =
    State.giveAll { s with
      reader := { s.reader with copyRow := some c.shut },
      coder := if c.given then s.coder.rowClosed else s.coder } .cacheDiscard (s.uncommittedLanes c) := by
  unfold State.closeCopy
  rw [hc]
  dsimp only
  rw [if_neg (by simp [h])]
  by_cases hg : c.given = true
  · rw [if_pos hg, if_pos hg]
    rfl
  · rw [if_neg hg, if_neg hg]
    rfl

/-- An ending closes the row in flight; the first ending set stands. -/
theorem State.endCopyRow_eq (s : State) (st : OrderStatus) : s.endCopyRow st =
    State.closeCopy { s with reader := { s.reader with ending := some (s.reader.ending.getD st) } } := by
  rw [State.endCopyRow, Reader.setEnding_eq]

theorem State.endCopyRow_closed (hc : s.reader.copyRow = some c) (h : c.closed = true) (st : OrderStatus) :
    s.endCopyRow st = { s with reader := { s.reader with ending := some (s.reader.ending.getD st) } } := by
  rw [State.endCopyRow_eq]
  exact State.closeCopy_closed hc h

theorem State.endCopyRow_none (hc : s.reader.copyRow = none) (st : OrderStatus) :
    s.endCopyRow st = { s with reader := { s.reader with ending := some (s.reader.ending.getD st) } } := by
  rw [State.endCopyRow_eq]
  exact State.closeCopy_none hc

theorem State.endCopyRow_open (hc : s.reader.copyRow = some c) (h : c.closed = false) (st : OrderStatus) :
    s.endCopyRow st = State.giveAll { s with
      reader := { s.reader with ending := some (s.reader.ending.getD st), copyRow := some c.shut },
      coder := if c.given then s.coder.rowClosed else s.coder } .cacheDiscard (s.uncommittedLanes c) := by
  rw [State.endCopyRow_eq]
  exact State.closeCopy_open hc h

/-! ## Permits, moves and commits (R123 steps 6 to 9, R125) -/

theorem State.copyPrepared_iff (s : State) (c : CopyRow) : s.copyPrepared c = true ↔ c.fetching = false ∧
    (c.given = false ∨ c.judged = true ∨
      ∃ q, s.coder.read = some q ∧ ∀ l ∈ c.reads, q.slots.get l ≠ .awaited) := by
  cases h : s.coder.read <;> simp [State.copyPrepared, h, or_assoc, Slot.isAwaited_iff, ← Bool.not_eq_true]

/-- The row stands at step 6 of R123, its step 5 ended and the OPEN notice in. -/
def State.permitDue (s : State) (c : CopyRow) : Prop :=
  c.phase = .prepare ∧ c.closed = false ∧ s.reader.openWait = false ∧ s.copyPrepared c = true

theorem State.copyPermit_asks (hc : s.reader.copyRow = some c) (h : s.permitDue c) (hf : c.openFault = false) :
    s.copyPermit = some { s with
      reader := { s.reader with copyRow := some { c with phase := .permit, permitAsked := true } },
      signals := s.signals ++ [.askPermit .reader] } := by
  obtain ⟨hp, hclosed, ho, hprep⟩ := h
  simp [State.copyPermit, State.emit, hc, hp, hclosed, ho, hprep, hf]

theorem State.copyPermit_fault (hc : s.reader.copyRow = some c) (h : s.permitDue c) (hf : c.openFault = true) :
    s.copyPermit = some (s.endCopyRow .storeFault) := by
  obtain ⟨hp, hclosed, ho, hprep⟩ := h
  simp [State.copyPermit, hc, hp, hclosed, ho, hprep, hf]

theorem State.copyPermit_none (hc : s.reader.copyRow = some c) (h : ¬s.permitDue c) : s.copyPermit = none := by
  rw [State.copyPermit, hc]
  exact if_neg h

theorem State.copyCommit_eq (hc : s.reader.copyRow = some c) : s.copyCommit =
    if c.phase = .moving ∧ c.closed = false ∧ c.loaded ≠ none ∧ c.committed = false ∧ c.permitAsked = false then
      some { s with
        reader := { s.reader with copyRow := some { c with permitAsked := true } },
        signals := s.signals ++ [.askPermit .reader] }
    else none := by
  simp only [State.copyCommit, hc, Option.isSome_iff_ne_none]
  rfl

theorem State.readerPermit_refused (hc : s.reader.copyRow = some c) (h : c.permitAsked = true) :
    s.readerPermit false = s.endCopyRow .storeFault := by
  simp [State.readerPermit, hc, h]

theorem State.readerPermit_locked (hc : s.reader.copyRow = some c) (h : c.permitAsked = true)
    (hl : s.protect.locked s.reader.targetBand = true) : s.readerPermit true = s.endCopyRow .protected_ := by
  simp [State.readerPermit, hc, h, hl]

/-- Each MOVE lane is given PAGE MOVE (R123 step 9). -/
theorem State.readerPermit_moves (hc : s.reader.copyRow = some c) (h : c.permitAsked = true)
    (hl : s.protect.locked s.reader.targetBand = false) (hp : c.phase = .permit) : s.readerPermit true =
      State.giveAll { s with reader := { s.reader with
        copyRow := some { c with phase := .moving, permitAsked := false, moves := c.lanesOf .move } } }
      (.pageMove { band := s.reader.band, row := c.source, level := s.reader.level } s.reader.targetBand c.target)
      (c.lanesOf .move) := by
  simp [State.readerPermit, State.giveMoves, hc, h, hl, hp]

/-- The loaded lanes that have not failed are given CACHE COMMIT (R125). -/
theorem State.readerPermit_commits {ls : List Lane} (hc : s.reader.copyRow = some c) (h : c.permitAsked = true)
    (hl : s.protect.locked s.reader.targetBand = false) (hp : c.phase = .moving) (hls : c.loaded = some ls) :
    s.readerPermit true = State.giveAll { s with reader := { s.reader with copyRow := some { c with
        permitAsked := false, committed := true, awaited := lanesMinus ls s.reader.lanesFailed,
        touched := c.touched || !(lanesMinus ls s.reader.lanesFailed).isEmpty } } }
      .cacheCommit (lanesMinus ls s.reader.lanesFailed) := by
  simp [State.readerPermit, State.giveCommits, hc, h, hl, hp, hls]

/-! ## A program of the target fails (R126) -/

/-- The row reader once lane `l` has failed at the target row: no update is given any more once a row is failing. -/
def Reader.copyFails (r : Reader) (c : CopyRow) (l : Lane) : Reader :=
  { r with
    lanesFailed := addLane r.lanesFailed l,
    lostWaits := if r.failing = none then r.lostWaits + 1 else r.lostWaits,
    copyRow := some { c with awaited := dropLane c.awaited l, failed := addLane c.failed l } }

/-- PROGRAM FAIL for lane `l` at the target row, unless a row is failing (R126). -/
def Reader.failMessage (r : Reader) (c : CopyRow) (l : Lane) : List Signal :=
  if r.failing = none then [.update .reader (.programFail r.targetBand l c.target) true] else []

/-- The failure recorded, and the lane's page discarded. -/
def State.failsLane (s : State) (c : CopyRow) (l : Lane) : State :=
  State.give { s with
    reader := s.reader.copyFails c l, signals := s.signals ++ s.reader.failMessage c l } l .cacheDiscard

theorem State.copyFail_eq (hc : s.reader.copyRow = some c) (l : Lane) :
    s.copyFail l = (s.failsLane c l).unnameLane l := by
  unfold State.copyFail State.failsLane Reader.copyFails Reader.failMessage
  rw [hc]
  cases hf : s.reader.failing <;> simp [State.emit, hf]

theorem State.failsLane_lane (s : State) (c : CopyRow) (l k : Lane) : (s.failsLane c l).lane k =
    if k = l then { s.lane k with waiting := (s.lane k).waiting ++ [.cacheDiscard] } else s.lane k :=
  State.lane_give _ l .cacheDiscard k

/-- Each lane of the set is given the request, and no other lane. -/
theorem State.giveAll_given (s : State) (req : LaneReq) {ls : List Lane} {p : Lane → Prop} (h : ∀ l, l ∈ ls ↔ p l)
    (l : Lane) : (p l → (s.giveAll req ls).lane l = { s.lane l with waiting := (s.lane l).waiting ++ [req] }) ∧
      (¬p l → (s.giveAll req ls).lane l = s.lane l) := by
  rw [State.lane_giveAll]
  exact ⟨fun hp => if_pos ((h l).2 hp), fun hp => if_neg (mt (h l).1 hp)⟩

/-- The read assembly of a copy row hands pages, or has pages left to hand. -/
def ReadAsm.names (q : ReadAsm) : Prop := q.purpose = .copy ∧ (q.handing ≠ none ∨ q.toHand ≠ [])

/-- The read assembly without the page of lane `l` (R126). -/
def ReadAsm.unname (q : ReadAsm) (l : Lane) : ReadAsm :=
  { q with toHand := q.toHand.filter (fun x => !(x.1 == l)), handing := q.handing.filter (fun h => !(h.lane == l)) }

theorem State.unnameLane_idle (h : ∀ q, s.coder.read = some q → ¬q.names) (l : Lane) : s.unnameLane l = s := by
  unfold State.unnameLane
  split
  · next q hq =>
      refine if_neg fun hn => h q hq ?_
      exact ⟨hn.1, hn.2.imp_left Option.isSome_iff_ne_none.1⟩
  · rfl

theorem State.unnameLane_names (hq : s.coder.read = some q) (h : q.names) (l : Lane) :
    s.unnameLane l = s.putCopy (q.unname l) := by
  unfold State.unnameLane
  rw [hq]
  exact if_pos ⟨h.1, h.2.imp_left Option.isSome_iff_ne_none.2⟩

/-- While a page is being handed the next one waits. -/
theorem State.putCopy_busy {h : Handing} (hh : q.handing = some h) :
    s.putCopy q = { s with coder := { s.coder with read := some q } } := by
  simp [State.putCopy, ReadAsm.nextHanding, hh]

/-- The page of another lane goes on being handed. -/
theorem State.unnameLane_stays {h : Handing} (hq : s.coder.read = some q) (hn : q.names) (hh : q.handing = some h)
    (hl : h.lane ≠ l) : s.unnameLane l = { s with coder := { s.coder with
      read := some { q with toHand := q.toHand.filter (fun x => !(x.1 == l)) } } } := by
  have still : q.handing.filter (fun h => !(h.lane == l)) = q.handing := by simp [hh, hl]
  rw [State.unnameLane_names hq hn, ReadAsm.unname, still]
  exact State.putCopy_busy hh

/-- No page, or the page of the lane itself, is being handed. -/
theorem ReadAsm.unname_handing (h : ¬∃ h, q.handing = some h ∧ h.lane ≠ l) : (q.unname l).handing = none := by
  simp only [ReadAsm.unname, Option.filter_eq_none_iff]
  intro x hx
  by_contra hne
  exact h ⟨x, hx, by simpa using hne⟩

/-- While the coder hands no page for the row, it is told nothing of the failure. -/
theorem State.copyFail_idle (hc : s.reader.copyRow = some c) (h : ∀ q, s.coder.read = some q → ¬q.names) (l : Lane) :
    s.copyFail l = s.failsLane c l := by
  rw [State.copyFail_eq hc]
  exact State.unnameLane_idle (s := s.failsLane c l) h l

theorem State.copyFail_stays {h : Handing} (hc : s.reader.copyRow = some c) (hq : s.coder.read = some q) (hn : q.names)
    (hh : q.handing = some h) (hl : h.lane ≠ l) : s.copyFail l = { s.failsLane c l with coder := { s.coder with
      read := some { q with toHand := q.toHand.filter (fun x => !(x.1 == l)) } } } := by
  rw [State.copyFail_eq hc]
  exact State.unnameLane_stays (s := s.failsLane c l) hq hn hh hl

/-- With no other page to hand the row is loaded (R58). -/
theorem State.copyFail_loaded (hc : s.reader.copyRow = some c) (hq : s.coder.read = some q) (hn : q.names)
    (hh : ¬∃ h, q.handing = some h ∧ h.lane ≠ l) (hnil : q.toHand.filter (fun x => !(x.1 == l)) = []) :
    s.copyFail l = (s.failsLane c l).releaseRead.emit (.rowLoaded q.loaded) := by
  rw [State.copyFail_eq hc, State.unnameLane_names (s := s.failsLane c l) hq hn,
    State.putCopy_loaded (ReadAsm.unname_handing hh) hnil]
  rfl

/-- The next page of another lane is handed. -/
theorem State.copyFail_next {k : Lane} {page : List Byte} {rest : List (Lane × List Byte)}
    (hc : s.reader.copyRow = some c) (hq : s.coder.read = some q) (hn : q.names)
    (hh : ¬∃ h, q.handing = some h ∧ h.lane ≠ l) (hcons : q.toHand.filter (fun x => !(x.1 == l)) = (k, page) :: rest) :
    s.copyFail l = { s.failsLane c l with coder := { s.coder with
      read := some { q with toHand := rest, handing := some (pageFor (s.failsLane c l).lanes k page) } } } := by
  rw [State.copyFail_eq hc, State.unnameLane_names (s := s.failsLane c l) hq hn,
    State.putCopy_next (ReadAsm.unname_handing hh) hcons]
  rfl

theorem State.putCopy_reader (s : State) (q : ReadAsm) : (s.putCopy q).reader = s.reader := by
  unfold State.putCopy
  dsimp only
  split <;> rfl

theorem State.putCopy_tells (s : State) (q : ReadAsm) : s.signals ⊆ (s.putCopy q).signals := by
  unfold State.putCopy
  dsimp only
  split
  · exact List.subset_append_left _ _
  · exact List.Subset.refl _

/-- Beside the coder and its messages nothing changes when a lane is named no more. -/
theorem State.unnameLane_beside (s : State) (l : Lane) : (s.unnameLane l).reader = s.reader ∧
    (s.unnameLane l).lanes = s.lanes ∧ s.signals ⊆ (s.unnameLane l).signals := by
  unfold State.unnameLane
  split
  · split
    · exact ⟨State.putCopy_reader _ _, State.putCopy_lanes _ _, State.putCopy_tells _ _⟩
    · exact ⟨rfl, rfl, List.Subset.refl _⟩
  · exact ⟨rfl, rfl, List.Subset.refl _⟩

theorem State.copyFail_reader (hc : s.reader.copyRow = some c) (l : Lane) :
    (s.copyFail l).reader = s.reader.copyFails c l := by
  obtain ⟨reader, -, -⟩ := (s.failsLane c l).unnameLane_beside l
  rw [State.copyFail_eq hc, reader]
  rfl

theorem State.copyFail_lane (hc : s.reader.copyRow = some c) (l k : Lane) : (s.copyFail l).lane k =
    if k = l then { s.lane k with waiting := (s.lane k).waiting ++ [.cacheDiscard] } else s.lane k := by
  obtain ⟨-, lanes, -⟩ := (s.failsLane c l).unnameLane_beside l
  rw [State.copyFail_eq hc, State.lane, lanes]
  exact s.failsLane_lane c l k

theorem State.copyFail_tells (hc : s.reader.copyRow = some c) (l : Lane) :
    s.signals ++ s.reader.failMessage c l ⊆ (s.copyFail l).signals := by
  obtain ⟨-, -, signals⟩ := (s.failsLane c l).unnameLane_beside l
  rwa [State.copyFail_eq hc]

/-! ## The report of a committed page (R126, R127) -/

theorem State.copyProgramReport_fail {op : LastOp} (h : op.outcome = .fail) (l : Lane) :
    s.copyProgramReport l op = s.copyFail l := if_pos h

theorem State.copyProgramReport_pass {op : LastOp} (hc : s.reader.copyRow = some c) (h : op.outcome = .pass)
    (l : Lane) : s.copyProgramReport l op = { s with
      reader := { s.reader with copyRow := some { c with awaited := dropLane c.awaited l } } } := by
  simp [State.copyProgramReport, hc, h]

/-! ## The report of a move (R122, R124) -/

/-- The message for a page of one class. -/
theorem Reader.attention_attends (r : Reader) (k : PageClass) : r.attention k.attends =
    if k ∈ [PageClass.weak, .uncorrectable, .tagMismatch] then [.update .reader (.setAttention r.band) false] else [] :=
  if_congr k.attends_iff rfl rfl

/-- The row once lane `l` has reported its move: the lane's class follows the outcome (R122). -/
def CopyRow.moved (c : CopyRow) (l : Lane) (op : LastOp) (out : PageOutcome) : CopyRow :=
  { c with
    moves := dropLane c.moves l, outcomes := c.outcomes.set l (some out),
    touched := c.touched || !decide (op.outcome = .sourceBad),
    plan := c.plan.set l (op.outcome.reclass (c.plan.get l)) }

theorem CopyRow.moved_plan (c : CopyRow) (l : Lane) (op : LastOp) (out : PageOutcome) (k : Lane) :
    (c.moved l op out).plan.get k = if k = l then op.outcome.reclass (c.plan.get k) else c.plan.get k := by
  rw [CopyRow.moved, Six.get_set]
  split
  · next h => rw [h]
  · rfl

theorem CopyRow.moved_bad {op : LastOp} (h : op.outcome = .sourceBad) (c : CopyRow) (l : Lane) (out : PageOutcome) :
    (∀ k, (c.moved l op out).plan.get k = if k = l then .build else c.plan.get k) ∧
      (c.moved l op out).touched = c.touched :=
  ⟨fun k => by rw [CopyRow.moved_plan, h, OpOutcome.reclass_sourceBad], by simp [CopyRow.moved, h]⟩

theorem CopyRow.moved_fail {op : LastOp} (h : op.outcome = .fail) (c : CopyRow) (l : Lane) (out : PageOutcome) :
    (∀ k, (c.moved l op out).plan.get k = if k = l then .feed else c.plan.get k) ∧
      (c.moved l op out).touched = true :=
  ⟨fun k => by rw [CopyRow.moved_plan, h, OpOutcome.reclass_fail], by simp [CopyRow.moved, h]⟩

/-- PASS leaves the lane's class. -/
theorem CopyRow.moved_pass {op : LastOp} (h : op.outcome = .pass) (c : CopyRow) (l : Lane) (out : PageOutcome) :
    c.moved l op out = { c with
      moves := dropLane c.moves l, outcomes := c.outcomes.set l (some out), touched := true } := by
  simp [CopyRow.moved, h, Six.set_get_same]

/-- The report of a move noted: the source's outcome kept, attention set for its class (R124). -/
def State.moveNoted (s : State) (c : CopyRow) (l : Lane) (op : LastOp) (out : PageOutcome) : State :=
  { s with
    reader := { s.reader with copyRow := some (c.moved l op out) },
    signals := s.signals ++ s.reader.attention out.cls.attends }

/-- The report noted, and its outcome passed to the coder if that has the row. -/
def State.movePassed (s : State) (c : CopyRow) (l : Lane) (op : LastOp) (out : PageOutcome) : State :=
  if c.given then (s.moveNoted c l op out).arriveOutcome l out else s.moveNoted c l op out

theorem State.arriveOutcome_beside (s : State) (l : Lane) (out : PageOutcome) :
    s.arriveOutcome l out = { s with coder := (s.arriveOutcome l out).coder } := by
  unfold State.arriveOutcome
  split
  · split <;> rfl
  · rfl

theorem State.movePassed_beside (s : State) (c : CopyRow) (l : Lane) (op : LastOp) (out : PageOutcome) :
    s.movePassed c l op out = { s.moveNoted c l op out with coder := (s.movePassed c l op out).coder } := by
  unfold State.movePassed
  split
  · exact State.arriveOutcome_beside _ l out
  · rfl

theorem State.movePassed_reader (s : State) (c : CopyRow) (l : Lane) (op : LastOp) (out : PageOutcome) :
    (s.movePassed c l op out).reader = { s.reader with copyRow := some (c.moved l op out) } := by
  rw [State.movePassed_beside]
  rfl

theorem State.movePassed_lanes (s : State) (c : CopyRow) (l : Lane) (op : LastOp) (out : PageOutcome) :
    (s.movePassed c l op out).lanes = s.lanes := by
  rw [State.movePassed_beside]
  rfl

theorem State.movePassed_table (s : State) (c : CopyRow) (l : Lane) (op : LastOp) (out : PageOutcome) :
    (s.movePassed c l op out).table = s.table := by
  rw [State.movePassed_beside]
  rfl

theorem State.movePassed_signals (s : State) (c : CopyRow) (l : Lane) (op : LastOp) (out : PageOutcome) :
    (s.movePassed c l op out).signals = s.signals ++ s.reader.attention out.cls.attends := by
  rw [State.movePassed_beside]
  rfl

theorem State.movePassed_notGiven (h : c.given = false) (l : Lane) (op : LastOp) (out : PageOutcome) :
    s.movePassed c l op out = s.moveNoted c l op out := by
  simp [State.movePassed, h]

/-- With nothing in the read assembly the coder takes no outcome. -/
theorem State.movePassed_idle (h : s.coder.read = none) (c : CopyRow) (l : Lane) (op : LastOp) (out : PageOutcome) :
    (s.movePassed c l op out).coder = s.coder := by
  have h' : (s.moveNoted c l op out).coder.read = none := h
  unfold State.movePassed
  split
  · simp [State.arriveOutcome, h']
    rfl
  · rfl

/-- An awaited lane is marked outcome only (R53, R124). -/
theorem State.movePassed_given (h : c.given = true) (hq : s.coder.read = some q) (hp : q.purpose = .copy)
    (ha : q.slots.get l = .awaited) (op : LastOp) (out : PageOutcome) : (s.movePassed c l op out).coder =
      { s.coder with read := some { q with slots := q.slots.set l (.outcomeOnly out) } } := by
  rw [State.movePassed, if_pos h, State.arriveOutcome_copy (s := s.moveNoted c l op out) hq hp, Slot.told_awaited ha]
  rfl

/-- What the report of a move leads to, by its outcome. -/
theorem State.moveReport_eq (hc : s.reader.copyRow = some c) (l : Lane) (op : LastOp) (out : PageOutcome) :
    s.moveReport l op (some out) =
      if op.outcome = .fail then (s.movePassed c l op out).copyFail l
      else if op.outcome = .sourceBad ∧ c.given = false ∧ c.closed = false then
        (s.moveNoted c l op out).giveCopyRow (c.moved l op out) ((c.moved l op out).lanesOf .feed)
      else s.movePassed c l op out := by
  unfold State.moveReport
  rw [hc]
  dsimp only
  rw [State.readerAttention_eq]
  have given (hg : c.given = true) : s.movePassed c l op out = (s.moveNoted c l op out).arriveOutcome l out := if_pos hg
  have kept (hg : ¬c.given = true) : s.movePassed c l op out = s.moveNoted c l op out := if_neg hg
  by_cases hf : op.outcome = .fail
  · rw [if_pos hf, if_pos hf]
    refine congrArg (State.copyFail · l) ?_
    by_cases hg : c.given = true
    · rw [given hg, if_pos hg]
      rfl
    · have passed : ¬(decide (op.outcome = .sourceBad) && !c.closed) = true := by simp [hf]
      rw [kept hg, if_neg hg, if_neg passed]
      rfl
  · rw [if_neg hf, if_neg hf]
    by_cases hg : c.given = true
    · rw [given hg, if_pos hg]
      exact (if_neg fun h => Bool.false_ne_true (h.2.1.symm.trans hg)).symm
    · rw [kept hg, if_neg hg]
      exact if_congr (by simp [hg]) rfl rfl

theorem State.moveReport_pass {op : LastOp} (hc : s.reader.copyRow = some c) (h : op.outcome = .pass) (l : Lane)
    (out : PageOutcome) : s.moveReport l op (some out) = s.movePassed c l op out := by
  rw [State.moveReport_eq hc, if_neg (by simp [h]), if_neg (by simp [h])]

/-- With the first SOURCE_BAD the coder is given the row (R124). -/
theorem State.moveReport_gives {op : LastOp} (hc : s.reader.copyRow = some c) (h : op.outcome = .sourceBad)
    (hg : c.given = false ∧ c.closed = false) (l : Lane) (out : PageOutcome) : s.moveReport l op (some out) =
      (s.moveNoted c l op out).giveCopyRow (c.moved l op out) ((c.moved l op out).lanesOf .feed) := by
  rw [State.moveReport_eq hc, if_neg (by simp [h]), if_pos ⟨h, hg⟩]

theorem State.moveReport_bad {op : LastOp} (hc : s.reader.copyRow = some c) (h : op.outcome = .sourceBad)
    (hg : ¬(c.given = false ∧ c.closed = false)) (l : Lane) (out : PageOutcome) :
    s.moveReport l op (some out) = s.movePassed c l op out := by
  rw [State.moveReport_eq hc, if_neg (by simp [h]), if_neg fun hno => hg hno.2]

/-- A FAIL is a program failure of the target (R124, R126). -/
theorem State.moveReport_fail {op : LastOp} (hc : s.reader.copyRow = some c) (h : op.outcome = .fail) (l : Lane)
    (out : PageOutcome) : s.moveReport l op (some out) = (s.movePassed c l op out).copyFail l := by
  rw [State.moveReport_eq hc, if_pos h]

end Sys2Proof.Machine
end

