-- ==== Sys2Proof/Proofs/CopyEnds.lean ====
section
/-! The end of a copy row and of COPY ROWS: the coder's verdict (R125), the table's answers and notices (R123, R126),
the completion of the row (R127) and the end of the order (R120, R129). -/

namespace Sys2Proof.Machine

open Sys2Proof

variable {s : State} {o : Order} {c : CopyRow} {q : ReadAsm} {l : Lane}

/-! ## The coder's part (R125) -/

theorem State.copyNeeds_lane (hc : s.reader.copyRow = some c) (ls : List Lane) (l : Lane) :
    (s.copyNeeds ls).lane l = if l ∈ ls then { s.lane l with waiting := (s.lane l).waiting ++
        [.pageRead { band := s.reader.band, row := c.source, level := s.reader.level }, .cacheUnload] }
      else s.lane l := by
  simp only [State.copyNeeds, hc, State.lane_giveAll]
  split
  · simp
  · rfl

theorem State.copyLoaded_eq (hc : s.reader.copyRow = some c) (ls : List Lane) :
    s.copyLoaded ls = { s with reader := { s.reader with copyRow := some { c with loaded := some ls } } } := by
  simp [State.copyLoaded, hc]

/-- The counts and attention of the row report taken, the row marked as judged. -/
def State.copyCounted (s : State) (c : CopyRow) (rep : RowReport) : State :=
  { s with
    reader := { s.reader.counts rep with copyRow := some { c with judged := true } },
    signals := s.signals ++ s.reader.attention rep.attends }

theorem State.copyJudged_unrecoverable {rep : RowReport} (hc : s.reader.copyRow = some c)
    (hv : rep.verdict = .unrecoverable) : s.copyJudged rep = (s.copyCounted c rep).endCopyRow .dataLoss := by
  simp only [State.copyJudged, hc, State.readerCount_eq, hv]
  rfl

/-- The pages are produced once the patch bytes are in (log 25). -/
theorem State.copyJudged_recoverable {rep : RowReport} (hc : s.reader.copyRow = some c)
    (hv : rep.verdict = .recoverable) : s.copyJudged rep = if c.fetching = true then s.copyCounted c rep
      else (s.copyCounted c rep).produceRow { c with judged := true } := by
  simp only [State.copyJudged, hc, State.readerCount_eq, hv]
  rfl

/-! ## The failing row, answers and notices (R123, R126) -/

theorem State.copyFailed_failing {n : Nat} (h : s.reader.failing ≠ none) : s.copyFailed n = s := by
  obtain ⟨m, hm⟩ := Option.ne_none_iff_exists'.1 h
  simp [State.copyFailed, hm]

theorem State.closeCopy_reader (hc : s.reader.copyRow = some c) :
    s.closeCopy.reader = { s.reader with copyRow := some (if c.closed then c else c.shut) } := by
  cases h : c.closed with
  | true => rw [State.closeCopy_closed hc h, if_pos rfl, ← hc]
  | false => rw [State.closeCopy_open hc h]; rfl

/-- The first failing row sets PROGRAM_FAIL and closes the row in flight. -/
theorem State.copyFailed_reader (hc : s.reader.copyRow = some c) (n : Nat) (h : s.reader.failing = none) :
    (s.copyFailed n).reader = { s.reader with
      failing := some n, ending := some .programFail, copyRow := some (if c.closed then c else c.shut) } := by
  have first : s.copyFailed n =
      State.closeCopy { s with reader := { s.reader with failing := some n, ending := some .programFail } } := by
    simp [State.copyFailed, h]
  rw [first]
  exact State.closeCopy_reader hc

theorem CopyRow.closed_shut (c : CopyRow) : (if c.closed then c else c.shut).closed = true := by
  split
  · assumption
  · rfl

theorem State.readerAnswer_applied (s : State) (b : Nat) (l : Lane) (n : Nat) :
    s.readerAnswer (.programFail b l n) true = if (s.band b).state = .failed then s.copyFailed n else s := by
  simp [State.readerAnswer]

/-- Not applied, no notice will come but under STORE_FAULT (logs 20, 21). -/
theorem State.readerAnswer_refused (s : State) (b : Nat) (l : Lane) (n : Nat) :
    s.readerAnswer (.programFail b l n) false = (if s.table.storeFault = true then s
      else { s with reader := { s.reader with lostWaits := s.reader.lostWaits - 1 } }).copyFailed n := by
  simp [State.readerAnswer]

theorem State.readerNotice_openFault (hc : s.reader.copyRow = some c) : s.readerNotice .opened false = { s with
    reader := { s.reader with openWait := false, copyRow := some { c with openFault := true } } } := by
  have hc' : ({ s.reader with openWait := false } : Reader).copyRow = some c := hc
  simp only [State.readerNotice, Reader.openFailed_row hc']
  rfl

theorem State.readerNotice_openFault_none (hc : s.reader.copyRow = none) : s.readerNotice .opened false = { s with
    reader := { s.reader with openWait := false, ending := some (s.reader.ending.getD .storeFault) } } := by
  have hc' : ({ s.reader with openWait := false } : Reader).copyRow = none := hc
  simp only [State.readerNotice, Reader.openFailed_none hc', Reader.setEnding_eq]
  rfl

theorem State.readerNotice_lostFault (s : State) : s.readerNotice .lost false = { s with reader := { s.reader with
    lostWaits := s.reader.lostWaits - 1, ending := some (s.reader.ending.getD .storeFault) } } := by
  simp only [State.readerNotice, Reader.setEnding_eq]
  rfl

/-! ## The row leaves the flight (R123, R126, R127) -/

theorem State.copyFailuresApplied_iff (s : State) (c : CopyRow) : s.copyFailuresApplied c = true ↔
    ∀ l ∈ c.failed, (s.band s.reader.targetBand).absent l c.target = true := List.all_eq_true

/-- The row reader without its row, the WEAK sources that no row report has counted now counted (R124). -/
def Reader.rowGone (r : Reader) (c : CopyRow) : Reader :=
  { r with copyRow := none, weakSeen := min 255 (r.weakSeen + c.weakMoves) }

theorem State.dropCopy_eq (s : State) (c : CopyRow) : s.dropCopy c = { s with reader := s.reader.rowGone c } := by
  rw [State.dropCopy, satAdd_eq_min, Reader.rowGone]

theorem State.completeCopy_eq (s : State) (c : CopyRow) : s.completeCopy c = { s with
    reader := { s.reader.rowGone c with rowsDone := s.reader.rowsDone + 1 },
    signals := s.signals ++ [.update .reader (.rowComplete s.reader.targetBand c.target) false] } := by
  rw [State.completeCopy, State.dropCopy_eq]
  rfl

theorem State.copyRowEnd_runs (hc : s.reader.copyRow = some c) (h : c.moves ≠ [] ∨ c.awaited ≠ []) :
    s.copyRowEnd = none := by
  rw [State.copyRowEnd, hc]
  exact if_pos h

theorem State.copyRowEnd_open (hc : s.reader.copyRow = some c) (h : ¬(c.moves ≠ [] ∨ c.awaited ≠ []))
    (ho : c.closed = false) : s.copyRowEnd =
      if c.phase = .moving ∧ (c.given = false ∨ c.committed = true) ∧
        ∀ l ∈ c.failed, (s.band s.reader.targetBand).absent l c.target = true then some (s.completeCopy c)
      else none := by
  simp only [State.copyRowEnd, hc, if_neg h, ho, Bool.false_eq_true, if_false, State.copyFailuresApplied_iff]

/-- A closed row that touched the target completes, unless the target is FAILED. -/
theorem State.copyRowEnd_closed (hc : s.reader.copyRow = some c) (h : ¬(c.moves ≠ [] ∨ c.awaited ≠ []))
    (hcl : c.closed = true) : s.copyRowEnd =
      if c.touched = false ∨ s.reader.failing ≠ none then some (s.dropCopy c)
      else if ∀ l ∈ c.failed, (s.band s.reader.targetBand).absent l c.target = true then some (s.completeCopy c)
      else none := by
  simp only [State.copyRowEnd, hc, if_neg h, hcl, if_true, State.copyFailuresApplied_iff, Option.isSome_iff_ne_none]

/-! ## The end of the order (R120, R129) -/

theorem Reader.leftovers_copy (ho : s.reader.order = some o) (hk : o.kind = .copyRows) :
    s.reader.leftovers = true ↔ s.reader.started = true ∧ ∀ c, s.reader.copyRow = some c → c.closed = true := by
  cases h : s.reader.copyRow <;> simp [Reader.leftovers, ho, Reader.isCopy_of_copyRows ho hk, h]

theorem State.takeEnding_copy (ho : s.reader.order = some o) (hk : o.kind = .copyRows) (hw : s.writer.order = none)
    (e : MoverEnding) : s.takeEnding e = s.endCopyRow e.status := by
  simp [State.takeEnding, hw, ho, Reader.isCopy_of_copyRows ho hk, State.copyMoverEnding]

/-! ## The obligation -/

/-- Settles O44: permits, closing, reports of moves and programs, judgement, the row's end and the order's end. -/
theorem copyMovesCommitsAndEnds : Obligations.CopyMovesCommitsAndEnds := by
  refine ⟨fun s c hc => ?permits, fun s c l op out hc => ?moved, fun s c hc => ?rest, fun s o ho hk => ?order⟩
  case permits =>
    intro r row prepared ask again source given
    have due : s.permitDue c ↔ ask := by rw [State.permitDue, State.copyPrepared_iff]
    rw [State.copyCommit_eq hc]
    refine ⟨fun ha => State.copyPermit_asks hc (due.2 ha), fun ha => State.copyPermit_fault hc (due.2 ha),
      fun ha => State.copyPermit_none hc (mt due.1 ha), fun ha => if_pos ha, fun ha => if_neg ha,
      fun hp => ⟨State.readerPermit_refused hc hp, State.readerPermit_locked hc hp, fun hl hph => ?moves,
        fun hl hph ls hls => ?commits⟩, fun st => ⟨fun h => State.endCopyRow_closed hc h st, fun h => ?closes⟩⟩
    case moves =>
      rw [State.readerPermit_moves hc hp hl hph]
      exact ⟨⟨_, c.mem_lanesOf .move, rfl⟩, State.giveAll_given _ _ (c.mem_lanesOf .move)⟩
    case commits =>
      rw [State.readerPermit_commits hc hp hl hph hls]
      exact ⟨rfl, State.giveAll_given _ _ fun l => Iff.rfl⟩
    case closes =>
      rw [State.endCopyRow_open hc h]
      refine ⟨rfl, rfl, fun ls hls => State.giveAll_given _ _ (State.uncommittedLanes_loaded hls), fun hn hno => ?_,
        fun q hn hg hq => State.giveAll_given _ _ fun l => ?_⟩
      · rw [State.uncommittedLanes_none hn hno]
        exact State.giveAll_nil _ _
      · rw [State.uncommittedLanes_placed hn hg hq]
  case moved =>
    intro r t told left passed
    have attends : s.signals ++ s.reader.attention out.cls.attends = told :=
      congrArg (s.signals ++ ·) (r.attention_attends out.cls)
    have signals : (s.movePassed c l op out).signals = told := (s.movePassed_signals c l op out).trans attends
    have given (hg : c.given = true) : passed (s.movePassed c l op out) :=
      fun q hq hp ha => State.movePassed_given hg hq hp ha op out
    have notGiven (hg : c.given = false) : (s.movePassed c l op out).coder = s.coder := by
      rw [State.movePassed_notGiven hg]
      rfl
    have row : (s.movePassed c l op out).reader = { r with copyRow := some (c.moved l op out) } :=
      s.movePassed_reader c l op out
    have lanes := s.movePassed_lanes c l op out
    refine ⟨fun h => ?pass, fun h => ?bad, fun h => ?fails, fun h => ?failed⟩
    case pass =>
      rw [show t = _ from State.moveReport_pass hc h l out]
      exact ⟨by rw [row, CopyRow.moved_pass h]; rfl, signals, lanes, notGiven, given⟩
    case bad =>
      obtain ⟨plan, touched⟩ := CopyRow.moved_bad h c l out
      by_cases hgive : c.given = false ∧ c.closed = false
      · have feeds (k : Lane) : k ∈ (c.moved l op out).lanesOf .feed ↔
            (if k = l then .build else c.plan.get k) = .feed := by
          rw [CopyRow.mem_lanesOf, plan]
        rw [show t = _ from State.moveReport_gives hc h hgive l out, State.giveCopyRow_eq]
        refine ⟨_, rfl, plan, rfl, rfl, touched, attends, fun hg => ?_, fun _ hcl => ?_,
          fun _ _ => ⟨rfl, feeds, rfl, fun k => (State.lane_giveAll _ _ _ k).trans (if_congr (feeds k) rfl rfl)⟩⟩
        · exact absurd (hgive.1.symm.trans hg) Bool.false_ne_true
        · exact absurd (hgive.2.symm.trans hcl) Bool.false_ne_true
      · rw [show t = _ from State.moveReport_bad hc h hgive l out]
        exact ⟨_, row, plan, rfl, rfl, touched, signals, fun hg => ⟨hg, lanes, given hg⟩,
          fun hg _ => ⟨hg, lanes, notGiven hg⟩, fun hg hcl => absurd ⟨hg, hcl⟩ hgive⟩
    case fails =>
      obtain ⟨plan, touched⟩ := CopyRow.moved_fail h c l out
      exact ⟨s.movePassed c l op out, c.moved l op out,
        (State.moveReport_fail hc h l out).trans (State.copyProgramReport_fail h l).symm, row, plan, rfl, rfl, touched,
        rfl, signals, lanes, s.movePassed_table c l op out, notGiven, given⟩
    case failed =>
      obtain ⟨plan, touched⟩ := CopyRow.moved_fail h c l out
      have flight : (s.movePassed c l op out).reader.copyRow = some (c.moved l op out) := by rw [row]
      have reader : ((s.movePassed c l op out).copyFail l).reader = Reader.copyFails _ (c.moved l op out) l :=
        State.copyFail_reader flight l
      rw [show t = _ from State.moveReport_fail hc h l out, reader, row]
      refine ⟨_, rfl, plan, rfl, touched, fun k => mem_addLane, fun k => mem_addLane, fun k => ?_, fun hq => ?_,
        fun hf => ⟨if_pos hf, ?_⟩, fun hf => if_neg hf⟩
      · rw [State.copyFail_lane flight, State.lane, lanes]
        rfl
      · have idle : (s.movePassed c l op out).coder = s.coder := State.movePassed_idle hq c l op out
        rw [State.copyFail_idle flight (by simp [idle, hq])]
        exact idle
      · have message : (s.movePassed c l op out).reader.failMessage (c.moved l op out) l =
            [.update .reader (.programFail r.targetBand l c.target) true] := by
          rw [row]
          exact if_pos hf
        have tells := State.copyFail_tells flight l
        rw [message] at tells
        exact tells (List.mem_append_right _ (List.mem_singleton_self _))
  case rest =>
    intro r there
    refine ⟨fun l op h => State.copyProgramReport_pass hc h l, fun l op h => ?failed,
      fun ls l => State.copyNeeds_lane hc ls l, State.copyLoaded_eq hc, fun rep => ?judged,
      fun n => ⟨fun hf => ?fails, State.copyFailed_failing⟩, fun b l n => ?answers, ?notices, ?ends⟩
    case failed =>
      intro t told unnamed stays naming
      rw [show t = _ from State.copyProgramReport_fail h l]
      refine ⟨⟨_, _, fun k => mem_addLane, fun k => mem_addLane, State.copyFail_reader hc l⟩,
        State.copyFail_lane hc l, fun hidle => ?_, fun q hq hn => ⟨fun ⟨x, hx, hxl⟩ => ?_, fun hs hnil => ?_,
          fun hs k page rest hcons => ?_⟩⟩
      · rw [State.copyFail_idle hc hidle]
        exact ⟨rfl, rfl⟩
      · rw [State.copyFail_stays hc hq hn hx hxl]
        exact ⟨rfl, rfl⟩
      · rw [State.copyFail_loaded hc hq hn hs hnil]
        exact ⟨rfl, rfl⟩
      · rw [State.copyFail_next hc hq hn hs hcons]
        exact ⟨rfl, _, rfl, rfl, rfl⟩
    case judged =>
      intro attends counted
      have same : rep.attends = attends := by simp only [RowReport.attends, PageClass.attends_eq_decide, attends]
      have count : s.copyCounted c rep = counted := by
        rw [State.copyCounted, Reader.attention, same]
        rfl
      rw [← count]
      refine ⟨State.copyJudged_unrecoverable hc, fun hv hf => ?_, fun hv hf q hq => ?_⟩
      · rw [State.copyJudged_recoverable hc hv, if_pos hf]
      · rw [State.copyJudged_recoverable hc hv, if_neg (by simp [hf]),
          State.produceRow_named (s := s.copyCounted c rep) hq]
        rfl
    case fails =>
      rw [State.copyFailed_reader hc n hf]
      exact ⟨rfl, rfl, _, rfl, c.closed_shut⟩
    case answers =>
      rw [State.readerAnswer_applied, State.readerAnswer_refused]
      exact ⟨fun h => if_pos h, fun h => if_neg h, fun h => by rw [if_pos h], fun h => by rw [if_neg (by simp [h])]⟩
    case notices => exact ⟨rfl, State.readerNotice_openFault hc, rfl, s.readerNotice_lostFault⟩
    case ends =>
      intro running applied weak gone completed whole
      have complete : s.completeCopy c = completed := s.completeCopy_eq c
      refine ⟨State.copyRowEnd_runs hc, fun hr hcl => ?_, fun hr hcl => ?_⟩
      · rw [State.copyRowEnd_open hc hr hcl, complete]
        exact ⟨fun h => if_pos h, fun h => if_neg h⟩
      · rw [State.copyRowEnd_closed hc hr hcl, complete, State.dropCopy_eq]
        refine ⟨fun h => if_pos h, fun ht hf => ?_⟩
        rw [if_neg (not_or.2 ⟨by simp [ht], not_not.2 hf⟩)]
        exact ⟨fun h => if_pos h, fun h => if_neg h⟩
  case order =>
    intro r noMore rowGone left due ends result
    have held (l : Lane) : (s.lane l).holdsRead = true ↔ left l := LaneCtl.holdsRead_iff _
    have gone : s.reader.leftovers = true ↔ rowGone := Reader.leftovers_copy ho hk
    have hdue : s.reader.endDue = true ↔ due := by
      rw [Reader.endDue_iff]
      exact and_iff_right (by rw [ho]; exact Option.some_ne_none o)
    refine ⟨fun hg l hl hmin => ?_,
      fun h => State.readerCleanup_none (h.imp (mt gone.1) fun h l => mt (held l).1 (h l)),
      fun h => State.readerEnd_moving (hdue.2 h), fun h => State.readerEnd_still (hdue.2 h),
      fun h => State.readerEnd_none (mt hdue.1 h), Reader.status_failing, Reader.status_cases,
      State.readerFinish_started, State.readerFinish_refused, State.readerFinish_none, fun e hw => ?_,
      fun hc => ⟨State.readerNotice_openFault_none hc, State.endCopyRow_none hc⟩⟩
    · exact State.readerCleanup_lowest (gone.2 hg) ((held l).2 hl) fun k hk => mt (held k).1 (hmin k hk)
    · rw [State.takeEnding_copy ho hk hw]
      cases e <;> rfl

end Sys2Proof.Machine
end

