-- ==== Sys2Proof/Proofs/LocksKept.lean ====
section
/-! What each command does to the protection unit before the reactions: most leave it as it is, fuses and working copy
with it. The others are the lock orders, WRITE_INHIBIT_N, the fuse load, the fuse write and the resets. -/

namespace Sys2Proof.Machine

open Sys2Proof

namespace State

variable (s : State)

/-! ## The lanes and the coder (chapters 1 and 3) -/

theorem endProgram_protect (l : Lane) (pass : Bool) : (s.endProgram l pass).protect = s.protect := by
  unfold endProgram
  dsimp only
  split <;> rfl

theorem endMove_protect (l : Lane) (seen : ArrayRead) (pass : Bool) :
    (s.endMove l seen pass).protect = s.protect := by
  unfold endMove
  dsimp only
  split
  · split <;> rfl
  · rfl

theorem endErase_protect (l : Lane) (pass : Bool) : (s.endErase l pass).protect = s.protect := by
  unfold endErase
  dsimp only
  split <;> simp [finish]

@[simp] theorem claimCoder_protect (o : CoderOwner) : (s.claimCoder o).protect = s.protect := by
  unfold claimCoder
  split <;> rfl

theorem beginWriteRow_protect : s.beginWriteRow.protect = s.protect := by
  unfold beginWriteRow
  split <;> rfl

theorem beginReadRow_protect : s.beginReadRow.protect = s.protect := by
  unfold beginReadRow
  split <;> rfl

@[simp] theorem putWrite_protect (a : WriteAsm) : (s.putWrite a).protect = s.protect := by
  unfold putWrite
  dsimp only
  split <;> rfl

@[simp] theorem putCopy_protect (r : ReadAsm) : (s.putCopy r).protect = s.protect := by
  unfold putCopy
  dsimp only
  split
  · exact s.releaseRead_protect
  · rfl

theorem takeStagingWord_protect : s.takeStagingWord.protect = s.protect := by
  unfold takeStagingWord coderTake
  dsimp only
  split
  · split
    · split <;> simp
    · rfl
  · rfl

theorem handPage_protect : s.handPage.protect = s.protect := by
  unfold handPage
  split
  · split
    · exact putWrite_protect ..
    · rfl
  · split
    · exact putCopy_protect ..
    · rfl
  · rfl

theorem handNext_protect : s.handNext.protect = s.protect := by
  unfold handNext
  split
  · split
    · unfold handRecordWord
      dsimp only
      split <;> rfl
    · split
      · unfold handRowWord
        dsimp only
        split <;> rfl
      · rfl
  · rfl

/-! ## The bus (chapter 8) -/

@[simp] theorem busRead_protect (reply : BusReply) (a n : Nat) : (s.busRead reply a n).1.protect = s.protect := by
  unfold busRead
  dsimp only
  split <;> rfl

@[simp] theorem busWrite_protect (reply : BusReply) (ws : List (Nat × Word)) :
    (s.busWrite reply ws).1.protect = s.protect := by
  unfold busWrite
  dsimp only
  split <;> rfl

variable {s} in
/-- The state in which a single-beat read ends. -/
theorem protect_of_beatRead {t : State} {reply : BusReply} {a : Nat} {w : Option Word}
    (h : s.beatRead reply a = (t, w)) : t.protect = s.protect := by
  have ht : (s.busRead reply a 1).1 = t := congrArg Prod.fst h
  rw [← ht, busRead_protect]

variable {s} in
/-- The state in which a write burst ends. -/
theorem protect_of_busWrite {t : State} {reply : BusReply} {ws : List (Nat × Word)} {ok : Bool}
    (h : s.busWrite reply ws = (t, ok)) : t.protect = s.protect := by
  rw [← s.busWrite_protect reply ws, h]

@[simp] theorem emitUnits_protect (n : Nat) : (s.emitUnits n).protect = s.protect := by
  induction n generalizing s with
  | zero => rfl
  | succ n ih => exact ih _

theorem endDescriptor_protect (a : Nat) (got : List Word) (ws : Option (List Word)) :
    (s.endDescriptor a got ws).protect = s.protect := by
  unfold endDescriptor
  split
  · rfl
  · split
    · dsimp only
      split <;> rfl
    · rfl

theorem descriptorEnds_protect (reply : BusReply) : (s.descriptorEnds reply).protect = s.protect := by
  unfold descriptorEnds
  split
  · exact (endDescriptor_protect ..).trans (busRead_protect ..)
  · rfl

theorem burstStarts_protect : s.burstStarts.protect = s.protect := by
  unfold burstStarts
  split <;> rfl

theorem endReadBurst_protect (ws : Option (List Word)) : (s.endReadBurst ws).protect = s.protect := by
  unfold endReadBurst
  dsimp only
  split
  · rfl
  · split
    · rfl
    · split <;> rfl

theorem endWriteBurst_protect (n : Nat) (ok : Bool) : (s.endWriteBurst n ok).protect = s.protect := by
  unfold endWriteBurst
  dsimp only
  split
  · exact emitUnits_protect ..
  · rfl

theorem burstEnds_protect (reply : BusReply) : (s.burstEnds reply).protect = s.protect := by
  unfold burstEnds
  split
  · exact (endReadBurst_protect ..).trans (busRead_protect ..)
  · exact (endWriteBurst_protect ..).trans (busWrite_protect ..)
  · rfl

/-! ## Orders at their start (chapters 2, 5, 6 and 7) -/

theorem startWrite_protect (o : Order) : (s.startWrite o).protect = s.protect := by
  unfold startWrite
  split
  · rfl
  · exact claimCoder_protect ..

theorem startRead_protect (o : Order) : (s.startRead o).protect = s.protect := by
  unfold startRead
  split
  · rfl
  · exact claimCoder_protect ..

theorem startCopy_protect (o : Order) : (s.startCopy o).protect = s.protect := by
  unfold startCopy
  split
  · rfl
  · split_ifs
    · exact claimCoder_protect ..
    · rfl
    · rfl

@[simp] theorem eraseBegin_protect : s.eraseBegin.protect = s.protect := by
  obtain ⟨v, ms, h⟩ := s.eraseBegin_eq
  rw [h]

theorem startErase_protect (o : Order) : (s.startErase o).protect = s.protect := by
  unfold startErase
  split
  · rfl
  · dsimp only
    split
    · exact eraseBegin_protect _
    · rfl

theorem startSeal_protect (o : Order) : (s.startSeal o).protect = s.protect := by
  unfold startSeal
  split <;> rfl

theorem startQuery_protect (o : Order) : (s.startQuery o).protect = s.protect := by
  unfold startQuery
  split <;> rfl

/-! ## Sheets (chapter 4) -/

theorem activate_protect : s.activate.protect = s.protect := by
  unfold activate
  split
  · split <;> rfl
  · rfl

theorem startEntryRead_protect : s.startEntryRead.protect = s.protect := by
  unfold startEntryRead
  split <;> rfl

theorem endHeaderRead_protect (reply : BusReply) : (s.endHeaderRead reply).protect = s.protect := by
  unfold endHeaderRead
  split
  · split
    · next hr => exact (protect_of_beatRead hr :)
    · next hr => split <;> exact (protect_of_beatRead hr :)
  · rfl

theorem endResultWrite_protect (reply : BusReply) : (s.endResultWrite reply).protect = s.protect := by
  unfold endResultWrite
  split
  · split
    · next hr => split <;> exact (protect_of_busWrite hr :)
    · next hr => exact (protect_of_busWrite hr :)
  · rfl

theorem endCompletionWrite_protect (reply : BusReply) : (s.endCompletionWrite reply).protect = s.protect := by
  unfold endCompletionWrite
  split
  · split
    · next hr =>
        dsimp only
        split <;> exact (protect_of_busWrite hr :)
    · next hr => exact (protect_of_busWrite hr :)
  · rfl

/-- A sheet access that ends leaves the protection unit alone when its own effect does. -/
theorem accessEnds_protect (k : AccessKind) {f : State → State} (hf : ∀ t : State, (f t).protect = t.protect) :
    (s.accessEnds k f).protect = s.protect := by
  unfold accessEnds
  split
  · exact hf _
  · rfl

@[simp] theorem answerRow_protect (a : RowAnswer) : (s.answerRow a).protect = s.protect := by
  rw [s.answerRow_eq]

@[simp] theorem answerHeld_protect (a : RowAnswer) : (s.answerHeld a).protect = s.protect := by
  rw [s.answerHeld_eq]

theorem rowGo_protect : s.rowGo.protect = s.protect := by
  unfold rowGo
  split
  · split <;> simp
  · rfl

theorem hold_protect : s.hold.protect = s.protect := by
  unfold hold
  split <;> rfl

theorem resume_protect : s.resume.protect = s.protect := by
  unfold resume
  dsimp only
  split <;> simp

theorem abort_protect : s.abort.protect = s.protect := by
  unfold abort
  split
  · split <;> simp
  · rfl

/-! ## Modes and patrol (chapters 9 and 10) -/

@[simp] theorem enterDrain_protect : s.enterDrain.protect = s.protect := answerHeld_protect ..

theorem wakeUp_protect : s.wakeUp.protect = s.protect := by
  obtain ⟨m, p, ms, h⟩ := s.wakeUp_eq
  rw [h]

theorem post_protect (a : Word) : (s.post a).protect = s.protect := by
  unfold post
  split
  · rfl
  · exact wakeUp_protect _

theorem apply_protect : s.apply.protect = s.protect := by
  unfold apply
  dsimp only
  split_ifs <;> rfl

theorem standby_protect : s.standby.protect = s.protect := by
  unfold standby
  split <;> rfl

theorem wake_protect : s.wake.protect = s.protect := by
  unfold wake
  split
  · unfold startWake
    split <;> rfl
  · unfold patrolWakeUp
    split <;> rfl
  all_goals rfl

theorem warnAsserted_protect : s.warnAsserted.protect = s.protect := by
  unfold warnAsserted
  dsimp only
  split
  case h_6 => split <;> rfl
  all_goals simp

@[simp] theorem second_protect : s.second.protect = s.protect := by
  unfold second
  split
  · split_ifs <;> rfl
  · rfl

theorem timerExpiry_protect : s.timerExpiry.protect = s.protect := by
  unfold timerExpiry
  split
  · split <;> simp
  · rfl

theorem configure_protect (c : Applied) : (s.configure c).protect = s.protect := by
  unfold configure
  dsimp only
  split_ifs
  · exact enterDrain_protect _
  · rfl
  · rfl

theorem takeConfig_protect (m : Mode) (ws : List Word) : (s.takeConfig m ws).protect = s.protect := by
  unfold takeConfig
  dsimp only
  split
  · rfl
  · split
    · exact configure_protect ..
    · rfl

theorem endConfigRead_protect (reply : BusReply) : (s.endConfigRead reply).protect = s.protect := by
  unfold endConfigRead
  split
  · rfl
  · split
    · next hr => exact (protect_of_beatRead hr :)
    · next hr =>
        split
        · exact (protect_of_beatRead hr :)
        · exact (takeConfig_protect ..).trans (protect_of_beatRead hr)

theorem configEnds_protect (reply : BusReply) : (s.configEnds reply).protect = s.protect := by
  unfold configEnds
  split
  · exact endConfigRead_protect ..
  · rfl

theorem patrolVisit_protect : s.patrolVisit.protect = s.protect := by
  unfold patrolVisit visitRow
  dsimp only
  split
  · split
    · split
      · rfl
      · split
        · exact claimCoder_protect ..
        · rfl
    · rfl
  · rfl

@[simp] theorem dropFinding_protect : s.dropFinding.protect = s.protect := by
  unfold dropFinding
  dsimp only
  split <;> rfl

@[simp] theorem reportFailed_protect (w : ReportWrite) : (s.reportFailed w).protect = s.protect := by
  cases w
  case finding | headerFor => exact dropFinding_protect _
  all_goals rfl

theorem reportEnds_protect (reply : BusReply) : (s.reportEnds reply).protect = s.protect := by
  unfold reportEnds endReportWrite
  split
  · split
    · rfl
    · dsimp only
      split
      · next hr => exact (protect_of_busWrite hr :)
      · next hr => exact (reportFailed_protect ..).trans (protect_of_busWrite (s := s.freePort) hr)
  · rfl

/-! ## The load and the commits (chapter 2) -/

@[simp] theorem scanDone_protect : s.scanDone.protect = s.protect := rfl

@[simp] theorem scanEnd_protect : s.scanEnd.protect = s.protect := by
  unfold scanEnd
  split_ifs <;> rfl

@[simp] theorem scanOpen_protect (b : Nat) : (s.scanOpen b).protect = s.protect := by
  unfold scanOpen
  split
  · rfl
  · exact s.scanEnd_protect

@[simp] theorem scanErasing_protect (b : Nat) : (s.scanErasing b).protect = s.protect := by
  unfold scanErasing
  split
  · rfl
  · exact s.scanOpen_protect 0

theorem loadTable_protect (agrees : Bool) : (s.loadTable agrees).protect = s.protect := by
  unfold loadTable
  dsimp only
  split
  · split
    · split
      · rfl
      · exact scanErasing_protect ..
    · rfl
  · rfl

theorem beginCommit_protect : s.beginCommit.protect = s.protect := by
  unfold beginCommit
  split <;> rfl

theorem commitEnds_protect (pass : Bool) : (s.commitEnds pass).protect = s.protect := by
  unfold commitEnds
  split
  · cases pass
    · rw [endCommit_fail]
    · rw [endCommit_pass]
  · rfl

/-! ## Resets (9.7) -/

theorem abandonLane_protect (before : State) (cut : Cut) (l : Lane) :
    (before.abandonLane cut s l).protect = s.protect := by
  unfold abandonLane
  split
  · rfl
  · split <;> rfl
  · exact s.setBlock_protect ..
  all_goals rfl

theorem abandonLanes_protect (cut : Cut) : (s.abandonLanes cut).protect = s.protect := by
  have fold (ls : List Lane) (t : State) : (ls.foldl (s.abandonLane cut) t).protect = t.protect := by
    induction ls generalizing t with
    | nil => rfl
    | cons l rest ih => exact (ih _).trans (t.abandonLane_protect s cut l)
  exact fold Lane.all s

theorem resetBlocks_protect (cut : Cut) : (s.resetBlocks cut).protect = s.protect := s.abandonLanes_protect cut

theorem coldStart_protect : s.coldStart.protect = s.protect := by
  unfold coldStart
  dsimp only
  split <;> rfl

theorem softReset_protect (cut : Cut) : (s.softReset cut).protect = s.protect :=
  (coldStart_protect _).trans (resetBlocks_protect (s.cutWrites cut) cut)

theorem assertReset_protect (cut : Cut) :
    (s.assertReset cut).protect = s.protect.rebuilt ((s.cutWrites cut).resetBlocks cut).inhibitLine :=
  congrArg (·.rebuilt ((s.cutWrites cut).resetBlocks cut).inhibitLine) (resetBlocks_protect (s.cutWrites cut) cut)

theorem withdrawReset_protect : s.withdrawReset.protect = s.protect.rebuilt s.inhibitLine := coldStart_protect _

theorem loseSupply_protect (cut : Cut) : (s.loseSupply cut).protect = s.protect.cutFuse cut.fuseSet :=
  congrArg (·.cutFuse cut.fuseSet) (resetBlocks_protect (s.cutWrites cut) cut)

theorem gainSupply_protect (lockEn warn inhibit : Bool) (cut : Cut) :
    (s.gainSupply lockEn warn inhibit cut).protect = { s.protect with lockEnable := lockEn }.rebuilt inhibit := by
  unfold gainSupply
  dsimp only
  split
  · rfl
  · exact coldStart_protect _

/-! ## Register writes (chapter 11) -/

theorem controlCommand_protect (i : Nat) : (s.controlCommand i).protect = s.protect := by
  unfold controlCommand
  split
  · exact s.apply_protect
  · exact s.hold_protect
  · exact s.resume_protect
  · exact s.abort_protect
  · exact s.standby_protect
  · exact s.wake_protect
  · rfl

theorem writeControl_protect (v : Word) (cut : Cut) : (s.writeControl v cut).protect = s.protect := by
  unfold writeControl
  split
  · exact s.softReset_protect cut
  · split
    · rfl
    · exact s.controlCommand_protect _
    · rfl

theorem writeRegister_protect (offset bytes : Nat) (v : Word) (cut : Cut) :
    (s.writeRegister offset bytes v cut).protect = s.protect := by
  unfold writeRegister
  split_ifs
  · rfl
  · exact s.post_protect v
  · exact s.writeControl_protect v cut
  all_goals rfl

end State

end Sys2Proof.Machine
end

