-- ==== Sys2Proof/Proofs/LockPicture.lean ====
section
/-! The lock picture and the fuse row (R137 to R145, R148): what each operation of the protection unit does to them, and
that every step keeps the picture within its bounds and clears no fuse. -/

namespace Sys2Proof.Machine

open Sys2Proof

/-! ## The decision (R138) -/

/-- Settles O45: by whether a range is held, and which side of it is locked. -/
theorem lockedDecision : Obligations.LockedDecision := by
  intro p b
  rw [Protection.locked, Bool.and_eq_true]
  refine and_congr_right fun _ => ?_
  cases hr : p.range with
  | none => simp
  | some r => cases hi : r.invert <;> simp [hi, or_assoc]

namespace Protection

variable (p : Protection)

/-- With lock-enable 0 no band is locked. -/
theorem locked_of_disabled (h : p.lockEnable = false) (b : Nat) : p.locked b = false := by
  simp [locked, h]

/-- With the inhibit level ASSERTED and tight 0 every band is locked. -/
theorem locked_of_inhibit (he : p.lockEnable = true) (hi : p.inhibit = true) (ht : p.tight = false) (b : Nat) :
    p.locked b = true := by
  simp [locked, he, hi, ht]

/-- With tight 1 the inhibit level has no part in the decision. -/
theorem locked_tight (ht : p.tight = true) (b : Nat) : p.inhibited.locked b = p.locked b := by
  simp [locked, inhibited, ht]

/-! ## WRITE_INHIBIT_N and the lock orders (R139 to R143) -/

theorem released_enabled (h : p.lockEnable = true) :
    p.released = { p with inhibit := false, lockAll := true, range := none, tight := false } := if_pos h

theorem released_disabled (h : p.lockEnable = false) : p.released = { p with inhibit := false } := by
  simp [released, h]

/-- With lock-enable 1 the withdrawal of WRITE_INHIBIT_N leaves every band locked. -/
theorem released_locked (h : p.lockEnable = true) (b : Nat) : p.released.locked b = true := by
  simp [released_enabled, locked, h]

theorem checkLock_disabled (h : p.lockEnable = false) : p.checkLock = some .lockDisabled := by
  simp [checkLock, h]

theorem checkLock_tight (he : p.lockEnable = true) (ht : p.tight = true) : p.checkLock = some .lockTight := by
  simp [checkLock, he, ht]

theorem checkLock_none_iff : p.checkLock = none ↔ p.lockEnable = true ∧ p.tight = false := by
  unfold checkLock
  cases p.lockEnable <;> cases p.tight <;> simp

variable {p}

/-- A lock order that fails a check leaves the picture as it is, with the check's status. -/
theorem lockOrders_refused {st : OrderStatus} (h : p.checkLock = some st) (r : UnlockRange) :
    p.setRange r = (p, st) ∧ p.lockEvery = (p, st) ∧ p.makeTight = (p, st) := by
  simp [setRange, lockEvery, makeTight, h]

theorem setRange_taken (h : p.checkLock = none) {r : UnlockRange} (hr : r.low ≤ r.high ∧ r.high < Config.bands) :
    p.setRange r = ({ p with range := some r, lockAll := false }, .ok) := by
  simp [setRange, h, hr]

theorem setRange_badRange (h : p.checkLock = none) {r : UnlockRange} (hr : ¬(r.low ≤ r.high ∧ r.high < Config.bands)) :
    p.setRange r = (p, .badRange) := by
  rw [setRange, h]
  exact if_neg hr

theorem lockEvery_taken (h : p.checkLock = none) : p.lockEvery = ({ p with range := none, lockAll := true }, .ok) := by
  simp [lockEvery, h]

theorem makeTight_taken (h : p.checkLock = none) (hi : p.inhibit = false) :
    p.makeTight = ({ p with tight := true }, .ok) := by
  simp [makeTight, h, hi]

theorem makeTight_inhibited (h : p.checkLock = none) (hi : p.inhibit = true) : p.makeTight = (p, .protected_) := by
  simp [makeTight, h, hi]

end Protection

/-- A command that a live part takes without anything coming about with it. -/
theorem State.whenLive_live {s : State} (hs : s.live = true) (f : State → State) : s.whenLive f = f s := if_pos hs

/-- Settles O9: the level and the picture at each edge of WRITE_INHIBIT_N, and each lock order by its checks. -/
theorem lockPictureChanges : Obligations.LockPictureChanges := by
  refine ⟨fun s hs => ?_, fun s hs => ⟨fun he => ?_, fun he => ?_⟩,
    fun p r => ⟨fun he => ?_, fun he ht => ?_, fun he ht => ?_⟩⟩
  · refine ⟨_, rfl, State.whenLive_live (s := { s with inhibitLine := true }) hs _, fun he ht b => ?_, fun ht b => ?_,
      fun he b => ?_⟩
    all_goals rw [State.whenLive_live (s := { s with inhibitLine := true }) hs]
    · exact Protection.locked_of_inhibit s.protect.inhibited he rfl ht b
    · exact s.protect.locked_tight ht b
    · exact ⟨s.protect.inhibited.locked_of_disabled he b, s.protect.locked_of_disabled he b⟩
  · rw [← s.protect.released_enabled he]
    refine ⟨_, ?_, rfl, s.protect.released_locked he⟩
    exact congrArg Host.Outcome.next (State.whenLive_live (s := { s with inhibitLine := false }) hs _)
  · rw [← s.protect.released_disabled he]
    exact congrArg Host.Outcome.next (State.whenLive_live (s := { s with inhibitLine := false }) hs _)
  · exact Protection.lockOrders_refused (p.checkLock_disabled he) r
  · exact Protection.lockOrders_refused (p.checkLock_tight he ht) r
  · have pass := p.checkLock_none_iff.2 ⟨he, ht⟩
    exact ⟨fun hl hh => Protection.setRange_taken pass ⟨hl, hh⟩,
      fun hr => Protection.setRange_badRange pass (by simp only [Config.bands]; omega),
      Protection.lockEvery_taken pass, Protection.makeTight_taken pass, Protection.makeTight_inhibited pass⟩

/-! ## The picture within its bounds, and no fuse cleared (R137, R144) -/

/-- From `p` to `q` the lock picture stays within its bounds and every fuse that was set is set. A change of the inhibit
level, the working copy or the fuse write alone is `⟨id, fun _ => id⟩`. -/
structure Protection.Keeps (p q : Protection) : Prop where
  picture : p.sound = true → q.sound = true
  fuses : fusesStay p q

namespace Protection.Keeps

theorem refl (p : Protection) : p.Keeps p := ⟨id, fun _ => id⟩

theorem of_eq {p q : Protection} (h : q = p) : p.Keeps q := h ▸ refl p

theorem trans {p q r : Protection} (h : p.Keeps q) (g : q.Keeps r) : p.Keeps r :=
  ⟨g.picture ∘ h.picture, fun i => g.fuses i ∘ h.fuses i⟩

end Protection.Keeps

namespace Protection

variable (p : Protection)

/-- With no range held, lock-all as lock-enable and tight 0, the picture is within its bounds. -/
theorem rebuilt_sound (line : Bool) : (p.rebuilt line).sound = true := by
  cases h : p.lockEnable <;> simp [sound, rebuilt, h]

theorem rebuilt_keeps (line : Bool) : p.Keeps (p.rebuilt line) := ⟨fun _ => p.rebuilt_sound line, fun _ => id⟩

theorem inhibited_keeps : p.Keeps p.inhibited := ⟨id, fun _ => id⟩

theorem released_keeps : p.Keeps p.released := by
  cases h : p.lockEnable
  · rw [p.released_disabled h]
    exact ⟨id, fun _ => id⟩
  · rw [p.released_enabled h]
    exact ⟨fun _ => by simp [sound, h], fun _ => id⟩

theorem setRange_keeps (r : UnlockRange) : p.Keeps (p.setRange r).1 := by
  cases hc : p.checkLock with
  | some st => exact .of_eq (congrArg Prod.fst (lockOrders_refused hc r).1)
  | none =>
      obtain ⟨he, -⟩ := p.checkLock_none_iff.1 hc
      by_cases hr : r.low ≤ r.high ∧ r.high < Config.bands
      · rw [setRange_taken hc hr]
        exact ⟨fun _ => by simp [sound, he, hr], fun _ => id⟩
      · rw [setRange_badRange hc hr]
        exact .refl p

theorem lockEvery_keeps : p.Keeps p.lockEvery.1 := by
  unfold lockEvery
  split
  · exact .refl p
  · next hc =>
      obtain ⟨he, -⟩ := p.checkLock_none_iff.1 hc
      exact ⟨fun _ => by simp [sound, he], fun _ => id⟩

theorem makeTight_keeps : p.Keeps p.makeTight.1 := by
  unfold makeTight
  split
  · exact .refl p
  · next hc =>
      obtain ⟨he, -⟩ := p.checkLock_none_iff.1 hc
      split
      · exact .refl p
      · exact ⟨fun h => by simpa [sound, he] using h, fun _ => id⟩

/-- Setting bits of the fuse row clears none. -/
theorem setFuses_keeps (bits : BitVec 64) (g : Option Nat) :
    p.Keeps { p with fuses := p.fuses ||| bits, fuseWrite := g } :=
  ⟨id, fun i h => by rw [BitVec.getLsbD_or, h, Bool.true_or]⟩

theorem blow_keeps (g : Nat) : p.Keeps (p.blow g) := (p.setFuses_keeps (1#64 <<< g) none).trans ⟨id, fun _ => id⟩

theorem cutFuse_keeps (wasSet : Bool) : p.Keeps (p.cutFuse wasSet) := by
  unfold cutFuse
  split
  · cases wasSet
    · exact ⟨id, fun _ => id⟩
    · exact p.setFuses_keeps _ none
  · exact .refl p

end Protection

/-- From `s` to `t` locks and fuses are kept so. -/
def State.KeepsLocks (s t : State) : Prop := s.protect.Keeps t.protect

namespace State.KeepsLocks

theorem of_eq {s t : State} (h : t.protect = s.protect) : s.KeepsLocks t := Protection.Keeps.of_eq h

/-- After a change of other units. -/
theorem after {s t u : State} (g : t.KeepsLocks u) (h : t.protect = s.protect) : s.KeepsLocks u := (of_eq h).trans g

/-- The running fuse write aside, the protection unit is as it was. -/
theorem of_kept {s t : State} (h : State.protectKept s t) : s.KeepsLocks t := by
  obtain ⟨enable, all, range, tight, -, fuses, -⟩ := h
  refine ⟨fun hs => ?_, fun i hi => by rwa [fuses]⟩
  rw [Protection.sound] at hs ⊢
  rwa [enable, all, range, tight]

/-- What comes about in the step begins fuse writes at most. -/
theorem settle {s t : State} (h : s.KeepsLocks t) : s.KeepsLocks t.settle := h.trans ⟨id, fun _ => id⟩

/-- A command that a live part takes, by its own effect. -/
theorem of_takes {s t : State} {f : State → State} (h : s.takes f = .next t) (hf : s.KeepsLocks (f s)) :
    s.KeepsLocks t := by
  cases hs : s.live with
  | true =>
      rw [s.takes_live f hs] at h
      cases h
      exact hf.settle
  | false =>
      rw [s.takes_dead f hs] at h
      cases h
      exact .refl s.protect

/-- A command whose own effect leaves the protection unit as it is. -/
theorem takes_kept {s t : State} {f : State → State} (h : s.takes f = .next t) (hf : (f s).protect = s.protect) :
    s.KeepsLocks t := of_takes h (of_eq hf)

/-- A command that is its own effect alone. -/
theorem of_next {s t u : State} (h : (.next u : Result) = .next t) (hu : s.KeepsLocks u) : s.KeepsLocks t := by
  cases h
  exact hu

end State.KeepsLocks

namespace State

variable (s : State)

theorem startFreeze_keepsLocks (o : Order) : s.KeepsLocks (s.startFreeze o) := by
  unfold startFreeze
  split
  · exact .of_eq rfl
  · dsimp only
    split <;> exact ⟨id, fun _ => id⟩

/-- Of the orders the lock orders alone change the lock picture at their start, and none clears a fuse. -/
theorem handOrder_keepsLocks (o : Order) : s.KeepsLocks (s.handOrder o) := by
  unfold handOrder
  cases o.kind with
  | writeRows => exact .of_eq (s.startWrite_protect o)
  | readRows => exact .of_eq (s.startRead_protect o)
  | copyRows => exact .of_eq (s.startCopy_protect o)
  | eraseBand => exact .of_eq (s.startErase_protect o)
  | sealBand => exact .of_eq (s.startSeal_protect o)
  | queryBands => exact .of_eq (s.startQuery_protect o)
  | setUnlockRange => exact s.protect.setRange_keeps o.unlockRange
  | lockAll => exact s.protect.lockEvery_keeps
  | lockTight => exact s.protect.makeTight_keeps
  | freezeGroup => exact s.startFreeze_keepsLocks o

theorem takeEntry_keepsLocks (i : Nat) (ws : List Word) : s.KeepsLocks (s.takeEntry i ws) := by
  unfold takeEntry
  dsimp only
  split
  · exact .of_eq rfl
  · split
    · exact .of_eq rfl
    · exact (handOrder_keepsLocks ..).after rfl

theorem endEntryRead_keepsLocks (reply : BusReply) : s.KeepsLocks (s.endEntryRead reply) := by
  unfold endEntryRead
  split
  · split
    · next hr => exact .of_eq (protect_of_beatRead hr :)
    · next hr =>
        split
        · exact .of_eq (protect_of_beatRead hr :)
        · exact (takeEntry_keepsLocks ..).after (protect_of_beatRead hr)
  · exact .of_eq rfl

theorem entryEnds_keepsLocks (reply : BusReply) :
    s.KeepsLocks (s.accessEnds .entry fun u => u.endEntryRead reply) := by
  unfold accessEnds
  split
  · exact (endEntryRead_keepsLocks ..).after rfl
  · exact .of_eq rfl

theorem loadFuses_keepsLocks : s.KeepsLocks s.loadFuses := by
  unfold loadFuses
  split <;> exact ⟨id, fun _ => id⟩

theorem endFuse_keepsLocks : s.KeepsLocks s.endFuse := by
  unfold endFuse
  split
  · next g _ =>
      dsimp only
      split <;> exact s.protect.blow_keeps g
  · exact .of_eq rfl

theorem assertReset_keepsLocks (cut : Cut) : s.KeepsLocks (s.assertReset cut) := by
  rw [KeepsLocks, s.assertReset_protect]
  exact s.protect.rebuilt_keeps _

theorem withdrawReset_keepsLocks : s.KeepsLocks s.withdrawReset := by
  rw [KeepsLocks, s.withdrawReset_protect]
  exact s.protect.rebuilt_keeps _

theorem loseSupply_keepsLocks (cut : Cut) : s.KeepsLocks (s.loseSupply cut) := by
  rw [KeepsLocks, s.loseSupply_protect]
  exact s.protect.cutFuse_keeps _

/-- At power-on lock-enable may change: the picture is set anew from it. -/
theorem gainSupply_keepsLocks (lockEn warn inhibit : Bool) (cut : Cut) :
    s.KeepsLocks (s.gainSupply lockEn warn inhibit cut) := by
  rw [KeepsLocks, s.gainSupply_protect]
  exact ⟨fun _ => Protection.rebuilt_sound _ inhibit, fun _ => id⟩

theorem powerOn_keepsLocks (lockEn warn inhibit : Bool) (cut : Cut) :
    s.KeepsLocks (s.powerOn lockEn warn inhibit cut) := by
  unfold powerOn
  split
  · exact (s.loseSupply_keepsLocks cut).trans (gainSupply_keepsLocks ..)
  · exact s.gainSupply_keepsLocks ..

end State

/-! ## One step -/

theorem exec_keepsLocks {i : Instr} {s t : State} (h : exec i s = .next t) : s.KeepsLocks t := by
  cases i with
  | powerOn lockEn warn inhibit cut => exact .of_next h (s.powerOn_keepsLocks lockEn warn inhibit cut)
  | resetNAsserted cut =>
      refine .of_next h ?_
      split_ifs
      · exact .of_eq rfl
      · exact s.assertReset_keepsLocks cut
      · exact .of_eq rfl
  | resetNWithdrawn =>
      refine .of_next h ?_
      split_ifs
      · exact s.withdrawReset_keepsLocks
      · exact .of_eq rfl
      · exact .of_eq rfl
  | softReset cut =>
      refine .of_next h ?_
      unfold State.whenLive
      split
      · exact .of_eq (s.softReset_protect cut)
      · exact .of_eq rfl
  | lossOfSupply cut =>
      refine .of_next h ?_
      split
      · exact s.loseSupply_keepsLocks cut
      · exact .of_eq rfl
  | writeInhibitAsserted =>
      refine .of_next h ?_
      unfold State.whenLive
      split
      · exact s.protect.inhibited_keeps
      · exact .of_eq rfl
  | writeInhibitWithdrawn =>
      refine .of_next h ?_
      unfold State.whenLive
      split
      · exact s.protect.released_keeps
      · exact .of_eq rfl
  | eventsWrite | eventEnableWrite =>
      refine .of_next h ?_
      unfold State.whenLive
      split <;> exact .of_eq rfl
  | fuseWriteEnd =>
      refine .of_next h ?_
      split
      · exact s.endFuse_keepsLocks.settle
      · exact .of_eq rfl
  | fuseRowLoad => exact .of_takes h s.loadFuses_keepsLocks
  | entryReadEnd reply => exact .of_takes h (s.entryEnds_keepsLocks reply)
  | cacheUnload l => exact .of_takes h (.of_kept (State.LaneFrame.takeUnload s l).protect)
  | pageMove l => exact .of_takes h (.of_kept (State.LaneFrame.takeMove s l).protect)
  | resultQuery l => exact .of_takes h (.of_kept (State.LaneFrame.query s l).protect)
  | readEnd l seen => exact .of_takes h (.of_kept (State.LaneFrame.endRead s l seen).protect)
  | pwrWarnAsserted => exact .takes_kept (s := { s with warnLine := true }) h (State.warnAsserted_protect _)
  | pwrWarnWithdrawn => exact .takes_kept (s := { s with warnLine := false }) h rfl
  | registerWrite offset bytes value cut => exact .takes_kept h (s.writeRegister_protect offset bytes value cut)
  | tableLoad agrees => exact .takes_kept h (s.loadTable_protect agrees)
  | commitStart => exact .takes_kept h s.beginCommit_protect
  | commitEnd pass => exact .takes_kept h (s.commitEnds_protect pass)
  | post address => exact .takes_kept h (s.post_protect address)
  | apply => exact .takes_kept h s.apply_protect
  | hold => exact .takes_kept h s.hold_protect
  | resume => exact .takes_kept h s.resume_protect
  | abort => exact .takes_kept h s.abort_protect
  | standby => exact .takes_kept h s.standby_protect
  | wake => exact .takes_kept h s.wake_protect
  | patrolTimerExpiry => exact .takes_kept h s.timerExpiry_protect
  | programEnd l pass => exact .takes_kept h (s.endProgram_protect l pass)
  | moveEnd l seen pass => exact .takes_kept h (s.endMove_protect l seen pass)
  | blockEraseEnd l pass => exact .takes_kept h (s.endErase_protect l pass)
  | beginWriteRow => exact .takes_kept h s.beginWriteRow_protect
  | stagingWordTaken => exact .takes_kept h s.takeStagingWord_protect
  | pageHanded => exact .takes_kept h s.handPage_protect
  | beginReadRow => exact .takes_kept h s.beginReadRow_protect
  | wordHanded => exact .takes_kept h s.handNext_protect
  | sheetActivation => exact .takes_kept h s.activate_protect
  | orderStart => exact .takes_kept h s.startEntryRead_protect
  | headerReadEnd reply => exact .takes_kept h (s.accessEnds_protect .header fun u => u.endHeaderRead_protect reply)
  | resultWriteEnd reply => exact .takes_kept h (s.accessEnds_protect .result fun u => u.endResultWrite_protect reply)
  | completionWriteEnd reply =>
      exact .takes_kept h (s.accessEnds_protect .completion fun u => u.endCompletionWrite_protect reply)
  | rowGo => exact .takes_kept h s.rowGo_protect
  | descriptorReadEnd reply => exact .takes_kept h (s.descriptorEnds_protect reply)
  | burstStart => exact .takes_kept h s.burstStarts_protect
  | burstEnd reply => exact .takes_kept h (s.burstEnds_protect reply)
  | configReadEnd reply => exact .takes_kept h (s.configEnds_protect reply)
  | patrolVisit => exact .takes_kept h s.patrolVisit_protect
  | reportWriteEnd reply => exact .takes_kept h (s.reportEnds_protect reply)
  | reportClear | cacheLoad | cacheCommit | cacheDiscard | pageRead | blockErase | powerDown | powerUp | transferEnd
    | powerUpEnd => exact .takes_kept h rfl

theorem step_keepsLocks {s t : State} (h : step s = .next t) : s.KeepsLocks t := by
  unfold step at h
  split at h
  · next rest _ => exact exec_keepsLocks (s := { s with pending := rest }) h
  · exact .takes_kept h s.second_protect

/-- Settles O59: what each command does to the protection unit keeps its bounds and its fuses, and what comes about in
the step begins a fuse write at most. -/
theorem locksStaySoundFusesStaySet : Obligations.LocksStaySoundFusesStaySet :=
  ⟨fun _ _ hs h => (step_keepsLocks h).picture hs, fun _ _ h => (step_keepsLocks h).fuses⟩

end Sys2Proof.Machine
end

