-- ==== Sys2Proof/Proofs/ColdPath.lean ====
section
/-! The fuse load and the table load of the cold path (R41, R145, R165, R166). -/

namespace Sys2Proof.Machine

open Sys2Proof

namespace State

variable {s : State}

/-! ## The fuse load (R145) -/

theorem loadFuses_taken (hc : s.modes.cold = .fuseLoad) (hw : s.protect.fuseWrite = none) : s.loadFuses = { s with
    protect := { s.protect with working := s.protect.fuses }, modes := { s.modes with cold := .tableLoad } } :=
  if_pos ⟨hc, hw⟩

/-- The load waits for a running fuse write. -/
theorem loadFuses_waits (hw : s.protect.fuseWrite ≠ none) : s.loadFuses = s := if_neg fun h => hw h.2

/-! ## The table load (R41, R165, R166) -/

theorem loadTable_agrees (hc : s.modes.cold = .tableLoad) (hd : s.table.checkDelta = 0) : s.loadTable true =
    if s.table.marker then { s with
      table := s.table.load, modes := { s.modes with cold := .none, mode := .awaitConfig } }
    else State.scanErasing { s with table := s.table.load, modes := { s.modes with cold := .scan } } 0 := by
  rw [loadTable, if_pos hc, if_pos (by simp [hd])]
  rfl

theorem loadTable_differs {agrees : Bool} (hc : s.modes.cold = .tableLoad)
    (h : agrees = false ∨ s.table.checkDelta ≠ 0) : s.loadTable agrees = State.setEvent { s with
      table := s.table.failLoad, modes := { s.modes with cold := .none, mode := .faulted } } .storeFault := by
  rw [loadTable, if_pos hc, if_neg]
  rcases h with h | h <;> simp [h]

/-- The recovery scan that marker 0 begins leaves the loaded table as it is. -/
theorem scanErasing_table (s : State) (b : Nat) : (s.scanErasing b).table = s.table := (Runs.scanErasing s b).table

end State

/-- Settles O10: the fuse load by whether a fuse write runs, the table load by its check and the marker. -/
theorem coldPathLoads : Obligations.ColdPathLoads := by
  refine ⟨fun s hs hc => ⟨fun hw => ?_, fun hw => ?_⟩, fun s agrees hs hc => ⟨?marked, ?unmarked, ?differs⟩⟩
  · exact State.takes_eq hs (State.loadFuses_taken hc hw)
  · exact State.takes_eq hs (State.loadFuses_waits hw)
  case marked =>
    rintro rfl hd hm
    refine ⟨_, State.takes_eq hs ((State.loadTable_agrees hc hd).trans (if_pos hm)), ?_⟩
    exact ⟨rfl, rfl, rfl, rfl, rfl, rfl, fun _ => ⟨rfl, rfl, rfl, rfl⟩, fun _ _ _ => rfl⟩
  case unmarked =>
    rintro rfl hd hm
    refine ⟨_, State.takes_eq hs ((State.loadTable_agrees hc hd).trans (if_neg (by simp [hm]))), ?_⟩
    rw [State.scanErasing_table]
    exact ⟨rfl, rfl, rfl, rfl, rfl⟩
  case differs =>
    intro h
    refine ⟨_, State.takes_eq hs (State.loadTable_differs hc h), rfl, rfl, Window.flag_set_same .., ?_⟩
    exact ⟨fun _ => rfl, rfl, rfl⟩

end Sys2Proof.Machine
end

