-- ==== Sys2Proof/Proofs/BandServices.lean ====
section
/-! Frozen and locked bands refused, the end of a fuse write, and the band services after the start of ERASE BAND, SEAL
BAND and FREEZE GROUP (R44, R90, R107, R120, R132 to R135, R144, R147, R148). -/

namespace Sys2Proof.Machine

open Sys2Proof

/-! ## Frozen and locked bands (R90, R107, R120, R132, R144) -/

section Refused

variable {s : State} {o : Order}

/-- The checks of the freeze and of the lock, where they stand as the first two that can fail. -/
theorem firstFailing_protected {before after : List (Bool × OrderStatus)} {frozen locked : Bool}
    (pass : ∀ c ∈ before, c.1 = false) :
    let status := firstFailing (before ++ (frozen, .frozen) :: (locked, .protected_) :: after)
    (frozen = true → status = some .frozen) ∧ (frozen = false → locked = true → status = some .protected_) := by
  induction before with
  | nil => exact ⟨fun h => by simp [firstFailing, h], fun h k => by simp [firstFailing, h, k]⟩
  | cons c rest ih =>
      rw [List.forall_mem_cons] at pass
      obtain ⟨head, tail⟩ := pass
      rw [List.cons_append, firstFailing_cons, head]
      exact ih tail

theorem State.checkWrite_protected (hb : o.band < 1024) (hf : s.table.storeFault = false) :
    (s.protect.frozen o.band = true → s.checkWrite o = some .frozen) ∧
      (s.protect.frozen o.band = false → s.protect.locked o.band = true → s.checkWrite o = some .protected_) := by
  rw [s.checkWrite_eq]
  exact firstFailing_protected (before := [(_, _), (_, _)]) (by simp [hb, hf])

theorem State.checkSeal_protected (hb : o.band < 1024) (hf : s.table.storeFault = false) :
    (s.protect.frozen o.band = true → s.checkSeal o = some .frozen) ∧
      (s.protect.frozen o.band = false → s.protect.locked o.band = true → s.checkSeal o = some .protected_) := by
  rw [s.checkSeal_eq]
  exact firstFailing_protected (before := [(_, _), (_, _)]) (by simp [hb, hf])

theorem State.checkErase_protected (hb : o.band < 1024) (hf : s.table.storeFault = false) (hl : o.eraseLevel ≠ none) :
    (s.protect.frozen o.band = true → s.checkErase o = some .frozen) ∧
      (s.protect.frozen o.band = false → s.protect.locked o.band = true → s.checkErase o = some .protected_) := by
  rw [s.checkErase_eq]
  exact firstFailing_protected (before := [(_, _), (_, _), (_, _)]) (by simp [hb, hf, hl])

theorem State.checkCopy_protected (hb : o.band < 1024) (ht : o.targetBand < 1024) (hf : s.table.storeFault = false) :
    (s.protect.frozen o.targetBand = true → s.checkCopy o = some .frozen) ∧
      (s.protect.frozen o.targetBand = false → s.protect.locked o.targetBand = true →
        s.checkCopy o = some .protected_) := by
  rw [s.checkCopy_eq]
  exact firstFailing_protected (before := [(_, _), (_, _)]) (by simp [hb, ht, hf])

end Refused

/-! ## The end of a fuse write (R148) -/

/-- A row of fuses with one bit set. -/
theorem getLsbD_setFuse (fuses : BitVec 64) {g : Nat} (hg : g < 64) (i : Nat) :
    (fuses ||| 1#64 <<< g).getLsbD i = (fuses.getLsbD i || decide (i = g)) := by
  rw [BitVec.getLsbD_or, ← BitVec.twoPow_eq, BitVec.getLsbD_twoPow]
  simp [hg, eq_comm]

theorem Protection.blow_frozen (p : Protection) {g : Nat} (hg : g < 64) {b : Nat} (hb : b / 16 = g) :
    (p.blow g).frozen b = true := by
  have bit := getLsbD_setFuse p.working hg (b / 16)
  rw [decide_eq_true hb, Bool.or_true] at bit
  exact bit

section Fuse

variable {s : State} {g : Nat}

theorem State.endFuse_ordered (hw : s.protect.fuseWrite = some g) (hp : s.services.phase = .fuseWriting) :
    s.endFuse = State.serviceEnd { s with protect := s.protect.blow g } .ok := by
  simp [State.endFuse, hw, hp]

theorem State.endFuse_unordered (hw : s.protect.fuseWrite = some g) (hp : s.services.phase ≠ .fuseWriting) :
    s.endFuse = { s with protect := s.protect.blow g } := by
  simp [State.endFuse, hw, hp]

/-- The end of a fuse write changes the fuse row, the band services and the messages alone. -/
theorem State.endFuse_eq (hw : s.protect.fuseWrite = some g) :
    ∃ v ms, s.endFuse = { s with protect := s.protect.blow g, services := v, signals := ms } := by
  by_cases hp : s.services.phase = .fuseWriting
  · exact ⟨_, _, State.endFuse_ordered hw hp⟩
  · exact ⟨_, _, State.endFuse_unordered hw hp⟩

theorem exec_fuseWriteEnd (hs : s.supply = true) : exec .fuseWriteEnd s = .next s.endFuse.settle :=
  congrArg Host.Outcome.next (if_pos hs)

end Fuse

/-! ## The band services after an order's start -/

section Services

variable {s : State} {l : Lane}

/-- A lane that still works, or a query that the erase does not wait for, changes nothing (R133). -/
theorem State.eraseQuery_rest
    (h : s.services.phase ≠ .queryLanes ∨ ¬((s.lane l).state = .idle ∧ (s.lane l).port = none)) :
    s.eraseQuery l = s := by
  refine if_neg fun ⟨hp, hl⟩ => ?_
  exact h.elim (absurd hp) (absurd ((LaneCtl.answersIdle_iff _).1 hl))

/-- A lane found idle is no longer awaited, and at the last the lock and the freeze are taken again (R133). -/
theorem State.eraseQuery_idle (hp : s.services.phase = .queryLanes)
    (hl : (s.lane l).state = .idle ∧ (s.lane l).port = none) : s.eraseQuery l =
    let t := { s with services := { s.services with lanesAwaited := dropLane s.services.lanesAwaited l } }
    if (dropLane s.services.lanesAwaited l).isEmpty then t.eraseBegin else t :=
  if_pos ⟨hp, (LaneCtl.answersIdle_iff _).2 hl⟩

theorem State.eraseBegin_frozen (hf : s.protect.frozen s.services.band = true) :
    s.eraseBegin = s.serviceEnd .frozen := if_pos hf

theorem State.eraseBegin_locked (hf : s.protect.frozen s.services.band = false)
    (hl : s.protect.locked s.services.band = true) : s.eraseBegin = s.serviceEnd .protected_ := by
  simp [State.eraseBegin, hf, hl]

theorem State.eraseBegin_open (hf : s.protect.frozen s.services.band = false)
    (hl : s.protect.locked s.services.band = false) : s.eraseBegin =
      { s with services := { s.services with phase := .eraseNotice } }.emit
        (.update .services (.eraseStart s.services.band s.services.level) true) := by
  simp [State.eraseBegin, hf, hl]

theorem State.servicesNotice_eraseStart (hp : s.services.phase = .eraseNotice) (stored : Bool) :
    s.servicesNotice .eraseStart stored =
      if stored then { s with services := { s.services with phase := .erasePermit } }.emit (.askPermit .services)
      else s.serviceEnd .storeFault := by
  simp only [State.servicesNotice, hp]

theorem State.servicesNotice_eraseEnd (hp : s.services.phase = .eraseEndNotice) (stored : Bool) :
    s.servicesNotice .eraseEnd stored =
      s.serviceEnd (if !stored then .storeFault else if s.services.failSeen then .eraseFail else .ok) := by
  simp only [State.servicesNotice, hp]

theorem State.servicesNotice_sealed (hp : s.services.phase = .sealNotice) (stored : Bool) :
    s.servicesNotice .sealed stored = s.serviceEnd (if stored then .ok else .storeFault) := by
  simp only [State.servicesNotice, hp]

theorem State.servicesNotice_commitEnd (hp : s.services.phase = .freezeCommit) (stored : Bool) :
    s.servicesNotice .commitEnd stored = if stored then s.beginFuse else s.serviceEnd .storeFault := by
  simp only [State.servicesNotice, hp]

theorem State.erasePermit_refused (hp : s.services.phase = .erasePermit) :
    s.erasePermit false = s.serviceEnd .storeFault := by
  simp [State.erasePermit, hp]

theorem State.erasePermit_granted (hp : s.services.phase = .erasePermit) : s.erasePermit true =
    State.giveAll { s with
      services := { s.services with phase := .erasing, lanesAwaited := Lane.all, failSeen := false } }
      (.blockErase s.services.band) Lane.all := by
  simp [State.erasePermit, hp]

/-- The report of an erase is counted off, and with the last ERASE END is given (R134). -/
theorem State.eraseReport_erasing (hp : s.services.phase = .erasing) (op : LastOp) : s.eraseReport l op =
    let ls := dropLane s.services.lanesAwaited l
    let failed := s.services.failSeen || decide (op.outcome = .fail)
    let v := { s.services with lanesAwaited := ls, failSeen := failed }
    if ls.isEmpty then
      { s with services := { v with phase := .eraseEndNotice } }.emit
        (.update .services (.eraseEnd s.services.band (!failed)) true)
    else { s with services := v } := if_pos hp

/-- The fuse write of the order in hand begins (R147). -/
theorem State.beginFuse_order {o : Order} (ho : s.services.order = some o) : s.beginFuse = { s with
    services := { s.services with phase := .fuseWriting },
    protect := { s.protect with fuseWrite := some o.group } } := by
  simp [State.beginFuse, Services.group, ho]

/-- No message given is the messages as they were. -/
theorem State.with_noMessage (s : State) (v : Services) :
    { s with services := v, signals := s.signals ++ [] } = { s with services := v } := by
  rw [List.append_nil]

end Services

/-! ## The statement -/

/-- Settles O46: the two refusals by their place in each list of checks, the end of the fuse write, and each step of the
band services by its phase. -/
theorem locksRefuseAndServicesRun : Obligations.LocksRefuseAndServicesRun := by
  refine ⟨fun s o hb hf => ⟨fun frozen => ⟨?_, ?_, fun hl => ?_⟩, fun free locked => ⟨?_, ?_, fun hl => ?_⟩,
    fun ht => ?_, fun ht => ?_⟩, fun s g hs hw hg => ?fuse, fun s => ?services⟩
  · exact (State.checkWrite_protected hb hf).1 frozen
  · exact (State.checkSeal_protected hb hf).1 frozen
  · exact (State.checkErase_protected hb hf hl).1 frozen
  · exact (State.checkWrite_protected hb hf).2 free locked
  · exact (State.checkSeal_protected hb hf).2 free locked
  · exact (State.checkErase_protected hb hf hl).2 free locked
  · exact (State.checkCopy_protected hb ht hf).1
  · exact (State.checkCopy_protected hb ht hf).2
  case fuse =>
    refine ⟨_, exec_fuseWriteEnd hs, ?_⟩
    have ordered (hp : s.services.phase = .fuseWriting) : s.endFuse.signals = s.signals ++ [.orderEnd
        { status := .ok, rowsDone := 0, pagesRebuilt := 0, weakSeen := 0 }] := by
      rw [State.endFuse_ordered hw hp]
      rfl
    refine ⟨?_, ?_, ?_, ?_, ?_, ?_, ?_, ordered, ?_⟩
    all_goals
      obtain ⟨v, ms, h⟩ := State.endFuse_eq hw
      rw [h]
    · exact getLsbD_setFuse _ hg
    · exact getLsbD_setFuse _ hg
    · exact fun b hb => s.protect.blow_frozen hg hb
    · rfl
    · rfl
    · rfl
    · rfl
    · exact ⟨rfl, rfl, rfl⟩
  case services =>
    intro v ended goes without shows
    refine ⟨fun l hs => s.takes_live (·.query l) hs, fun l => ⟨State.eraseQuery_rest, fun hp hl => ?query⟩,
      State.eraseBegin_frozen, State.eraseBegin_locked, State.eraseBegin_open,
      fun hp => ⟨State.servicesNotice_eraseStart hp false, State.servicesNotice_eraseStart hp true⟩,
      fun hp => ⟨State.erasePermit_refused hp, ?permit⟩, fun hp l op => ?report,
      fun hp => ⟨State.servicesNotice_eraseEnd hp false, State.servicesNotice_eraseEnd hp true⟩,
      fun hp => ⟨State.servicesNotice_sealed hp true, State.servicesNotice_sealed hp false⟩,
      fun hp => ⟨State.servicesNotice_commitEnd hp false, fun o ho => ?freeze⟩,
      fun b applied => (s.with_noMessage _).symm⟩
    case query =>
      rw [State.eraseQuery_idle hp hl]
      refine ⟨fun more => ?_, fun last => ?_⟩
      · exact (if_neg (mt List.isEmpty_iff.1 more)).trans (s.with_noMessage _).symm
      · have last : dropLane s.services.lanesAwaited l = [] := last
        rw [last]
        exact congrArg State.eraseBegin (s.with_noMessage _).symm
    case permit =>
      rw [State.erasePermit_granted hp]
      exact ⟨rfl, rfl, State.giveAll_all_lane _ _⟩
    case report =>
      rw [State.eraseReport_erasing hp]
      intro failed
      refine ⟨fun more => ?_, fun last => ?_⟩
      · exact (if_neg (mt List.isEmpty_iff.1 more)).trans (s.with_noMessage _).symm
      · have last : dropLane s.services.lanesAwaited l = [] := last
        rw [last]
        rfl
    case freeze =>
      exact (State.servicesNotice_commitEnd hp true).trans (State.beginFuse_order ho)

end Sys2Proof.Machine
end

