-- ==== Sys2Proof/Proofs/BusErrors.lean ====
section
/-! The record of the first bus error (R162, R193). -/

namespace Sys2Proof.Machine

open Sys2Proof

/-! ## ERROR_ADDRESS (R193) -/

/-- The word address stands above the two lowest bits, and the direction in bit 0. -/
theorem errorWord_toNat {address : Nat} (write : Bool) (h : address < 4294967296) :
    (errorWord address write).toNat = 4 * (address / 4) + write.toNat := by
  have upper : (BitVec.ofNat 32 (address / 4 * 4)).toNat = 2 ^ 2 * (address / 4) := by
    rw [BitVec.toNat_ofNat]
    omega
  have lower : (if write then 1#32 else 0#32).toNat = write.toNat := by cases write <;> rfl
  have small : write.toNat < 2 ^ 2 := by cases write <;> decide
  rw [errorWord, BitVec.toNat_or, upper, lower, ← Nat.two_pow_add_eq_or_of_lt small]

theorem errorWord_fields {address : Nat} (write : Bool) (h : address < 4294967296) :
    (errorWord address write).toNat / 4 = address / 4 ∧ (errorWord address write).getLsbD 0 = write ∧
      (errorWord address write).getLsbD 1 = false := by
  have value := errorWord_toNat write h
  have bit (i : Nat) : (errorWord address write).getLsbD i = (4 * (address / 4) + write.toNat).testBit i := by
    rw [← BitVec.testBit_toNat, value]
  rw [value, bit, bit, Nat.testBit_eq_decide_div_mod_eq, Nat.testBit_eq_decide_div_mod_eq]
  cases write <;> simp <;> omega

/-! ## After a reset (R179) -/

theorem Window.flag_busError_set (w : Window) {e : Event} (h : e ≠ .busError) :
    (w.set e).flag .busError = w.flag .busError := by
  cases e <;> simp_all [Window.flag, Window.set, Event.bit]

/-- ERROR_ADDRESS and BUS_ERROR are 0. -/
def Window.noBusError (w : Window) : Prop := w.errorAddress = 0#32 ∧ w.flag .busError = false

theorem Window.reset_noBusError : Window.reset.noBusError := ⟨rfl, rfl⟩

/-- The cold path sets POWER_WARN alone. -/
theorem State.coldStart_noBusError {s : State} (h : s.window.noBusError) : s.coldStart.window.noBusError := by
  unfold State.coldStart
  dsimp only
  split
  · exact ⟨h.1, (Window.flag_busError_set _ (by decide)).trans h.2⟩
  · exact h

theorem State.softReset_noBusError (s : State) (cut : Cut) : (s.softReset cut).window.noBusError :=
  State.coldStart_noBusError Window.reset_noBusError

theorem State.gainSupply_noBusError (s : State) (lockEn warn inhibit : Bool) (cut : Cut) :
    (s.gainSupply lockEn warn inhibit cut).window.noBusError := by
  unfold State.gainSupply
  dsimp only
  split
  · exact Window.reset_noBusError
  · exact State.coldStart_noBusError Window.reset_noBusError

theorem exec_resetNAsserted_live {s : State} (hs : s.live = true) (cut : Cut) :
    exec (.resetNAsserted cut) s = .next (s.assertReset cut) := by
  obtain ⟨supply, held⟩ : s.supply = true ∧ s.resetHeld = false := by simpa [State.live] using hs
  exact congrArg Host.Outcome.next ((if_neg (by simp [held])).trans (if_pos supply))

/-! ## The statement -/

/-- Settles O14: the error by the flag before it, and every reset by the window it leaves. -/
theorem busErrorRecord : Obligations.BusErrorRecord := by
  intro s address write
  have recorded := s.busError_errorAddress address write
  refine ⟨s.busError_flag address write, fun h => ?first, fun h => ?later, errorWord_fields write, fun v hs => ?cleared,
    fun cut hs => ⟨?soft, ?line⟩, fun a b c cut => ⟨_, rfl, State.gainSupply_noBusError _ a b c cut⟩⟩
  case first => exact recorded.trans (if_neg (by simp [h]))
  case later => exact recorded.trans (if_pos h)
  case cleared => exact ⟨_, congrArg Host.Outcome.next (State.whenLive_live hs fun s => s.writeEvents v), rfl⟩
  case soft =>
    exact ⟨_, congrArg Host.Outcome.next (State.whenLive_live hs fun s => s.softReset cut), s.softReset_noBusError cut⟩
  case line => exact ⟨_, exec_resetNAsserted_live hs cut, Window.reset_noBusError⟩

end Sys2Proof.Machine
end

