-- ==== Sys2Proof/Proofs/MasterPort.lean ====
section
/-! The bus master port: who wants it, who is granted it, and the order of the sheet accesses (R160). -/

namespace Sys2Proof.Machine

open Sys2Proof

variable {s : State}

/-! ## Who wants the port -/

theorem State.wantsPort_sheet : s.wantsPort .sheet = true ↔ s.sheetLine ≠ [] := by
  simp [State.wantsPort]

theorem State.wantsPort_mover :
    s.wantsPort .mover = true ↔ s.mover.access ≠ none ∨ s.mover.burstNow ≠ none := by
  simp only [State.wantsPort, Bool.or_eq_true, Option.isSome_iff_ne_none]

theorem State.wantsPort_report : s.wantsPort .report = true ↔ s.patrol.write ≠ none :=
  Option.isSome_iff_ne_none

/-! ## The grant -/

/-- The idle port is granted to the first that wants it. -/
theorem State.arbitrate_idle (h : s.port = none) : s.arbitrate =
    if s.wantsPort .sheet then some { s with port := some .sheet }
    else if s.wantsPort .mover then some { s with port := some .mover }
    else if s.wantsPort .report then some { s with port := some .report }
    else none := by
  simp only [State.arbitrate, h]

/-- A granted port is given up where its requester wants it no longer. -/
theorem State.arbitrate_granted {r : Requester} (h : s.port = some r) :
    s.arbitrate = if s.wantsPort r then none else some { s with port := none } := by
  simp only [State.arbitrate, h]

/-- Nothing is to be granted or given up: the granted requester has its access, or none wants the idle port. -/
theorem State.port_of_arbitrate (h : s.arbitrate = none) :
    (∃ r, s.port = some r ∧ s.wantsPort r = true) ∨ (s.port = none ∧ ∀ r, s.wantsPort r = false) := by
  cases hp : s.port with
  | some r =>
      rw [State.arbitrate_granted hp] at h
      refine .inl ⟨r, rfl, ?_⟩
      by_contra hw
      rw [if_neg hw] at h
      cases h
  | none =>
      rw [State.arbitrate_idle hp] at h
      split_ifs at h with sheet mover report
      refine .inr ⟨rfl, fun r => ?_⟩
      cases r
      · exact Bool.eq_false_iff.2 sheet
      · exact Bool.eq_false_iff.2 mover
      · exact Bool.eq_false_iff.2 report

/-! ## The order of the sheet accesses -/

/-- With an access of each block given, the one raised before stands first; of two given together it is the sheet
processor's. -/
theorem State.raised_both (hs : s.sheets.access ≠ none) (hc : s.modes.configRead ≠ none) :
    s.raised = s.sheetLine ++ [SheetUser.sheets, .config].filter (fun u => !s.sheetLine.contains u) := by
  have has (u : SheetUser) : s.hasAccess u = true := by
    cases u
    · exact Option.isSome_iff_ne_none.2 hs
    · exact Option.isSome_iff_ne_none.2 hc
  have kept : s.sheetLine.filter s.hasAccess = s.sheetLine := List.filter_eq_self.2 fun u _ => has u
  simp only [State.raised, kept, has, Bool.true_and]

/-! ## At rest -/

/-- No block has a reaction due in a state at rest. -/
theorem State.reaction_of_rest (h : s.advance = none) {f : State → Option State} (hf : f ∈ blockReactions) :
    f s = none := by
  have react : s.react = none := by simpa only [State.advance, State.signals_of_rest h] using h
  unfold State.react at react
  split at react
  · cases react
  · exact Option.map_eq_none_iff.1 (List.findSome?_eq_none_iff.1 react f hf)

theorem State.raised_of_raiseAccess (h : s.raiseAccess = none) : s.raised = s.sheetLine := by
  by_contra hne
  rw [State.raiseAccess, if_neg hne] at h
  cases h

/-! ## The statement -/

/-- Settles O50: the grant by the port and the requests, the raised accesses by the line before, and the state at rest
by its two reactions of the port. -/
theorem portGrantedInOrder : Obligations.PortGrantedInOrder := by
  refine ⟨fun s => ⟨State.wantsPort_sheet, State.wantsPort_mover, State.wantsPort_report, fun hp => ?idle,
    fun r hp hw => ?held⟩, fun s => ?order, fun s hrest => ⟨?raised, ?port⟩⟩
  case idle =>
    rw [State.arbitrate_idle hp]
    refine ⟨fun sheet => ?_, fun sheet mover => ?_, fun sheet mover report => ?_⟩ <;> simp [*]
  case held => exact (State.arbitrate_granted hp).trans (if_pos hw)
  case order =>
    refine ⟨fun hl hs hc => ?_, fun hl hs hc => ?_, fun hl hs hc => ?_, rfl, rfl⟩ <;>
    · rw [State.raised_both hs hc, hl]
      rfl
  case raised => exact State.raised_of_raiseAccess (State.reaction_of_rest hrest (by simp [blockReactions]))
  case port => exact State.port_of_arbitrate (State.reaction_of_rest hrest (by simp [blockReactions]))

end Sys2Proof.Machine
end

