-- ==== Sys2Proof/Proofs/BurstStarts.lean ====
section
/-! When a burst may start, its length, and what its start changes (R152, R153, R155, R157, R158). -/

namespace Sys2Proof.Machine

open Sys2Proof

variable {m : Mover} {c : Cursor} {f : Fetch} {b : MoverAccess} {a n : Nat} {ws : List Word}

/-! ## When a burst may start (R153, R155, R158) -/

/-- No access runs and no ending is pending. -/
def Mover.unoccupied (m : Mover) : Prop := m.access = none ∧ m.pendingEnding = none

theorem Mover.unoccupied_iff : ¬(m.access.isSome || m.pendingEnding.isSome) = true ↔ m.unoccupied := by
  simp [Mover.unoccupied]

/-- The start condition of an inbound transfer's burst (R153). -/
def Mover.startsInbound (m : Mover) (c : Cursor) : Prop :=
  m.unoccupied ∧ m.phase = .moving ∧ m.chain = .inFragment ∧ 0 < m.permit ∧
    min m.threshold (min c.room (m.permit / 4)) ≤ m.free

/-- The start condition of an outbound transfer's burst (R155). -/
def Mover.startsOutbound (m : Mover) (c : Cursor) : Prop :=
  m.unoccupied ∧ (m.phase = .moving ∨ m.phase = .flushing) ∧ m.chain = .inFragment ∧ m.fifo ≠ [] ∧
    (min m.threshold c.room ≤ m.fifo.length ∨ m.holdsUnitEnd = true)

/-- The start condition of a fetch's burst (R158). -/
def Mover.startsFetch (m : Mover) : Prop :=
  m.unoccupied ∧ m.phase = .moving ∧ 0 < m.permit ∧ min m.threshold (m.permit / 4) ≤ m.free

theorem Mover.burstNow_occupied (h : ¬m.unoccupied) : m.burstNow = none :=
  if_pos (not_not.1 (mt Mover.unoccupied_iff.1 h))

theorem Mover.burstNow_inbound (hd : m.direction = some .inbound) (hc : m.cursor = some c) :
    m.burstNow = some b ↔ m.startsInbound c ∧
      b = .readBurst c.fragment (burstBeats (min (min m.burstLength (min c.room (m.permit / 4))) m.free)) := by
  by_cases hfree : m.unoccupied
  · rw [Mover.burstNow, if_neg (Mover.unoccupied_iff.2 hfree)]
    simp only [hd, hc, Mover.startsInbound, hfree, true_and, Option.ite_none_right_eq_some, Option.some.injEq,
      and_assoc, @eq_comm _ b]
  · simp [Mover.burstNow_occupied hfree, Mover.startsInbound, hfree]

theorem Mover.burstNow_outbound (hd : m.direction = some .outbound) (hc : m.cursor = some c) :
    m.burstNow = some b ↔ m.startsOutbound c ∧
      b = .writeBurst c.fragment (m.fifo.take (burstBeats (min (min m.burstLength c.room) m.fifo.length))) := by
  by_cases hfree : m.unoccupied
  · rw [Mover.burstNow, if_neg (Mover.unoccupied_iff.2 hfree)]
    simp only [hd, hc, Mover.startsOutbound, hfree, true_and, Option.ite_none_right_eq_some, Option.some.injEq,
      and_assoc, @eq_comm _ b]
  · simp [Mover.burstNow_occupied hfree, Mover.startsOutbound, hfree]

theorem Mover.burstNow_fetch (hd : m.direction = some .fetch) (hf : m.fetch = some f) :
    m.burstNow = some b ↔ m.startsFetch ∧ b = .readBurst f.address
      (burstBeats (min (min m.burstLength (m.permit / 4)) (min (wordsToBoundary f.address) m.free))) := by
  by_cases hfree : m.unoccupied
  · rw [Mover.burstNow, if_neg (Mover.unoccupied_iff.2 hfree)]
    simp only [hd, hf, Mover.startsFetch, hfree, true_and, Option.ite_none_right_eq_some, Option.some.injEq,
      and_assoc, @eq_comm _ b]
  · simp [Mover.burstNow_occupied hfree, Mover.startsFetch, hfree]

/-- A burst may start exactly under the condition of its start, whatever burst it then is. -/
theorem Mover.burstNow_due {P : Prop} {d : MoverAccess} (h : ∀ b, m.burstNow = some b ↔ P ∧ b = d) :
    m.burstNow ≠ none ↔ P := by
  simp [Option.ne_none_iff_exists', h]

/-- A read burst is one of an inbound transfer, or of a fetch. -/
theorem Mover.burstNow_read (h : m.burstNow = some (.readBurst a n)) :
    (m.direction = some .fetch ∧ ∃ f, m.fetch = some f) ∨ (m.direction = some .inbound ∧ ∃ c, m.cursor = some c) := by
  unfold Mover.burstNow at h
  split at h
  · cases h
  · split at h
    · next c hd hc => exact .inr ⟨hd, c, hc⟩
    · split_ifs at h; cases h
    · next hd =>
        split at h
        · next f hf => exact .inl ⟨hd, f, hf⟩
        · cases h
    · cases h

/-- A write burst is one of an outbound transfer. -/
theorem Mover.burstNow_write (h : m.burstNow = some (.writeBurst a ws)) :
    m.direction = some .outbound ∧ ∃ c, m.cursor = some c := by
  unfold Mover.burstNow at h
  split at h
  · cases h
  · split at h
    · dsimp only at h
      split_ifs at h
      cases h
    · next c hd hc => exact ⟨hd, c, hc⟩
    · split at h
      · split_ifs at h
        cases h
      · cases h
    · cases h

theorem Mover.burstNow_unoccupied (h : m.burstNow = some b) : m.unoccupied := by
  by_contra hocc
  rw [Mover.burstNow_occupied hocc] at h
  cases h

/-- The FIFO holds the last word of a unit: a unit ends past the words handed before it, and not past the last
(R155). -/
theorem Mover.holdsUnitEnd_iff : m.holdsUnitEnd = true ↔
    ∃ j, m.handed - m.fifo.length < j * (m.unitSize / 4) ∧ j * (m.unitSize / 4) ≤ m.handed := by
  rw [Mover.holdsUnitEnd, decide_eq_true_eq]
  rcases Nat.eq_zero_or_pos (m.unitSize / 4) with hu | hu
  · simp [hu]
  · constructor
    · intro h
      exact ⟨m.handed / (m.unitSize / 4), (Nat.div_lt_iff_lt_mul hu).1 h, Nat.div_mul_le_self _ _⟩
    · rintro ⟨j, before, within⟩
      calc (m.handed - m.fifo.length) / (m.unitSize / 4)
        _ < j := (Nat.div_lt_iff_lt_mul hu).2 before
        _ ≤ m.handed / (m.unitSize / 4) := (Nat.le_div_iff_mul_le hu).2 within

/-! ## The length of a burst (R157) -/

theorem burstBeats_mono {i j : Nat} (h : i ≤ j) : burstBeats i ≤ burstBeats j := by
  unfold burstBeats
  split_ifs <;> omega

/-- The beats are the greatest of the four lengths within the bound. -/
theorem burstBeats_greatest {bound : Nat} (h : 0 < bound) :
    (burstBeats bound ∈ [1, 4, 8, 16] ∧ burstBeats bound ≤ bound) ∧
      ∀ k, k ∈ [1, 4, 8, 16] ∧ k ≤ bound → k ≤ burstBeats bound := by
  simp only [List.mem_cons, List.not_mem_nil, or_false]
  unfold burstBeats
  split_ifs <;> exact ⟨⟨by omega, by omega⟩, by omega⟩

/-- The same, with the bound spelled out as the limits it is made of. -/
theorem burstBeats_greatest_of {bound : Nat} {fits : Nat → Prop} (h : 0 < bound)
    (hfits : ∀ k, fits k ↔ k ∈ [1, 4, 8, 16] ∧ k ≤ bound) :
    fits (burstBeats bound) ∧ ∀ k, fits k → k ≤ burstBeats bound := by
  simp only [hfits]
  exact burstBeats_greatest h

/-- `k` words are within a number of bytes. -/
theorem le_words_iff {k bytes : Nat} : k ≤ bytes / 4 ↔ 4 * k ≤ bytes := by omega

/-- Words from a word address that cross no 1 KiB boundary (R157). -/
theorem le_wordsToBoundary_iff {k : Nat} (h : a % 4 = 0) : k ≤ wordsToBoundary a ↔ a % 1024 + 4 * k ≤ 1024 := by
  rw [wordsToBoundary]
  omega

/-- Within the nearer of the fragment's end and the next 1 KiB boundary (R157). -/
theorem Cursor.le_room_iff {k : Nat} (h : c.fragment % 4 = 0) :
    k ≤ c.room ↔ 4 * k ≤ c.left ∧ c.fragment % 1024 + 4 * k ≤ 1024 := by
  rw [Cursor.room, le_min_iff, le_words_iff, le_wordsToBoundary_iff h]

theorem Cursor.room_pos (hl : 4 ≤ c.left) (h : c.fragment % 4 = 0) : 0 < c.room :=
  (Cursor.le_room_iff h).2 ⟨hl, by omega⟩

theorem Mover.le_free_iff {k : Nat} (h : m.fifo.length ≤ 16) : k ≤ m.free ↔ m.fifo.length + k ≤ 16 := by
  simp only [Mover.free, Config.fifoWords]
  omega

theorem burstLength_pos {l : Nat} (h : l ∈ [1, 4, 8, 16]) : 0 < l := by
  simp only [List.mem_cons, List.not_mem_nil, or_false] at h
  omega

/-! ## The start of a burst (R152, R157) -/

theorem exec_burstStart {s : State} (hs : s.live = true) (hp : s.port = some .mover)
    (h : s.mover.burstNow = some b) {u : Mover} (hu : s.mover.startBurst b = u) :
    exec .burstStart s = .next (State.settle { s with mover := u }) :=
  State.takes_eq hs (by simp only [State.burstStarts, hp, h, hu])

/-- The cursor past `n` words of its fragment. -/
def Cursor.past (c : Cursor) (n : Nat) : Cursor := { c with fragment := c.fragment + 4 * n, left := c.left - 4 * n }

theorem Mover.advance_eq (hc : m.cursor = some c) (hin : m.chain = .inFragment) (n : Nat) : m.advance n = { m with
    cursor := some (c.past n), chain := if c.left ≤ 4 * n then .exhausted else .inFragment } := by
  simp only [Mover.advance, hc, hin, Nat.sub_eq_zero_iff_le]
  rfl

theorem Mover.startBurst_fetch (hd : m.direction = some .fetch) (hf : m.fetch = some f) (a n : Nat) :
    m.startBurst (.readBurst a n) = { m with
      access := some (.readBurst a n), permit := m.permit - 4 * n,
      fetch := some { f with address := (f.address + 4 * n) % 4294967296 } } := by
  simp only [Mover.startBurst, hd, hf]
  rfl

theorem Mover.startBurst_inbound (hd : m.direction = some .inbound) (hc : m.cursor = some c)
    (hin : m.chain = .inFragment) (a n : Nat) : m.startBurst (.readBurst a n) = { m with
      access := some (.readBurst a n), permit := m.permit - 4 * n, cursor := some (c.past n),
      chain := if c.left ≤ 4 * n then .exhausted else .inFragment } := by
  simp [Mover.startBurst, hd, Mover.advance_eq hc hin]

theorem Mover.startBurst_write (hc : m.cursor = some c) (hin : m.chain = .inFragment) (a : Nat) (ws : List Word) :
    m.startBurst (.writeBurst a ws) = { m with
      access := some (.writeBurst a ws), fifo := m.fifo.drop ws.length, cursor := some (c.past ws.length),
      chain := if c.left ≤ 4 * ws.length then .exhausted else .inFragment } := by
  simp [Mover.startBurst, Mover.advance_eq hc hin]

end Sys2Proof.Machine
end

