-- ==== Sys2Proof/Proofs/TransferEnds.lean ====
section
/-! Endings and END of a transfer, and the end of a QUERY BANDS order (R44, R154, R155, R157, R159). -/

namespace Sys2Proof.Machine

open Sys2Proof

variable {s : State} {e : MoverEnding}

/-! ## A pending ending reported (R154, R155) -/

/-- The coder asks for a word, or assembles no row. -/
theorem State.coderWants_iff : s.coderWants = true ↔
    s.coder.write = none ∨ ∃ a, s.coder.write = some a ∧ a.handing = none ∧ a.index < 6 - a.level.val := by
  cases h : s.coder.write with
  | none => simp [State.coderWants, h]
  | some a =>
      simp only [State.coderWants, WriteAsm.asking, h, Option.elim_some, Bool.and_eq_true, Option.isNone_iff_eq_none,
        decide_eq_true_eq, reduceCtorEq, false_or, Option.some.injEq, exists_eq_left']
      rfl

/-- The ending is told and the transfer stands still. -/
def State.stops (s : State) (e : MoverEnding) : State :=
  { s with mover := { s.mover with phase := .stopped }, signals := s.signals ++ [.moverEnding e] }

theorem State.moverReport_inbound (he : s.mover.pendingEnding = some e) (hd : s.mover.direction = some .inbound) :
    s.moverReport = if s.mover.phase = .moving ∧ s.mover.ended = false ∧ s.mover.fifo = [] ∧ s.coderWants = true
      then some (s.stops e) else none := by
  simp [State.moverReport, State.stops, State.emit, he, hd]

theorem State.moverReport_outbound (he : s.mover.pendingEnding = some e) (hd : s.mover.direction = some .outbound) :
    s.moverReport = if s.mover.phase = .moving then some (s.stops e)
      else if s.mover.phase = .flushing then some ((s.emit (.moverEnding e)).moverFlushed) else none := by
  simp [State.moverReport, State.stops, State.emit, he, hd]

/-- FLUSHED comes after the ending that stopped the flush (R159). -/
theorem State.flushed_after (s : State) (e : MoverEnding) : (s.emit (.moverEnding e)).moverFlushed =
    { s with mover := Mover.reset, signals := s.signals ++ [.moverEnding e, .flushed] } := by
  simp [State.moverFlushed, State.emit]

/-! ## END (R159) -/

/-- The port is granted to the mover for an access raised or a burst that may start. -/
theorem State.moverBusy_false (h : ¬(s.port = some .mover ∧ (s.mover.access ≠ none ∨ s.mover.burstNow ≠ none))) :
    s.moverBusy = false :=
  Bool.eq_false_iff.2 (mt s.moverBusy_iff.1 h)

theorem State.endTransfer_rest (h : s.mover.phase = .idle ∨ s.mover.phase = .flushing) : s.endTransfer = s := by
  rcases h with h | h <;> simp only [State.endTransfer, h]

theorem State.endTransfer_stopped (h : s.mover.phase = .stopped) : s.endTransfer = s.moverFlushed := by
  simp only [State.endTransfer, h]

theorem State.endTransfer_outbound (h : s.mover.phase = .moving) (hd : s.mover.direction = some .outbound) :
    s.endTransfer = { s with mover := { s.mover with phase := .flushing } } := by
  simp only [State.endTransfer, h, hd, if_true]

/-- The mover as END leaves it with an access granted: the FIFO is empty, the access runs on. -/
def Mover.endTaken (m : Mover) : Mover := { m with fifo := [], ended := true }

theorem Mover.free_endTaken (m : Mover) : m.free ≤ m.endTaken.free := by
  simp only [Mover.free, Mover.endTaken, List.length_nil]
  omega

/-- A read burst that may start before END may start after it, at the same address and no shorter, for the FIFO has
more room (R157; log 41). -/
theorem Mover.burstNow_endTaken {m : Mover} {a n : Nat} (h : m.burstNow = some (.readBurst a n)) :
    ∃ k, m.endTaken.burstNow = some (.readBurst a k) ∧ n ≤ k := by
  have room := m.free_endTaken
  rcases Mover.burstNow_read h with ⟨hd, f, hf⟩ | ⟨hd, c, hc⟩
  · obtain ⟨⟨occ, phase, permit, fits⟩, same⟩ := (Mover.burstNow_fetch hd hf).1 h
    cases same
    exact ⟨_, (Mover.burstNow_fetch (m := m.endTaken) hd hf).2 ⟨⟨occ, phase, permit, fits.trans room⟩, rfl⟩,
      burstBeats_mono (min_le_min_left _ (min_le_min_left _ room))⟩
  · obtain ⟨⟨occ, phase, chain, permit, fits⟩, same⟩ := (Mover.burstNow_inbound hd hc).1 h
    cases same
    exact ⟨_, (Mover.burstNow_inbound (m := m.endTaken) hd hc).2 ⟨⟨occ, phase, chain, permit, fits.trans room⟩, rfl⟩,
      burstBeats_mono (min_le_min_left _ room)⟩

/-- A burst granted the port before END keeps the port after it. -/
theorem State.endTransfer_granted {a n : Nat} (hp : s.mover.phase = .moving) (hd : s.mover.direction ≠ some .outbound)
    (port : s.port = some .mover) (h : s.mover.burstNow = some (.readBurst a n)) :
    ∃ k, s.endTransfer.mover.burstNow = some (.readBurst a k) ∧ n ≤ k ∧ s.endTransfer.port = some .mover ∧
      s.endTransfer.arbitrate = none := by
  obtain ⟨k, starts, longer⟩ := Mover.burstNow_endTaken h
  have wants : State.wantsPort { s with mover := s.mover.endTaken } .mover = true :=
    State.wantsPort_mover.2 (.inr (Option.ne_none_iff_exists'.2 ⟨_, starts⟩))
  rw [State.endTransfer_busy s hp hd (s.moverBusy_iff.2 ⟨port, .inr (by simp [h])⟩)]
  exact ⟨k, starts, longer, port,
    (State.arbitrate_granted (s := { s with mover := s.mover.endTaken }) port).trans (if_pos wants)⟩

/-! ## After END (R159) -/

theorem State.moverWalk_ended (h : s.mover.ended = true) : s.moverWalk = none :=
  if_neg (by simp [Mover.walkDue, h])

theorem State.moverAtEnd_ended (h : s.mover.ended = true) : s.moverAtEnd = none := if_neg (by simp [h])

theorem State.moverReport_ended (h : s.mover.ended = true)
    (hd : s.mover.direction = some .inbound ∨ s.mover.direction = some .fetch) : s.moverReport = none := by
  cases he : s.mover.pendingEnding with
  | none => simp only [State.moverReport, he]
  | some e =>
      rcases hd with hd | hd
      · rw [State.moverReport_inbound he hd, if_neg (by simp [h])]
      · simp only [State.moverReport, he, hd]

/-! ## The end of a QUERY BANDS order (R44) -/

section Query

variable {o : Order}

/-- A transfer of neither row path is the band services'. -/
theorem State.takeUnit_query (hr : s.reader.order = none) : s.takeUnit = s.recordWritten := by
  rw [State.takeUnit_eq, if_neg (not_not.2 hr)]

theorem State.takeEnding_query (hw : s.writer.order = none) (hr : s.reader.order = none) (e : MoverEnding) :
    s.takeEnding e = s.queryMoverEnding e := by
  rw [State.takeEnding_eq, if_neg (not_not.2 hw), if_neg (not_not.2 hr)]

theorem State.takeFlushed_query (hw : s.writer.order = none) (hr : s.reader.order = none) :
    s.takeFlushed = { s with
      services := { s.services with flushed := true } } := by
  rw [State.takeFlushed_eq, if_neg (not_not.2 hw), if_neg (not_not.2 hr)]

theorem State.recordWritten_order (ho : s.services.order = some o) : s.recordWritten =
    if o.clearAttention then { s with
      services := { s.services with written := s.services.written + 1, answers := s.services.answers + 1 },
      signals := s.signals ++ [.update .services (.clearAttention (s.services.band + s.services.written)) false] }
    else { s with services := { s.services with written := s.services.written + 1 } } := by
  cases hc : o.clearAttention <;> simp [State.recordWritten, State.emit, ho, hc]

/-- END is given once the mover has ended the order, or its last record is written. -/
theorem State.queryEnd_order (ho : s.services.order = some o) (hp : s.services.phase = .records)
    (he : s.services.ended = false) : s.queryEnd =
    if s.services.ending ≠ none ∨ o.count ≤ s.services.written
    then some (State.endTransfer { s with services := { s.services with ended := true } }) else none := by
  simp [State.queryEnd, Services.count, ho, hp, he, Option.isSome_iff_ne_none]

theorem State.queryFinish_ended (hp : s.services.phase = .records) (he : s.services.ended = true) : s.queryFinish =
    if s.services.flushed = true ∧ s.services.answers = 0 then some { s with
      services := Services.reset,
      signals := s.signals ++ [.orderEnd
        { status := s.services.ending.getD .ok, rowsDone := s.services.written, pagesRebuilt := 0, weakSeen := 0 }] }
    else none := by
  simp only [State.queryFinish, hp, he, true_and]
  rfl

end Query

/-! ## The statement -/

/-- Settles O49: the report by the direction and the phase, END by the phase and what has the port, and the query by its
conditions of the end. -/
theorem transfersEnd : Obligations.TransfersEnd := by
  refine ⟨fun s e he => ⟨fun hd hp hn => ⟨fun empty asks => ?_, fun h => ?_⟩, fun hd => ⟨fun hp => ?_, fun hp => ?_⟩⟩,
    fun s => ⟨State.endTransfer_rest, State.endTransfer_stopped, State.endTransfer_outbound,
      fun hp hd => ⟨fun busy => s.endTransfer_busy hp hd (s.moverBusy_iff.2 busy),
        fun quiet => s.endTransfer_quiet hp hd (State.moverBusy_false quiet),
        fun a n ⟨port, _⟩ _ h => State.endTransfer_granted hp hd port h⟩,
      fun h => ⟨State.moverWalk_ended h, State.moverAtEnd_ended h, State.moverReport_ended h⟩,
      fun h => if_pos h, fun h => if_neg h⟩,
    fun s o hw hr ho => ⟨fun hc => ?_, fun hc => ?_, fun e => ?_, State.takeFlushed_query hw hr,
      fun hp he => ⟨fun h => ?_, fun hn more => ?_⟩, fun hp he => ⟨fun hf ha => ?_, fun h => ?_⟩⟩⟩
  · rw [State.moverReport_inbound he hd, if_pos ⟨hp, hn, empty, State.coderWants_iff.2 asks⟩]
    rfl
  · rw [State.moverReport_inbound he hd, if_neg]
    rintro ⟨-, -, empty, wants⟩
    exact h.elim (absurd empty) (absurd (State.coderWants_iff.1 wants))
  · rw [State.moverReport_outbound he hd, if_pos hp]
    rfl
  · rw [State.moverReport_outbound he hd, if_neg (by simp [hp]), if_pos hp, State.flushed_after]
  · rw [State.takeUnit_query hr, State.recordWritten_order ho, if_neg (by simp [hc])]
  · rw [State.takeUnit_query hr, State.recordWritten_order ho, if_pos hc]
  · rw [State.takeEnding_query hw hr]
    cases e <;> rfl
  · exact (State.queryEnd_order ho hp he).trans (if_pos h)
  · exact (State.queryEnd_order ho hp he).trans (if_neg (by simpa [hn] using more))
  · exact (State.queryFinish_ended hp he).trans (if_pos ⟨hf, ha⟩)
  · refine (State.queryFinish_ended hp he).trans (if_neg fun ⟨hf, ha⟩ => ?_)
    exact h.elim (by simp [hf]) (absurd ha)

end Sys2Proof.Machine
end

