-- ==== Sys2Proof/Proofs/DescriptorReads.lean ====
section
/-! The chain walk, the accesses of a descriptor read and its checks, and the end of the chain (R151 to R153, R155,
R160, R161). -/

namespace Sys2Proof.Machine

open Sys2Proof

variable {s : State} {reply : BusReply} {c : Cursor} {a b : Nat} {got : List Word}

/-! ## A burst at the bus (R161, R162) -/

/-- A read that the bus partner answers gives the words and leaves the state. -/
theorem State.busRead_words (hst : reply.stores = []) (he : reply.error = none) (s : State) (a n : Nat) :
    s.busRead reply a n = (s, some (Memory.readWords s.mem a n)) := by
  simp [State.busRead, hostStores_none hst, he]

/-- A read that fails at beat `b` leaves its bus error. -/
theorem State.busRead_error (hst : reply.stores = []) (he : reply.error = some b) (s : State) (a n : Nat) :
    s.busRead reply a n = (s.busError (a + 4 * b) false, none) := by
  simp [State.busRead, hostStores_none hst, he]

/-! ## The walk (R152, R153, R155) -/

/-- The transfer needs a descriptor: before the first fragment and after each that is used up, inbound while bytes are
permitted, outbound while a word waits to be written. -/
theorem Mover.walkDue_iff_of_cursor {m : Mover} (hc : m.cursor = some c) : m.walkDue = true ↔
    m.pendingEnding = none ∧ m.access = none ∧ m.ended = false ∧ (m.chain = .notStarted ∨ m.chain = .exhausted) ∧
      ((m.direction = some .inbound ∧ m.phase = .moving ∧ 0 < m.permit) ∨
        (m.direction = some .outbound ∧ (m.phase = .moving ∨ m.phase = .flushing) ∧ m.fifo ≠ [])) := by
  rcases hd : m.direction with _ | _ | _ | _ <;> simp [Mover.walkDue, hc, hd, and_assoc]

theorem State.moverWalk_due (h : s.mover.walkDue = true) : s.moverWalk = some { s with mover := s.mover.walk } :=
  if_pos h

/-- A next address of zero is the end of the chain. -/
theorem Mover.walk_end {m : Mover} (hc : m.cursor = some c) (hn : c.next = 0) :
    m.walk = { m with chain := .atEnd } := by
  simp only [Mover.walk, hc, hn, if_true]

/-- A walk reads 4096 descriptors and no more. -/
theorem Mover.walk_limit {m : Mover} (hc : m.cursor = some c) (hn : c.next ≠ 0) (hw : 4096 ≤ c.walked) :
    m.walk = { m with pendingEnding := some .fragment } := by
  simp only [Mover.walk, hc, if_neg hn, Config.walkLimit, if_pos hw]

/-- Within the limit the descriptor counts, and is read where its address is a multiple of 16. -/
theorem Mover.walk_counted {m : Mover} (hc : m.cursor = some c) (hn : c.next ≠ 0) (hw : c.walked < 4096) :
    let counted := { m with cursor := some { c with walked := c.walked + 1 } }
    m.walk = if c.next % 16 ≠ 0 then { counted with pendingEnding := some .fragment }
      else { counted with access := some (.descriptor c.next []) } := by
  simp only [Mover.walk, hc, if_neg hn, Config.walkLimit, if_neg (Nat.not_le.2 hw)]

/-! ## The accesses of a descriptor read (R151, R160, R161) -/

theorem exec_descriptorReadEnd (hs : s.live = true) (hp : s.port = some .mover)
    (ha : s.mover.access = some (.descriptor a got)) {t : State} {ws : Option (List Word)}
    (h : s.freePort.busRead reply (a + 4 * got.length) s.mover.descriptorBeats = (t, ws)) :
    exec (.descriptorReadEnd reply) s = .next (t.endDescriptor a got ws).settle :=
  State.takes_eq hs (by simp only [State.descriptorEnds, hp, ha, h])

theorem State.endDescriptor_words (hn : s.mover.ended = false) (a : Nat) (got ws : List Word) :
    s.endDescriptor a got (some ws) =
      if (got ++ ws).length < 4 then { s with mover := { s.mover with access := some (.descriptor a (got ++ ws)) } }
      else { s with mover := s.mover.enterFragment a (descriptorOf (got ++ ws)) } :=
  if_neg (by simp [hn])

theorem State.endDescriptor_error (hn : s.mover.ended = false) (a : Nat) (got : List Word) :
    s.endDescriptor a got none =
      { s with mover := { s.mover with access := none, pendingEnding := some .busError } } :=
  if_neg (by simp [hn])

/-- After END its words are not used. -/
theorem State.endDescriptor_ended (hn : s.mover.ended = true) (a : Nat) (got : List Word) (ws : Option (List Word)) :
    s.endDescriptor a got ws = s.moverFlushed := if_pos hn

/-! ## The checks of a descriptor (R151) -/

/-- The length and the address of a fragment are whole words, and the fragment lies within the address space. -/
theorem Descriptor.good_iff (d : Descriptor) : d.good = true ↔
    4 ≤ d.length ∧ d.length ≤ 65532 ∧ d.length % 4 = 0 ∧ d.fragment ≠ 0 ∧ d.fragment % 4 = 0 ∧
      d.fragment + d.length ≤ 4294967296 := by
  simp only [Descriptor.good, Bool.and_eq_true, decide_eq_true_eq, beq_iff_eq, bne_iff_ne, and_assoc]
  rfl

theorem Mover.enterFragment_good {m : Mover} {d : Descriptor} (hc : m.cursor = some c) (hd : d.good = true) :
    m.enterFragment a d = { m with
      access := none, chain := .inFragment,
      cursor := some { descriptor := a, fragment := d.fragment, left := d.length, next := d.next,
                       walked := c.walked } } := by
  rw [Mover.enterFragment, if_pos hd, hc]
  rfl

theorem Mover.enterFragment_bad {m : Mover} {d : Descriptor} (hd : ¬d.good = true) :
    m.enterFragment a d = { m with access := none, pendingEnding := some .fragment } := if_neg hd

/-! ## The end of the chain (R153, R155) -/

/-- With no byte permitted an inbound transfer needs no more words. -/
theorem State.moverAtEnd_unpermitted (hd : s.mover.direction = some .inbound) (ht : s.mover.permit = 0) :
    s.moverAtEnd = none := by
  simp [State.moverAtEnd, hd, ht]

section AtEnd

variable (hc : s.mover.chain = .atEnd) (hp : s.mover.pendingEnding = none) (hn : s.mover.ended = false)
include hc hp hn

/-- Without a fill byte the chain is short. -/
theorem State.moverAtEnd_unfilled (hd : s.mover.direction = some .inbound) (hm : s.mover.phase = .moving)
    (ht : 0 < s.mover.permit) (hf : s.mover.fill = none) :
    s.moverAtEnd = some { s with mover := { s.mover with pendingEnding := some .shortChain } } := by
  simp [State.moverAtEnd, hc, hp, hn, hd, hm, ht, hf]

/-- Fill words join the FIFO as it has room and bytes are permitted. -/
theorem State.moverAtEnd_filled {b : Byte} (hd : s.mover.direction = some .inbound) (hm : s.mover.phase = .moving)
    (ht : 0 < s.mover.permit) (hf : s.mover.fill = some b) :
    let n := min (16 - s.mover.fifo.length) (s.mover.permit / 4)
    s.moverAtEnd = if 0 < n then some { s with mover := { s.mover with
        fifo := s.mover.fifo ++ List.replicate n (wordOf b b b b), permit := s.mover.permit - 4 * n } }
      else none := by
  simp [State.moverAtEnd, hc, hp, hn, hd, hm, ht, hf, Mover.free, Config.fifoWords, fillWord]

theorem State.moverAtEnd_outbound (hd : s.mover.direction = some .outbound)
    (hm : s.mover.phase = .moving ∨ s.mover.phase = .flushing) : s.moverAtEnd =
    if s.mover.fifo ≠ [] then some { s with mover := { s.mover with pendingEnding := some .shortChain } }
    else none := by
  simp [State.moverAtEnd, hc, hp, hn, hd, hm]

end AtEnd

/-! ## The statement -/

/-- Settles O47: the access by the words it gives, the walk by the next address and the descriptors read, the end of the
chain by the direction. -/
theorem descriptorChecked : Obligations.DescriptorChecked := by
  refine ⟨fun s a got c reply hs hp ha hc hn hst => ?access, fun s c hc => ?walk, fun s hc hp hn => ?atEnd⟩
  case access =>
    intro ws addr len good
    have takes (he : reply.error = none) {t : State} (h : (if ws.length < 4
        then { s.freePort with mover := { s.mover with access := some (.descriptor a ws) } }
        else { s.freePort with mover := s.mover.enterFragment a (descriptorOf ws) }) = t) :
        exec (.descriptorReadEnd reply) s = .next t.settle := by
      have ends := State.endDescriptor_words (s := s.freePort) hn a got
        (Memory.readWords s.mem (a + 4 * got.length) s.mover.descriptorBeats)
      rw [← ends.trans h]
      exact exec_descriptorReadEnd hs hp ha (s.freePort.busRead_words hst he _ _)
    have checks : (descriptorOf ws).good = true ↔ good := Descriptor.good_iff _
    refine ⟨fun he more => ?_, fun he all hgood => ?_, fun he all hbad => ?_, fun b he => ?_⟩
    · exact takes he (if_pos more)
    · refine takes he ((if_neg (Nat.not_lt.2 all)).trans ?_)
      rw [Mover.enterFragment_good hc (checks.2 hgood)]
      rfl
    · refine takes he ((if_neg (Nat.not_lt.2 all)).trans ?_)
      rw [Mover.enterFragment_bad (mt checks.1 hbad)]
      rfl
    · refine ⟨_, exec_descriptorReadEnd hs hp ha (s.freePort.busRead_error hst he _ _), ?_⟩
      rw [State.endDescriptor_error (s := s.freePort.busError _ _) hn]
      exact ⟨State.busError_flag _ _ _, State.busError_errorAddress _ _ _, rfl, rfl⟩
  case walk =>
    intro m running due counted
    have needs : m.walkDue = true ↔ due := Mover.walkDue_iff_of_cursor hc
    have walks (h : due) {u : Mover} (hu : m.walk = u) : s.moverWalk = some { s with mover := u } :=
      hu ▸ State.moverWalk_due (needs.2 h)
    refine ⟨fun h => if_neg (mt needs.1 h), fun h hz => walks h (Mover.walk_end hc hz),
      fun h hz hw => walks h (Mover.walk_limit hc hz hw), fun h hz hw => ⟨fun skew => ?_, fun aligned => ?_⟩⟩
    · exact walks h ((Mover.walk_counted hc hz hw).trans (if_pos skew))
    · exact walks h ((Mover.walk_counted hc hz hw).trans (if_neg (not_not.2 aligned)))
  case atEnd =>
    refine ⟨fun hd hm ht => ⟨fun hf => ?_, fun b hf => ⟨fun room => ?_, fun full => ?_⟩⟩,
      fun hd ht => State.moverAtEnd_unpermitted hd ht,
      fun hd hm => ⟨fun waits => ?_, fun empty => ?_⟩⟩
    · exact State.moverAtEnd_unfilled hc hp hn hd hm ht hf
    · exact (State.moverAtEnd_filled hc hp hn hd hm ht hf).trans (if_pos room)
    · exact (State.moverAtEnd_filled hc hp hn hd hm ht hf).trans (if_neg (by simp [full]))
    · exact (State.moverAtEnd_outbound hc hp hn hd hm).trans (if_pos waits)
    · exact (State.moverAtEnd_outbound hc hp hn hd hm).trans (if_neg (not_not.2 empty))

end Sys2Proof.Machine
end

