-- ==== Sys2Proof/Proofs/BurstEnds.lean ====
section
/-! The end of a burst: the words read, the words written, and a bus error; the access that END found in progress; the
words of a fetch handed to its requester (R153, R155, R157 to R159, R161, R162). -/

namespace Sys2Proof.Machine

open Sys2Proof

variable {s : State} {reply : BusReply} {a n b : Nat} {ws : List Word}

/-! ## Consecutive words in host memory (R153, R155) -/

theorem consecutive_within (ws : List Word) (a : Nat) {x : Nat × Word} (h : x ∈ consecutive a ws) :
    a ≤ x.1 ∧ x.1 + 4 ≤ a + 4 * ws.length := by
  induction ws generalizing a with
  | nil => cases h
  | cons w rest ih =>
      rw [List.length_cons]
      rcases List.mem_cons.1 h with rfl | h
      · exact ⟨le_rfl, by dsimp only; omega⟩
      · obtain ⟨above, below⟩ := ih (a + 4) h
        omega

theorem consecutive_address (ws : List Word) (a : Nat) {b : Nat} (h : b < ws.length) :
    ((consecutive a ws).getD b (0, 0#32)).1 = a + 4 * b := by
  induction ws generalizing a b with
  | nil => cases h
  | cons w rest ih =>
      cases b with
      | zero => rfl
      | succ b =>
          refine (ih (a + 4) (Nat.lt_of_succ_lt_succ h)).trans ?_
          omega

/-- Writes within the words from `a` leave every other byte. -/
theorem Memory.readByte_outside {writes : List (Nat × Word)} (m : List Host.Cell)
    (h : ∀ w ∈ writes, w ∈ consecutive a ws) {x : Nat} (hx : x < a ∨ a + 4 * ws.length ≤ x) :
    Memory.readByte (Memory.writeWords m writes) x = Memory.readByte m x := by
  refine Memory.readByte_writeWords_other writes m x fun w hw => ?_
  obtain ⟨above, below⟩ := consecutive_within ws a (h w hw)
  omega

/-- The words written from `a` read as those words. -/
theorem Memory.readWords_writeWords (ws : List Word) (a : Nat) {m : List Host.Cell} (hm : Memory.wf m = true) :
    Memory.readWords (Memory.writeWords m (consecutive a ws)) a ws.length = ws := by
  induction ws generalizing a m with
  | nil => rfl
  | cons w rest ih =>
      have wf := Memory.wf_writeWord m a w hm
      have kept (x : Nat) (hx : x < a + 4) :
          Memory.readByte (Memory.writeWords (Memory.writeWord m a w) (consecutive (a + 4) rest)) x =
            Memory.readByte (Memory.writeWord m a w) x :=
        Memory.readByte_outside _ (fun _ h => h) (.inl hx)
      have first : Memory.readWord (Memory.writeWords (Memory.writeWord m a w) (consecutive (a + 4) rest)) a = w := by
        refine Eq.trans ?_ (Memory.readWord_writeWord hm a w)
        simp only [Memory.readWord, kept a (by omega), kept (a + 1) (by omega), kept (a + 2) (by omega),
          kept (a + 3) (by omega)]
      exact congrArg₂ List.cons first (ih (a + 4) wf)

theorem landedOf_subset (ws : List (Nat × Word)) (bs : List Bool) {x : Nat × Word} (h : x ∈ landedOf ws bs) :
    x ∈ ws := by
  induction ws generalizing bs with
  | nil => simp [landedOf] at h
  | cons w rest ih =>
      cases bs with
      | nil => simp [landedOf] at h
      | cons b bs =>
          cases b with
          | false => exact List.mem_cons_of_mem w (ih bs h)
          | true =>
              rcases List.mem_cons.1 h with rfl | h
              · exact List.mem_cons_self
              · exact List.mem_cons_of_mem w (ih bs h)

/-! ## A burst at the bus (R161, R162) -/

/-- A write burst that the bus partner takes leaves its words in memory. -/
theorem State.busWrite_words (hst : reply.stores = []) (he : reply.error = none) (s : State)
    (writes : List (Nat × Word)) :
    s.busWrite reply writes = ({ s with mem := Memory.writeWords s.mem writes }, true) := by
  simp [State.busWrite, hostStores_none hst, he]

/-- One that fails at beat `b` leaves its bus error, and the words that the bus partner took. -/
theorem State.busWrite_failed (hst : reply.stores = []) (he : reply.error = some b) (s : State)
    (writes : List (Nat × Word)) : s.busWrite reply writes =
    (State.busError { s with mem := Memory.writeWords s.mem (landedOf writes reply.landed) }
      (writes.getD b (0, 0#32)).1 true, false) := by
  simp [State.busWrite, hostStores_none hst, he]

/-- A read leaves everything but the record of its bus error. -/
theorem State.busRead_frame (hst : reply.stores = []) {s t : State} {words : Option (List Word)}
    (h : s.busRead reply a n = (t, words)) :
    t.mover = s.mover ∧ t.port = s.port ∧ t.signals = s.signals ∧ t.mem = s.mem ∧
      (reply.error ≠ none → t.window.flag .busError = true) := by
  cases he : reply.error with
  | none =>
      rw [State.busRead_words hst he] at h
      cases h
      exact ⟨rfl, rfl, rfl, rfl, fun h => absurd rfl h⟩
  | some b =>
      rw [State.busRead_error hst he] at h
      cases h
      exact ⟨rfl, rfl, rfl, rfl, fun _ => s.busError_flag _ _⟩

/-- What FLUSHED leaves after a read whose words are not used (R159). -/
theorem State.flushed_of_busRead (hst : reply.stores = []) {s t : State} {words : Option (List Word)}
    (h : s.freePort.busRead reply a n = (t, words)) :
    t.mover = s.mover ∧ t.moverFlushed.mover = Mover.reset ∧ t.moverFlushed.port = none ∧
      t.moverFlushed.signals = s.signals ++ [.flushed] ∧ t.moverFlushed.mem = s.mem ∧
      (reply.error ≠ none → t.moverFlushed.window.flag .busError = true) := by
  obtain ⟨mover, port, signals, mem, error⟩ := State.busRead_frame hst h
  exact ⟨mover, rfl, port, congrArg (· ++ [Signal.flushed]) signals, mem, error⟩

/-! ## The end of a burst (R153, R155, R158, R159, R161) -/

theorem exec_burstEnd_read (hs : s.live = true) (hp : s.port = some .mover)
    (ha : s.mover.access = some (.readBurst a n)) {t : State} {ws : Option (List Word)}
    (h : s.freePort.busRead reply a n = (t, ws)) :
    exec (.burstEnd reply) s = .next (t.endReadBurst ws).settle :=
  State.takes_eq hs (by simp only [State.burstEnds, hp, ha, h])

theorem exec_burstEnd_write (hs : s.live = true) (hp : s.port = some .mover)
    (ha : s.mover.access = some (.writeBurst a ws)) {t : State} {ok : Bool}
    (h : s.freePort.busWrite reply (consecutive a ws) = (t, ok)) :
    exec (.burstEnd reply) s = .next (t.endWriteBurst ws.length ok).settle :=
  State.takes_eq hs (by simp only [State.burstEnds, hp, ha, h])

theorem State.endReadBurst_words (hn : s.mover.ended = false) (ws : List Word) : s.endReadBurst (some ws) =
    { s with mover := { s.mover with access := none, fifo := s.mover.fifo ++ ws } } :=
  if_neg (by simp [hn])

/-- A bus error is the mover's pending ending. -/
theorem State.endReadBurst_error (hn : s.mover.ended = false) (hf : s.mover.fetch = none) : s.endReadBurst none =
    { s with mover := { s.mover with access := none, pendingEnding := some .busError } } :=
  (if_neg (by simp [hn])).trans (if_neg (by simp [hf]))

/-- A fetch ends with it at once. -/
theorem State.endReadBurst_fetchError (hn : s.mover.ended = false) (hf : s.mover.fetch ≠ none) :
    s.endReadBurst none = { s with
      mover := { s.mover with access := none, fetch := none, phase := .stopped },
      signals := s.signals ++ [.moverEnding .busError] } :=
  (if_neg (by simp [hn])).trans (if_pos (Option.isSome_iff_ne_none.2 hf))

/-- After END its words are not used. -/
theorem State.endReadBurst_ended (hn : s.mover.ended = true) (ws : Option (List Word)) :
    s.endReadBurst ws = s.moverFlushed := if_pos hn

theorem State.emitUnits_eq (s : State) (n : Nat) :
    s.emitUnits n = { s with signals := s.signals ++ List.replicate n .unitWritten } := by
  induction n generalizing s with
  | zero => simp [State.emitUnits]
  | succ n ih => simp [State.emitUnits, ih, State.emit, List.replicate_succ]

/-- The units that a write of `n` words more completes (R155). -/
def Mover.unitsDone (m : Mover) (n : Nat) : Nat :=
  (m.written + n) / (m.unitSize / 4) - m.written / (m.unitSize / 4)

theorem State.endWriteBurst_words (s : State) (n : Nat) : s.endWriteBurst n true = { s with
    mover := { s.mover with
      access := none, written := s.mover.written + n, permit := s.mover.permit - 4 * n,
      unitsWritten := s.mover.unitsWritten + s.mover.unitsDone n },
    signals := s.signals ++ List.replicate (s.mover.unitsDone n) .unitWritten } :=
  State.emitUnits_eq _ _

theorem State.endWriteBurst_error (s : State) (n : Nat) : s.endWriteBurst n false =
    { s with mover := { s.mover with access := none, pendingEnding := some .busError } } := rfl

/-! ## The words of a fetch handed on (R158) -/

theorem State.moverHandsFetch_some {f : Fetch} {w : Word} (hd : s.mover.direction = some .fetch)
    (hf : s.mover.fetch = some f) (hw : s.mover.fifo = w :: ws) : s.moverHandsFetch =
    let got := f.got ++ w :: ws
    some (if s.mover.permit = 0 then { s with
        mover := { s.mover with fifo := [], fetch := none },
        signals := s.signals ++ [.fetchDone f.forWhom got] }
      else { s with mover := { s.mover with fifo := [], fetch := some { f with got := got } } }) := by
  simp [State.moverHandsFetch, State.emit, hd, hf, hw]

theorem State.moverHandsFetch_none
    (h : s.mover.direction ≠ some .fetch ∨ s.mover.fetch = none ∨ s.mover.fifo = []) : s.moverHandsFetch = none := by
  unfold State.moverHandsFetch
  dsimp only
  split
  · next hd hf hw => simp [hd, hf, hw] at h
  · rfl

/-! ## The statement -/

/-- Settles O48: the start, the length and the start condition by the direction, the end by what the bus partner
answers. -/
theorem burstsStartAndEnd : Obligations.BurstsStartAndEnd := by
  refine ⟨fun s hs hp => ⟨fun a n h => ⟨fun f hd hf => ?fetchStarts, fun c hd hc => ?inboundStarts, ?readsFor⟩,
      fun a ws h => ⟨fun c hc => ?outboundStarts, ?writesFor⟩⟩,
    fun m c hl ht hc hleft hfrag hpermit hfifo => ⟨fun a n hd h => ?inboundLength, fun a ws hd h => ?outboundLength⟩,
    fun m f a n hl ht hf haddr hpermit hfifo hd h => ?fetchLength,
    fun s reply hs hp hst he hn => ⟨fun a n ha => ?readEnds, fun a ws ha hm => ?writeEnds⟩,
    fun s reply b hs hp hst he hn => ?fails, fun s reply hs hp hst hn => ?ended, fun m => ?due,
    fun s => ⟨fun f w ws hd hf hw => ?handed, State.moverHandsFetch_none⟩⟩
  case fetchStarts => exact exec_burstStart hs hp h (Mover.startBurst_fetch hd hf a n)
  case inboundStarts =>
    obtain ⟨⟨-, -, inFragment, -⟩, -⟩ := (Mover.burstNow_inbound hd hc).1 h
    exact exec_burstStart hs hp h (Mover.startBurst_inbound hd hc inFragment a n)
  case readsFor =>
    exact (Mover.burstNow_read h).imp (And.imp_right Option.ne_none_iff_exists'.2)
      (And.imp_right Option.ne_none_iff_exists'.2)
  case outboundStarts =>
    obtain ⟨hd, -⟩ := Mover.burstNow_write h
    obtain ⟨⟨-, -, inFragment, -⟩, -⟩ := (Mover.burstNow_outbound hd hc).1 h
    exact exec_burstStart hs hp h (Mover.startBurst_write hc inFragment a ws)
  case writesFor => exact (Mover.burstNow_write h).imp_right Option.ne_none_iff_exists'.2
  case inboundLength =>
    obtain ⟨⟨-, -, -, permitted, room⟩, same⟩ := (Mover.burstNow_inbound hd hc).1 h
    cases same
    have length := burstLength_pos hl
    have fragment := Cursor.room_pos hleft hfrag
    intro fits
    refine ⟨rfl, burstBeats_greatest_of (fits := fits) (by omega) fun k => ?_⟩
    simp only [fits, le_min_iff, Cursor.le_room_iff hfrag, le_words_iff, Mover.le_free_iff hfifo]
    tauto
  case outboundLength =>
    obtain ⟨⟨-, -, -, words, -⟩, same⟩ := (Mover.burstNow_outbound hd hc).1 h
    cases same
    have length := burstLength_pos hl
    have fragment := Cursor.room_pos hleft hfrag
    have held := List.length_pos_iff.2 words
    have bound : 0 < min (min m.burstLength c.room) m.fifo.length := by omega
    have taken := List.length_take_of_le ((burstBeats_greatest bound).1.2.trans (min_le_right _ _))
    intro fits
    rw [taken]
    refine ⟨rfl, rfl, burstBeats_greatest_of (fits := fits) bound fun k => ?_⟩
    simp only [fits, le_min_iff, Cursor.le_room_iff hfrag]
    tauto
  case fetchLength =>
    obtain ⟨⟨-, -, permitted, room⟩, same⟩ := (Mover.burstNow_fetch hd hf).1 h
    cases same
    have length := burstLength_pos hl
    have boundary : 0 < wordsToBoundary f.address := (le_wordsToBoundary_iff haddr).2 (by omega)
    intro fits
    refine ⟨rfl, burstBeats_greatest_of (fits := fits) (by omega) fun k => ?_⟩
    simp only [fits, le_min_iff, le_wordsToBoundary_iff haddr, le_words_iff, Mover.le_free_iff hfifo]
    tauto
  case readEnds =>
    rw [exec_burstEnd_read hs hp ha (s.freePort.busRead_words hst he a n),
      State.endReadBurst_words (s := s.freePort) hn]
    rfl
  case writeEnds =>
    refine ⟨_, exec_burstEnd_write hs hp ha (s.freePort.busWrite_words hst he _), ?_⟩
    rw [State.endWriteBurst_words]
    exact ⟨Memory.readWords_writeWords ws a hm, fun x => Memory.readByte_outside s.mem fun _ h => h, rfl, rfl, rfl, rfl⟩
  case fails =>
    intro recorded
    refine ⟨fun a n ha => ?_, fun a ws ha hb hm => ?_⟩
    · refine ⟨_, exec_burstEnd_read hs hp ha (s.freePort.busRead_error hst he a n), ?_⟩
      have flag := s.freePort.busError_flag (a + 4 * b) false
      have address := s.freePort.busError_errorAddress (a + 4 * b) false
      by_cases hf : s.mover.fetch = none
      · rw [State.endReadBurst_error (s := s.freePort.busError _ _) hn hf]
        exact ⟨flag, address, rfl, rfl, fun _ => ⟨rfl, rfl⟩, fun h => absurd hf h⟩
      · rw [State.endReadBurst_fetchError (s := s.freePort.busError _ _) hn hf]
        exact ⟨flag, address, rfl, rfl, fun h => absurd h hf, fun _ => ⟨rfl, rfl⟩⟩
    · refine ⟨_, exec_burstEnd_write hs hp ha (s.freePort.busWrite_failed hst he _), ?_⟩
      rw [State.endWriteBurst_error, consecutive_address ws a hb]
      exact ⟨State.busError_flag _ _ _, State.busError_errorAddress _ _ _, rfl, rfl, rfl,
        fun x => Memory.readByte_outside s.mem fun _ => landedOf_subset _ _⟩
  case ended =>
    intro flushed
    refine ⟨fun a n ha => ?_, fun a got ha => ?_⟩
    · obtain ⟨⟨t, words⟩, read⟩ : ∃ r, s.freePort.busRead reply a n = r := ⟨_, rfl⟩
      obtain ⟨mover, leaves⟩ := State.flushed_of_busRead hst read
      refine ⟨_, exec_burstEnd_read hs hp ha read, ?_⟩
      rwa [State.endReadBurst_ended (mover ▸ hn)]
    · obtain ⟨⟨t, words⟩, read⟩ :
          ∃ r, s.freePort.busRead reply (a + 4 * got.length) s.mover.descriptorBeats = r := ⟨_, rfl⟩
      obtain ⟨mover, leaves⟩ := State.flushed_of_busRead hst read
      refine ⟨_, exec_descriptorReadEnd hs hp ha read, ?_⟩
      rwa [State.endDescriptor_ended (mover ▸ hn)]
  case due =>
    refine ⟨fun c hd hc => Mover.burstNow_due fun _ => Mover.burstNow_inbound hd hc, fun c hd hc => ?_,
      fun f hd hf => Mover.burstNow_due fun _ => Mover.burstNow_fetch hd hf⟩
    rw [Mover.burstNow_due fun _ => Mover.burstNow_outbound hd hc, Mover.startsOutbound, Mover.holdsUnitEnd_iff]
    rfl
  case handed =>
    have hands := State.moverHandsFetch_some hd hf hw
    exact ⟨fun done => hands.trans (congrArg some (if_pos done)), fun more => hands.trans (congrArg some (if_neg more))⟩

end Sys2Proof.Machine
end

