-- ==== Sys2Proof/Proofs/Resets.lean ====
section
/-! Power-on, loss of supply, RESET_N and soft reset: the state that each leaves (R18, R19, R34, R42, R137, R148, R165,
R179). -/

namespace Sys2Proof.Machine

open Sys2Proof

/-- Every block but the protection unit at its values after reset, with the array `a`; the store, the lines, host memory
and the waiting commands as they were. -/
def State.afterReset (s : State) (a : Sparse Page) : State :=
  { State.reset with
    supply := s.supply, resetHeld := s.resetHeld, warnLine := s.warnLine, inhibitLine := s.inhibitLine, array := a,
    table := s.table.cleared, protect := s.protect, modes := .reset s.warnLine, mem := s.mem, pending := s.pending }

namespace State

variable {s : State}

/-! ## What every reset does -/

/-- What an abandoned operation leaves stands in the array alone (R18). -/
theorem abandonLane_eq (before : State) (cut : Cut) (s : State) (l : Lane) :
    ∃ a, before.abandonLane cut s l = { s with array := a } := by
  unfold abandonLane
  split
  · exact ⟨_, rfl⟩
  · split
    · exact ⟨_, rfl⟩
    · exact ⟨s.array, rfl⟩
  · exact ⟨_, by rw [setBlock]⟩
  all_goals exact ⟨s.array, rfl⟩

theorem abandonLanes_eq (s : State) (cut : Cut) :
    s.abandonLanes cut = { s with array := (s.abandonLanes cut).array, lanes := State.reset.lanes } := by
  have fold (ls : List Lane) (t : State) : ∃ a, ls.foldl (s.abandonLane cut) t = { t with array := a } := by
    induction ls generalizing t with
    | nil => exact ⟨t.array, rfl⟩
    | cons l rest ih =>
        obtain ⟨a, ha⟩ := abandonLane_eq s cut t l
        obtain ⟨b, hb⟩ := ih (s.abandonLane cut t l)
        exact ⟨b, by rw [List.foldl_cons, hb, ha]⟩
  obtain ⟨a, ha⟩ := fold Lane.all s
  unfold abandonLanes
  rw [ha]
  rfl

theorem resetBlocks_eq (s : State) (cut : Cut) : s.resetBlocks cut = s.afterReset (s.abandonLanes cut).array := by
  unfold resetBlocks
  rw [abandonLanes_eq]
  rfl

theorem afterReset_blocksReset (s : State) (a : Sparse Page) : State.blocksReset s (s.afterReset a) :=
  ⟨fun l => by cases l <;> rfl, rfl, rfl, rfl, rfl, rfl, rfl, rfl, rfl, rfl, rfl⟩

/-- The blocks' values after reset depend on the stored table alone. -/
theorem blocksReset_of_cleared {u t : State} (h : u.table.cleared = s.table.cleared) (ht : State.blocksReset u t) :
    State.blocksReset s t := by
  rwa [State.blocksReset, ← h]

/-- The cold path begins with the warning line sampled (R165). -/
theorem coldStart_eq (s : State) : s.coldStart = { s with
    modes := .reset s.warnLine, window := if s.warnLine then s.window.set .powerWarn else s.window } := by
  unfold coldStart
  dsimp only
  split <;> rfl

/-! ## Each reset -/

theorem softReset_eq (s : State) (cut : Cut) : s.softReset cut =
    { (s.cutWrites cut).afterReset ((s.cutWrites cut).abandonLanes cut).array with
      window := if s.warnLine then Window.reset.set .powerWarn else Window.reset } := by
  rw [softReset, resetBlocks_eq, coldStart_eq]
  rfl

theorem assertReset_eq (s : State) (cut : Cut) : s.assertReset cut =
    { (s.cutWrites cut).afterReset ((s.cutWrites cut).abandonLanes cut).array with
      resetHeld := true, protect := s.protect.rebuilt s.inhibitLine } := by
  rw [assertReset, resetBlocks_eq]
  rfl

theorem withdrawReset_eq (s : State) : s.withdrawReset = { s with
    resetHeld := false, protect := s.protect.rebuilt s.inhibitLine, modes := .reset s.warnLine,
    window := if s.warnLine then s.window.set .powerWarn else s.window } := coldStart_eq _

theorem loseSupply_eq (s : State) (cut : Cut) : s.loseSupply cut =
    { (s.cutWrites cut).afterReset ((s.cutWrites cut).abandonLanes cut).array with
      supply := false, protect := s.protect.cutFuse cut.fuseSet } := by
  rw [loseSupply, resetBlocks_eq]
  rfl

/-- Supply that becomes stable: held at the values after reset while RESET_N is asserted, else with the warning line
sampled (R179). -/
theorem gainSupply_eq (s : State) (lockEn warn inhibit : Bool) (cut : Cut) : s.gainSupply lockEn warn inhibit cut =
    { s.afterReset (s.abandonLanes cut).array with
      supply := true, warnLine := warn, inhibitLine := inhibit, modes := .reset warn,
      protect := { s.protect with lockEnable := lockEn }.rebuilt inhibit,
      window := if warn && !s.resetHeld then Window.reset.set .powerWarn else Window.reset } := by
  rw [gainSupply, resetBlocks_eq, coldStart_eq]
  cases s.resetHeld <;> cases warn <;> rfl

/-- Power-on begins on a part without supply, which keeps RESET_N's level, the store and the waiting commands (log
10). -/
theorem powerOn_gains (s : State) (lockEn warn inhibit : Bool) (cut : Cut) : ∃ u : State,
    s.powerOn lockEn warn inhibit cut = u.gainSupply lockEn warn inhibit cut ∧ u.resetHeld = s.resetHeld ∧
      u.pending = s.pending ∧ u.table.cleared = s.table.cleared := by
  unfold powerOn
  split
  · exact ⟨_, rfl, by rw [loseSupply_eq]; exact ⟨rfl, rfl, rfl⟩⟩
  · exact ⟨s, rfl, rfl, rfl, rfl⟩

end State

theorem Protection.cutFuse_none {p : Protection} (h : p.fuseWrite = none) (wasSet : Bool) : p.cutFuse wasSet = p := by
  simp [Protection.cutFuse, h]

/-- A running fuse write is cut with its bit set or clear (R148). -/
theorem Protection.cutFuse_running {p : Protection} {g : Nat} (h : p.fuseWrite = some g) (wasSet : Bool) :
    p.cutFuse wasSet =
      { p with fuses := if wasSet then p.fuses ||| (1#64 <<< g) else p.fuses, fuseWrite := none } := by
  simp [Protection.cutFuse, h]

theorem Protection.cutFuse_fuseWrite (p : Protection) (wasSet : Bool) : (p.cutFuse wasSet).fuseWrite = none := by
  cases h : p.fuseWrite with
  | none => rw [p.cutFuse_none h, h]
  | some g => rw [p.cutFuse_running h]

/-! ## The commands on a powered part -/

variable {s : State}

theorem exec_resetNWithdrawn_powered (hsupply : s.supply = true) (hheld : s.resetHeld = true) :
    exec .resetNWithdrawn s = .next s.withdrawReset :=
  congrArg Host.Outcome.next ((if_pos hheld).trans (if_pos hsupply))

theorem exec_lossOfSupply_powered (hsupply : s.supply = true) (cut : Cut) :
    exec (.lossOfSupply cut) s = .next (s.loseSupply cut) :=
  congrArg Host.Outcome.next (if_pos hsupply)

/-! ## The statement -/

/-- Settles O6: each command by the state that its reset leaves. -/
theorem supplyAndResetN : Obligations.SupplyAndResetN := by
  refine ⟨fun s lockEn warn inhibit cut hheld => ?powered, fun s lockEn warn inhibit cut hheld => ?poweredHeld,
    fun s cut hs => ?lost, fun s cut hs hheld => ?asserted, fun s hs hheld => ?withdrawn⟩
  case powered =>
    obtain ⟨u, power, held, pending, cleared⟩ := s.powerOn_gains lockEn warn inhibit cut
    refine ⟨_, congrArg Host.Outcome.next power, ?_⟩
    have blocks := State.blocksReset_of_cleared cleared (u.afterReset_blocksReset (u.abandonLanes cut).array)
    rw [State.gainSupply_eq, held, hheld, Bool.not_false, Bool.and_true]
    exact ⟨rfl, held.trans hheld, blocks, rfl, rfl, rfl, rfl, rfl, rfl, rfl, rfl,
      fun b => congrArg (·.storedRecord b) cleared, congrArg (·.marker) cleared, pending⟩
  case poweredHeld =>
    obtain ⟨u, power, held, pending, cleared⟩ := s.powerOn_gains lockEn warn inhibit cut
    refine ⟨_, congrArg Host.Outcome.next power, ?_⟩
    have blocks := State.blocksReset_of_cleared cleared (u.afterReset_blocksReset (u.abandonLanes cut).array)
    rw [State.gainSupply_eq, held, hheld, Bool.not_true, Bool.and_false]
    have live : State.live { u with supply := true } = false := by simp [State.live, held, hheld]
    exact ⟨rfl, held.trans hheld, live, blocks, rfl, rfl, rfl, rfl, rfl, rfl, rfl, rfl, rfl,
      fun b => congrArg (·.storedRecord b) cleared, congrArg (·.marker) cleared, pending⟩
  case lost =>
    refine ⟨_, exec_lossOfSupply_powered hs cut, ?_⟩
    have blocks := (s.cutWrites cut).afterReset_blocksReset ((s.cutWrites cut).abandonLanes cut).array
    rw [State.loseSupply_eq]
    refine ⟨rfl, blocks, rfl, rfl, s.protect.cutFuse_fuseWrite _, fun h => ?_,
      fun g h => ?_, rfl, rfl⟩
    · exact congrArg (·.fuses) (Protection.cutFuse_none h _)
    · exact congrArg (·.fuses) (Protection.cutFuse_running h _)
  case asserted =>
    refine ⟨_, exec_resetNAsserted_live (by simp [State.live, hs, hheld]) cut, ?_⟩
    have blocks := (s.cutWrites cut).afterReset_blocksReset ((s.cutWrites cut).abandonLanes cut).array
    rw [State.assertReset_eq]
    exact ⟨rfl, blocks, rfl, rfl, rfl, rfl⟩
  case withdrawn =>
    refine ⟨_, exec_resetNWithdrawn_powered hs hheld, ?_⟩
    rw [State.withdrawReset_eq]
    have live : State.live { s with resetHeld := false } = true := by simp [State.live, hs]
    have flag : (if s.warnLine then s.window.set .powerWarn else s.window).flag .powerWarn =
        (s.warnLine || s.window.flag .powerWarn) := by
      cases s.warnLine
      · rfl
      · exact Window.flag_set_same ..
    exact ⟨rfl, live, rfl, rfl, rfl, flag, rfl, rfl, rfl, rfl, rfl⟩

end Sys2Proof.Machine
end

