-- ==== Sys2Proof/Proofs/WorkCut.lean ====
section
/-! What a reset or a loss of supply cuts: the lane operations in the array (R18) and the write in progress at the port
(R87, R149, R160, R180); and the soft reset (R179). -/

namespace Sys2Proof.Machine

open Sys2Proof

variable {s : State} {cut : Cut} {l : Lane} {j : Nat}

/-! ## The pages of cut operations (R18) -/

/-- The operation of lane `l` that the cut abandons leaves this page indeterminate. -/
inductive State.CutsPage (s : State) (cut : Cut) (l : Lane) : Nat → Nat → Prop where
  | program {id : PageId} {data : List Byte} (running : (s.lane l).activity = .program id data) :
      CutsPage s cut l id.band id.row
  | move {source : PageId} {band row : Nat} (running : (s.lane l).activity = .move source band row)
      (begun : s.moveProgramming cut l source = true) : CutsPage s cut l band row
  | erase {band row : Nat} (running : (s.lane l).activity = .erase band) (inBlock : row < 64) :
      CutsPage s cut l band row

/-- The page of key `j` is one that the operation of lane `l` leaves indeterminate. -/
def State.CutsKey (s : State) (cut : Cut) (l : Lane) (j : Nat) : Prop :=
  ∃ band row, s.CutsPage cut l band row ∧ j = pageKey l band row

namespace State

theorem abandonLane_read_cut {t : State} (ht : Sparse.wf .erased t.array = true) (h : s.CutsKey cut l j) :
    Sparse.read .erased (s.abandonLane cut t l).array j = .indeterminate := by
  obtain ⟨band, row, h, rfl⟩ := h
  unfold abandonLane
  cases h with
  | @program id _ running =>
      rw [running]
      exact t.page_setPage_same l id.band id.row .indeterminate ht
  | move running begun =>
      rw [running]
      dsimp only
      rw [if_pos begun]
      exact t.page_setPage_same l band row .indeterminate ht
  | erase running inBlock =>
      rw [running]
      exact t.page_setBlock_same l band row .indeterminate ht inBlock

theorem abandonLane_read_other (t : State) (h : ¬s.CutsKey cut l j) :
    Sparse.read .erased (s.abandonLane cut t l).array j = Sparse.read .erased t.array j := by
  unfold abandonLane
  split
  case h_1 id data running =>
    exact Sparse.read_write_other Page.erased _ _ _ _ fun key => h ⟨_, _, .program running, key⟩
  case h_2 source band row running =>
    split
    · next begun =>
        exact Sparse.read_write_other Page.erased _ _ _ _ fun key => h ⟨_, _, .move running begun, key⟩
    · rfl
  case h_3 band running =>
    rw [setBlock_array]
    exact read_fillBlock_other _ _ _ _ _ _ fun row inBlock key => h ⟨_, _, .erase running inBlock, key⟩
  all_goals rfl

theorem abandonFold_read_other (ls : List Lane) (t : State) (h : ∀ l ∈ ls, ¬s.CutsKey cut l j) :
    Sparse.read .erased (ls.foldl (s.abandonLane cut) t).array j = Sparse.read .erased t.array j := by
  induction ls generalizing t with
  | nil => rfl
  | cons k rest ih =>
      exact (ih _ fun l hl => h l (.tail k hl)).trans (abandonLane_read_other t (h k (.head rest)))

/-- The last lane of the fold whose operation reaches the page leaves it indeterminate. -/
theorem abandonFold_read_cut {ls : List Lane} {t : State} (ht : Sparse.wf .erased t.array = true) (hl : l ∈ ls)
    (h : s.CutsKey cut l j) :
    Sparse.read .erased (ls.foldl (s.abandonLane cut) t).array j = .indeterminate := by
  induction ls generalizing t l with
  | nil => cases hl
  | cons k rest ih =>
      by_cases later : ∃ m ∈ rest, s.CutsKey cut m j
      · obtain ⟨m, hm, hcut⟩ := later
        exact ih ((t.abandonLane_keepsForm s cut k).array ht) hm hcut
      · have none : ∀ m ∈ rest, ¬s.CutsKey cut m j := fun m hm hcut => later ⟨m, hm, hcut⟩
        obtain rfl : l = k := (List.mem_cons.1 hl).resolve_right fun hr => none l hr h
        exact (abandonFold_read_other rest _ none).trans (abandonLane_read_cut ht h)

theorem abandonLanes_read_cut (hs : Sparse.wf .erased s.array = true) (h : s.CutsKey cut l j) :
    Sparse.read .erased (s.abandonLanes cut).array j = .indeterminate := abandonFold_read_cut hs (mem_all_lanes l) h

theorem abandonLanes_read_other (h : ∀ l, ¬s.CutsKey cut l j) :
    Sparse.read .erased (s.abandonLanes cut).array j = Sparse.read .erased s.array j :=
  abandonFold_read_other Lane.all s fun l _ => h l

/-- Idle lanes have nothing to abandon. -/
theorem abandonLanes_array_idle (h : ∀ l, (s.lane l).activity = .idle) : (s.abandonLanes cut).array = s.array := by
  have idle (t : State) (l : Lane) : s.abandonLane cut t l = t := by rw [abandonLane, h l]
  simp [abandonLanes, Lane.all, idle]

/-- A move had begun its program when the read of its source had ended, with a page GOOD or WEAK (R14, R18; log 14). -/
theorem moveProgramming_iff (s : State) (cut : Cut) (l : Lane) (source : PageId) :
    s.moveProgramming cut l source = true ↔ ∃ m, cut.moves.find? (fun m => decide (m.1 = l)) = some m ∧
      (classify (s.modes.config.elim 8 (·.weakThreshold)) (s.page l source.band source.row) m.2 l source).cls ∈
        [PageClass.good, .weak] := by
  unfold moveProgramming
  cases hm : cut.moves.find? (fun m => decide (m.1 = l)) with
  | none => simp
  | some m =>
      refine (PageClass.movable_iff _).trans ⟨fun h => ⟨m, rfl, h⟩, ?_⟩
      rintro ⟨_, ⟨⟩, h⟩
      exact h

end State

/-- The four commands that cut leave in the array what the abandoned lanes leave, and in host memory what the cut write
leaves. -/
theorem exec_cuts {c : Instr} (hs : s.live = true)
    (hc : c ∈ [Instr.softReset cut, .resetNAsserted cut, .lossOfSupply cut] ∨
      ∃ lockEn warn inhibit, c = .powerOn lockEn warn inhibit cut) :
    ∃ t : State, exec c s = .next t ∧ t.array = ((s.cutWrites cut).abandonLanes cut).array ∧
      t.mem = (s.cutWrites cut).mem := by
  obtain ⟨supply, -⟩ : s.supply = true ∧ s.resetHeld = false := by simpa [State.live] using hs
  simp only [List.mem_cons, List.not_mem_nil, or_false] at hc
  obtain (rfl | rfl | rfl) | ⟨lockEn, warn, inhibit, rfl⟩ := hc
  · refine ⟨_, congrArg Host.Outcome.next (State.whenLive_live hs fun s => s.softReset cut), ?_⟩
    rw [State.softReset_eq]
    exact ⟨rfl, rfl⟩
  · refine ⟨_, exec_resetNAsserted_live hs cut, ?_⟩
    rw [State.assertReset_eq]
    exact ⟨rfl, rfl⟩
  · refine ⟨_, exec_lossOfSupply_powered supply cut, ?_⟩
    rw [State.loseSupply_eq]
    exact ⟨rfl, rfl⟩
  · refine ⟨(s.loseSupply cut).gainSupply lockEn warn inhibit cut,
      congrArg (fun u : State => Host.Outcome.next (u.gainSupply lockEn warn inhibit cut)) (if_pos supply), ?_⟩
    have idle (l : Lane) : ((s.loseSupply cut).lane l).activity = .idle := by
      rw [State.loseSupply_eq]
      cases l <;> rfl
    rw [State.gainSupply_eq, State.abandonLanes_array_idle idle, State.loseSupply_eq]
    exact ⟨rfl, rfl⟩

/-! ## The write in progress (R87, R149, R160, R180) -/

/-- Word 2 of a result is written first, then word 1; after both none is left. -/
theorem nextResultWrite_cases (r : SheetRun) (v : OrderResult) (done : Nat) : nextResultWrite r v done =
    if done = 0 then [(entryWordAddress r.address r.index 7, v.word2)]
    else if done = 1 then [(entryWordAddress r.address r.index 6, v.word1)] else [] := by
  by_cases h : done < 2
  · obtain rfl | rfl : done = 0 ∨ done = 1 := by omega
    · exact nextResultWrite_eq r v h
    · exact nextResultWrite_eq r v h
  · rw [if_neg (by omega), if_neg (by omega), nextResultWrite, List.drop_eq_nil_of_le (by simp [resultWrites]; omega)]
    rfl

namespace State

theorem writesInProgress_idle (hp : s.port = none) : s.writesInProgress = [] := by
  rw [writesInProgress, hp]

theorem writesInProgress_burst {a : Nat} {ws : List Word} (hp : s.port = some .mover)
    (ha : s.mover.access = some (.writeBurst a ws)) : s.writesInProgress = consecutive a ws := by
  simp only [writesInProgress, hp, ha]

theorem writesInProgress_noBurst (hp : s.port = some .mover) (ha : ∀ a ws, s.mover.access ≠ some (.writeBurst a ws)) :
    s.writesInProgress = [] := by
  rw [writesInProgress, hp]
  dsimp only
  split
  · next a ws h => exact absurd h (ha a ws)
  · rfl

theorem writesInProgress_report (hp : s.port = some .report) :
    s.writesInProgress = s.patrol.write.elim [] (s.patrol.burst s.burstLength) := by
  rw [writesInProgress, hp]

/-- While the port serves a configuration read nothing is written. -/
theorem writesInProgress_config (hp : s.port = some .sheet) (hl : s.sheetLine.head? ≠ some .sheets) :
    s.writesInProgress = [] := by
  simp [writesInProgress, serves, hp, hl]

section Sheet
variable {r : SheetRun} (hp : s.port = some .sheet) (hl : s.sheetLine.head? = some .sheets)
  (hr : s.sheets.inHand = some r)
include hp hl hr

theorem writesInProgress_result {v : OrderResult} {done : Nat} (ha : s.sheets.access = some (.result v done)) :
    s.writesInProgress = nextResultWrite r v done := by
  simp [writesInProgress, serves, hp, hl, hr, ha]

theorem writesInProgress_completion {w : Word} (ha : s.sheets.access = some (.completion w)) :
    s.writesInProgress = [(headerWordAddress r.address 1, w)] := by
  simp [writesInProgress, serves, hp, hl, hr, ha]

theorem writesInProgress_reads {got : List Word} (ha : s.sheets.access = none ∨
    s.sheets.access = some (.header got) ∨ s.sheets.access = some (.entry got)) : s.writesInProgress = [] := by
  rcases ha with h | h | h <;> simp [writesInProgress, serves, hp, hl, hr, h]

end Sheet

end State

/-! ## The statement -/

/-- Settles O7: the soft reset by the state it leaves, the pages by the keys that the cut operations reach, host memory
by the write in progress. -/
theorem resetsCutLanesAndWrites : Obligations.ResetsCutLanesAndWrites := by
  refine ⟨fun s cut hs => ?soft, fun s cut c hs hwf hc => ?cut, fun s => ⟨State.writesInProgress_idle,
    fun hp => ⟨fun a ws => State.writesInProgress_burst hp, State.writesInProgress_noBurst hp⟩,
    fun hp => ⟨fun w hw => ?report, fun hw => ?noReport⟩, State.writesInProgress_config,
    fun r hp hl hr => ⟨fun v done ha => ?result,
      fun w => State.writesInProgress_completion hp hl (Sheets.inHand_eq hr),
      fun got => State.writesInProgress_reads hp hl (Sheets.inHand_eq hr)⟩⟩⟩
  case soft =>
    refine ⟨_, congrArg Host.Outcome.next (State.whenLive_live hs fun s => s.softReset cut), ?_⟩
    have blocks := (s.cutWrites cut).afterReset_blocksReset ((s.cutWrites cut).abandonLanes cut).array
    rw [State.softReset_eq]
    exact ⟨blocks, rfl, rfl, rfl, rfl, rfl, rfl, rfl, rfl, rfl⟩
  case cut =>
    intro sourceGood
    obtain ⟨t, taken, array, mem⟩ := exec_cuts hs hc
    have begun (l : Lane) (source : PageId) : s.moveProgramming cut l source = true ↔ sourceGood l source :=
      s.moveProgramming_iff cut l source
    have indeterminate {l b r} (h : (s.cutWrites cut).CutsPage cut l b r) : t.page l b r = .indeterminate := by
      rw [State.page, array]
      exact State.abandonLanes_read_cut hwf ⟨b, r, h, rfl⟩
    have kept {l b r} (h : ∀ k, ¬(s.cutWrites cut).CutsKey cut k (pageKey l b r)) : t.page l b r = s.page l b r := by
      rw [State.page, array]
      exact State.abandonLanes_read_other h
    refine ⟨t, taken, fun l id data running => indeterminate (.program running),
      fun l source band row running good => indeterminate (.move running ((begun l source).2 good)),
      fun l band row running inBlock => indeterminate (.erase running inBlock),
      fun noProgram noMove noErase l b r => kept fun k => ?nothing, ?other, mem, fun hm x outside => ?memory⟩
    case nothing =>
      rintro ⟨_, _, hcut, -⟩
      cases hcut with
      | program running => exact noProgram k _ _ running
      | move running hbegun => exact noMove k _ _ _ running ((begun k _).1 hbegun)
      | erase running => exact noErase k _ running
    case other =>
      intro cutAt inGeometry l b r hb hr other
      have reached {k c q} (h : (s.cutWrites cut).CutsPage cut k c q) : cutAt k c q := by
        cases h with
        | program running => exact .inl ⟨_, _, running, rfl, rfl⟩
        | move running hbegun => exact .inr (.inl ⟨_, running, (begun k _).1 hbegun⟩)
        | erase running => exact .inr (.inr running)
      have bounded {k c q} (h : (s.cutWrites cut).CutsPage cut k c q) : c < 1024 ∧ q < 64 := by
        obtain ⟨band, row⟩ := inGeometry k c q (reached h)
        cases h with
        | program running => exact ⟨band, row.resolve_right fun erasing => nomatch running.symm.trans erasing⟩
        | move running => exact ⟨band, row.resolve_right fun erasing => nomatch running.symm.trans erasing⟩
        | erase _ inBlock => exact ⟨band, inBlock⟩
      refine kept fun k ⟨c, q, hcut, key⟩ => other ?_
      obtain ⟨rfl, rfl, rfl⟩ := pageKey_inj hb (bounded hcut).1 hr (bounded hcut).2 key
      exact reached hcut
    case memory =>
      rw [mem]
      exact Memory.readByte_writeWords_other _ s.mem x outside
  case report => rw [State.writesInProgress_report hp, hw, Option.elim_some]
  case noReport => rw [State.writesInProgress_report hp, hw, Option.elim_none]
  case result => rw [State.writesInProgress_result hp hl (Sheets.inHand_eq hr) ha, nextResultWrite_cases]

end Sys2Proof.Machine
end

