-- ==== Sys2Proof/Proofs/PowerWarning.lean ====
section
/-! The power warning by mode (R84, R176 to R178): the entry of DRAIN, a leave of PARKED cancelled, the level alone. -/

namespace Sys2Proof.Machine

open Sys2Proof

variable {s : State}

/-! ## The entry of DRAIN (R84, R177) -/

/-- With no completion write raised the active sheet takes the ending, unless it is ABORTED already (R84). -/
theorem Sheets.closeAll_open {h : Sheets} (e : Ending) (hw : ∀ w, h.access ≠ some (.completion w)) :
    (h.closeAll e).active =
      h.active.map (fun r => if r.ending = .aborted then r else { r with ending := e }) := by
  unfold Sheets.closeAll
  dsimp only
  split
  · next w h => exact absurd h (hw w)
  · simp only [Bool.false_or, decide_eq_true_eq]

/-- The drain that begins: no part of it is done but the end of the patrol run, where none is in progress. -/
def State.drainBegun (s : State) : Drain :=
  { closed := false, patrolEnded := s.patrol.run.isNone, lanesQuiet := false, commitDone := false, lanesOff := false }

theorem State.enterDrain_eq (s : State) : s.enterDrain = { s with
    modes := { s.modes with
      mode := .drain, wake := false, drain := some s.drainBegun, commitAwaited := false, powerGiven := false,
      patrolStage := .none, patrolWake := false },
    patrol := { s.patrol with timer := none, run := s.patrol.run.map (fun r => { r with endRequested := true }) },
    signals := s.signals ++ [.forgetCommit .mode],
    sheets := { s.sheets.closeAll .interrupted with stop := .drain, questionHeld := false },
    writer := if s.sheets.questionHeld = true ∧ s.writer.order ≠ none then
        { s.writer with stopped := some .interrupted } else s.writer,
    reader := if s.sheets.questionHeld = true ∧ s.writer.order = none then
        { s.reader with stopped := some .interrupted } else s.reader } :=
  State.answerHeld_eq _ _

/-! ## The two edges of PWR_WARN_N (R176) -/

/-- The level and POWER_WARN, as an assertion sets them in every mode. -/
def State.warned (s : State) : State :=
  { s with modes := { s.modes with warning := true }, window := s.window.set .powerWarn }

theorem State.warnAsserted_drains (hm : s.modes.mode ∈ [Mode.run, .holding, .held, .standby, .patrol]) :
    s.warnAsserted = s.warned.enterDrain := by
  simp only [List.mem_cons, List.not_mem_nil, or_false] at hm
  rcases hm with h | h | h | h | h <;> simp only [State.warnAsserted, State.setEvent, State.warned, h]

theorem State.warnAsserted_level (hm : s.modes.mode ∈ [Mode.cold, .faulted, .awaitConfig, .drain]) :
    s.warnAsserted = s.warned := by
  simp only [List.mem_cons, List.not_mem_nil, or_false] at hm
  rcases hm with h | h | h | h <;> simp only [State.warnAsserted, State.setEvent, State.warned, h]

/-- A leave of PARKED is cancelled (R178). -/
theorem State.warnAsserted_parked (hm : s.modes.mode = .parked) : s.warnAsserted =
    if s.modes.leaving then
      State.giveAll { s.warned with modes := { s.warned.modes with leaving := false } } .powerDown Lane.all
    else s.warned := by
  simp only [State.warnAsserted, State.setEvent, State.warned, State.powerDownAll, hm]

/-! ## The statement -/

/-- Settles O8: the assertion by the mode, with DRAIN as it is entered, and the withdrawal. -/
theorem powerWarningByMode : Obligations.PowerWarningByMode := by
  refine ⟨fun s hs => ⟨fun hm => ?drains, fun hm => ?level, fun hm => ?parked⟩, fun s hs => State.takes_eq hs rfl⟩
  all_goals have live : State.live { s with warnLine := true } = true := hs
  case drains =>
    have entered := (State.warnAsserted_drains (s := { s with warnLine := true }) hm).trans (State.enterDrain_eq _)
    refine ⟨_, State.takes_eq live entered, rfl, rfl, rfl, rfl, rfl, rfl, rfl,
      Sheets.closeAll_open .interrupted, fun w => Sheets.closeAll_completing _, rfl, rfl, rfl,
      fun hq ho => ⟨if_pos ⟨hq, ho⟩, if_neg fun h => ho h.2⟩, fun hq ho => ⟨if_pos ⟨hq, ho⟩, if_neg fun h => h.2 ho⟩,
      fun hq => ⟨if_neg ?_, if_neg ?_⟩, rfl, rfl, fun l => ⟨rfl, rfl, rfl, rfl⟩, fun _ _ _ => rfl, fun _ => rfl, rfl⟩
    all_goals exact fun h => absurd (hq.symm.trans h.1) Bool.false_ne_true
  case level => exact State.takes_eq live (State.warnAsserted_level (s := { s with warnLine := true }) hm)
  case parked =>
    refine ⟨_, State.takes_eq live (State.warnAsserted_parked (s := { s with warnLine := true }) hm), ?_⟩
    dsimp only
    have set : s.warned.window.flag .powerWarn = true := Window.flag_set_same ..
    split
    · next leaving =>
        exact ⟨rfl, set, hm, rfl, fun _ => State.giveAll_all_lane _ _, fun h => (nomatch leaving.symm.trans h)⟩
    · next staying =>
        exact ⟨rfl, set, hm, Bool.eq_false_iff.2 staying, fun h => absurd h staying, fun _ => rfl⟩

end Sys2Proof.Machine
end

