-- ==== Sys2Proof/Proofs/RecoveryScan.lean ====
section
/-! The recovery scan (R167 to R169): the band it takes next, the re-erase, the judgement of rows and its end. -/

namespace Sys2Proof.Machine

open Sys2Proof

/-! ## The next band (R167, R168) -/

/-- In canonical form the keys rise strictly. -/
theorem Sparse.pairwise_keys {α : Type} [DecidableEq α] (d : α) {m : Sparse α} {lo : Nat}
    (h : Sparse.wfFrom d lo m = true) : m.Pairwise (fun e f => e.1 < f.1) := by
  induction m generalizing lo with
  | nil => exact .nil
  | cons e rest ih =>
      obtain ⟨a, w⟩ := e
      simp only [Sparse.wfFrom, Bool.and_eq_true] at h
      exact .cons (fun f hf => Sparse.le_of_mem d h.2 (k := f.1) (v := f.2) hf) (ih h.2)

/-- Band `b` is one that the scan takes in state `st`, from band `lo` on. -/
def State.scanTakes (s : State) (st : BandState) (lo b : Nat) : Prop :=
  lo ≤ b ∧ (s.band b).state = st ∧ s.protect.frozen b = false

namespace State

variable {s : State}

section NextBand
variable {st : BandState} {lo b : Nat} (used : st ≠ .unused) (hw : Sparse.wf .factory s.table.working = true)

include used in
/-- A band taken has its entry in the working table, an unlisted band being UNUSED. -/
theorem entry_of_scanTakes (h : s.scanTakes st lo b) : (b, s.band b) ∈ s.table.working := by
  refine Sparse.mem_of_read_ne BandRecord.factory fun factory => used ?_
  rw [← h.2.1, State.band, Table.record, factory]
  rfl

include hw in
theorem scanTakes_entry_iff {e : Nat × BandRecord} (he : e ∈ s.table.working) : s.scanTakes st lo e.1 ↔
    (decide (lo ≤ e.1) && decide (e.2.state = st) && !s.protect.frozen e.1) = true := by
  have record : s.band e.1 = e.2 := Sparse.read_of_mem BandRecord.factory hw he
  simp [scanTakes, record, and_assoc]

include used hw

/-- The band found is taken, and no band below it is: those entries stand before it, in rising order. -/
theorem nextBand_some (h : s.nextBand st lo = some b) : s.scanTakes st lo b ∧ ∀ c, c < b → ¬s.scanTakes st lo c := by
  obtain ⟨e, found, rfl⟩ := Option.map_eq_some_iff.1 h
  obtain ⟨taken, before, after, split, passed⟩ := List.find?_eq_some_iff_append.1 found
  have he : e ∈ s.table.working := by simp [split]
  refine ⟨(scanTakes_entry_iff hw he).2 taken, fun c below hc => ?_⟩
  have entry := entry_of_scanTakes used hc
  have rising := Sparse.pairwise_keys BandRecord.factory hw
  rw [split, List.pairwise_append, List.pairwise_cons] at rising
  obtain ⟨-, ⟨above, -⟩, -⟩ := rising
  have place := entry
  rw [split, List.mem_append, List.mem_cons] at place
  rcases place with early | rfl | late
  · have skipped := passed _ early
    rw [(scanTakes_entry_iff hw entry).1 hc] at skipped
    cases skipped
  · exact absurd below (lt_irrefl _)
  · exact absurd below (above _ late).not_gt

theorem nextBand_none (h : s.nextBand st lo = none) (c : Nat) : ¬s.scanTakes st lo c := fun hc => by
  have entry := entry_of_scanTakes used hc
  have passed := List.find?_eq_none.1 (Option.map_eq_none_iff.1 h) _ entry
  exact passed ((scanTakes_entry_iff hw entry).1 hc)

theorem nextBand_eq_some (hb : s.scanTakes st lo b) (least : ∀ c, c < b → ¬s.scanTakes st lo c) :
    s.nextBand st lo = some b := by
  cases h : s.nextBand st lo with
  | none => exact absurd hb (nextBand_none used hw h b)
  | some c =>
      obtain ⟨hc, first⟩ := nextBand_some used hw h
      rcases Nat.lt_trichotomy c b with below | rfl | above
      · exact absurd hc (least c below)
      · rfl
      · exact absurd hb (first b above)

theorem nextBand_eq_none (h : ∀ c, ¬s.scanTakes st lo c) : s.nextBand st lo = none := by
  cases found : s.nextBand st lo with
  | none => rfl
  | some b => exact absurd (nextBand_some used hw found).1 (h b)

end NextBand

/-! ## The scan goes on (R167, R168) -/

theorem scanErasing_some {lo b : Nat} (h : s.nextBand .erasing lo = some b) : s.scanErasing lo = { s with
    modes := { s.modes with
      scan := some { openPhase := false, band := b, row := 0, stage := .permit, changed := false } },
    signals := s.signals ++ [.askPermit .scan] } := by
  rw [scanErasing, h]
  rfl

theorem scanErasing_none {lo : Nat} (h : s.nextBand .erasing lo = none) : s.scanErasing lo = s.scanOpen 0 := by
  rw [scanErasing, h]

theorem scanOpen_some {lo b : Nat} (h : s.nextBand .opened lo = some b) : s.scanOpen lo = s.scanRow b := by
  rw [scanOpen, h]

theorem scanOpen_none {lo : Nat} (h : s.nextBand .opened lo = none) : s.scanOpen lo = s.scanEnd := by
  rw [scanOpen, h]

theorem scanRow_scan (s : State) (b : Nat) : (s.scanRow b).modes.scan = some
    { openPhase := true, band := b, row := (s.band b).nextRow,
      stage := .reading ((s.band b).present (s.band b).nextRow) [], changed := s.scanChanged } := rfl

/-- The table load with marker 0 begins the scan on the loaded table (R166). -/
theorem exec_tableLoad_scans (hs : s.live = true) (hc : s.modes.cold = .tableLoad) (hd : s.table.checkDelta = 0)
    (hm : s.table.marker = false) : exec (.tableLoad true) s = .next (State.settle (State.scanErasing
      { s with table := s.table.load, modes := { s.modes with cold := .scan } } 0)) :=
  State.takes_eq hs ((loadTable_agrees hc hd).trans (if_neg (by simp [hm])))

/-! ## The re-erase and the reads (R167, R168) -/

section Running
variable {c : Scan} (hc : s.modes.scan = some c)
include hc

theorem scanChanged_eq : s.scanChanged = c.changed := by rw [scanChanged, hc, Option.elim_some]

theorem scanPermit_granted (hp : c.stage = .permit) : s.scanPermit true =
    (s.setScan { c with stage := .erasing Lane.all false }).giveAll (.blockErase c.band) Lane.all := by
  simp only [scanPermit, hc, hp, if_true]

theorem scanPermit_refused (hp : c.stage = .permit) : s.scanPermit false = s.scanErasing (c.band + 1) := by
  simp [scanPermit, hc, hp]

theorem scanReport_erasing {awaited : List Lane} {failSeen : Bool} (he : c.stage = .erasing awaited failSeen) (l : Lane)
    (op : LastOp) (outcome : Option PageOutcome) : s.scanReport l op outcome =
      if dropLane awaited l = [] then (s.setScan { c with stage := .notice }).emit
        (.update .scan (.eraseEnd c.band (!(failSeen || decide (op.outcome = .fail)))) true)
      else s.setScan { c with stage := .erasing (dropLane awaited l) (failSeen || decide (op.outcome = .fail)) } := by
  simp [scanReport, hc, he]

theorem scanReport_reading {awaited : List Lane} {classes : List PageClass} (hr : c.stage = .reading awaited classes)
    (l : Lane) (op : LastOp) (o : PageOutcome) : s.scanReport l op (some o) =
      if dropLane awaited l = [] then s.scanJudge c (classes ++ [o.cls])
      else s.setScan { c with stage := .reading (dropLane awaited l) (classes ++ [o.cls]) } := by
  simp [scanReport, hc, hr]

theorem scanNotice_erased (hn : c.stage = .notice) : s.scanNotice = s.scanErasing (c.band + 1) := by
  simp only [scanNotice, hc, hn]

theorem scanNotice_committed (hn : c.stage = .commitEnd) : s.scanNotice = s.scanDone := by
  simp only [scanNotice, hc, hn]

theorem scanOn_discarded (hd : c.stage = .discarding) (clear : s.lanesClear = true) : s.scanOn = some
    (if (s.band c.band).state = .opened ∧ (s.band c.band).nextRow ≠ c.row then s.scanRow c.band
      else s.scanOpen (c.band + 1)) := by
  simp [scanOn, hc, hd, clear]

theorem scanAnswer_applied {u : Update} (hu : ∃ b n, u = .rowFound b n ∨ u = .rowTorn b n) :
    s.scanAnswer u true = s.setScan { c with changed := true } := by
  obtain ⟨b, n, rfl | rfl⟩ := hu <;> simp [scanAnswer, hc]

end Running

/-- Only an applied ROW FOUND or ROW TORN is remembered (R169). -/
theorem scanAnswer_other {u : Update} {applied : Bool}
    (h : ¬(applied = true ∧ ∃ b n, u = .rowFound b n ∨ u = .rowTorn b n)) : s.scanAnswer u applied = s := by
  unfold scanAnswer
  split
  · next b n _ => exact if_neg fun ha => h ⟨ha, b, n, .inl rfl⟩
  · next b n _ => exact if_neg fun ha => h ⟨ha, b, n, .inr rfl⟩
  · rfl

end State

/-! ## The judgement of a row (R168) -/

section Judgement
variable {ks : List PageClass}

theorem judgeClasses_complete (h : ∀ k ∈ ks, k = .good ∨ k = .weak) : judgeClasses ks = some true :=
  if_pos (by simpa using h)

theorem judgeClasses_erased (hne : ks ≠ []) (h : ∀ k ∈ ks, k = .erased) : judgeClasses ks = none := by
  obtain ⟨k, hk⟩ := List.exists_mem_of_ne_nil ks hne
  have incomplete : ¬∀ k ∈ ks, k = .good ∨ k = .weak := fun all => by
    have either := all k hk
    simp [h k hk] at either
  exact (if_neg (by simpa using incomplete)).trans (if_pos (by simpa using h))

theorem judgeClasses_torn (hbad : ∃ k ∈ ks, k ≠ .good ∧ k ≠ .weak) (hwritten : ∃ k ∈ ks, k ≠ .erased) :
    judgeClasses ks = some false :=
  (if_neg (by simpa using hbad)).trans (if_neg (by simpa using hwritten))

/-- The update that the judgement of row `row` gives. -/
def judgeUpdate (band row : Nat) : Option Bool → List Signal
  | some true => [.update .scan (.rowFound band row) false]
  | some false => [.update .scan (.rowTorn band row) false]
  | none => []

theorem State.scanJudge_eq (s : State) (c : Scan) (ks : List PageClass) : s.scanJudge c ks = State.giveAll
    { s with
      modes := { s.modes with scan := some { c with stage := .discarding } },
      signals := s.signals ++ judgeUpdate c.band c.row (judgeClasses ks) }
    .cacheDiscard ((s.band c.band).present c.row) := by
  unfold State.scanJudge
  cases judgeClasses ks with
  | none => simp only [judgeUpdate, List.append_nil]; rfl
  | some complete => cases complete <;> rfl

end Judgement

/-! ## The end of the scan (R169) -/

/-- The scan is over: AWAIT_CONFIG, with RECOVERED set (R169). -/
theorem State.scanDone_spec (s : State) : s.scanDone.modes.mode = .awaitConfig ∧ s.scanDone.modes.scan = none ∧
    s.scanDone.window.flag .recovered = true := ⟨rfl, rfl, Window.flag_set_same ..⟩

theorem State.scanEnd_unchanged {s : State} (h : s.scanChanged = false) : s.scanEnd = s.scanDone :=
  if_neg (by simp [h])

theorem State.scanEnd_fault {s : State} (h : s.scanChanged = true) (hf : s.table.storeFault = true) :
    s.scanEnd = (s.emit (.commitRequest .scan false false)).scanDone := (if_pos h).trans (if_pos hf)

theorem State.scanEnd_commits {s : State} (h : s.scanChanged = true) (hf : s.table.storeFault = false) : s.scanEnd =
    (s.setScan { openPhase := true, band := 0, row := 0, stage := .commitEnd, changed := true }).emit
      (.commitRequest .scan false true) := (if_pos h).trans (if_neg (by simp [hf]))

/-! ## The statement -/

/-- Settles O11: the next band as the lowest taken, the load by the band it finds, each stage of the scan by its own
event, and the end by whether a record changed. -/
theorem recoveryScanByRule : Obligations.RecoveryScanByRule := by
  refine ⟨fun s st lo used hw => ⟨fun b => State.nextBand_some used hw, State.nextBand_none used hw⟩,
    fun s lo => ⟨fun b => State.scanErasing_some, State.scanErasing_none, fun b => State.scanOpen_some,
      State.scanOpen_none, fun b => ⟨rfl, rfl, State.lane_giveAll _ _ _⟩⟩,
    fun s hs hcold hd hm hscan hw => ?load,
    fun s c hc => ⟨fun hp => ?permit, fun awaited failSeen l op outcome he => ?erasing,
      fun awaited classes l op o hr => ?reading, fun u applied => ?answer, State.scanChanged_eq hc,
      State.scanNotice_erased hc, fun hd clear => ?discarding⟩,
    fun s => ⟨fun h => ?unchanged, fun h hf => ?fault, fun h hf => ?commits⟩⟩
  case load =>
    intro takes
    have loads := State.exec_tableLoad_scans hs hcold hd hm
    generalize hu : ({ s with table := s.table.load, modes := { s.modes with cold := .scan } } : State) = u at loads
    have hwu : Sparse.wf .factory u.table.working = true := hu ▸ hw
    have takes_iff (st : BandState) (b : Nat) : u.scanTakes st 0 b ↔ takes st b := by
      subst hu
      exact and_iff_right (Nat.zero_le b)
    have unchanged : u.scanChanged = false := by
      subst hu
      rw [State.scanChanged, hscan, Option.elim_none]
    have working : (u.scanErasing 0).table.working = s.table.stored := by
      rw [State.scanErasing_table, ← hu]
      rfl
    have first {st b} (used : st ≠ .unused) (hb : takes st b) (least : ∀ c, c < b → ¬takes st c) :
        u.nextBand st 0 = some b :=
      State.nextBand_eq_some used hwu ((takes_iff st b).2 hb) fun c below => mt (takes_iff st c).1 (least c below)
    have missing {st} (used : st ≠ .unused) (none : ∀ c, ¬takes st c) : u.nextBand st 0 = Option.none :=
      State.nextBand_eq_none used hwu fun c => mt (takes_iff st c).1 (none c)
    refine ⟨fun b hb least => ⟨_, loads, ?_⟩, fun b none hb least => ⟨_, loads, ?_⟩, fun none => ⟨_, loads, ?_⟩⟩
    · have scan := State.scanErasing_some (first (by decide) hb least)
      refine ⟨?_, ?_, ?_, ?_, working⟩ <;> rw [scan, ← hu]
    · have scan := (State.scanErasing_none (missing (by decide) none)).trans
        (State.scanOpen_some (first (by decide) hb least))
      refine ⟨?_, ?_, fun l => ?_, ?_, working⟩ <;> rw [scan]
      · rw [← hu]; rfl
      · rw [State.scanRow_scan, unchanged, ← hu]; rfl
      · rw [← hu]; exact State.lane_giveAll _ _ _ l
      · rw [← hu]; rfl
    · have scan := (State.scanErasing_none (missing (by decide) fun c => (none c).1)).trans
        ((State.scanOpen_none (missing (by decide) fun c => (none c).2)).trans (State.scanEnd_unchanged unchanged))
      obtain ⟨mode, ended, recovered⟩ := u.scanDone_spec
      rw [← scan] at mode ended recovered
      exact ⟨mode, ended, recovered, working⟩
  case permit =>
    rw [State.scanPermit_granted hc hp]
    exact ⟨rfl, State.giveAll_all_lane _ _, State.scanPermit_refused hc hp⟩
  case erasing =>
    rw [State.scanReport_erasing hc he]
    refine ⟨fun more => ?_, fun last => ?_⟩
    · rw [if_neg more]
      rfl
    · rw [if_pos last]
      exact ⟨rfl, rfl⟩
  case reading =>
    intro left ks
    have nonempty : ks ≠ [] := by simp [ks]
    dsimp only
    rw [State.scanReport_reading hc hr]
    refine ⟨fun more => ?_, fun last => ?_⟩
    · rw [if_neg more]
      exact ⟨rfl, rfl⟩
    · rw [if_pos last, State.scanJudge_eq]
      refine ⟨rfl, State.lane_giveAll _ _ _, fun all => ?_, fun all => ?_, fun bad written => ?_⟩
      · exact congrArg (s.signals ++ judgeUpdate c.band c.row ·) (judgeClasses_complete all)
      · refine (congrArg (s.signals ++ judgeUpdate c.band c.row ·) (judgeClasses_erased nonempty all)).trans ?_
        exact List.append_nil _
      · exact congrArg (s.signals ++ judgeUpdate c.band c.row ·) (judgeClasses_torn bad written)
  case answer =>
    refine ⟨fun ⟨ha, hu⟩ => ?_, State.scanAnswer_other⟩
    rw [ha]
    exact State.scanAnswer_applied hc hu
  case discarding =>
    rw [State.scanOn_discarded hc hd clear]
    refine ⟨fun opened moved => ?_, fun h => ?_⟩
    · rw [if_pos ⟨opened, moved⟩]
    · rw [if_neg fun ⟨opened, moved⟩ => h.elim (· opened) moved]
  case unchanged =>
    rw [State.scanEnd_unchanged h]
    exact ⟨s.scanDone_spec, rfl⟩
  case fault =>
    rw [State.scanEnd_fault h hf]
    exact ⟨State.scanDone_spec _, rfl⟩
  case commits =>
    rw [State.scanEnd_commits h hf]
    refine ⟨rfl, rfl, fun t ht => ?_⟩
    rw [State.scanNotice_committed ht rfl]
    exact t.scanDone_spec

end Sys2Proof.Machine
end

