-- ==== Sys2Proof/Proofs/Configuration.lean ====
section
/-! APPLY (R170 to R172): its first checks, the four configuration reads, the checks of the block, and what taking
effect changes. -/

namespace Sys2Proof.Machine

open Sys2Proof

/-! ## The checks of a configuration block (R171 steps 5 to 7) -/

/-- The ranges of the fields, with the report area below the top of the address space unless it is empty. -/
theorem Applied.inRange_iff (c : Applied) : c.inRange = true ↔
    1 ≤ c.weakThreshold ∧ c.weakThreshold ≤ 8 ∧ 1 ≤ c.patrolBudget ∧ c.patrolBudget ≤ 4096 ∧ c.reportCapacity ≤ 1024 ∧
      (c.reportCapacity = 0 ∨ c.reportAddress.toNat + 8 + 16 * c.reportCapacity ≤ 4294967296) := by
  simp only [Applied.inRange, Bool.and_eq_true, Bool.or_eq_true, decide_eq_true_eq, beq_iff_eq, and_assoc]
  rfl

section Checks
variable {ws : List Word} {c : Applied}

theorem configOf_unnamed {w0 w1 w2 w3 : Word}
    (h : burstOfCode (bits w0 0 3) = none ∨ thresholdOfCode (bits w0 4 3) = none) :
    configOf [w0, w1, w2, w3] = none := by
  rcases h with h | h
  · simp [configOf, h]
  · cases hb : burstOfCode (bits w0 0 3) <;> simp [configOf, hb, h]

theorem configOf_named {w0 : Word} {b t : Nat} (hb : burstOfCode (bits w0 0 3) = some b)
    (ht : thresholdOfCode (bits w0 4 3) = some t) (w1 w2 w3 : Word) : configOf [w0, w1, w2, w3] = some
      { burstLength := b, threshold := t, weakThreshold := bits w0 8 4, patrolInterval := bits w1 0 16,
        patrolBudget := bits w1 16 16, reportAddress := w2, reportCapacity := bits w3 0 16 } := by
  simp [configOf, hb, ht]

theorem checkConfig_unnamed (h : configOf ws = none) : checkConfig ws = .inr .range := by rw [checkConfig, h]

/-- A block whose codes name something: its ranges, the burst length against the threshold, the report area. -/
theorem checkConfig_named (h : configOf ws = some c) : checkConfig ws =
    if ¬c.inRange = true then .inr .range
    else if ¬(c.burstLength ≤ c.threshold ∧ c.threshold % c.burstLength = 0) then .inr .burstThreshold
    else if ¬(c.reportCapacity = 0 ∨ (c.reportAddress ≠ 0#32 ∧ c.reportAddress.toNat % 16 = 0)) then .inr .align
    else .inl c := by
  have range : (!c.inRange) = true ↔ ¬c.inRange = true := by simp
  have pair : (!(decide (c.burstLength ≤ c.threshold) && c.threshold % c.burstLength == 0)) = true ↔
      ¬(c.burstLength ≤ c.threshold ∧ c.threshold % c.burstLength = 0) := by simp [-not_and, not_and_or]
  have area : (c.reportCapacity != 0 && (c.reportAddress == 0#32 || c.reportAddress.toNat % 16 != 0)) = true ↔
      ¬(c.reportCapacity = 0 ∨ (c.reportAddress ≠ 0#32 ∧ c.reportAddress.toNat % 16 = 0)) := by
    simp [or_iff_not_imp_left]
  rw [checkConfig, h]
  simp only [range, pair, area]

end Checks

namespace State

variable {s : State}

/-! ## APPLY (R170, R171 steps 1 to 3) -/

theorem mayApply_iff (s : State) : s.mayApply = true ↔ s.modes.mode = .awaitConfig ∨ (s.modes.mode = .run ∧
    s.sheets.stop = .none ∧ s.sheets.active = none ∧ s.sheets.queue = [] ∧ s.sheets.closing = []) := by
  unfold mayApply
  cases s.modes.mode <;> simp [and_assoc]

/-- What the window shows after APPLY is refused: CONFIG_REFUSED, the reason and its source. -/
theorem refuse_apply (s : State) (r : Reason) : (s.refuse true r).window.refusal = r ∧
    (s.refuse true r).window.refusalApply = true ∧ (s.refuse true r).window.flag .configRefused = true ∧
      (s.refuse true r).modes.config = s.modes.config := ⟨rfl, rfl, Window.flag_set_same .., rfl⟩

theorem apply_state (h : ¬s.mayApply = true ∨ s.modes.configRead ≠ none) : s.apply = s.refuse true .state :=
  if_pos (by simpa [Option.isSome_iff_ne_none] using h)

section Allowed
variable (may : s.mayApply = true) (free : s.modes.configRead = none)
include may free

theorem apply_align (skew : s.window.configAddress = 0#32 ∨ s.window.configAddress.toNat % 16 ≠ 0) :
    s.apply = s.refuse true .align :=
  (if_neg (by simp [may, free])).trans (if_pos skew)

theorem apply_raises (aligned : ¬(s.window.configAddress = 0#32 ∨ s.window.configAddress.toNat % 16 ≠ 0)) :
    s.apply = { s with modes := { s.modes with
      configRead := some { address := s.window.configAddress, got := [], startMode := s.modes.mode } } } :=
  (if_neg (by simp [may, free])).trans (if_neg aligned)

end Allowed

/-! ## The four reads (R171 step 4) -/

theorem configEnds_served (hp : s.port = some .sheet) (hl : s.sheetLine.head? = some .config) (reply : BusReply) :
    s.configEnds reply = s.endBeat.endConfigRead reply := if_pos (by simp [serves, hp, hl])

section Reads
variable {rd : ConfigRead} {reply : BusReply} (hr : s.modes.configRead = some rd) (hst : reply.stores = [])
include hr hst

theorem endConfigRead_error (he : reply.error = some 0) : s.endConfigRead reply =
    let failed := s.busError (rd.address.toNat + 4 * rd.got.length) false
    State.refuse { failed with modes := { failed.modes with configRead := none } } true .bus := by
  simp [endConfigRead, hr, beatRead_error hst he]

theorem endConfigRead_more (he : reply.error = none) (hn : rd.got.length < 3) : s.endConfigRead reply =
    { s with modes := { s.modes with configRead := some { rd with
      got := rd.got ++ [Memory.readWord s.mem (rd.address.toNat + 4 * rd.got.length)] } } } := by
  simp [endConfigRead, hr, beatRead_word hst he, hn]

theorem endConfigRead_last (he : reply.error = none) (hn : rd.got.length = 3) : s.endConfigRead reply =
    s.takeConfig rd.startMode (rd.got ++ [Memory.readWord s.mem (rd.address.toNat + 4 * rd.got.length)]) := by
  simp [endConfigRead, hr, beatRead_word hst he, hn]

end Reads

/-! ## The block taken (R171 step 8, R172) -/

/-- The read of the block is over. -/
def configReadOver (s : State) : State := { s with modes := { s.modes with configRead := none } }

theorem takeConfig_bad {m : Mode} {ws : List Word} {r : Reason} (h : checkConfig ws = .inr r) :
    s.takeConfig m ws = s.configReadOver.refuse true r := by
  unfold takeConfig
  rw [h]
  rfl

section Good
variable {m : Mode} {ws : List Word} {c : Applied} (h : checkConfig ws = .inl c)
include h

theorem takeConfig_late (late : s.modes.mode ≠ m ∨ s.sheets.active ≠ none ∨ s.sheets.queue ≠ []) :
    s.takeConfig m ws = s.configReadOver.refuse true .state := by
  unfold takeConfig
  rw [h]
  exact if_neg fun ⟨hm, ha, hq⟩ => late.elim (· hm) (·.elim (· ha) (· hq))

theorem takeConfig_effective (hm : s.modes.mode = m) (ha : s.sheets.active = none) (hq : s.sheets.queue = []) :
    s.takeConfig m ws = s.configReadOver.configure c := by
  unfold takeConfig
  rw [h]
  exact if_pos ⟨hm, ha, hq⟩

end Good

/-- A configuration as it takes effect in every mode: the patrol unit takes the report area over, and CONFIG_DONE is
set. -/
def configured (s : State) (c : Applied) : State := { s with
  modes := { s.modes with config := some c }, patrol := s.patrol.applied (newArea s.modes.config c) c,
  window := s.window.set .configDone }

theorem configure_stays (c : Applied) (h : s.modes.mode ≠ .awaitConfig) : s.configure c = s.configured c := if_neg h

section AwaitConfig
variable (c : Applied) (h : s.modes.mode = .awaitConfig)
include h

theorem configure_runs (hw : s.modes.warning = false) : s.configure c = (s.configured c).setMode .run :=
  (if_pos h).trans (if_neg (by simp [hw]))

theorem configure_drains (hw : s.modes.warning = true) :
    s.configure c = ((s.configured c).setEvent .powerWarn).enterDrain := (if_pos h).trans (if_pos hw)

end AwaitConfig

end State

theorem Patrol.applied_run (p : Patrol) (fresh : Bool) (c : Applied) : (p.applied fresh c).run = p.run := by
  cases fresh <;> rfl

/-! ## The statement -/

/-- Settles O52: APPLY by its first checks, the reads by the words they give, the block by its checks in their order. -/
theorem applyChecksConfiguration : Obligations.ApplyChecksConfiguration := by
  refine ⟨fun s hs => ?apply, fun s rd reply hs hp hl hr hst => ?reads, fun w0 w1 w2 w3 => ?checks⟩
  case apply =>
    intro allowed skew
    refine ⟨fun may free aligned => ?_, fun r refused => ?_⟩
    · exact State.takes_eq hs (State.apply_raises (s.mayApply_iff.2 may) free aligned)
    · have refuses : s.apply = s.refuse true r := by
        rcases refused with ⟨busy, rfl⟩ | ⟨may, free, hskew, rfl⟩
        · exact State.apply_state (busy.imp_left (mt s.mayApply_iff.1))
        · exact State.apply_align (s.mayApply_iff.2 may) free hskew
      obtain ⟨refusal, source, flag, config⟩ := s.refuse_apply r
      exact ⟨_, State.takes_eq hs refuses, State.settle_flag _ _ flag, refusal, source, config⟩
  case reads =>
    intro at_ ws refused
    have ends {t : State} (h : s.endBeat.endConfigRead reply = t) : exec (.configReadEnd reply) s = .next t.settle :=
      State.takes_eq (f := fun s => s.configEnds reply) hs ((State.configEnds_served hp hl reply).trans h)
    have refuses {t : State} {r : Reason} (same : t.modes.config = s.modes.config) : refused (t.refuse true r) r :=
      let ⟨refusal, source, flag, config⟩ := t.refuse_apply r
      ⟨refusal, source, flag, config.trans same⟩
    refine ⟨fun he => ?error, fun he hn => ends (State.endConfigRead_more (s := s.endBeat) hr hst he hn),
      fun he hn => ?_⟩
    case error =>
      refine ⟨_, ends (State.endConfigRead_error (s := s.endBeat) hr hst he), refuses rfl, rfl, ?_, ?_⟩
      · exact Window.flag_set_keeps _ _ (s.endBeat.busError_flag at_ false)
      · exact s.endBeat.busError_errorAddress at_ false
    have last := State.endConfigRead_last (s := s.endBeat) hr hst he hn
    refine ⟨fun reason bad => ?bad, fun c good late => ?late, fun c good hm ha hq => ?effective⟩
    case bad => exact ⟨_, ends (last.trans (State.takeConfig_bad bad)), refuses rfl, rfl⟩
    case late => exact ⟨_, ends (last.trans (State.takeConfig_late good late)), refuses rfl, rfl⟩
    case effective =>
      have taken := ends (last.trans (State.takeConfig_effective good hm ha hq))
      by_cases await : s.modes.mode = .awaitConfig
      · have running : s.modes.mode ≠ .run := by simp [await]
        cases hw : s.modes.warning with
        | false =>
            rw [State.configure_runs (s := s.endBeat.configReadOver) c await hw] at taken
            exact ⟨_, taken, rfl, rfl, Window.flag_set_same .., rfl, ⟨fun _ => ⟨rfl, rfl⟩, fun h => (nomatch h.2)⟩,
              fun _ _ => rfl, fun _ h => (nomatch h), fun h => absurd h running⟩
        | true =>
            rw [State.configure_drains (s := s.endBeat.configReadOver) c await hw, State.enterDrain_eq] at taken
            refine ⟨_, taken, rfl, rfl, Window.flag_set_keeps _ _ (Window.flag_set_same ..), rfl,
              ⟨fun h => absurd ⟨await, rfl⟩ h, fun _ => ⟨?_, rfl, rfl⟩⟩, fun _ h => (nomatch h), fun _ _ => rfl,
              fun h => absurd h running⟩
            exact congrArg (fun run : Option PatrolRun => ({ s.patrol.applied (newArea s.modes.config c) c with
              timer := none, run := run.map (fun r => { r with endRequested := true }) } : Patrol))
              (s.patrol.applied_run (newArea s.modes.config c) c)
      · rw [State.configure_stays (s := s.endBeat.configReadOver) c await] at taken
        exact ⟨_, taken, rfl, rfl, Window.flag_set_same .., rfl, ⟨fun _ => ⟨rfl, rfl⟩, fun h => absurd h.1 await⟩,
          fun h => absurd h await, fun h => absurd h await, id⟩
  case checks =>
    intro weak budget cap
    refine ⟨fun h => checkConfig_unnamed (configOf_unnamed h), fun b t hb ht => ?_⟩
    have checked := checkConfig_named (configOf_named hb ht w1 w2 w3)
    intro inRange pair area
    refine ⟨fun hr => checked.trans (if_pos (mt (Applied.inRange_iff _).1 hr)), fun hr hp => ?_, fun hr hp ha => ?_,
      fun hr hp ha => ?_⟩
    all_goals refine checked.trans ((if_neg (not_not.2 ((Applied.inRange_iff _).2 hr))).trans ?_)
    · exact if_pos hp
    · exact (if_neg (not_not.2 hp)).trans (if_pos ha)
    · exact (if_neg (not_not.2 hp)).trans (if_neg (not_not.2 ha))

end Sys2Proof.Machine
end

