-- ==== Sys2Proof/Proofs/PatrolRuns.lean ====
section
/-! The patrol timer, and the begin and the end of a patrol run with its visits (R175, R177, R181 to R185, R187). -/

namespace Sys2Proof.Machine

open Sys2Proof

variable {s : State}

/-! ## The patrol timer (R181) -/

/-- The timer has expired: it stands, and PATROL is entered from STANDBY with no wake pending (R175). -/
def State.timerExpired (s : State) : State :=
  if s.modes.mode = .standby ∧ s.modes.wake = false then
    { s.stopTimer with modes := { s.modes with
        mode := .patrol, patrolStage := .waking, powerGiven := false, patrolWake := false } }
  else s.stopTimer

section Timer
variable {n : Nat} {c : Applied} (ht : s.patrol.timer = some n) (hc : s.modes.config = some c)
include ht hc

theorem State.second_counts (short : n + 1 < c.patrolInterval) :
    s.second = { s with patrol := { s.patrol with timer := some (n + 1) } } := by
  simp [State.second, State.patrolInterval, ht, hc, short]

theorem State.second_expires (reached : c.patrolInterval ≤ n + 1) : s.second = s.timerExpired := by
  simp [State.second, State.patrolInterval, State.timerExpired, ht, hc, reached.not_gt]

theorem State.timerExpiry_short (short : n + 1 < c.patrolInterval) : s.timerExpiry = s := by
  simp [State.timerExpiry, State.patrolInterval, ht, hc, short]

theorem State.timerExpiry_expires (reached : c.patrolInterval ≤ n + 1) : s.timerExpiry = s.timerExpired := by
  rw [← State.second_expires ht hc reached]
  simp [State.timerExpiry, State.patrolInterval, ht, hc, reached.not_gt]

end Timer

theorem State.second_stopped (ht : s.patrol.timer = none) : s.second = s := by simp only [State.second, ht]

/-- With no command waiting, a second passes on a live part. -/
theorem step_idle (hp : s.pending = []) (hs : s.live = true) {t : State} (h : s.second = t) :
    step s = .next t.settle := by
  simp only [step, hp, State.whenLive_live hs, h]

theorem step_idle_dead (hp : s.pending = []) (hs : s.live = false) : step s = .next s := by
  simp [step, hp, State.whenLive, hs]

/-! ## The begin of a run (R175, R182) -/

/-- The lanes are being woken for the patrol, no commit awaited. -/
def ModeCtl.wakesLanes (m : ModeCtl) : Prop :=
  m.mode = .patrol ∧ m.patrolStage = .waking ∧ m.commitAwaited = false

section Waking
variable (hw : s.modes.wakesLanes)
include hw

theorem State.patrolOn_powers (hp : s.modes.powerGiven = false) :
    s.patrolOn = some { s with modes := { s.modes with powerGiven := true } }.powerUpAll :=
  (if_pos hw).trans (if_pos hp)

/-- Once the lanes stand idle the run begins, or RUN is entered if a post or WAKE came first. -/
theorem State.patrolOn_idle (hp : s.modes.powerGiven = true) (hq : s.lanesQuiet = true) : s.patrolOn =
    if s.modes.patrolWake then some { s with
      modes := { s.modes with mode := .run, patrolStage := .none, powerGiven := false, patrolWake := false } }
    else some { s with
      modes := { s.modes with patrolStage := .running, powerGiven := false },
      patrol := { s.patrol with
        run := some (PatrolRun.start (s.modes.config.elim 0 (·.patrolBudget))), writeFailed := false } } :=
  (if_pos hw).trans ((if_neg (by simp [hp])).trans (if_pos hq))

theorem State.patrolOn_busy (hp : s.modes.powerGiven = true) (hq : ¬s.lanesQuiet = true) : s.patrolOn = none :=
  (if_pos hw).trans ((if_neg (by simp [hp])).trans (if_neg hq))

end Waking

theorem State.patrolOn_awake (h : ¬s.modes.wakesLanes) : s.patrolOn = none := if_neg h

/-! ## The end of a visit (R183, R185) -/

section Visit
variable {v : Visit} (hv : s.patrol.visit = some v)
include hv

theorem State.endVisit_due
    (h : v.checked = true ∧ s.patrol.findings = [] ∧ s.patrol.write = none ∧ s.patrol.due = []) :
    s.endVisit = some (State.releaseCoder { s with patrol := { s.patrol with
      visit := none, cursorBand := v.band, cursorRow := v.row + 1,
      run := s.patrol.run.map (fun r => r.visited s.patrol.writeFailed) } }) := by
  simp only [State.endVisit, hv, if_pos h]

theorem State.endVisit_waits
    (h : ¬(v.checked = true ∧ s.patrol.findings = [] ∧ s.patrol.write = none ∧ s.patrol.due = [])) :
    s.endVisit = none := by
  simp only [State.endVisit, hv, if_neg h]

end Visit

/-! ## The report of a run's end (R175, R177) -/

section Reported
variable {changed : Bool}

theorem State.patrolReported_wakes (hm : s.modes.mode = .patrol) (hw : s.modes.patrolWake = true) :
    s.patrolReported changed = { s with
      modes := { s.modes with mode := .run, patrolStage := .none, patrolWake := false } } := by
  simp [State.patrolReported, hm, hw]

theorem State.patrolReported_commits (hm : s.modes.mode = .patrol) (hw : s.modes.patrolWake = false)
    (hc : changed = true ∧ s.table.storeFault = false) : s.patrolReported changed =
      State.emit { s with modes := { s.modes with patrolStage := .committing, commitAwaited := true } }
        (.commitRequest .mode true true) := by
  simp [State.patrolReported, hm, hw, hc]

theorem State.patrolReported_done (hm : s.modes.mode = .patrol) (hw : s.modes.patrolWake = false)
    (hc : ¬(changed = true ∧ s.table.storeFault = false)) : s.patrolReported changed = s.patrolDone := by
  have uncommitted : (changed && !s.table.storeFault) = false := by simpa using hc
  simp [State.patrolReported, hm, hw, uncommitted]

theorem State.patrolReported_drains {d : Drain} (hm : s.modes.mode = .drain) (hd : s.modes.drain = some d) :
    s.patrolReported changed = { s with modes := { s.modes with drain := some { d with patrolEnded := true } } } := by
  simp [State.patrolReported, hm, hd]

end Reported

/-! ## The end of a run (R187) -/

/-- The run is over, with the clean commit requested if a record changed (R187). -/
def State.runOver (s : State) (run : PatrolRun) : State :=
  { s with
    patrol := { s.patrol with run := none },
    signals := s.signals ++ (if run.recordChanged then [.commitRequest .patrol true false] else []) }

section Run
variable {run : PatrolRun} (hr : s.patrol.run = some run)
include hr

theorem State.endRun_over (hf : run.finishing = true) (ha : run.answersAwaited = 0) :
    s.endRun = some ((s.runOver run).patrolReported run.recordChanged) := by
  cases hc : run.recordChanged <;> simp [State.endRun, State.runOver, State.emit, hr, hf, ha, hc]

theorem State.endRun_waits (h : run.finishing = false ∨ run.answersAwaited ≠ 0) : s.endRun = none := by
  have waits : ¬(run.finishing = true ∧ run.answersAwaited = 0) := fun ⟨hf, ha⟩ => by simp [hf, ha] at h
  simp only [State.endRun, hr, if_neg waits]

theorem State.patrolAnswer_eq (changed : Bool) : s.patrolAnswer changed = { s with patrol := { s.patrol with
    run := some { run with
      answersAwaited := run.answersAwaited - 1, recordChanged := run.recordChanged || changed } } } := by
  simp only [State.patrolAnswer, hr, Option.map_some]

end Run

/-! ## Back to STANDBY (R175) -/

theorem State.patrolDone_timer {c : Applied} (hc : s.modes.config = some c) : s.patrolDone.patrol =
    { s.patrol with timer := if c.patrolInterval = 0 then none else some 0 } := by
  simp [State.patrolDone, State.startTimer, State.powerDownAll, State.giveAll, hc]

/-- A patrol that waits for its commit ends with it. -/
theorem State.modeNotice_patrol (hm : s.modes.mode = .patrol) (hc : s.modes.patrolStage = .committing)
    (ha : s.modes.commitAwaited = true) (hd : s.modes.drain = none) :
    s.modeNotice = State.patrolDone { s with modes := { s.modes with commitAwaited := false } } := by
  simp [State.modeNotice, hm, hc, ha, hd]

/-! ## The statement -/

/-- Settles O2: the timer, the begin of the run, the end of a visit, and the end of the run by the mode. -/
theorem patrolTimerAndRuns : Obligations.PatrolTimerAndRuns := by
  refine ⟨fun s n c hs ht hc => ?timer, fun s hp => ⟨fun hs ht => step_idle hp hs (State.second_stopped ht),
      step_idle_dead hp⟩, fun s => ?begins, fun s v hv => ⟨fun h => ?visited, State.endVisit_waits hv⟩,
    fun s run hr => ⟨State.patrolAnswer_eq hr, State.endRun_waits hr, fun hf ha => ?ends⟩,
    fun s c hc => ⟨rfl, fun l => State.giveAll_all_lane _ .powerDown l, State.patrolDone_timer hc, rfl, rfl,
      State.modeNotice_patrol⟩⟩
  case timer =>
    exact ⟨fun short => ⟨State.takes_eq hs (State.timerExpiry_short ht hc short),
        fun hp => step_idle hp hs (State.second_counts ht hc short)⟩,
      fun reached => ⟨State.takes_eq hs (State.timerExpiry_expires ht hc reached),
        fun hp => step_idle hp hs (State.second_expires ht hc reached)⟩⟩
  case begins =>
    refine ⟨fun hw hp => ⟨_, State.patrolOn_powers hw hp, rfl, rfl, fun l => State.giveAll_all_lane _ .powerUp l⟩,
      fun hw hp idle => ?_, fun h => ?_⟩
    · have eq := State.patrolOn_idle hw hp (s.lanesQuiet_iff.2 idle)
      exact ⟨fun wakes => eq.trans (if_pos wakes), fun runs => eq.trans (if_neg (by simp [runs]))⟩
    · by_cases hw : s.modes.wakesLanes
      · obtain ⟨hp, busy⟩ := h.resolve_left (not_not.2 hw)
        exact State.patrolOn_busy hw hp (mt s.lanesQuiet_iff.1 busy)
      · exact State.patrolOn_awake hw
  case visited => exact State.endVisit_due hv h
  case ends =>
    have ended := State.endRun_over hr hf ha
    exact ⟨fun hm hw => ended.trans (congrArg some (State.patrolReported_wakes (s := s.runOver run) hm hw)),
      fun hm hw awaits => ended.trans (congrArg some (State.patrolReported_commits (s := s.runOver run) hm hw awaits)),
      fun hm hw kept => ended.trans (congrArg some (State.patrolReported_done (s := s.runOver run) hm hw kept)),
      fun d hm hd => ended.trans (congrArg some (State.patrolReported_drains (s := s.runOver run) hm hd))⟩

end Sys2Proof.Machine
end

