-- ==== Sys2Proof/Proofs/PatrolSearch.lean ====
section
/-! PATROL VISIT: the search for the next qualifying row, the visit it begins, and the end of the run (R182, R183). -/

namespace Sys2Proof.Machine

open Sys2Proof

variable {s : State}

/-! ## The first qualifying row of a band (R182) -/

theorem BandRecord.qualifies_iff {r : BandRecord} {n : Nat} : r.qualifies n = true ↔
    r.state ∈ [BandState.opened, .sealed, .failed] ∧ n < r.nextRow ∧ n ∉ r.voids := by
  have readable : r.state.readable = true ↔ r.state ∈ [BandState.opened, .sealed, .failed] := by
    cases r.state <;> decide
  simp [BandRecord.qualifies, BandRecord.isVoid, ← readable, and_assoc]

theorem BandRecord.firstRow_eq_find (r : BandRecord) (lo n : Nat) :
    r.firstRow lo n = (List.range' lo n).find? r.qualifies := by
  induction n generalizing lo with
  | zero => rfl
  | succ n ih =>
      rw [BandRecord.firstRow, ih, List.range'_succ, List.find?_cons]
      cases r.qualifies lo <;> rfl

theorem BandRecord.firstRow_some {r : BandRecord} {lo n k : Nat} (h : r.firstRow lo n = some k) :
    (r.qualifies k = true ∧ lo ≤ k ∧ k < lo + n) ∧ ∀ j, lo ≤ j → r.qualifies j = true → k ≤ j := by
  rw [BandRecord.firstRow_eq_find, List.find?_range'_eq_some, List.mem_range'_1] at h
  obtain ⟨qualifies, within, least⟩ := h
  refine ⟨⟨qualifies, within⟩, fun j above hj => not_lt.1 fun below => ?_⟩
  simpa [hj] using least j above below

theorem BandRecord.firstRow_none {r : BandRecord} {lo n j : Nat} (h : r.firstRow lo n = none) (above : lo ≤ j)
    (below : j < lo + n) : ¬r.qualifies j = true := by
  rw [BandRecord.firstRow_eq_find, List.find?_range'_eq_none] at h
  simpa using h j above below

/-! ## The order of the search (R182) -/

/-- The row `v.2` of band `v.1` qualifies for a visit. -/
def State.visits (s : State) (v : Nat × Nat) : Prop := v.1 < Config.bands ∧ (s.band v.1).qualifies v.2 = true

theorem State.visits_iff {v : Nat × Nat} : s.visits v ↔
    v.1 < 1024 ∧ (s.band v.1).state ∈ [BandState.opened, .sealed, .failed] ∧ v.2 < (s.band v.1).nextRow ∧
      v.2 ∉ (s.band v.1).voids :=
  and_congr_right fun _ => BandRecord.qualifies_iff

/-- How far along the search a row's band comes: the starting band first from the cursor row on, and last below it. -/
def Patrol.turn (p : Patrol) (v : Nat × Nat) : Nat :=
  if v.1 = p.cursorBand then (if p.cursorRow ≤ v.2 then 0 else 1024) else (v.1 + 1024 - p.cursorBand) % 1024

/-- The search comes to row `v` no later than to row `w`. -/
def Patrol.notAfter (p : Patrol) (v w : Nat × Nat) : Prop := p.turn v < p.turn w ∨ (p.turn v = p.turn w ∧ v.2 ≤ w.2)

/-- What was found is the first qualifying row of a segment of the search, or nothing where the segment has none. -/
def State.isFirst (s : State) (segment : Nat × Nat → Prop) : Option (Nat × Nat) → Prop
  | some v => (s.visits v ∧ segment v) ∧ ∀ w, s.visits w → segment w → s.patrol.notAfter v w
  | none => ∀ w, s.visits w → ¬segment w

/-- A segment searched where the one before it has no row. -/
theorem State.isFirst_or {p q : Nat × Nat → Prop} {x y : Option (Nat × Nat)} (hx : s.isFirst p x) (hy : s.isFirst q y)
    (order : ∀ v w, s.visits v → s.visits w → p v → q w → s.patrol.notAfter v w) :
    s.isFirst (fun v => p v ∨ q v) (x.or y) := by
  cases x with
  | some v =>
      obtain ⟨⟨visits, hv⟩, first⟩ := hx
      exact ⟨⟨visits, .inl hv⟩, fun w hw => Or.rec (first w hw) (order v w visits hw hv)⟩
  | none =>
      cases y with
      | some v =>
          obtain ⟨⟨visits, hv⟩, first⟩ := hy
          exact ⟨⟨visits, .inr hv⟩, fun w hw => Or.rec (fun h => absurd h (hx w hw)) (first w hw)⟩
      | none => exact fun w hw => not_or.2 ⟨hx w hw, hy w hw⟩

/-- A segment that leaves out no qualifying row is the whole search. -/
theorem State.isFirst_everywhere {p : Nat × Nat → Prop} {x : Option (Nat × Nat)} (hx : s.isFirst p x)
    (covers : ∀ v, s.visits v → p v) : s.isFirst (fun _ => True) x := by
  cases x with
  | some v =>
      obtain ⟨⟨visits, -⟩, first⟩ := hx
      exact ⟨⟨visits, trivial⟩, fun w hw _ => first w hw (covers w hw)⟩
  | none => exact fun w hw => absurd (covers w hw) (hx w hw)

/-! ## The segments of the search (R182) -/

/-- The search in the starting band, of `n` rows from row `lo` on. -/
def State.startRows (s : State) (lo n : Nat) : Option (Nat × Nat) :=
  ((s.band s.patrol.cursorBand).firstRow lo n).map (s.patrol.cursorBand, ·)

theorem State.nextVisit_eq (s : State) : s.nextVisit =
    ((s.startRows s.patrol.cursorRow ((s.band s.patrol.cursorBand).nextRow - s.patrol.cursorRow)).or
      (firstBandRow (s.patrol.cursorBand + 1) Config.bands s.table.working)).or
        ((firstBandRow 0 s.patrol.cursorBand s.table.working).or
          (s.startRows 0 (min s.patrol.cursorRow (s.band s.patrol.cursorBand).nextRow))) := by
  unfold State.nextVisit State.startRows
  dsimp only
  split
  · next h => rw [h]; rfl
  · next h =>
      rw [h, Option.map_none, Option.none_or]
      split
      · next found => rw [found]; rfl
      · next above =>
          rw [above, Option.none_or]
          split
          · next found => rw [found]; rfl
          · next below => rw [below, Option.none_or]

/-- Rows of the starting band that come at one turn are searched in ascending order. -/
theorem State.startRows_first {lo n t : Nat} (hc : s.patrol.cursorBand < 1024)
    (together : ∀ k, lo ≤ k → k < lo + n → s.patrol.turn (s.patrol.cursorBand, k) = t) :
    s.isFirst (fun v => v.1 = s.patrol.cursorBand ∧ lo ≤ v.2 ∧ v.2 < lo + n) (s.startRows lo n) := by
  unfold State.startRows
  cases h : (s.band s.patrol.cursorBand).firstRow lo n with
  | none =>
      rintro ⟨b, k⟩ ⟨-, qualifies⟩ ⟨rfl, above, below⟩
      exact BandRecord.firstRow_none h above below qualifies
  | some k =>
      obtain ⟨⟨qualifies, within⟩, least⟩ := BandRecord.firstRow_some h
      refine ⟨⟨⟨hc, qualifies⟩, rfl, within⟩, ?_⟩
      rintro ⟨b, j⟩ ⟨-, hj⟩ ⟨rfl, above, below⟩
      exact .inr ⟨(together k within.1 within.2).trans (together j above below).symm, least j above hj⟩

theorem firstBandRow_eq_findSome (b e : Nat) (m : Sparse BandRecord) : firstBandRow b e m =
    m.findSome? fun x => if b ≤ x.1 ∧ x.1 < e then (x.2.firstRow 0 x.2.nextRow).map (x.1, ·) else none := by
  induction m with
  | nil => rfl
  | cons x rest ih =>
      obtain ⟨k, r⟩ := x
      rw [firstBandRow, ih, List.findSome?_cons]
      dsimp only
      split
      · cases r.firstRow 0 r.nextRow <;> rfl
      · rfl

/-- A band with a qualifying row has its entry in the working table, an unlisted band being UNUSED. -/
theorem State.entry_of_visits {v : Nat × Nat} (h : s.visits v) : (v.1, s.band v.1) ∈ s.table.working := by
  refine Sparse.mem_of_read_ne BandRecord.factory fun factory => ?_
  have qualifies := h.2
  rw [State.band, Table.record, factory] at qualifies
  cases qualifies

/-- The listed bands stand in ascending order, and those of a segment come at turns that rise with them. -/
theorem State.firstBandRow_first (hw : Sparse.wf .factory s.table.working = true) {b e d : Nat} (he : e ≤ 1024)
    (hd : s.patrol.cursorBand ≤ b + d)
    (turns : ∀ v, b ≤ v.1 → v.1 < e → s.patrol.turn v = v.1 + d - s.patrol.cursorBand) :
    s.isFirst (fun v => b ≤ v.1 ∧ v.1 < e) (firstBandRow b e s.table.working) := by
  have searched {w : Nat × Nat} (hw : s.visits w) : (s.band w.1).firstRow 0 (s.band w.1).nextRow ≠ none := fun h =>
    BandRecord.firstRow_none h (Nat.zero_le _) (by simpa using (BandRecord.qualifies_iff.1 hw.2).2.1) hw.2
  rw [firstBandRow_eq_findSome]
  cases found : s.table.working.findSome? _ with
  | none =>
      intro w visits segment
      have passed := List.findSome?_eq_none_iff.1 found _ (State.entry_of_visits visits)
      rw [if_pos segment, Option.map_eq_none_iff] at passed
      exact searched visits passed
  | some v =>
      obtain ⟨before, x, after, split, here, passed⟩ := List.findSome?_eq_some_iff.1 found
      have record : s.band x.1 = x.2 := Sparse.read_of_mem BandRecord.factory hw (by simp [split])
      have segment : b ≤ x.1 ∧ x.1 < e := by
        by_contra outside
        rw [if_neg outside] at here
        cases here
      rw [if_pos segment, ← record] at here
      obtain ⟨k, first, rfl⟩ := Option.map_eq_some_iff.1 here
      obtain ⟨⟨qualifies, -⟩, least⟩ := BandRecord.firstRow_some first
      refine ⟨⟨⟨segment.2.trans_le he, qualifies⟩, segment⟩, fun w visits inside => ?_⟩
      have keys := Sparse.pairwise_keys BandRecord.factory hw
      rw [split, List.pairwise_append, List.pairwise_cons] at keys
      obtain ⟨-, ⟨above, -⟩, -⟩ := keys
      have place := State.entry_of_visits visits
      rw [split, List.mem_append, List.mem_cons] at place
      rcases place with early | same | late
      · have skipped := passed _ early
        rw [if_pos inside, Option.map_eq_none_iff] at skipped
        exact absurd skipped (searched visits)
      · obtain ⟨same, -⟩ := Prod.mk.inj (same : (w.1, s.band w.1) = (x.1, x.2))
        refine .inr ⟨?_, least w.2 (Nat.zero_le _) (same ▸ visits.2)⟩
        rw [turns _ segment.1 segment.2, turns w inside.1 inside.2, same]
      · have rises := above _ late
        refine .inl ?_
        rw [turns _ segment.1 segment.2, turns w inside.1 inside.2]
        dsimp only at rises ⊢
        omega

/-! ## The turns of the segments -/

section Turns
variable {p : Patrol}

theorem Patrol.turn_from {n : Nat} (h : p.cursorRow ≤ n) : p.turn (p.cursorBand, n) = 0 :=
  (if_pos rfl).trans (if_pos h)

theorem Patrol.turn_below {n : Nat} (h : n < p.cursorRow) : p.turn (p.cursorBand, n) = 1024 :=
  (if_pos rfl).trans (if_neg h.not_ge)

theorem Patrol.turn_after {v : Nat × Nat} (h : p.cursorBand < v.1) (hv : v.1 < 1024) :
    p.turn v = v.1 - p.cursorBand := by
  rw [Patrol.turn, if_neg h.ne']
  omega

theorem Patrol.turn_before {v : Nat × Nat} (h : v.1 < p.cursorBand) (hc : p.cursorBand < 1024) :
    p.turn v = v.1 + 1024 - p.cursorBand := by
  rw [Patrol.turn, if_neg h.ne]
  omega

end Turns

/-- The four segments, searched one after another, are the whole search (R182). -/
theorem State.nextVisit_first (hw : Sparse.wf .factory s.table.working = true) (hc : s.patrol.cursorBand < 1024) :
    s.isFirst (fun _ => True) s.nextVisit := by
  have onwards := State.startRows_first hc (lo := s.patrol.cursorRow)
    (n := (s.band s.patrol.cursorBand).nextRow - s.patrol.cursorRow) fun k above _ => Patrol.turn_from above
  have after := State.firstBandRow_first hw (b := s.patrol.cursorBand + 1) (d := 0) le_rfl (by omega)
    fun v above below => Patrol.turn_after above below
  have before := State.firstBandRow_first hw (b := 0) (d := 1024) hc.le (by omega)
    fun v _ below => Patrol.turn_before below hc
  have last := State.startRows_first hc (lo := 0)
    (n := min s.patrol.cursorRow (s.band s.patrol.cursorBand).nextRow) fun k _ below => Patrol.turn_below (by omega)
  have upper := State.isFirst_or onwards after ?upper
  have lower := State.isFirst_or before last ?lower
  have whole := State.isFirst_or upper lower ?whole
  · rw [s.nextVisit_eq]
    refine State.isFirst_everywhere whole fun v ⟨band, qualifies⟩ => ?_
    have row := (BandRecord.qualifies_iff.1 qualifies).2.1
    have listed : v.1 < 1024 := band
    rcases Nat.lt_trichotomy v.1 s.patrol.cursorBand with earlier | same | later
    · exact .inr (.inl ⟨Nat.zero_le _, earlier⟩)
    · rw [same] at row
      by_cases h : s.patrol.cursorRow ≤ v.2
      · exact .inl (.inl ⟨same, h, by omega⟩)
      · exact .inr (.inr ⟨same, Nat.zero_le _, by omega⟩)
    · exact .inl (.inr ⟨later, listed⟩)
  case upper =>
    rintro ⟨b, n⟩ w - - ⟨rfl, above, -⟩ ⟨later, listed⟩
    refine .inl ?_
    rw [Patrol.turn_from above, Patrol.turn_after later listed]
    omega
  case lower =>
    rintro v ⟨b, n⟩ - - ⟨-, earlier⟩ ⟨rfl, -, below⟩
    refine .inl ?_
    rw [Patrol.turn_before earlier hc, Patrol.turn_below (by omega)]
    omega
  case whole =>
    refine fun v w _ _ hv hw => .inl (lt_of_lt_of_le (b := 1024 - s.patrol.cursorBand) ?_ ?_)
    · obtain ⟨b, n⟩ := v
      rcases hv with ⟨rfl, above, -⟩ | ⟨later, listed⟩
      · rw [Patrol.turn_from above]
        omega
      · rw [Patrol.turn_after later listed]
        dsimp only at listed ⊢
        omega
    · obtain ⟨b, n⟩ := w
      rcases hw with ⟨-, earlier⟩ | ⟨rfl, -, below⟩
      · rw [Patrol.turn_before earlier hc]
        omega
      · rw [Patrol.turn_below (by omega)]
        omega

/-! ## The visit (R183) -/

theorem State.patrolDecides_iff {run : PatrolRun} (hr : s.patrol.run = some run) : s.patrolDecides = true ↔
    run.finishing = false ∧ s.patrol.visit = none ∧ s.patrol.findings = [] ∧ s.patrol.write = none ∧
      s.patrol.due = [] ∧ s.coder.owner = none := by
  simp [State.patrolDecides, hr, and_assoc]

theorem State.visitRow_eq (free : s.coder.owner = none) (b n : Nat) : s.visitRow b n = State.giveAll { s with
    patrol := { s.patrol with visit := some { band := b, row := n, level := (s.band b).level,
                                              expected := (s.band b).present n, checked := false } },
    coder := { s.coder with
      owner := some .patrol,
      beginRead := some { band := b, row := n, level := (s.band b).level, purpose := .check,
                          lanes := (s.band b).present n } } }
    (.pageRead { band := b, row := n, level := (s.band b).level }) ((s.band b).present n) := by
  simp only [State.visitRow, State.claimCoder_free _ free]

section Decides
variable {run : PatrolRun} (hd : s.patrolDecides = true) (hr : s.patrol.run = some run)
include hd hr

theorem State.patrolVisit_visits {b n : Nat} (he : run.endRequested = false) (hb : run.budget ≠ 0)
    (hv : s.nextVisit = some (b, n)) : s.patrolVisit = s.visitRow b n := by
  simp [State.patrolVisit, hd, hr, he, hb, hv]

theorem State.patrolVisit_ends (h : run.endRequested = true ∨ run.budget = 0 ∨ s.nextVisit = none) :
    s.patrolVisit = { s with patrol := { s.patrol with run := some { run with finishing := true } } } := by
  have finish : s.finishRun = { s with patrol := { s.patrol with run := some { run with finishing := true } } } := by
    simp only [State.finishRun, hr, Option.map_some]
  rw [← finish]
  rcases h with ended | spent | exhausted
  · simp [State.patrolVisit, hd, hr, ended]
  · simp [State.patrolVisit, hd, hr, spent]
  · simp [State.patrolVisit, hd, hr, exhausted]

end Decides

/-! ## The statement -/

/-- Settles O53: the two ways a decision goes, and the search as the first row in the order of its turns. -/
theorem patrolVisitsRow : Obligations.PatrolVisitsRow := by
  refine ⟨fun s run hs hr hf hv hg hw hd hc => ?decision, fun s hw hc => ?search⟩
  case decision =>
    have decides := (State.patrolDecides_iff hr).2 ⟨hf, hv, hg, hw, hd, hc⟩
    refine ⟨fun b n he hb found => ?_, fun h => State.takes_eq hs (State.patrolVisit_ends decides hr h)⟩
    have visit := (State.patrolVisit_visits decides hr he hb found).trans (State.visitRow_eq hc b n)
    exact ⟨_, State.takes_eq hs visit, rfl, rfl, fun l => State.lane_giveAll _ _ _ l, rfl, rfl, rfl, rfl⟩
  case search =>
    have first := State.nextVisit_first hw hc
    refine ⟨fun b n found => ?_, fun exhausted b n qualifies => ?_⟩
    · rw [found] at first
      obtain ⟨⟨visits, -⟩, earliest⟩ := first
      exact ⟨State.visits_iff.1 visits, fun c k qualifies =>
        earliest (c, k) (State.visits_iff.2 qualifies) trivial⟩
    · rw [exhausted] at first
      exact first (b, n) (State.visits_iff.2 qualifies) trivial

end Sys2Proof.Machine
end

