-- ==== Sys2Proof/Proofs/ReportWrites.lean ====
section
/-! The report writer: its bursts and their ends, REPORT_CLEAR, and the header write of an APPLY (R157, R160, R161, R172,
R185, R186). -/

namespace Sys2Proof.Machine

open Sys2Proof

variable {s : State} {p : Patrol} {w : ReportWrite} {reply : BusReply}

/-! ## The words of a burst (R157, R160) -/

theorem drop_consecutive (ws : List Word) (a n : Nat) :
    (consecutive a ws).drop n = consecutive (a + 4 * n) (ws.drop n) := by
  induction n generalizing a ws with
  | zero => rfl
  | succ n ih =>
      cases ws with
      | nil => rfl
      | cons w rest =>
          refine (ih rest (a + 4)).trans ?_
          rw [show a + 4 + 4 * n = a + 4 * (n + 1) by omega, List.drop_succ_cons]

theorem take_consecutive (ws : List Word) (a n : Nat) : (consecutive a ws).take n = consecutive a (ws.take n) := by
  induction n generalizing a ws with
  | zero => rfl
  | succ n ih =>
      cases ws with
      | nil => rfl
      | cons w rest => exact congrArg ((a, w) :: ·) (ih rest (a + 4))

/-- Every report write is made of consecutive words. -/
theorem Patrol.writes_consecutive (p : Patrol) (w : ReportWrite) : ∃ a ws, p.writes w = consecutive a ws := by
  cases w <;> exact ⟨_, _, rfl⟩

theorem Patrol.burst_consecutive (p : Patrol) (burstLength : Nat) (w : ReportWrite) :
    ∃ a ws, p.burst burstLength w = consecutive a ws := by
  obtain ⟨a, ws, writes⟩ := p.writes_consecutive w
  exact ⟨_, _, by rw [Patrol.burst, writes, drop_consecutive, take_consecutive]⟩

theorem readWord_of_readWords {m : List Host.Cell} {a n : Nat} {x : Nat × Word}
    (h : x ∈ consecutive a (Memory.readWords m a n)) : Memory.readWord m x.1 = x.2 := by
  induction n generalizing a with
  | zero => cases h
  | succ n ih =>
      rcases List.mem_cons.1 h with rfl | h
      · rfl
      · exact ih h

/-- The words of a burst stand in host memory once it is written. -/
theorem Patrol.readWord_burst {m : List Host.Cell} (hm : Memory.wf m = true) {burstLength : Nat} {x : Nat × Word}
    (h : x ∈ p.burst burstLength w) : Memory.readWord (Memory.writeWords m (p.burst burstLength w)) x.1 = x.2 := by
  obtain ⟨a, ws, burst⟩ := p.burst_consecutive burstLength w
  rw [burst] at h ⊢
  exact readWord_of_readWords (a := a) (n := ws.length) (by rwa [Memory.readWords_writeWords ws a hm])

/-- A burst is the longest of the four lengths that fits. -/
theorem Patrol.burst_longest {burstLength : Nat} {x : Nat × Word} {rest : List (Nat × Word)}
    (hl : burstLength ∈ [1, 4, 8, 16]) (hx : (p.writes w).drop p.writeDone = x :: rest) (ha : x.1 % 4 = 0) :
    let ws := p.burst burstLength w
    let fits (k : Nat) := k ∈ [1, 4, 8, 16] ∧ k ≤ burstLength ∧ k ≤ (x :: rest).length ∧ x.1 % 1024 + 4 * k ≤ 1024
    ws = (x :: rest).take ws.length ∧ fits ws.length ∧ ∀ k, fits k → k ≤ ws.length := by
  intro ws fits
  let bound := min (min burstLength (x :: rest).length) (wordsToBoundary x.1)
  have taken : ws = (x :: rest).take (burstBeats bound) := by
    simp only [ws, Patrol.burst, hx]
    rfl
  have positive : 0 < bound :=
    lt_min (lt_min (burstLength_pos hl) (Nat.succ_pos _)) ((le_wordsToBoundary_iff ha).2 (by omega))
  have length : ws.length = burstBeats bound := by
    rw [taken]
    exact List.length_take_of_le
      ((burstBeats_greatest positive).1.2.trans ((min_le_left _ _).trans (min_le_right _ _)))
  rw [length]
  refine ⟨taken, burstBeats_greatest_of positive fun k => ?_⟩
  simp only [fits, bound, le_min_iff, le_wordsToBoundary_iff ha, and_assoc]

/-! ## The end of a burst (R160, R185) -/

/-- The patrol unit after a burst of `n` words has ended without a bus error. -/
def Patrol.burstOver (p : Patrol) (w : ReportWrite) (n : Nat) : Patrol :=
  if (p.writes w).length ≤ p.writeDone + n then { p.wrote w with writeDone := 0 }
  else { p with writeDone := p.writeDone + n }

section BurstOver
variable {n : Nat}

theorem Patrol.burstOver_more (h : p.writeDone + n < (p.writes w).length) :
    p.burstOver w n = { p with writeDone := p.writeDone + n } := if_neg h.not_ge

section Last
variable {area : Word} (h : (p.writes w).length ≤ p.writeDone + n)
include h

/-- With its last burst a finding stands in its slot, and the header that counts it follows. -/
theorem Patrol.burstOver_finding {f : Finding} (hw : w = .finding area f) :
    p.burstOver w n = { p with write := some (.headerFor area), writeDone := 0 } := by
  rw [Patrol.burstOver, if_pos h, hw, Patrol.wrote]

/-- With the last burst of that header the finding is counted. -/
theorem Patrol.burstOver_headerFor (hw : w = .headerFor area) :
    p.burstOver w n = { p with write := none, writeDone := 0, fill := p.fill + 1 } := by
  rw [Patrol.burstOver, if_pos h, hw, Patrol.wrote]

/-- Any other header counts nothing. -/
theorem Patrol.burstOver_header (hw : w = .headerDrop area ∨ w = .headerOnly area) :
    p.burstOver w n = { p with write := none, writeDone := 0 } := by
  rw [Patrol.burstOver, if_pos h]
  rcases hw with rfl | rfl <;> rw [Patrol.wrote]

end Last

end BurstOver

/-- The bus has failed beat `b` of a burst: the words that the bus partner took stand in memory, and the error is
recorded (R161, R162). -/
def State.reportBusError (s : State) (w : ReportWrite) (reply : BusReply) (b : Nat) : State :=
  State.busError { s with
    port := none,
    mem := Memory.writeWords s.mem (landedOf (s.patrol.burst s.burstLength w) reply.landed) }
    ((s.patrol.burst s.burstLength w).getD b (0, 0#32)).1 true

/-- The first failed beat is recorded, if BUS_ERROR was clear (R162). -/
theorem State.reportBusError_errorAddress {b : Nat} {y : Nat × Word}
    (hy : (s.patrol.burst s.burstLength w)[b]? = some y) : (s.reportBusError w reply b).window.errorAddress =
      if s.window.flag .busError then s.window.errorAddress else errorWord y.1 true := by
  refine (State.busError_errorAddress _ _ _).trans ?_
  rw [List.getD_eq_getElem?_getD, hy, Option.getD_some]

section BurstEnds
variable (hs : s.live = true) (hp : s.port = some .report) (hw : s.patrol.write = some w)
include hs hp hw

theorem exec_reportWriteEnd : exec (.reportWriteEnd reply) s = .next (s.freePort.endReportWrite reply).settle :=
  State.takes_eq hs (if_pos ⟨hp, by rw [hw]; rfl⟩)

theorem exec_reportWriteEnd_ok (hst : reply.stores = []) (he : reply.error = none) :
    exec (.reportWriteEnd reply) s = .next (State.settle { s with
      port := none,
      mem := Memory.writeWords s.mem (s.patrol.burst s.burstLength w),
      patrol := s.patrol.burstOver w (s.patrol.burst s.burstLength w).length }) := by
  rw [exec_reportWriteEnd hs hp hw, State.endReportWrite, show s.freePort.patrol.write = some w from hw]
  dsimp only
  rw [State.busWrite_words hst he]
  rfl

theorem exec_reportWriteEnd_error (hst : reply.stores = []) {b : Nat} (he : reply.error = some b) :
    exec (.reportWriteEnd reply) s = .next ((s.reportBusError w reply b).reportFailed w).settle := by
  rw [exec_reportWriteEnd hs hp hw, State.endReportWrite, show s.freePort.patrol.write = some w from hw]
  dsimp only
  rw [State.busWrite_failed hst he]
  rfl

end BurstEnds

/-! ## REPORT_CLEAR and the header write of an APPLY (R172, R186) -/

section Due
variable {rest : List ReportDue}

theorem State.takeDue_busy (h : s.patrol.write = some w) : s.takeDue = none := by simp only [State.takeDue, h]

theorem State.takeDue_clear (hd : s.patrol.due = .clear :: rest) (hw : s.patrol.write = none) :
    s.takeDue = some { s with patrol := { s.patrol.cleared with
      due := rest, write := if s.reportCapacity = 0 then none else some (.headerOnly s.reportArea) } } := by
  by_cases hc : s.reportCapacity = 0 <;> simp [State.takeDue, Patrol.cleared, hd, hw, hc]

theorem State.takeDue_header {area : Word} (hd : s.patrol.due = .header area :: rest) : s.takeDue =
    if s.patrol.write = none then
      some { s with patrol := { s.patrol with due := rest, write := some (.headerOnly area) } } else none := by
  cases hw : s.patrol.write <;> simp [State.takeDue, hd, hw]

end Due

section Area
variable {c : Applied} (hc : s.modes.config = some c)
include hc

theorem State.reportCapacity_eq : s.reportCapacity = c.reportCapacity := by
  rw [State.reportCapacity, hc, Option.elim_some]

theorem State.reportArea_eq : s.reportArea = c.reportAddress := by rw [State.reportArea, hc, Option.elim_some]

end Area

theorem newArea_iff (old : Option Applied) (c : Applied) : newArea old c = true ↔
    ∀ o, old = some o → o.reportAddress ≠ c.reportAddress ∨ o.reportCapacity ≠ c.reportCapacity := by
  cases old <;> simp [newArea]

/-- The new header write stands before every REPORT_CLEAR. -/
theorem dueWithHeader_order (due : List ReportDue) (area : Word) :
    (dueWithHeader due area).Pairwise fun d e => d = .clear → e = .clear := by
  have header {d e : ReportDue} (hd : d ≠ .clear) : d = .clear → e = .clear := fun h => absurd h hd
  refine List.pairwise_append.2 ⟨?_, ?_, ?_⟩
  · exact List.pairwise_of_forall_mem_list fun d hd e _ => header (by simpa using (List.mem_filter.1 hd).2)
  · refine List.pairwise_cons.2 ⟨fun e _ => header (by simp), ?_⟩
    exact List.pairwise_of_forall_mem_list fun d _ e he _ => by simpa using (List.mem_filter.1 he).2
  · exact fun d hd e _ => header (by simpa using (List.mem_filter.1 hd).2)

theorem dueWithHeader_count (due : List ReportDue) (area : Word) :
    (dueWithHeader due area).count .clear = due.count .clear := by
  have count (ds : List ReportDue) : ds.count .clear = (ds.filter (fun d => decide (d = .clear))).length := by
    rw [List.count_eq_length_filter]
    rfl
  rw [count, count, dueWithHeader_clears]

/-! ## The statement -/

/-- Settles O54: the burst's end and its length, the words, and the two commands of the report writer. -/
theorem reportWrittenAndCleared : Obligations.ReportWrittenAndCleared := by
  refine ⟨fun s w reply hs hp hw hst he hm => ?ends, fun p w l x rest hl hx ha => Patrol.burst_longest hl hx ha,
    fun p area f => ⟨rfl, rfl, rfl, rfl, rfl⟩, ⟨fun s hs => State.takes_eq hs rfl, fun s rest hd =>
      ⟨fun w hw => State.takeDue_busy hw, fun hw => ?clears⟩⟩,
    newArea_iff, fun p c => ⟨rfl, rfl, rfl, rfl, rfl, rfl, fun empty => if_pos empty, fun room => ?header⟩,
    fun s area rest => State.takeDue_header⟩
  case ends =>
    intro ws done
    exact ⟨_, exec_reportWriteEnd_ok hs hp hw hst he, rfl, fun y hy => Patrol.readWord_burst hm hy,
      fun x hx => Memory.readByte_writeWords_other ws s.mem x hx, Patrol.burstOver_more, fun last =>
        ⟨fun area f => Patrol.burstOver_finding last, fun area => Patrol.burstOver_headerFor last,
          fun area => Patrol.burstOver_header last⟩⟩
  case clears =>
    refine ⟨_, State.takeDue_clear hd hw, rfl, rfl, rfl, rfl, rfl, fun c hc room => ?_, fun c hc empty => ?_,
      fun hc => ?_⟩
    · rw [State.reportCapacity_eq hc, State.reportArea_eq hc]
      exact if_neg room.ne'
    · rw [State.reportCapacity_eq hc]
      exact if_pos empty
    · exact if_pos (by rw [State.reportCapacity, hc, Option.elim_none])
  case header =>
    have due : (p.applied true c).due = dueWithHeader p.due c.reportAddress := if_neg room.ne'
    rw [due]
    exact ⟨dueWithHeader_headers _ _, dueWithHeader_count _ _, fun _ => dueWithHeader_order _ _⟩

end Sys2Proof.Machine
end

