-- ==== Sys2Proof/Proofs/Findings.lean ====
section
/-! The findings of a visited row, recorded or dropped, and a report write that fails (R161, R162, R184, R185). -/

namespace Sys2Proof.Machine

open Sys2Proof

variable {s : State}

/-! ## The findings of a row (R184) -/

/-- A finding of a page of the row visited. -/
def Visit.finding (v : Visit) (l : Lane) (kind : FindingKind) (n : Nat) : Finding :=
  { band := v.band, row := v.row, lane := l, kind := kind, highest := n }

/-- The corrected count of a lane's page, 0 where the coder holds no outcome of it. -/
def RowReport.countAt (rep : RowReport) (l : Lane) : Nat :=
  ((rep.outcomes.find? (fun o => decide (o.1 = l))).map (·.2)).elim 0 (·.highest)

/-- What a missing page is found as: nothing where it is absent, and erased as a tag that does not match. -/
def Cause.found : Cause → Option FindingKind
  | .absent => none
  | .uncorrectable => some .uncorrectable
  | .tag => some .tag
  | .erased => some .tag

section Page
variable {v : Visit} {rep : RowReport} {l : Lane}

/-- A missing page is found by its cause; an erased one has no count. -/
theorem pageFinding_missing {m : MissingPage} (hm : rep.missing.find? (fun m => decide (m.lane = l)) = some m) :
    pageFinding v rep l =
      m.cause.found.map (v.finding l · (if m.cause = .erased then 0 else rep.countAt l)) := by
  simp only [pageFinding, hm]
  cases m.cause <;> rfl

/-- A page at hand is a finding where it is WEAK. -/
theorem pageFinding_held {o : PageOutcome} (hm : rep.missing.find? (fun m => decide (m.lane = l)) = none)
    (ho : (rep.outcomes.find? (fun o => decide (o.1 = l))).map (·.2) = some o) :
    pageFinding v rep l = if o.cls = .weak then some (v.finding l .weak (rep.countAt l)) else none := by
  simp only [pageFinding, hm, ho, RowReport.countAt]
  rfl

/-- A parity page that mismatches is found with its page's count. -/
theorem parityFinding_eq (v : Visit) (rep : RowReport) (c : ParityCompared) : parityFinding v rep c =
    if c.matched then none
    else some { band := v.band, row := v.row, lane := c.lane, kind := .parity,
                highest := (rep.outcomes.find? (fun o => decide (o.1 = c.lane))).elim 0 (·.2.highest) } := by
  rw [parityFinding, Option.elim_map]
  rfl

end Page

/-! ## A finding dropped (R185) -/

theorem State.dropFinding_eq (s : State) : s.dropFinding = { s with
    patrol := { s.patrol with dropped := min 65535 (s.patrol.dropped + 1), dropNoted := true },
    window := if s.patrol.dropNoted then s.window else s.window.set .reportFull } := by
  unfold State.dropFinding
  dsimp only
  rw [satAdd_eq_min]
  cases s.patrol.dropNoted <;> rfl

theorem State.dropFinding_errorAddress (s : State) :
    s.dropFinding.window.errorAddress = s.window.errorAddress := by
  rw [s.dropFinding_eq]
  dsimp only
  split <;> rfl

theorem State.dropFinding_flag {e : Event} (h : s.window.flag e = true) : s.dropFinding.window.flag e = true := by
  rw [s.dropFinding_eq]
  dsimp only
  split
  · exact h
  · exact Window.flag_set_keeps _ _ h

theorem State.dropFinding_first (h : s.patrol.dropNoted = false) : s.dropFinding.window.flag .reportFull = true := by
  rw [s.dropFinding_eq, h]
  exact Window.flag_set_same _ _

/-! ## The next finding recorded (R184, R185) -/

/-- A finding is taken up: SET ATTENTION is given with it, and one answer more awaited. -/
def State.findingTaken (s : State) (f : Finding) (rest : List Finding) : State :=
  { s with
    patrol := { s.patrol with
      findings := rest,
      run := s.patrol.run.map (fun r => { r with answersAwaited := r.answersAwaited + 1 }) },
    signals := s.signals ++ [.update .patrol (.setAttention f.band) false] }

section Record
variable {f : Finding} {rest : List Finding} (hw : s.patrol.write = none) (hd : s.patrol.due = [])
  (hf : s.patrol.findings = f :: rest)
include hw hd hf

/-- After a failed report write of the run nothing is written. -/
theorem State.recordNext_failed (failed : s.patrol.writeFailed = true) :
    s.recordNext = some (s.findingTaken f rest).dropFinding := by
  simp [State.recordNext, State.findingAttention, State.findingTaken, State.emit, hw, hd, hf, failed]

section Writing
variable (going : s.patrol.writeFailed = false) {c : Applied} (hc : s.modes.config = some c)
include going hc

theorem State.recordNext_writes (room : s.patrol.fill < c.reportCapacity) : s.recordNext =
    let t := s.findingTaken f rest
    some { t with patrol := { t.patrol with write := some (.finding c.reportAddress f) } } := by
  simp [State.recordNext, State.findingAttention, State.findingTaken, State.emit, hw, hd, hf, going,
    State.reportCapacity_eq hc, State.reportArea_eq hc, room]

/-- With the area full the finding is dropped, and the header written if there is an area. -/
theorem State.recordNext_full (full : c.reportCapacity ≤ s.patrol.fill) : s.recordNext =
    let t := (s.findingTaken f rest).dropFinding
    some { t with patrol := { t.patrol with
      write := if c.reportCapacity = 0 then none else some (.headerDrop c.reportAddress) } } := by
  have unwritten : (s.findingTaken f rest).dropFinding.patrol.write = none := by rw [State.dropFinding_eq]; exact hw
  have drops : s.recordNext = some (if c.reportCapacity = 0 then (s.findingTaken f rest).dropFinding
      else { (s.findingTaken f rest).dropFinding with patrol := { (s.findingTaken f rest).dropFinding.patrol with
        write := some (.headerDrop c.reportAddress) } }) := by
    simp [State.recordNext, State.findingAttention, State.findingTaken, State.emit, hw, hd, hf, going,
      State.reportCapacity_eq hc, State.reportArea_eq hc, full.not_gt]
  rw [drops]
  split
  · rw [← unwritten]
  · rfl

end Writing

end Record

/-! ## A report write given up (R161, R185, R186) -/

/-- The write is of a finding not yet counted, or of the header that counts it. -/
def ReportWrite.ofFinding : ReportWrite → Bool
  | .finding _ _ => true
  | .headerFor _ => true
  | .headerDrop _ => false
  | .headerOnly _ => false

/-- The report write is given up, and the run ends after the row in hand. -/
def State.givenUp (s : State) : State :=
  { s with patrol := { s.patrol with
      write := none, writeDone := 0, writeFailed := true,
      run := if s.patrol.visit.isSome then s.patrol.run
        else s.patrol.run.map (fun r => { r with endRequested := true }) } }

theorem State.reportFailed_eq (s : State) (w : ReportWrite) :
    s.reportFailed w = if w.ofFinding then s.givenUp.dropFinding else s.givenUp := by
  cases w <;> simp only [State.reportFailed, State.dropFinding_eq] <;> rfl

section Failed
variable {w : ReportWrite}

/-- What every failed write leaves: no write in progress, the fill as it was, the run to end. -/
theorem State.reportFailed_patrol (s : State) (w : ReportWrite) : let p := (s.reportFailed w).patrol
    p.write = none ∧ p.writeDone = 0 ∧ p.fill = s.patrol.fill ∧ p.writeFailed = true ∧
      p.run = s.givenUp.patrol.run := by
  rw [State.reportFailed_eq]
  split
  · rw [State.dropFinding_eq]; exact ⟨rfl, rfl, rfl, rfl, rfl⟩
  · exact ⟨rfl, rfl, rfl, rfl, rfl⟩

theorem State.reportFailed_outside (s : State) (w : ReportWrite) :
    (s.reportFailed w).mem = s.mem ∧ (s.reportFailed w).port = s.port := by
  rw [State.reportFailed_eq]
  split
  · rw [State.dropFinding_eq]; exact ⟨rfl, rfl⟩
  · exact ⟨rfl, rfl⟩

theorem State.reportFailed_errorAddress (s : State) (w : ReportWrite) :
    (s.reportFailed w).window.errorAddress = s.window.errorAddress := by
  rw [State.reportFailed_eq]
  split
  · exact s.givenUp.dropFinding_errorAddress
  · rfl

theorem State.reportFailed_flag {e : Event} (h : s.window.flag e = true) :
    (s.reportFailed w).window.flag e = true := by
  rw [State.reportFailed_eq]
  split
  · exact State.dropFinding_flag (s := s.givenUp) h
  · exact h

theorem State.reportFailed_drops (h : w.ofFinding = true) : s.reportFailed w = s.givenUp.dropFinding := by
  rw [State.reportFailed_eq, if_pos h]

theorem State.reportFailed_keeps (h : w.ofFinding = false) : s.reportFailed w = s.givenUp := by
  rw [State.reportFailed_eq, if_neg (by simp [h])]

end Failed

/-! ## The statement -/

/-- Settles O55: the findings of a row, what comes of the next one, and a report write that the bus fails. -/
theorem findingsRecordedOrDropped : Obligations.FindingsRecordedOrDropped := by
  refine ⟨fun v rep l => ⟨fun m hm => ?missing, fun hm o ho => ?held⟩, fun s v rep cs hv => ?checked,
    fun s f rest c hc hw hd hf => ?recorded, fun s w reply b hs hp hw hst he => ?failed⟩
  case missing =>
    have page := pageFinding_missing (v := v) hm
    exact ⟨fun h => by rw [page, h]; rfl, fun h => by rw [page, h]; rfl, fun h => by rw [page, h]; rfl,
      fun h => by rw [page, h]; rfl⟩
  case held =>
    have page := pageFinding_held (v := v) hm ho
    exact ⟨fun weak => page.trans (if_pos weak), fun good => page.trans (if_neg (by simp [good]))⟩
  case checked =>
    simp only [State.patrolChecked, hv, rowFindings, ← parityFinding_eq]
    rfl
  case recorded =>
    cases failed : s.patrol.writeFailed with
    | true =>
        refine ⟨_, State.recordNext_failed hw hd hf failed, ?_⟩
        rw [State.dropFinding_eq]
        refine ⟨rfl, rfl, rfl, rfl, fun going => ?_, fun going => ?_, fun _ => ⟨⟨rfl, rfl, rfl⟩, hw⟩⟩
        · simp [failed] at going
        · simp [failed] at going
    | false =>
        rcases Nat.lt_or_ge s.patrol.fill c.reportCapacity with room | full
        · exact ⟨_, State.recordNext_writes hw hd hf failed hc room, rfl, rfl, rfl, rfl, fun _ _ => ⟨rfl, rfl, rfl⟩,
            fun _ full => absurd room full.not_gt, fun stopped => absurd (failed.symm.trans stopped) (by decide)⟩
        · refine ⟨_, State.recordNext_full hw hd hf failed hc full, ?_⟩
          rw [State.dropFinding_eq]
          exact ⟨rfl, rfl, rfl, rfl, fun _ room => absurd room full.not_gt, fun _ _ => ⟨⟨rfl, rfl, rfl⟩, rfl⟩,
            fun stopped => absurd (failed.symm.trans stopped) (by decide)⟩
  case failed =>
    intro p
    let t := s.reportBusError w reply b
    obtain ⟨mem, port⟩ := t.reportFailed_outside w
    obtain ⟨write, writeDone, fill, writeFailed, run⟩ := t.reportFailed_patrol w
    refine ⟨t.reportFailed w, exec_reportWriteEnd_error hs hp hw hst he,
      State.reportFailed_flag (State.busError_flag _ _ _), fun y hy => ?address, fun _ x hx => ?memory, port, write,
      writeDone, fill, writeFailed, fun area f h => ?drops, fun area h => ?keeps, fun unvisited => ?between,
      fun visited => ?visits, fun r => ?ends⟩
    case address => exact (t.reportFailed_errorAddress w).trans (State.reportBusError_errorAddress hy)
    case memory =>
      rw [mem]
      exact Memory.readByte_writeWords_other _ s.mem x fun y hy => hx y (landedOf_subset _ _ hy)
    case drops =>
      have counts : w.ofFinding = true := by rcases h with rfl | rfl <;> rfl
      rw [State.reportFailed_drops counts]
      exact ⟨by rw [State.dropFinding_eq]; rfl, by rw [State.dropFinding_eq],
        fun first => State.dropFinding_first (s := t.givenUp) first⟩
    case keeps =>
      have uncounted : w.ofFinding = false := by rcases h with rfl | rfl <;> rfl
      rw [State.reportFailed_keeps uncounted]
      exact ⟨rfl, rfl⟩
    case between => exact run.trans (if_neg (mt Option.isSome_iff_ne_none.1 (not_not.2 unvisited)))
    case visits => exact run.trans (if_pos (Option.isSome_iff_ne_none.2 visited))
    case ends => simp [PatrolRun.visited, writeFailed]

end Sys2Proof.Machine
end

