-- ==== Sys2Proof/Proofs/WordLayouts.lean ====
section
/-! The words of host memory field by field (11.4 to 11.6, R64, R194): the order words and the patch descriptor that the
part reads, and the result, completion, finding and report words that it writes. -/

namespace Sys2Proof.Machine

open Sys2Proof

/-! ## Tables of codes -/

/-- A field that shows the code of `x` shows the number that a table of the codes gives `x`. -/
theorem code_of_table {α : Type} {code : α → Nat} {table : List (α × Nat)} (h : ∀ p ∈ table, code p.1 = p.2) {x : α}
    {n : Nat} (hn : n = code x) : ∀ p ∈ table, x = p.1 → n = p.2 := by
  rintro p hp rfl
  exact hn.trans (h p hp)

theorem OrderStatus.code_lt (st : OrderStatus) : st.code < 256 := by cases st <;> decide

theorem CompletionState.code_pos (st : CompletionState) : 0 < st.code := by cases st <;> decide

theorem CompletionState.code_lt (st : CompletionState) : st.code < 256 := by cases st <;> decide

theorem FindingKind.code_lt (k : FindingKind) : k.code < 256 := by cases k <;> decide

theorem burstOfCode_eq : ∀ code, burstOfCode code = [1, 4, 8, 16][code]?
  | 0 | 1 | 2 | 3 => rfl
  | _ + 4 => rfl

theorem thresholdOfCode_eq : ∀ code, thresholdOfCode code = [4, 8, 12, 16][code]?
  | 0 | 1 | 2 | 3 => rfl
  | _ + 4 => rfl

/-! ## The words of an order (R64, 11.5) -/

/-- The kinds of order by their codes, from code 1 on (11.5). -/
def orderKinds : List OrderKind :=
  [.writeRows, .readRows, .copyRows, .eraseBand, .sealBand, .queryBands, .setUnlockRange, .lockAll, .lockTight,
    .freezeGroup]

theorem orderKind_zero : orderKind 0 = none := rfl

theorem orderKind_succ : ∀ n, orderKind (n + 1) = orderKinds[n]?
  | 0 | 1 | 2 | 3 | 4 | 5 | 6 | 7 | 8 | 9 => rfl
  | _ + 10 => rfl

theorem orderKind_eq_none_iff (code : Nat) : orderKind code = none ↔ code = 0 ∨ 10 < code := by
  cases code with
  | zero => simp [orderKind_zero]
  | succ n =>
    have ten : orderKinds.length = 10 := rfl
    rw [orderKind_succ, List.getElem?_eq_none_iff, ten]
    omega

theorem orderKind_eq_some {code : Nat} {k : OrderKind} (h : orderKind code = some k) :
    orderKinds[code - 1]? = some k := by
  cases code with
  | zero => simp [orderKind_zero] at h
  | succ n => rwa [orderKind_succ] at h

theorem wordByte_zero_toNat (w : Word) : (wordByte w 0).toNat = bits w 0 8 := by
  simp [wordByte, bits_eq]

theorem Order.eraseLevel_eq_some_iff (o : Order) (level : Level) :
    o.eraseLevel = some level ↔ level.val = bits o.aux1 0 8 := by
  have small := level.isLt
  unfold Order.eraseLevel
  dsimp only
  split
  · rw [Option.some_inj, Fin.ext_iff]
    exact eq_comm
  · simp only [reduceCtorEq, false_iff]
    omega

/-! ## Words of several fields (R194) -/

theorem field_zero_toNat {v : Nat} (h : v < 2 ^ 32) : (field v 0).toNat = v := by
  rw [field_toNat (by omega), Nat.pow_zero, Nat.one_mul]

/-- A field placed above the bits in use is added to the value of the word. -/
theorem or_field_value {w : Word} {n v p : Nat} (value : w.toNat = n) (below : n < 2 ^ p) (fits : 2 ^ p * v < 2 ^ 32) :
    (w ||| field v p).toNat = n + 2 ^ p * v := by
  rw [or_field_toNat (value ▸ below) fits, value]

/-- The first result word: the status and the rows done. -/
theorem OrderResult.word1_fields {r : OrderResult} (rows : r.rowsDone < 65536) :
    bits r.word1 0 8 = r.status.code ∧ bits r.word1 8 8 = 0 ∧ bits r.word1 16 16 = r.rowsDone := by
  have code := r.status.code_lt
  have value : r.word1.toNat = r.status.code + 2 ^ 16 * r.rowsDone :=
    or_field_value (field_zero_toNat (by omega)) (by omega) (by omega)
  simp only [bits_eq, value]
  omega

/-- The second result word: the pages rebuilt and the weak pages seen. -/
theorem OrderResult.word2_fields {r : OrderResult} (rebuilt : r.pagesRebuilt < 65536) (weak : r.weakSeen < 256) :
    bits r.word2 0 16 = r.pagesRebuilt ∧ bits r.word2 16 8 = r.weakSeen ∧ bits r.word2 24 8 = 0 := by
  have value : r.word2.toNat = r.pagesRebuilt + 2 ^ 16 * r.weakSeen :=
    or_field_value (field_zero_toNat (by omega)) (by omega) (by omega)
  simp only [bits_eq, value]
  omega

theorem completionWord_ne_zero {st : CompletionState} {ok failed skipped : Nat}
    (code : bits (completionWord st ok failed skipped) 0 8 = st.code) : completionWord st ok failed skipped ≠ 0#32 := by
  intro zero
  have empty : bits 0#32 0 8 = 0 := rfl
  have pos := st.code_pos
  rw [zero, empty] at code
  omega

/-- The first word of a finding: its band, row and lane. -/
theorem Finding.place_fields {f : Finding} (band : f.band < 1024) (row : f.row < 64) :
    let w := field f.band 0 ||| field f.row 16 ||| field f.lane.number 24
    bits w 0 16 = f.band ∧ bits w 16 8 = f.row ∧ bits w 24 8 = f.lane.number := by
  have lane := Lane.number_lt f.lane
  have value : (field f.band 0 ||| field f.row 16 ||| field f.lane.number 24).toNat =
      f.band + 2 ^ 16 * f.row + 2 ^ 24 * f.lane.number := by
    iterate 2 refine or_field_value ?_ (by omega) (by omega)
    exact field_zero_toNat (by omega)
  simp only [bits_eq, value]
  omega

/-- The second word of a finding: its kind and the highest count of bit errors. -/
theorem Finding.kind_fields {f : Finding} (highest : f.highest ≤ 8) :
    let w := field f.kind.code 0 ||| field f.highest 8
    bits w 0 8 = f.kind.code ∧ bits w 8 8 = f.highest ∧ bits w 16 16 = 0 := by
  have code := f.kind.code_lt
  have value : (field f.kind.code 0 ||| field f.highest 8).toNat = f.kind.code + 2 ^ 8 * f.highest :=
    or_field_value (field_zero_toNat (by omega)) (by omega) (by omega)
  simp only [bits_eq, value]
  omega

theorem reportHeader_toNat {fill dropped : Nat} (hfill : fill < 4294967296) (hdropped : dropped < 4294967296) :
    (reportHeader fill dropped).map BitVec.toNat = [fill, dropped] := by
  simp [reportHeader, Nat.mod_eq_of_lt hfill, Nat.mod_eq_of_lt hdropped]

/-! ## The statement -/

/-- Settles O33: the words read by the kind's code and the bits of each field, the words written by their values as
sums of the fields. -/
theorem wordLayouts : Obligations.WordLayouts := by
  unfold Obligations.WordLayouts
  simp only [← bits_eq]
  refine ⟨⟨fun w0 w1 w2 w3 w4 => ⟨?noKind, fun o ho => ?order⟩, fun w0 w1 w2 w3 => rfl,
    fun code => ⟨burstOfCode_eq code, thresholdOfCode_eq code⟩, OrderKind.isRow_iff⟩,
    fun r rows rebuilt weak => ?result, fun st ok failed skipped hok hfailed hskipped => ?completion,
    fun f band row highest => ⟨_, _, rfl, ?finding⟩, fun fill dropped => reportHeader_toNat⟩
  case noKind => exact Option.map_eq_none_iff.trans (orderKind_eq_none_iff _)
  case order =>
    obtain ⟨kind, hkind, rfl⟩ := Option.map_eq_some_iff.1 ho
    exact ⟨orderKind_eq_some hkind, rfl, rfl, rfl, rfl, rfl, rfl, rfl, rfl, wordByte_zero_toNat w3,
      Order.eraseLevel_eq_some_iff _, rfl, rfl, rfl⟩
  case result =>
    obtain ⟨status, unnamed, rowsDone⟩ := OrderResult.word1_fields rows
    exact ⟨code_of_table (by decide) status, unnamed, rowsDone, OrderResult.word2_fields rebuilt weak⟩
  case completion =>
    obtain ⟨code, okCount, failedCount, skippedCount⟩ := bits_word4 st.code_lt hok hfailed hskipped
    exact ⟨code_of_table (by decide) code, okCount, failedCount, skippedCount, completionWord_ne_zero code⟩
  case finding =>
    obtain ⟨hband, hrow, hlane⟩ := Finding.place_fields band row
    obtain ⟨hkind, hhighest, unnamed⟩ := Finding.kind_fields highest
    exact ⟨hband, hrow, hlane, hhighest, unnamed, code_of_table (by decide) hkind⟩

end Sys2Proof.Machine
end

