-- ==== Sys2Proof/Proofs/RegisterWindow.lean ====
section
/-! The register window (11.1 to 11.3): STATUS by its fields, the reads of every register, EVENTS and EVENT_ENABLE with
IRQ_N, and every register write (R188 to R192). -/

namespace Sys2Proof.Machine

open Sys2Proof

variable {s : State} {v : Word} {cut : Cut}

/-! ## EVENT_ENABLE and IRQ_N (R191, R192) -/

theorem eventMask_getLsbD (i : Nat) : eventMask.getLsbD i = decide (i < 13) := by
  have mask : eventMask = (BitVec.allOnes 13).setWidth 32 := by decide
  rw [mask, BitVec.getLsbD_setWidth, BitVec.getLsbD_allOnes, Bool.and_eq_right_iff_imp]
  simp only [decide_eq_true_eq]
  omega

theorem Window.setEnable_getLsbD (w : Window) (v : Word) (i : Nat) :
    (w.setEnable v).enable.getLsbD i = (v.getLsbD i && decide (i < 13)) := by
  rw [Window.setEnable, BitVec.getLsbD_and, eventMask_getLsbD]

theorem Window.clearEvents_getLsbD (w : Window) (v : Word) (i : Nat) :
    (w.clearEvents v).events.getLsbD i = (w.events.getLsbD i && !v.getLsbD i) := by
  rw [Window.clearEvents, BitVec.getLsbD_and, BitVec.getLsbD_not]
  rcases Nat.lt_or_ge i 32 with inside | outside
  · simp [inside]
  · simp [BitVec.getLsbD_of_ge w.events i outside]

/-- A word is not 0 exactly when one of its bits is set. -/
theorem word_ne_zero_iff (w : Word) : w ≠ 0#32 ↔ ∃ i, w.getLsbD i = true := by
  constructor
  · contrapose!
    intro clear
    exact BitVec.eq_of_getLsbD_eq fun i _ => by simp [clear i]
  · rintro ⟨i, set⟩ rfl
    simp at set

theorem State.irqAsserted_iff (s : State) :
    s.irqAsserted = true ↔ ∃ i, s.window.events.getLsbD i = true ∧ s.window.enable.getLsbD i = true := by
  rw [State.irqAsserted, Window.irqAsserted, bne_iff_ne, word_ne_zero_iff]
  simp only [BitVec.getLsbD_and, Bool.and_eq_true]

/-- No event is enabled, and IRQ_N is withdrawn. -/
def State.noIrq (s : State) : Prop := s.window.enable = 0#32 ∧ s.irqAsserted = false

theorem State.noIrq_of_enable (h : s.window.enable = 0#32) : s.noIrq :=
  ⟨h, by simp [State.irqAsserted, Window.irqAsserted, h]⟩

/-- The cold path may set POWER_WARN, which no enable bit lets through. -/
theorem enable_coldWindow (warning : Bool) :
    (if warning then Window.reset.set .powerWarn else Window.reset).enable = 0#32 := by cases warning <;> rfl

theorem State.softReset_noIrq (s : State) (cut : Cut) : (s.softReset cut).noIrq :=
  noIrq_of_enable (by rw [s.softReset_eq]; exact enable_coldWindow _)

theorem State.assertReset_noIrq (s : State) (cut : Cut) : (s.assertReset cut).noIrq :=
  noIrq_of_enable (by rw [s.assertReset_eq]; rfl)

theorem State.powerOn_noIrq (s : State) (lockEn warn inhibit : Bool) (cut : Cut) :
    (s.powerOn lockEn warn inhibit cut).noIrq := by
  obtain ⟨u, power, -⟩ := s.powerOn_gains lockEn warn inhibit cut
  exact noIrq_of_enable (by rw [power, u.gainSupply_eq]; exact enable_coldWindow _)

/-! ## STATUS (R190) -/

theorem Mode.code_lt (m : Mode) : m.code < 16 := by cases m <;> decide

theorem StopState.code_lt (st : StopState) : st.code < 4 := by cases st <;> decide

theorem Reason.code_lt (r : Reason) : r.code < 16 := by cases r <;> decide

theorem State.queue_length_le (fits : s.queueFits = true) : s.sheets.queue.length ≤ 2 :=
  of_decide_eq_true fits

theorem getLsbD_eq_bits (w : Word) (i : Nat) : w.getLsbD i = decide (bits w i 1 = 1) := by
  rw [bits_eq, Nat.pow_one, ← BitVec.testBit_toNat, Nat.testBit_eq_decide_div_mod_eq]

/-- A bit that shows a flag. -/
theorem getLsbD_of_bits {w : Word} {i : Nat} {b : Bool} (h : bits w i 1 = b.toNat) : w.getLsbD i = b := by
  rw [getLsbD_eq_bits, h]
  cases b <;> rfl

/-- STATUS field by field, the bits between the fields and above them 0. -/
theorem State.status_fields (fits : s.queueFits = true) :
    bits s.status 0 4 = s.modes.mode.code ∧ bits s.status 4 2 = s.sheets.queue.length ∧
    bits s.status 6 1 = s.sheets.active.isSome.toNat ∧ bits s.status 7 1 = (!s.sheets.closing.isEmpty).toNat ∧
    bits s.status 8 2 = s.sheets.stop.code ∧ bits s.status 10 1 = 0 ∧ bits s.status 11 1 = 0 ∧
    bits s.status 12 1 = s.table.storeFault.toNat ∧ bits s.status 13 1 = s.modes.config.isSome.toNat ∧
    bits s.status 14 1 = s.modes.wake.toNat ∧ bits s.status 15 1 = 0 ∧
    bits s.status 16 4 = s.window.refusal.code ∧ bits s.status 20 1 = s.window.refusalApply.toNat ∧
    s.status.toNat < 2 ^ 21 := by
  have mode := s.modes.mode.code_lt
  have queue := State.queue_length_le fits
  have active := s.sheets.active.isSome.toNat_le
  have closing := (!s.sheets.closing.isEmpty).toNat_le
  have stop := s.sheets.stop.code_lt
  have storeFault := s.table.storeFault.toNat_le
  have config := s.modes.config.isSome.toNat_le
  have wake := s.modes.wake.toNat_le
  have refusal := s.window.refusal.code_lt
  have source := s.window.refusalApply.toNat_le
  have value : s.status.toNat =
      s.modes.mode.code + 2 ^ 4 * s.sheets.queue.length + 2 ^ 6 * s.sheets.active.isSome.toNat +
        2 ^ 7 * (!s.sheets.closing.isEmpty).toNat + 2 ^ 8 * s.sheets.stop.code + 2 ^ 12 * s.table.storeFault.toNat +
        2 ^ 13 * s.modes.config.isSome.toNat + 2 ^ 14 * s.modes.wake.toNat + 2 ^ 16 * s.window.refusal.code +
        2 ^ 20 * s.window.refusalApply.toNat := by
    unfold State.status
    iterate 9 refine or_field_value ?_ (by omega) (by omega)
    exact field_zero_toNat (by omega)
  simp only [bits_eq, value]
  omega

/-- The bits of STATUS that no field names. -/
theorem State.status_unnamed (fits : s.queueFits = true) {i : Nat} (h : i = 10 ∨ i = 11 ∨ i = 15 ∨ 21 ≤ i) :
    s.status.getLsbD i = false := by
  obtain ⟨-, -, -, -, -, bit10, bit11, -, -, -, bit15, -, -, below⟩ := State.status_fields fits
  rcases h with rfl | rfl | rfl | above
  · exact getLsbD_of_bits (b := false) bit10
  · exact getLsbD_of_bits (b := false) bit11
  · exact getLsbD_of_bits (b := false) bit15
  · rw [← BitVec.testBit_toNat]
    exact Nat.testBit_lt_two_pow (below.trans_le (Nat.pow_le_pow_right (by decide) above))

/-! ## Reads (R188) -/

theorem State.readRegister_high (s : State) {offset : Nat} (h : 0x20 ≤ offset) : s.readRegister offset = 0#32 := by
  unfold State.readRegister
  simp only [show offset ≠ 0x00 by omega, show offset ≠ 0x04 by omega, show offset ≠ 0x10 by omega,
    show offset ≠ 0x14 by omega, show offset ≠ 0x18 by omega, show offset ≠ 0x1C by omega, if_false, ite_self]

/-- While RESET_N is asserted every register but ID reads 0. -/
theorem State.readRegister_held (held : s.resetHeld = true) {offset : Nat} (h : offset ≠ 0x00) :
    s.readRegister offset = 0#32 := (if_neg h).trans (if_pos held)

theorem State.readRegister_released (released : s.resetHeld = false) :
    s.readRegister 0x04 = s.status ∧ s.readRegister 0x08 = 0#32 ∧ s.readRegister 0x0C = 0#32 ∧
      s.readRegister 0x10 = s.window.events ∧ s.readRegister 0x14 = s.window.enable ∧
      s.readRegister 0x18 = s.window.configAddress ∧ s.readRegister 0x1C = s.window.errorAddress := by
  simp [State.readRegister, released]

theorem wordBytes_getElem? (w : Word) {i : Nat} (h : i < 4) : (wordBytes w)[i]? = some (wordByte w i) := by
  interval_cases i <;> rfl

/-- Bytes asked for from one register. -/
theorem State.readBytes_within (s : State) {offset count : Nat} (within : offset % 4 + count ≤ 4) :
    (s.readBytes offset count).length = count ∧ ∀ i, i < count → (s.readBytes offset count)[i]? =
      some (wordByte (s.readRegister (offset / 4 * 4)) (offset % 4 + i)) := by
  unfold State.readBytes
  constructor
  · rw [List.length_take, List.length_drop, wordBytes_length]
    omega
  · intro i hi
    rw [List.getElem?_take_of_lt hi, List.getElem?_drop, wordBytes_getElem? _ (by omega)]

/-! ## CONTROL (R189) -/

theorem mem_controlBits (v : Word) (i : Nat) : i ∈ controlBits v ↔ i < 7 ∧ v.getLsbD i = true := by
  simp [controlBits]

theorem controlBits_none (h : ∀ i, i < 7 → v.getLsbD i = false) : controlBits v = [] :=
  List.eq_nil_iff_forall_not_mem.2 fun i hi => by
    obtain ⟨below, set⟩ := (mem_controlBits v i).1 hi
    simp [h i below] at set

theorem controlBits_one {i : Nat} (hi : i < 7) (h : ∀ j, j < 7 → (v.getLsbD j = true ↔ j = i)) :
    controlBits v = [i] := by
  have alone : controlBits v = (List.range 7).filter (· = i) :=
    List.filter_congr fun j hj => by
      rw [Bool.eq_iff_iff, h j (List.mem_range.1 hj), decide_eq_true_eq]
  rw [alone, List.filter_eq, List.count_eq_one_of_mem List.nodup_range (List.mem_range.2 hi)]
  rfl

section Writes

variable (plain : v.getLsbD 31 = false)
include plain

theorem State.writeControl_none (h : controlBits v = []) : s.writeControl v cut = s := by
  rw [State.writeControl, plain, if_neg Bool.false_ne_true, h]

theorem State.writeControl_one {i : Nat} (h : controlBits v = [i]) : s.writeControl v cut = s.controlCommand i := by
  rw [State.writeControl, plain, if_neg Bool.false_ne_true, h]

/-- Two command bits in one write are refused. -/
theorem State.writeControl_two {i j : Nat} (hi : i ∈ controlBits v) (hj : j ∈ controlBits v) (distinct : i ≠ j) :
    s.writeControl v cut = s.requestRefused := by
  unfold State.writeControl
  rw [plain, if_neg Bool.false_ne_true]
  split
  next empty => exact absurd hi (by simp [empty])
  next single =>
    rw [single, List.mem_singleton] at hi hj
    exact absurd (hi.trans hj.symm) distinct
  next => rfl

end Writes

theorem State.writeControl_reset (h : v.getLsbD 31 = true) : s.writeControl v cut = s.softReset cut := if_pos h

/-- The command of each CONTROL bit, as a command of its own. -/
theorem exec_controlBit (s : State) {i : Nat} (h : i < 7) :
    exec ([Instr.apply, .hold, .resume, .abort, .standby, .wake, .reportClear].getD i .apply) s =
      s.takes (·.controlCommand i) := by
  interval_cases i <;> rfl

/-! ## Writes (R188) -/

theorem exec_registerWrite_live (hs : s.live = true) (offset bytes : Nat) (v : Word) (cut : Cut) :
    exec (.registerWrite offset bytes v cut) s = .next (s.writeRegister offset bytes v cut).settle :=
  State.takes_live s _ hs

theorem exec_controlWrite_live (hs : s.live = true) (v : Word) (cut : Cut) :
    exec (.registerWrite 0x0C 4 v cut) s = .next (s.writeControl v cut).settle :=
  exec_registerWrite_live hs 0x0C 4 v cut

theorem State.writeRegister_short (s : State) (offset : Nat) {bytes : Nat} (h : bytes ≠ 4) :
    s.writeRegister offset bytes v cut = s := if_pos h

/-- ID, STATUS, ERROR_ADDRESS and the offsets above them take no write. -/
theorem State.writeRegister_ignored (s : State) {offset : Nat}
    (h : offset = 0x00 ∨ offset = 0x04 ∨ offset = 0x1C ∨ 0x20 ≤ offset) :
    s.writeRegister offset 4 v cut = s := by
  unfold State.writeRegister
  simp only [show offset ≠ 0x08 by omega, show offset ≠ 0x0C by omega, show offset ≠ 0x10 by omega,
    show offset ≠ 0x14 by omega, show offset ≠ 0x18 by omega, if_false, ite_self]

theorem exec_eventsWrite_live (hs : s.live = true) (v : Word) : exec (.eventsWrite v) s = .next (s.writeEvents v) :=
  congrArg Host.Outcome.next (State.whenLive_live hs fun s => s.writeEvents v)

theorem exec_eventEnableWrite_live (hs : s.live = true) (v : Word) :
    exec (.eventEnableWrite v) s = .next (s.writeEnable v) :=
  congrArg Host.Outcome.next (State.whenLive_live hs fun s => s.writeEnable v)

theorem exec_softReset_live (hs : s.live = true) (cut : Cut) : exec (.softReset cut) s = .next (s.softReset cut) :=
  congrArg Host.Outcome.next (State.whenLive_live hs fun s => s.softReset cut)

/-! ## The statements -/

/-- Settles O12: the enable bits under the event mask, IRQ_N by a bit of their conjunction, and every reset by the
window it leaves. -/
theorem eventEnableDrivesIrq : Obligations.EventEnableDrivesIrq := by
  refine ⟨fun s v hs => ⟨_, exec_eventEnableWrite_live hs v, rfl, s.window.setEnable_getLsbD v⟩, State.irqAsserted_iff,
    fun s t cut hs reset => ?reset, fun s t a b c cut power => ?power⟩
  case reset =>
    rw [exec_softReset_live hs, exec_resetNAsserted_live hs] at reset
    obtain ⟨⟨rfl⟩⟩ | ⟨⟨rfl⟩⟩ := reset
    · exact s.softReset_noIrq cut
    · exact s.assertReset_noIrq cut
  case power =>
    obtain ⟨rfl⟩ := power
    exact s.powerOn_noIrq a b c cut

/-- Settles O13: STATUS by the sum of its fields, each read and each write by its offset, and CONTROL by the command
bits set. -/
theorem registerReadsAndWrites : Obligations.RegisterReadsAndWrites := by
  refine ⟨fun s fits => ?status, fun s => ⟨rfl, fun released => ?read, fun held offset => State.readRegister_held held,
    fun offset count => s.readBytes_within⟩,
    fun s v hs => ⟨_, exec_eventsWrite_live hs v, rfl, s.window.clearEvents_getLsbD v⟩, fun s v cut hs => ?write⟩
  case status =>
    obtain ⟨mode, queue, active, closing, stop, -, -, storeFault, config, wake, -, refusal, source, -⟩ :=
      State.status_fields fits
    refine ⟨code_of_table (by decide) mode, queue, ?_, ?_, code_of_table (by decide) stop, getLsbD_of_bits storeFault, ?_,
      getLsbD_of_bits wake, code_of_table (by decide) refusal, getLsbD_of_bits source,
      fun i => State.status_unnamed fits⟩
    · rw [getLsbD_of_bits active, Option.isSome_iff_ne_none]
    · rw [getLsbD_of_bits closing, Bool.not_eq_true', List.isEmpty_eq_false_iff]
    · rw [getLsbD_of_bits config, Option.isSome_iff_ne_none]
  case read =>
    obtain ⟨status, post, control, events, enable, config, error⟩ := State.readRegister_released released
    exact ⟨status, post, control, events, enable, config, error, fun offset => s.readRegister_high⟩
  case write =>
    refine ⟨exec_registerWrite_live hs .., ?post, fun i hi plain alone => ?command, fun offset bytes short => ?short,
      fun offset unwritten => ?ignored, fun t events => ?events, fun t enable => ?enable, fun t set reset => ?reset,
      fun i j less below hi hj plain => ?several, fun unset plain => ?none⟩
    case post => exact (exec_registerWrite_live hs ..).trans (State.takes_live s (·.post v) hs).symm
    case command =>
      rw [exec_controlWrite_live hs, State.writeControl_one plain (controlBits_one hi alone), exec_controlBit s hi,
        State.takes_live s _ hs]
    case short => rw [exec_registerWrite_live hs, s.writeRegister_short offset short]
    case ignored => rw [exec_registerWrite_live hs, s.writeRegister_ignored unwritten]
    case events =>
      obtain ⟨rfl⟩ := (exec_eventsWrite_live hs v).symm.trans events
      exact exec_registerWrite_live hs ..
    case enable =>
      obtain ⟨rfl⟩ := (exec_eventEnableWrite_live hs v).symm.trans enable
      exact exec_registerWrite_live hs ..
    case reset =>
      obtain ⟨rfl⟩ := (exec_softReset_live hs cut).symm.trans reset
      rw [exec_controlWrite_live hs, State.writeControl_reset set]
    case several =>
      have first := (mem_controlBits v i).2 ⟨less.trans below, hi⟩
      have second := (mem_controlBits v j).2 ⟨below, hj⟩
      rw [exec_controlWrite_live hs, State.writeControl_two plain first second less.ne]
      rfl
    case none => rw [exec_controlWrite_live hs, State.writeControl_none plain (controlBits_none unset)]

end Sys2Proof.Machine
end

