-- ==== Sys2Proof/Proofs/InsideFrame.lean ====
section
/-! What the messages and reactions inside a step leave alone, however many run, and the commands of coder, sheets,
mover and patrol that change the blocks alone (95; log 2). -/

namespace Sys2Proof.Machine

open Sys2Proof

variable {s t : State}

/-! ## Changes inside the blocks -/

theorem State.fixed_lane (s : State) (l : Lane) : s.fixed.lane l = { s.lane l with port := none, waiting := [] } :=
  Six.get_build _ l

/-- Lanes with the same fixed part have the same registers and operations. -/
theorem State.lanesKept_of_fixed (h : t.fixed.lanes = s.fixed.lanes) : State.lanesKept s t := by
  intro l
  have same : ({ s.lane l with port := none, waiting := [] } : LaneCtl) =
      { t.lane l with port := none, waiting := [] } := by
    rw [← s.fixed_lane, ← t.fixed_lane, State.lane, State.lane, h]
  exact ⟨(congrArg LaneCtl.cache same :), (congrArg LaneCtl.activity same :), (congrArg LaneCtl.lastOp same :),
    (congrArg LaneCtl.prevFailed same :)⟩

/-- From `s` to `t` the blocks and the band table change alone, and event flags are set. A change of blocks and messages
is `⟨rfl, BitVec.or_self⟩`. -/
structure State.Inside (s t : State) : Prop where
  fixed : t.fixed = s.fixed
  events : s.window.events ||| t.window.events = t.window.events

namespace State.Inside

theorem refl (s : State) : s.Inside s := ⟨rfl, BitVec.or_self⟩

theorem trans {u : State} (h : s.Inside t) (g : t.Inside u) : s.Inside u :=
  ⟨g.fixed.trans h.fixed, by rw [← g.events, ← BitVec.or_assoc, h.events]⟩

/-- After a first change. -/
theorem after {u : State} (g : t.Inside u) (h : s.Inside t) : s.Inside u := h.trans g

theorem of_comes {k : ℤ} (h : s.Comes k t) : s.Inside t := ⟨h.fixed, h.events⟩

theorem of_runs {k : ℤ} (h : s.Runs k t) : s.Inside t := ⟨h.fixed, h.events⟩

/-- What comes about in a step stays inside the blocks and the band table. -/
theorem settle (h : s.Inside t) : s.Inside t.settle :=
  h.trans (t.settle_eq ▸ of_comes (.settleLoop t.fuel t))

theorem lanes (h : s.Inside t) : State.lanesKept s t := State.lanesKept_of_fixed (congrArg State.lanes h.fixed)

theorem memory (h : s.Inside t) : State.memoryKept s t := fun a =>
  (congrArg (fun u : State => Memory.readByte u.mem a) h.fixed :)

theorem array (h : s.Inside t) : State.arrayKept s t := fun l band row =>
  (congrArg (fun u : State => u.page l band row) h.fixed :)

theorem protect (h : s.Inside t) : State.protectKept s t := by
  have same {α : Type} (f : Protection → α) : f t.fixed.protect = f s.fixed.protect :=
    congrArg (fun u : State => f u.protect) h.fixed
  exact ⟨same (·.lockEnable), same (·.lockAll), same (·.range), same (·.tight), same (·.inhibit), same (·.fuses),
    same (·.working)⟩

theorem window (h : s.Inside t) : State.windowKept s t := by
  have same {α : Type} (f : Window → α) : f t.fixed.window = f s.fixed.window :=
    congrArg (fun u : State => f u.window) h.fixed
  refine ⟨fun i hi => ?_, same (·.enable), same (·.configAddress), same (·.errorAddress), same (·.refusal),
    same (·.refusalApply)⟩
  rw [← h.events, BitVec.getLsbD_or, hi, Bool.true_or]

theorem outside (h : s.Inside t) : State.outsideKept s t :=
  ⟨(congrArg State.supply h.fixed :), (congrArg State.resetHeld h.fixed :), (congrArg State.warnLine h.fixed :),
    (congrArg State.inhibitLine h.fixed :), (congrArg State.pending h.fixed :)⟩

theorem posts (h : s.Inside t) : State.postsKept s t :=
  ⟨(congrArg (·.sheets.queue) h.fixed :), (congrArg (·.modes.config) h.fixed :), (congrArg (·.modes.warning) h.fixed :)⟩

end State.Inside

/-! ## The messages and reactions of a step -/

/-- What comes about leaves the store's part of the table alone. -/
theorem State.Comes.store {k : ℤ} (h : s.Comes k t) : State.storeKept s t := by
  rw [State.storeKept, ← h.table]
  exact ⟨fun _ => rfl, rfl, rfl, rfl, rfl, rfl⟩

/-- Settles O3: one message or reaction after another, none of which leaves the blocks or touches the store. -/
theorem reactionsLeaveAlone : Obligations.ReactionsLeaveAlone := by
  intro n s
  have comes := State.Comes.settleLoop n s
  have inside := State.Inside.of_comes comes
  exact ⟨inside.lanes, inside.memory, inside.array, comes.store, inside.protect, inside.window, inside.outside,
    inside.posts, (congrArg State.queryAnswer inside.fixed :)⟩

namespace State

variable (s : State)

/-! ## Commands that change the blocks alone (R49, R50, R53, R57, R58, R72, R76, R157, R182) -/

theorem beginWriteRow_inside : s.Inside s.beginWriteRow := by
  unfold beginWriteRow
  split <;> exact ⟨rfl, BitVec.or_self⟩

theorem putWrite_inside (a : WriteAsm) : s.Inside (s.putWrite a) := by
  unfold putWrite
  dsimp only
  split <;> exact ⟨rfl, BitVec.or_self⟩

theorem coderTake_inside (a : WriteAsm) (w : Word) : s.Inside (s.coderTake a w) := by
  unfold coderTake
  dsimp only
  split
  · exact s.putWrite_inside _
  · exact ⟨rfl, BitVec.or_self⟩

theorem takeStagingWord_inside : s.Inside s.takeStagingWord := by
  unfold takeStagingWord
  split
  · split
    · exact (coderTake_inside ..).after ⟨rfl, BitVec.or_self⟩
    · exact .refl s
  · exact .refl s

/-- A page placed fills a port, which is not fixed. -/
theorem placeLoad_inside (h : Handing) (id : PageId) : s.Inside (s.placeLoad h id) := by
  refine ⟨?_, BitVec.or_self⟩
  unfold placeLoad
  cases h.lane <;> rfl

theorem handPage_inside : s.Inside s.handPage := by
  unfold handPage
  split
  · split
    · exact (s.placeLoad_inside ..).trans (putWrite_inside ..)
    · exact .refl s
  · split
    · exact (s.placeLoad_inside ..).trans (.of_runs (Runs.putCopy ..))
    · exact .refl s
  · exact .refl s

theorem beginReadRow_inside : s.Inside s.beginReadRow := by
  unfold beginReadRow
  split <;> exact ⟨rfl, BitVec.or_self⟩

theorem handRecordWord_inside : s.Inside s.handRecordWord := by
  unfold handRecordWord
  dsimp only
  split <;> exact ⟨rfl, BitVec.or_self⟩

theorem handRowWord_inside (r : ReadAsm) : s.Inside (s.handRowWord r) := by
  unfold handRowWord
  dsimp only
  split <;> exact ⟨rfl, BitVec.or_self⟩

theorem handNext_inside : s.Inside s.handNext := by
  unfold handNext
  split
  · split
    · exact s.handRecordWord_inside
    · split
      · exact s.handRowWord_inside _
      · exact .refl s
  · exact .refl s

theorem startEntryRead_inside : s.Inside s.startEntryRead := by
  unfold startEntryRead
  split <;> exact ⟨rfl, BitVec.or_self⟩

theorem answerRow_inside (a : RowAnswer) : s.Inside (s.answerRow a) := by
  rw [s.answerRow_eq]
  exact ⟨rfl, BitVec.or_self⟩

theorem rowGo_inside : s.Inside s.rowGo := by
  unfold rowGo
  split
  · split
    · exact s.answerRow_inside _
    · exact ⟨rfl, BitVec.or_self⟩
    · exact s.answerRow_inside _
    · exact s.answerRow_inside _
  · exact .refl s

theorem burstStarts_inside : s.Inside s.burstStarts := by
  unfold burstStarts
  split <;> exact ⟨rfl, BitVec.or_self⟩

theorem visitRow_inside (b n : Nat) : s.Inside (s.visitRow b n) := by
  unfold visitRow
  dsimp only
  exact (Inside.of_runs (Runs.giveAll ..)).after
    ((Inside.of_runs (Runs.claimCoder s .patrol)).trans ⟨rfl, BitVec.or_self⟩)

theorem patrolVisit_inside : s.Inside s.patrolVisit := by
  unfold patrolVisit
  split
  · split
    · split
      · exact ⟨rfl, BitVec.or_self⟩
      · split
        · exact s.visitRow_inside ..
        · exact ⟨rfl, BitVec.or_self⟩
    · exact .refl s
  · exact .refl s

/-! ## The commits (R35, R36) -/

theorem beginCommit_inside : s.Inside s.beginCommit := by
  unfold beginCommit
  split <;> exact ⟨rfl, BitVec.or_self⟩

theorem commitEnds_inside (pass : Bool) : s.Inside (s.commitEnds pass) := by
  unfold commitEnds
  split
  · cases pass
    · rw [endCommit_fail]
      exact ⟨rfl, (Runs.setEvent s .storeFault).events⟩
    · rw [endCommit_pass]
      exact ⟨rfl, BitVec.or_self⟩
  · exact .refl s

end State

end Sys2Proof.Machine
end

