-- ==== Sys2Proof/Proofs/BlockFrame.lean ====
section
/-! What the commands of coder, sheets, mover, store, window and patrol leave alone (95), and that a step runs the
command at the front of the queue (log 1). -/

namespace Sys2Proof.Machine

open Sys2Proof

/-! ## Outside the blocks -/

/-- A state with everything blanked that a block's command may change: what is left are the registers and operations of
the lanes, the array, the lines and the waiting commands. -/
def State.outer (s : State) : State :=
  { s.fixed with mem := [], protect := .reset, sheets := .reset, modes := .reset false, window := .reset }

/-- From `s` to `t` all outside the blocks stays, and host memory too when the bus is `quiet`. A change of blocks,
protection unit, window and messages is `⟨rfl, fun _ => rfl⟩`. -/
structure State.BlockFrame (quiet : Prop) (s t : State) : Prop where
  outer : t.outer = s.outer
  mem : quiet → t.mem = s.mem

namespace State.BlockFrame

variable {quiet : Prop} {s t : State}

theorem refl (s : State) : s.BlockFrame quiet s := ⟨rfl, fun _ => rfl⟩

theorem trans {u : State} (h : s.BlockFrame quiet t) (g : t.BlockFrame quiet u) : s.BlockFrame quiet u :=
  ⟨g.outer.trans h.outer, fun q => (g.mem q).trans (h.mem q)⟩

/-- After a first change. -/
theorem after {u : State} (g : t.BlockFrame quiet u) (h : s.BlockFrame quiet t) : s.BlockFrame quiet u := h.trans g

theorem mono {still : Prop} (h : s.BlockFrame quiet t) (hq : still → quiet) : s.BlockFrame still t :=
  ⟨h.outer, h.mem ∘ hq⟩

/-- What stays inside the blocks leaves all outside, host memory with it. -/
theorem of_inside (h : s.Inside t) : s.BlockFrame quiet t where
  outer := congrArg (fun u : State =>
    { u with mem := [], protect := .reset, sheets := .reset, modes := .reset false, window := .reset }) h.fixed
  mem _ := (congrArg State.mem h.fixed :)

theorem of_runs {k : ℤ} (h : s.Runs k t) : s.BlockFrame quiet t := of_inside (.of_runs h)

theorem settle (h : s.BlockFrame quiet t) : s.BlockFrame quiet t.settle := h.trans (of_inside (.settle (.refl t)))

theorem lanes (h : s.BlockFrame quiet t) : State.lanesKept s t :=
  State.lanesKept_of_fixed (congrArg State.lanes h.outer :)

theorem array (h : s.BlockFrame quiet t) : State.arrayKept s t := fun l band row =>
  (congrArg (fun u : State => u.page l band row) h.outer :)

theorem outside (h : s.BlockFrame quiet t) : State.outsideKept s t :=
  ⟨(congrArg State.supply h.outer :), (congrArg State.resetHeld h.outer :), (congrArg State.warnLine h.outer :),
    (congrArg State.inhibitLine h.outer :), (congrArg State.pending h.outer :)⟩

theorem memory (h : s.BlockFrame quiet t) (hq : quiet) : State.memoryKept s t := fun a =>
  congrArg (Memory.readByte · a) (h.mem hq)

end State.BlockFrame

/-- The store stays through the reactions when the command leaves the table alone. -/
theorem State.storeKept_settle {s t : State} (h : t.table = s.table) : State.storeKept s t.settle := by
  rw [State.storeKept, ← h]
  exact ⟨fun _ => rfl, rfl, rfl, rfl, rfl, rfl⟩

/-- The window's registers stay through the reactions, and its flags are not cleared. -/
theorem State.windowKept_settle {s t : State} (h : State.windowKept s t) : State.windowKept s t.settle := by
  obtain ⟨flags, registers⟩ := h
  exact ⟨fun i set => t.settle_events i (flags i set), registers⟩

/-- Locks and fuses stay through the reactions when the command leaves the protection unit alone. -/
theorem State.protectKept_settle {s t : State} (h : t.protect = s.protect) : State.protectKept s t.settle := by
  rw [State.protectKept, ← h]
  exact ⟨rfl, rfl, rfl, rfl, rfl, rfl, rfl⟩

namespace State

variable (s : State) {quiet : Prop}

open BlockFrame

/-! ## The bus (chapter 8) -/

/-- A read leaves host memory alone when the host stores nothing. -/
theorem busRead_blockFrame (reply : BusReply) (a n : Nat) :
    s.BlockFrame (reply.stores = []) (s.busRead reply a n).1 := by
  unfold busRead
  dsimp only
  split <;> exact ⟨rfl, fun hst => hostStores_none hst s.mem⟩

/-- A write may change host memory. -/
theorem busWrite_blockFrame (reply : BusReply) (ws : List (Nat × Word)) :
    s.BlockFrame False (s.busWrite reply ws).1 := by
  unfold busWrite
  dsimp only
  split <;> exact ⟨rfl, False.elim⟩

variable {s} in
/-- The state in which a single-beat read ends. -/
theorem frame_of_beatRead {t : State} {reply : BusReply} {a : Nat} {w : Option Word}
    (h : s.beatRead reply a = (t, w)) : s.BlockFrame (reply.stores = []) t := by
  have ht : (s.busRead reply a 1).1 = t := congrArg Prod.fst h
  exact ht ▸ s.busRead_blockFrame reply a 1

variable {s} in
/-- The state in which a write burst ends. -/
theorem frame_of_busWrite {t : State} {reply : BusReply} {ws : List (Nat × Word)} {ok : Bool}
    (h : s.busWrite reply ws = (t, ok)) : s.BlockFrame False t := by
  have ht : (s.busWrite reply ws).1 = t := congrArg Prod.fst h
  exact ht ▸ s.busWrite_blockFrame reply ws

theorem freePort_frame : s.BlockFrame quiet s.freePort := ⟨rfl, fun _ => rfl⟩

theorem endBeat_frame : s.BlockFrame quiet s.endBeat := ⟨rfl, fun _ => rfl⟩

theorem emitUnits_frame (n : Nat) : s.BlockFrame quiet (s.emitUnits n) := by
  induction n generalizing s with
  | zero => exact .refl s
  | succ n ih => exact (ih _).after ⟨rfl, fun _ => rfl⟩

theorem endDescriptor_frame (a : Nat) (got : List Word) (ws : Option (List Word)) :
    s.BlockFrame quiet (s.endDescriptor a got ws) := by
  unfold endDescriptor
  split
  · exact ⟨rfl, fun _ => rfl⟩
  · split
    · dsimp only
      split <;> exact ⟨rfl, fun _ => rfl⟩
    · exact ⟨rfl, fun _ => rfl⟩

theorem descriptorEnds_frame (reply : BusReply) : s.BlockFrame (reply.stores = []) (s.descriptorEnds reply) := by
  unfold descriptorEnds
  split
  · exact s.freePort_frame.trans ((busRead_blockFrame ..).trans (endDescriptor_frame ..))
  · exact .refl s

theorem endReadBurst_frame (ws : Option (List Word)) : s.BlockFrame quiet (s.endReadBurst ws) := by
  unfold endReadBurst
  dsimp only
  split
  · exact ⟨rfl, fun _ => rfl⟩
  · split
    · exact ⟨rfl, fun _ => rfl⟩
    · split <;> exact ⟨rfl, fun _ => rfl⟩

theorem endWriteBurst_frame (n : Nat) (ok : Bool) : s.BlockFrame quiet (s.endWriteBurst n ok) := by
  unfold endWriteBurst
  dsimp only
  split
  · exact (emitUnits_frame _ _).after ⟨rfl, fun _ => rfl⟩
  · exact ⟨rfl, fun _ => rfl⟩

theorem burstEnds_frame (reply : BusReply) : s.BlockFrame False (s.burstEnds reply) := by
  unfold burstEnds
  split
  · exact s.freePort_frame.trans (((busRead_blockFrame ..).mono False.elim).trans (endReadBurst_frame ..))
  · exact s.freePort_frame.trans ((busWrite_blockFrame ..).trans (endWriteBurst_frame ..))
  · exact .refl s

/-! ## Orders at their start (chapters 2, 5, 6 and 7) -/

theorem claimCoder_frame (o : CoderOwner) : s.BlockFrame quiet (s.claimCoder o) := of_runs (Runs.claimCoder s o)

theorem startMover_frame (owner : MoverOwner) (dir : Direction) (head permit unit : Nat) (fill : Option Byte) :
    s.BlockFrame quiet (s.startMover owner dir head permit unit fill) := ⟨rfl, fun _ => rfl⟩

theorem startWrite_frame (o : Order) : s.BlockFrame quiet (s.startWrite o) := by
  unfold startWrite
  split
  · exact ⟨rfl, fun _ => rfl⟩
  · exact (startMover_frame ..).after ((claimCoder_frame _ _).after ⟨rfl, fun _ => rfl⟩)

theorem startRead_frame (o : Order) : s.BlockFrame quiet (s.startRead o) := by
  unfold startRead
  split
  · exact ⟨rfl, fun _ => rfl⟩
  · exact (startMover_frame ..).after ((claimCoder_frame _ _).after ⟨rfl, fun _ => rfl⟩)

theorem startCopy_frame (o : Order) : s.BlockFrame quiet (s.startCopy o) := by
  unfold startCopy
  split
  · exact ⟨rfl, fun _ => rfl⟩
  · split_ifs
    · exact (claimCoder_frame _ _).after ⟨rfl, fun _ => rfl⟩
    · exact ⟨rfl, fun _ => rfl⟩
    · exact ⟨rfl, fun _ => rfl⟩

theorem eraseBegin_frame : s.BlockFrame quiet s.eraseBegin := by
  obtain ⟨v, ms, h⟩ := s.eraseBegin_eq
  rw [h]
  exact ⟨rfl, fun _ => rfl⟩

theorem startErase_frame (o : Order) : s.BlockFrame quiet (s.startErase o) := by
  unfold startErase
  split
  · exact ⟨rfl, fun _ => rfl⟩
  · dsimp only
    split
    · exact (eraseBegin_frame _).after ⟨rfl, fun _ => rfl⟩
    · exact ⟨rfl, fun _ => rfl⟩

theorem startSeal_frame (o : Order) : s.BlockFrame quiet (s.startSeal o) := by
  unfold startSeal
  split <;> exact ⟨rfl, fun _ => rfl⟩

theorem startQuery_frame (o : Order) : s.BlockFrame quiet (s.startQuery o) := by
  unfold startQuery
  split <;> exact ⟨rfl, fun _ => rfl⟩

theorem lockOrder_frame (r : Protection × OrderStatus) : s.BlockFrame quiet (s.lockOrder r) := ⟨rfl, fun _ => rfl⟩

theorem startFreeze_frame (o : Order) : s.BlockFrame quiet (s.startFreeze o) := by
  unfold startFreeze
  split
  · exact ⟨rfl, fun _ => rfl⟩
  · dsimp only
    split <;> exact ⟨rfl, fun _ => rfl⟩

/-- No path reaches outside the blocks when it takes an order. -/
theorem handOrder_frame (o : Order) : s.BlockFrame quiet (s.handOrder o) := by
  unfold handOrder
  split
  case h_1 => exact s.startWrite_frame o
  case h_2 => exact s.startRead_frame o
  case h_3 => exact s.startCopy_frame o
  case h_4 => exact s.startErase_frame o
  case h_5 => exact s.startSeal_frame o
  case h_6 => exact s.startQuery_frame o
  case h_10 => exact s.startFreeze_frame o
  all_goals exact s.lockOrder_frame _

/-! ## Sheets (chapter 4) -/

theorem sheetFault_frame : s.BlockFrame quiet s.sheetFault := ⟨rfl, fun _ => rfl⟩

theorem setAccess_frame (a : Option SheetAccess) : s.BlockFrame quiet (s.setAccess a) := ⟨rfl, fun _ => rfl⟩

/-- An activation changes the sheet processor alone. -/
theorem activate_eq : ∃ h : Sheets, s.activate = { s with sheets := h } := by
  unfold activate
  split
  · split
    · exact ⟨_, rfl⟩
    · exact ⟨s.sheets, rfl⟩
  · exact ⟨s.sheets, rfl⟩

theorem activate_frame : s.BlockFrame quiet s.activate := by
  obtain ⟨h, hs⟩ := s.activate_eq
  rw [hs]
  exact ⟨rfl, fun _ => rfl⟩

theorem activate_windowKept : State.windowKept s s.activate := by
  obtain ⟨h, hs⟩ := s.activate_eq
  rw [hs]
  exact ⟨fun _ set => set, rfl, rfl, rfl, rfl, rfl⟩

theorem endHeaderRead_frame (reply : BusReply) : s.BlockFrame (reply.stores = []) (s.endHeaderRead reply) := by
  unfold endHeaderRead
  split
  · split
    · next hr => exact (frame_of_beatRead hr).trans (sheetFault_frame _)
    · next hr => split <;> exact (frame_of_beatRead hr).trans ⟨rfl, fun _ => rfl⟩
  · exact .refl s

theorem takeEntry_frame (i : Nat) (ws : List Word) : s.BlockFrame quiet (s.takeEntry i ws) := by
  unfold takeEntry
  dsimp only
  split
  · exact s.setAccess_frame none
  · split
    · exact ⟨rfl, fun _ => rfl⟩
    · exact (handOrder_frame _ _).after ⟨rfl, fun _ => rfl⟩

theorem endEntryRead_frame (reply : BusReply) : s.BlockFrame (reply.stores = []) (s.endEntryRead reply) := by
  unfold endEntryRead
  split
  · split
    · next hr => exact (frame_of_beatRead hr).trans (sheetFault_frame _)
    · next hr =>
        split
        · exact (frame_of_beatRead hr).trans (setAccess_frame ..)
        · exact (frame_of_beatRead hr).trans (takeEntry_frame ..)
  · exact .refl s

theorem endResultWrite_frame (reply : BusReply) : s.BlockFrame False (s.endResultWrite reply) := by
  unfold endResultWrite
  split
  · split
    · next hr => split <;> exact (frame_of_busWrite hr).trans ⟨rfl, fun _ => rfl⟩
    · next hr => exact (frame_of_busWrite hr).trans (sheetFault_frame _)
  · exact .refl s

theorem endCompletionWrite_frame (reply : BusReply) : s.BlockFrame False (s.endCompletionWrite reply) := by
  unfold endCompletionWrite
  split
  · split
    · next hr =>
        dsimp only
        split <;> exact (frame_of_busWrite hr).trans ⟨rfl, fun _ => rfl⟩
    · next hr => exact (frame_of_busWrite hr).trans (sheetFault_frame _)
  · exact .refl s

/-- A sheet access that ends lies in the frame when its own effect does. -/
theorem accessEnds_frame (k : AccessKind) {f : State → State} (hf : ∀ t : State, t.BlockFrame quiet (f t)) :
    s.BlockFrame quiet (s.accessEnds k f) := by
  unfold accessEnds
  split
  · exact s.endBeat_frame.trans (hf _)
  · exact .refl s

theorem answerHeld_frame (a : RowAnswer) : s.BlockFrame quiet (s.answerHeld a) := by
  rw [s.answerHeld_eq]
  exact ⟨rfl, fun _ => rfl⟩

theorem hold_frame : s.BlockFrame quiet s.hold := by
  unfold hold
  split <;> exact ⟨rfl, fun _ => rfl⟩

theorem resume_frame : s.BlockFrame quiet s.resume := by
  unfold resume
  dsimp only
  split
  · exact (answerHeld_frame _ _).after ⟨rfl, fun _ => rfl⟩
  · exact (answerHeld_frame _ _).after ⟨rfl, fun _ => rfl⟩
  all_goals exact ⟨rfl, fun _ => rfl⟩

theorem abort_frame : s.BlockFrame quiet s.abort := by
  unfold abort
  split
  · split
    · exact (answerHeld_frame _ _).after ⟨rfl, fun _ => rfl⟩
    · exact (answerHeld_frame _ _).after ⟨rfl, fun _ => rfl⟩
    all_goals exact ⟨rfl, fun _ => rfl⟩
  · exact ⟨rfl, fun _ => rfl⟩

/-! ## Modes and patrol (chapters 9 and 10) -/

theorem enterDrain_frame : s.BlockFrame quiet s.enterDrain := (answerHeld_frame _ _).after ⟨rfl, fun _ => rfl⟩

theorem wakeUp_frame : s.BlockFrame quiet s.wakeUp := by
  obtain ⟨m, p, ms, h⟩ := s.wakeUp_eq
  rw [h]
  exact ⟨rfl, fun _ => rfl⟩

theorem post_frame (a : Word) : s.BlockFrame quiet (s.post a) := by
  unfold post
  split
  · exact ⟨rfl, fun _ => rfl⟩
  · exact (wakeUp_frame _).after ⟨rfl, fun _ => rfl⟩

theorem apply_frame : s.BlockFrame quiet s.apply := by
  unfold apply
  dsimp only
  split_ifs <;> exact ⟨rfl, fun _ => rfl⟩

theorem powerDownAll_frame : s.BlockFrame quiet s.powerDownAll := of_runs (Runs.giveAll ..)

theorem startTimer_frame : s.BlockFrame quiet s.startTimer := ⟨rfl, fun _ => rfl⟩

/-- The lanes are given POWER DOWN, which waits at their ports. -/
theorem standby_frame : s.BlockFrame quiet s.standby := by
  unfold standby
  split
  · exact (startTimer_frame _).after ((powerDownAll_frame _).after ⟨rfl, fun _ => rfl⟩)
  · exact ⟨rfl, fun _ => rfl⟩

theorem wake_frame : s.BlockFrame quiet s.wake := by
  unfold wake
  split
  · unfold startWake
    split <;> exact ⟨rfl, fun _ => rfl⟩
  · unfold patrolWakeUp
    split <;> exact ⟨rfl, fun _ => rfl⟩
  all_goals exact ⟨rfl, fun _ => rfl⟩

theorem reportClear_frame : s.BlockFrame quiet s.reportClear := ⟨rfl, fun _ => rfl⟩

theorem second_frame : s.BlockFrame quiet s.second := by
  unfold second
  split
  · split_ifs <;> exact ⟨rfl, fun _ => rfl⟩
  · exact .refl s

theorem timerExpiry_frame : s.BlockFrame quiet s.timerExpiry := by
  unfold timerExpiry
  split
  · split
    · exact .refl s
    · exact s.second_frame
  · exact .refl s

theorem configure_frame (c : Applied) : s.BlockFrame quiet (s.configure c) := by
  unfold configure
  dsimp only
  split_ifs
  · exact (enterDrain_frame _).after ⟨rfl, fun _ => rfl⟩
  all_goals exact ⟨rfl, fun _ => rfl⟩

theorem takeConfig_frame (m : Mode) (ws : List Word) : s.BlockFrame quiet (s.takeConfig m ws) := by
  unfold takeConfig
  dsimp only
  split
  · exact ⟨rfl, fun _ => rfl⟩
  · split
    · exact (configure_frame _ _).after ⟨rfl, fun _ => rfl⟩
    · exact ⟨rfl, fun _ => rfl⟩

theorem endConfigRead_frame (reply : BusReply) : s.BlockFrame (reply.stores = []) (s.endConfigRead reply) := by
  unfold endConfigRead
  split
  · exact .refl s
  · split
    · next hr => exact (frame_of_beatRead hr).trans ⟨rfl, fun _ => rfl⟩
    · next hr =>
        split
        · exact (frame_of_beatRead hr).trans ⟨rfl, fun _ => rfl⟩
        · exact (frame_of_beatRead hr).trans (takeConfig_frame ..)

theorem configEnds_frame (reply : BusReply) : s.BlockFrame (reply.stores = []) (s.configEnds reply) := by
  unfold configEnds
  split
  · exact s.endBeat_frame.trans (endConfigRead_frame ..)
  · exact .refl s

theorem givenUp_frame : s.BlockFrame quiet s.givenUp := ⟨rfl, fun _ => rfl⟩

theorem reportFailed_frame (w : ReportWrite) : s.BlockFrame quiet (s.reportFailed w) := by
  rw [s.reportFailed_eq]
  split
  · exact s.givenUp_frame.trans (of_runs (Runs.dropFinding _))
  · exact s.givenUp_frame

theorem reportEnds_frame (reply : BusReply) : s.BlockFrame False (s.reportEnds reply) := by
  unfold reportEnds endReportWrite
  split
  · split
    · exact s.freePort_frame
    · dsimp only
      split
      · next hr => exact s.freePort_frame.trans ((frame_of_busWrite hr).trans ⟨rfl, fun _ => rfl⟩)
      · next hr => exact s.freePort_frame.trans ((frame_of_busWrite hr).trans (reportFailed_frame ..))
  · exact .refl s

end State

/-! ## The commands by their groups -/

section Groups

variable {c : Instr} {s t : State}

/-- A command of coder, mover, sheets or patrol that makes no bus access stays inside the blocks. -/
theorem exec_inside
    (hc : c ∈ [Instr.beginWriteRow, .stagingWordTaken, .pageHanded, .beginReadRow, .wordHanded, .orderStart, .rowGo,
      .burstStart, .patrolVisit]) (s : State) :
    ∃ f : State → State, exec c s = s.takes f ∧ s.Inside (f s) ∧ (f s).table = s.table := by
  simp only [List.mem_cons, List.not_mem_nil, or_false] at hc
  obtain rfl | rfl | rfl | rfl | rfl | rfl | rfl | rfl | rfl := hc
  · exact ⟨_, rfl, s.beginWriteRow_inside, s.beginWriteRow_table⟩
  · exact ⟨_, rfl, s.takeStagingWord_inside, s.takeStagingWord_table⟩
  · exact ⟨_, rfl, s.handPage_inside, s.handPage_table⟩
  · exact ⟨_, rfl, s.beginReadRow_inside, s.beginReadRow_table⟩
  · exact ⟨_, rfl, s.handNext_inside, s.handNext_table⟩
  · exact ⟨_, rfl, s.startEntryRead_inside, s.startEntryRead_table⟩
  · exact ⟨_, rfl, s.rowGo_inside, s.rowGo_table⟩
  · exact ⟨_, rfl, s.burstStarts_inside, s.burstStarts_table⟩
  · exact ⟨_, rfl, s.patrolVisit_inside, s.patrolVisit_table⟩

/-- The end of a bus read by the sheet processor, the mover or the mode controller: an order taken at the last entry
read may be a lock order. -/
theorem exec_busRead {r : BusReply}
    (hc : c ∈ [Instr.headerReadEnd r, .entryReadEnd r, .descriptorReadEnd r, .configReadEnd r]) (s : State) :
    ∃ f : State → State, exec c s = s.takes f ∧ s.BlockFrame (r.stores = []) (f s) ∧ (f s).table = s.table ∧
      (c ≠ .entryReadEnd r → (f s).protect = s.protect) := by
  simp only [List.mem_cons, List.not_mem_nil, or_false] at hc
  obtain rfl | rfl | rfl | rfl := hc
  · exact ⟨_, rfl, s.accessEnds_frame .header (·.endHeaderRead_frame r),
      s.accessEnds_table .header (·.endHeaderRead_table r),
      fun _ => s.accessEnds_protect .header (·.endHeaderRead_protect r)⟩
  · exact ⟨_, rfl, s.accessEnds_frame .entry (·.endEntryRead_frame r),
      s.accessEnds_table .entry (·.endEntryRead_table r), fun other => absurd rfl other⟩
  · exact ⟨_, rfl, s.descriptorEnds_frame r, s.descriptorEnds_table r, fun _ => s.descriptorEnds_protect r⟩
  · exact ⟨_, rfl, s.configEnds_frame r, s.configEnds_table r, fun _ => s.configEnds_protect r⟩

/-- The end of a bus access that may write. -/
theorem exec_busWrite {r : BusReply}
    (hc : c ∈ [Instr.resultWriteEnd r, .completionWriteEnd r, .burstEnd r, .reportWriteEnd r]) (s : State) :
    ∃ f : State → State, exec c s = s.takes f ∧ s.BlockFrame False (f s) ∧ (f s).table = s.table ∧
      (f s).protect = s.protect := by
  simp only [List.mem_cons, List.not_mem_nil, or_false] at hc
  obtain rfl | rfl | rfl | rfl := hc
  · exact ⟨_, rfl, s.accessEnds_frame .result (·.endResultWrite_frame r),
      s.accessEnds_table .result (·.endResultWrite_table r), s.accessEnds_protect .result (·.endResultWrite_protect r)⟩
  · exact ⟨_, rfl, s.accessEnds_frame .completion (·.endCompletionWrite_frame r),
      s.accessEnds_table .completion (·.endCompletionWrite_table r),
      s.accessEnds_protect .completion (·.endCompletionWrite_protect r)⟩
  · exact ⟨_, rfl, s.burstEnds_frame r, s.burstEnds_table r, s.burstEnds_protect r⟩
  · exact ⟨_, rfl, s.reportEnds_frame r, s.reportEnds_table r, s.reportEnds_protect r⟩

/-- A command of the register window, or the expiry of the patrol timer. -/
theorem exec_windowCommand
    (hc : c ∈ [Instr.apply, .hold, .resume, .abort, .standby, .wake, .reportClear, .patrolTimerExpiry] ∨
      ∃ a, c = .post a) (s : State) :
    ∃ f : State → State, exec c s = s.takes f ∧ s.BlockFrame True (f s) ∧ (f s).table = s.table ∧
      (f s).protect = s.protect := by
  simp only [List.mem_cons, List.not_mem_nil, or_false] at hc
  obtain (rfl | rfl | rfl | rfl | rfl | rfl | rfl | rfl) | ⟨a, rfl⟩ := hc
  · exact ⟨_, rfl, s.apply_frame, s.apply_table, s.apply_protect⟩
  · exact ⟨_, rfl, s.hold_frame, s.hold_table, s.hold_protect⟩
  · exact ⟨_, rfl, s.resume_frame, s.resume_table, s.resume_protect⟩
  · exact ⟨_, rfl, s.abort_frame, s.abort_table, s.abort_protect⟩
  · exact ⟨_, rfl, s.standby_frame, s.standby_table, s.standby_protect⟩
  · exact ⟨_, rfl, s.wake_frame, s.wake_table, s.wake_protect⟩
  · exact ⟨_, rfl, s.reportClear_frame, s.reportClear_table, rfl⟩
  · exact ⟨_, rfl, s.timerExpiry_frame, s.timerExpiry_table, s.timerExpiry_protect⟩
  · exact ⟨_, rfl, s.post_frame a, s.post_table a, s.post_protect a⟩

/-- The start or the end of a commit changes the table alone, and events may be set and notices told. -/
theorem exec_commit (hc : c = .commitStart ∨ ∃ pass, c = .commitEnd pass) (s : State) :
    ∃ f : State → State, exec c s = s.takes f ∧ s.Inside (f s) := by
  obtain rfl | ⟨pass, rfl⟩ := hc
  · exact ⟨_, rfl, s.beginCommit_inside⟩
  · exact ⟨_, rfl, s.commitEnds_inside pass⟩

/-- The state in which a command ends that a live part takes. -/
theorem eq_settle_of_takes {f : State → State} (hs : s.live = true) (hf : exec c s = s.takes f)
    (h : exec c s = .next t) : t = (f s).settle := by
  rw [hf, s.takes_live f hs] at h
  cases h
  rfl

end Groups

/-! ## The statements -/

/-- Settles O5: each group by the frame of its commands, and by what they leave of table and protection unit. -/
theorem blockCommandFrame : Obligations.BlockCommandFrame := by
  refine fun c s t hs h => ⟨fun hc => ?blocks, fun r hc => ?bus, fun hc => ?window, fun hc => ?commit⟩
  case blocks =>
    by_cases active : c = .sheetActivation
    · subst active
      obtain rfl := eq_settle_of_takes hs rfl h
      have frame := (s.activate_frame (quiet := True)).settle
      exact ⟨frame.lanes, frame.memory trivial, frame.array, State.storeKept_settle s.activate_table,
        State.protectKept_settle s.activate_protect,
        State.windowKept_settle s.activate_windowKept, frame.outside, fun other => absurd rfl other⟩
    · obtain ⟨f, hf, inside, table⟩ := exec_inside (by simpa [active] using hc) s
      obtain rfl := eq_settle_of_takes hs hf h
      have kept := inside.settle
      exact ⟨kept.lanes, kept.memory, kept.array, State.storeKept_settle table, kept.protect, kept.window, kept.outside,
        fun _ => kept.posts⟩
  case bus =>
    by_cases reads : c ∈ [Instr.headerReadEnd r, .entryReadEnd r, .descriptorReadEnd r, .configReadEnd r]
    · obtain ⟨f, hf, frame, table, protect⟩ := exec_busRead reads s
      obtain rfl := eq_settle_of_takes hs hf h
      exact ⟨frame.settle.lanes, frame.settle.array, State.storeKept_settle table, frame.settle.outside,
        fun other => State.protectKept_settle (protect other), fun _ => frame.settle.memory⟩
    · have writes : c ∈ [Instr.resultWriteEnd r, .completionWriteEnd r, .burstEnd r, .reportWriteEnd r] := by
        simp only [List.mem_cons, List.not_mem_nil, or_false] at hc reads ⊢
        tauto
      obtain ⟨f, hf, frame, table, protect⟩ := exec_busWrite writes s
      obtain rfl := eq_settle_of_takes hs hf h
      exact ⟨frame.settle.lanes, frame.settle.array, State.storeKept_settle table, frame.settle.outside,
        fun _ => State.protectKept_settle protect, fun read => absurd read reads⟩
  case window =>
    obtain ⟨f, hf, frame, table, protect⟩ := exec_windowCommand hc s
    obtain rfl := eq_settle_of_takes hs hf h
    exact ⟨frame.settle.lanes, frame.settle.memory trivial, frame.settle.array, State.storeKept_settle table,
      State.protectKept_settle protect, frame.settle.outside⟩
  case commit =>
    obtain ⟨f, hf, inside⟩ := exec_commit hc s
    obtain rfl := eq_settle_of_takes hs hf h
    have kept := inside.settle
    exact ⟨kept.lanes, kept.memory, kept.array, kept.protect, kept.outside, kept.posts⟩

/-- Settles O1: the front command leaves the queue and is run, and each command's meaning is a next state. -/
theorem stepRunsFrontCommand : Obligations.StepRunsFrontCommand := by
  refine ⟨fun c s rest => rfl, fun c s => ?_⟩
  cases c <;> exact ⟨_, rfl⟩

end Sys2Proof.Machine
end
